-- ==== Sys2Proof/Word.lean ====
section
/-!
DEFINITION. The plainest types of the model: a byte, and sparse tables in one canonical form.

A sparse table is a list of (key, value) pairs with strictly rising keys; a key that is not listed
holds the table's default, and no listed value equals that default. Memories are sparse tables of
bytes whose default is 0x00.
-/
namespace Sys2Proof

/-- Eight bits (R7, R9: memories are byte addressed and little-endian). -/
abbrev Byte := BitVec 8

/-- A sparse table keyed by a number. -/
abbrev Tbl (α : Type) := List (Nat × α)

/-- A sparse byte memory (the same type as a list of `Host.Cell`). -/
abbrev Mem := List (Nat × Byte)

end Sys2Proof
end

