-- ==== Sys2Proof/Syntax.lean ====
section
/-!
DEFINITION. The commands of the block: one constructor of `Instr` per row of spec/opcode_table.json,
with the operand records the rows carry. Unit indices are bounded by their type; encoded fields of a
tile instruction word are numbers whose limits WellFormed.lean states.
-/
namespace Sys2Proof

/-! ## Tile instruction operands (R272 to R294) -/

/-- The common header of an instruction word (R272), without opcode and fn. -/
structure Hdr where
  /-- 1: add 1 to semaphore `sem` on completion. -/
  sig : Bool := false
  sem : Nat := 0
  /-- 0 always, 1 skip on x2 = EXHAUSTED, 2 skip on x3 = EXHAUSTED. -/
  pred : Nat := 0
  fence : Bool := false
deriving DecidableEq, Repr

/-- DMA with fn 0 to 4 (R278). For TT, `dev` is the destination taddr. -/
structure DmaOp where
  ch : Nat := 0
  rsig : Bool := false
  rsem : Nat := 0
  dtile : Nat := 0
  taddr : Nat := 0
  dev : Nat := 0
  len : Nat := 0
  xsel : Nat := 0
  stride : Nat := 0
  afmt : Nat := 0
deriving DecidableEq, Repr

/-- DMA SEND (R280). -/
structure SendOp where
  peer : Nat := 0
  window : Nat := 0
  woff : Nat := 0
  src : Nat := 0
  len : Nat := 0
  nm : Bool := false
  tsrc : Bool := false
deriving DecidableEq, Repr

/-- CPASS and TPASS (R282). -/
structure PassOp where
  grp : Nat := 0
  page : Nat := 0
  a4 : Bool := false
  pat : Nat := 0
  desc : Nat := 0
  tile : Nat := 0
  ovw : Bool := false
  gid : Nat := 0
  row0 : Nat := 0
  h : Nat := 0
  eref : Nat := 0
  eidx : Nat := 0
deriving DecidableEq, Repr

/-- PGWR (R284). -/
structure PgwrOp where
  grp : Nat := 0
  page : Nat := 0
  w4 : Bool := false
  centred : Bool := false
  keepExp : Bool := false
  img : Nat := 0
  istep : Nat := 16
  exp : Nat := 0x3FFF
  estep : Nat := 0
deriving DecidableEq, Repr

/-- PGRD (R284). -/
structure PgrdOp where
  grp : Nat := 0
  page : Nat := 0
  img : Nat := 0
  istep : Nat := 17
deriving DecidableEq, Repr

/-- UPD (R285). -/
structure UpdOp where
  grp : Nat := 0
  pmask : Nat := 1
  tied : Bool := false
  clearGrad : Bool := false
  udesc : Nat := 0
  hyp : Nat := 0
deriving DecidableEq, Repr

/-- ACMRD and ACMWR (R286). -/
structure AcmOp where
  tile : Nat := 0
  widen : Bool := false
  img : Nat := 0
deriving DecidableEq, Repr

/-- DRAIN (R287). -/
structure DrainOp where
  tile : Nat := 0
  row0 : Nat := 0
  h : Nat := 0
  c8 : Nat := 0
  w8 : Nat := 0
  ofmt : Nat := 0
  rnd : Bool := false
  rowmax : Bool := false
  rowsum : Bool := false
  rowsumexp : Bool := false
  topk : Bool := false
  merge : Bool := false
  k : Nat := 0
  dst : Nat := 0
  desc : Nat := 0
  cs : Nat := 0
  recd : Nat := 0x3FFF
  ib : Nat := 0
deriving DecidableEq, Repr

/-- QSTAT and QCONV (R289). -/
structure QuantOp where
  sym : Bool := false
  rnd : Bool := false
  bcast : Bool := false
  ifmt : Nat := 0
  a4 : Bool := false
  src : Nat := 0
  dst : Nat := 0
  recd : Nat := 0
  desc : Nat := 0
  dnext : Nat := 0x3FFF
  strip : Nat := 0x3FFF
  n32 : Nat := 0
  r : Nat := 0
  ol : Nat := 15
deriving DecidableEq, Repr

/-- XMOV COPY (R294). -/
structure CopyOp where
  pat : Nat := 0
  dst : Nat := 0
deriving DecidableEq, Repr

/-- The operations of the vector engine (R291). -/
inductive Vop where
  | add | sub | mul | fma | min | max | abs | neg | cvt
  | twosum | cpadd | exp | log | rcp | rsqrt
  | rsum | rmax | rmin | rmaxabs | rcsum | csum | cmax
  | emax8 | emin8 | iadd | deq | imgadd | outl
deriving DecidableEq, Repr

/-- VOP (R290), without the operation code. -/
structure VopOp where
  afmt : Nat := 0
  ofmt : Nat := 0
  bmode : Nat := 0
  cmode : Nat := 0
  a : Nat := 0
  b : Nat := 0
  c : Nat := 0
  d : Nat := 0
  w : Nat := 0
  h : Nat := 0
  tile : Nat := 0
  gid : Nat := 0
  o : Nat := 0
deriving DecidableEq, Repr

/-- SPMAC in SW mode, forward or transposed (R292). -/
structure SwOp where
  tile : Nat := 0
  ovw : Bool := false
  gid : Nat := 0
  h : Nat := 0
  a4 : Bool := false
  act : Nat := 0
  desc : Nat := 0
  eref : Nat := 0
  eidx : Nat := 0
  tensor : Nat := 0
  cb : Nat := 0
  k0 : Nat := 0
  nw : Nat := 0
deriving DecidableEq, Repr

/-- SPMAC in SA mode (R292). -/
structure SaOp where
  tile : Nat := 0
  ovw : Bool := false
  gid : Nat := 0
  h : Nat := 0
  a4 : Bool := false
  act : Nat := 0
  desc : Nat := 0
  eref : Nat := 0
  eidx : Nat := 0
  wop : Nat := 0
  k32 : Nat := 0
deriving DecidableEq, Repr

/-- PRUNE SELECT and KEEP (R293). -/
structure PruneOp where
  tied : Bool := false
  table : Bool := false
  bf16 : Bool := false
  tensor : Nat := 0
  cb : Nat := 0
  k0 : Nat := 0
  nw : Nat := 0
  src : Nat := 0
  aux : Nat := 0
  eref : Nat := 0
  eidx : Nat := 0
  treft : Nat := 0
deriving DecidableEq, Repr

/-- PRUNE LOAD and READ (R293). The table operands only claim their granules in a LOAD (R307): tables are
written by SELECT and KEEP alone (R227). -/
structure StoreOp where
  tied : Bool := false
  table : Bool := false
  tensor : Nat := 0
  blk : Nat := 0
  nb : Nat := 0
  src : Nat := 0
  aux : Nat := 0
  eref : Nat := 0
  eidx : Nat := 0
  treft : Nat := 0
deriving DecidableEq, Repr

/-- One decoded tile instruction word without its header: what the issue unit issues (R273). -/
inductive TileInstr where
  | nop (delay : Nat)
  | beat (fn : Nat) (target : Nat)
  | sema (fn : Nat) (s n : Nat)
  | hint (fn : Nat) (phase : Nat)
  | wcnt (fn : Nat) (counter inc : Nat) (dst3 : Bool)
  | dma (fn : Nat) (o : DmaOp)
  | send (o : SendOp)
  | cpass (o : PassOp)
  | tpass (o : PassOp)
  | pgwr (o : PgwrOp)
  | pgrd (o : PgrdOp)
  | upd (o : UpdOp)
  | acmrd (o : AcmOp)
  | acmwr (o : AcmOp)
  | drain (o : DrainOp)
  | qstat (o : QuantOp)
  | qconv (carried : Bool) (o : QuantOp)
  | xmov (o : CopyOp)
  | vop (v : Vop) (o : VopOp)
  | spmacSw (transposed : Bool) (o : SwOp)
  | spmacSa (o : SaOp)
  | prune (keep : Bool) (o : PruneOp)
  | store (read : Bool) (o : StoreOp)
deriving DecidableEq, Repr

/-! ## Operands of the events -/

/-- What the activity of a die counts (R363). -/
inductive ActKind where
  | plane | page | scrub | vector | sparse | update | quant | drain | xmov | dma | ballast
deriving DecidableEq, Repr

/-- Cycles or issues of one kind that a logical tile has in a 100 ns slice (R363). -/
structure TileAct where
  tile : Nat
  kind : ActKind
  n : Nat
deriving DecidableEq, Repr

/-- What reading a SEC-DED (72,64) codeword meets, and what its decoder says of it (R564). -/
inductive Ecc where
  | clean | single | double
  /-- Three or more bits in error, classified as a single-bit error: miscorrected and counted as corrected. -/
  | miscorrected
  /-- Three or more bits in error, classified as none. -/
  | undetected
deriving DecidableEq, Repr

/-- A codeword that a read finds in error: its number within what is read, and the decoder's answer. -/
structure WordErr where
  word : Nat := 0
  ecc : Ecc := .single
deriving DecidableEq, Repr

/-- A codeword of a macro page that a PGRD finds in error: the member of the group, and the codeword
(4 * row + k, R72). -/
structure PageErr where
  member : Nat := 0
  word : Nat := 0
  ecc : Ecc := .single
deriving DecidableEq, Repr

/-- A codeword of the Fen or of LPDDR5X that an access finds in error, by its device address. -/
structure MemErr where
  addr : Nat := 0
  ecc : Ecc := .single
  /-- The burst failed its read link ECC and was read once more: `ecc` is what that read gives (R394). -/
  link : Bool := false
  /-- The error lies in the tag and state entry of the cached line, not in its data (R258). -/
  tag : Bool := false
deriving DecidableEq, Repr

/-- What the reads of an instruction find in error: codewords of the memory its unit reads (chain buffer, ACM or
sparse store), of the pages a PGRD copies, and of the device memory a DMA reaches. -/
structure ReadErrs where
  unit : List WordErr := []
  pages : List PageErr := []
  mem : List MemErr := []
  /-- Of an issue cycle: tags of the instructions that complete in it, and whether the tile's control-logic check finds a
  parity or protocol error (R316, R478). -/
  done : List (Fin 64) := []
  logic : Bool := false
deriving DecidableEq, Repr

/-- The masters of the TSP lanes (R239). -/
inductive Master where
  | xmov | vecA | vecB | vecC | vecW | sparse | drain | pagePath | quant | upd | dma0 | dma1 | mesh | maint | loader
deriving DecidableEq, Repr

/-- One lane request for a line (R238). -/
structure LaneReq where
  master : Master
  line : Nat
  /-- Order of entry in the scoreboard of the instruction it serves (R306). -/
  entry : Nat := 0
deriving DecidableEq, Repr

/-- The confirmations of R105 and R479. -/
inductive Confirm where
  /-- The macro's scrub and re-run (R105). The scrub takes the failing pass's page, or without one the page named: its
  codewords in error, the stored sums that read wrong (0 to 31 rows, from 32 columns, 96 the corner), and the cells whose
  reread differs (codewords, from 128 sums). The re-run is upset as the first run may have been. -/
  | macro_ (m : Fin 72) (page : Fin 8) (errs : List WordErr) (sums stuck : List Nat) (upset : List (Nat × Int))
  /-- The checkerboard over a failing word of a tile array; `differs` when a read-back differs. -/
  | tileArray (differs : Bool)
  /-- The tile's logic self-test. -/
  | tileLogic (fails : Bool)
  /-- More than 1,000 single-bit errors within an hour in one tile array. -/
  | tileSingles
  /-- The Fen line rewritten and reread. -/
  | fenLine (b : Fin 32) (differs : Bool)
  /-- A die-to-die module retrained with lane repair. -/
  | dieToDie (k : Fin 12) (restored : Bool)
deriving DecidableEq, Repr

/-- A request at a work-counter port (R261, R262). -/
structure WcReq where
  tile : Nat := 0
  stream : Nat := 0
  /-- 0 READ, 1 ADD, 2 RESET. -/
  op : Nat := 0
  counter : Nat := 0
  inc : Nat := 0
  dst3 : Bool := false
  /-- The tag that waits for the result. -/
  tag : Nat := 64
deriving DecidableEq, Repr

/-- The masters of a Fen bank port in priority order (R257). -/
inductive FenMaster where
  | mem | d2d | mesh
deriving DecidableEq, Repr

/-- A request that reaches a Fen bank port by its scratchpad address (R252, R253). -/
structure FenReq where
  master : FenMaster := .mesh
  part : Nat := 0
  /-- Offset of the access in the bank. -/
  off : Nat := 0
  /-- Bytes written; an empty list is a read of `len` bytes. -/
  wr : List Byte := []
  len : Nat := 0
  /-- The tile and tag that made the request, when an instruction made it. -/
  tile : Option (Nat × Nat) := none
  /-- Codewords that a read finds in error, counted from its first. -/
  errs : List WordErr := []
deriving DecidableEq, Repr

/-- A received Causeway transport frame (R418, R419). -/
structure Frame where
  ver : Nat := 1
  typ : Nat := 0
  nm : Bool := false
  last : Bool := false
  ece : Bool := false
  jobId : Nat := 0
  src : Nat := 0
  jport : Nat := 0
  dst : Nat := 0
  seq : Nat := 0
  /-- Body bytes 20 to 47. -/
  body : List Byte := []
  payload : List Byte := []
  /-- CRC-32C and FCS pass; in UDP mode the UDP checksum too (R415, R419). -/
  crcOk : Bool := true
  /-- Congestion Experienced was marked on the IP header (R417). -/
  ce : Bool := false
  /-- Offset of the payload in its NM run: the checks of R432 need it, and R419 gives it no place in the header. -/
  runOff : Nat := 0
  /-- FEC codewords that the port corrected as the frame arrived (R440). -/
  fec : Nat := 0
deriving DecidableEq, Repr

/-- LPDDR5X requester classes (R390), in the order of R405. -/
inductive MemClass where
  | tile | cwy | host | maint
deriving DecidableEq, Repr

/-- A request to LPDDR5X of a requester class; `tile` is the physical tile of a TILE request (R390, R391). -/
structure MemReq where
  cls : MemClass := .tile
  tile : Nat := 0
  addr : Nat := 0
  /-- Bytes written; an empty list is a read of `len` bytes. -/
  wr : List Byte := []
  len : Nat := 0
  /-- Codewords its read finds in error, and whether the read link corrected or repeated a burst (R394). -/
  errs : List MemErr := []
  link : Bool := false
deriving DecidableEq, Repr

/-- A PTP message of IEEE 1588-2019 (R439). Times and corrections are in ns. -/
inductive PtpMsg where
  /-- An Announce: the fields that the default best master clock algorithm compares, in its order, and the logSyncInterval
  of the source. -/
  | announce (rank : List Nat) (logSync : Int)
  /-- A Sync and its origin timestamp; a two-step source gives that in the Follow_Up. -/
  | sync (seq origin : Nat) (correction : Int) (twoStep : Bool)
  | followUp (seq origin : Nat) (correction : Int)
  /-- The answer to a Delay_Req: when the source received it, and the source's logMinDelayReqInterval. -/
  | delayResp (seq received : Nat) (correction : Int) (logMin : Int)
  /-- Management, signalling, and every other message. -/
  | other
deriving DecidableEq, Repr

/-- Why the endpoint's configuration state resets (R445). -/
inductive LinkReset where
  | hotReset | linkDown | d3hot
deriving DecidableEq, Repr

/-- Configuration requests the manual describes (R443, R448, R536). -/
inductive CfgReq where
  | bar2Size (log2GiB : Nat)
  | maxPayload (bytes : Nat)
  | maxReadReq (bytes : Nat)
  | completionTimeout (us : Nat)
  | barAssign (bar : Nat) (base : Nat)
  /-- The power state: D3hot, or D0. -/
  | power (d3hot : Bool)
  | ecrc (generate check : Bool)
  /-- MSI-X enable and function mask, and a read of the MSI-X capability. -/
  | msix (enable mask : Bool)
  | readMsix
deriving DecidableEq, Repr

/-- Test-access-port instructions (R525, R505). -/
inductive Jtag where
  | idcode | bypass
  /-- A boundary-scan instruction that samples the 3.3 V pins. -/
  | sample
  /-- A boundary-scan instruction that drives the outputs from the scan chain. -/
  | extest (levels : BitVec 16)
  /-- Carholt service tooling moves the lifecycle, with a signed authorisation (R505). -/
  | lifecycle (next : Nat) (authorised : Bool)
  /-- Carholt tooling sets debug-disable (R505). -/
  | debugDisable (authorised : Bool)
  /-- The port's reset pin TRST_N is driven (R521). -/
  | trst (high : Bool)
  /-- Any other instruction. -/
  | other (code : Nat)
deriving DecidableEq, Repr

/-- The interfaces whose training ends during start-up (R536). -/
inductive Training where
  | dieToDie (k : Fin 12) (ok : Bool)
  | lpddr (ch : Fin 52) (ok : Bool)
  | causeway (port : Fin 5) (mode : Nat)
deriving DecidableEq, Repr

/-- What a clearing read-back mismatches (R263, R483). -/
inductive WakeFind where
  | macro_ (pt : Nat) (m : Fin 72)
  /-- `arr`: 0 TSP or chain buffer, 1 ACM, 2 sparse store or exponent file, 3 instruction store or plan table. -/
  | tileArray (pt : Nat) (arr : Fin 4)
  | fenBank (d : Fin 2) (b : Fin 32)
  | counterPort (d : Fin 2)
deriving DecidableEq, Repr

/-- What stops the device's input (R527, R528, R529). -/
inductive InputTrip where
  | underVoltage | overVoltage | overPower | overCurrent
deriving DecidableEq, Repr

/-- Host-side completion status of a HOST_DMA request (R458, R464). -/
inductive HostCpl where
  | ok | unsupported | abort | poisoned
deriving DecidableEq, Repr

/-! ## The commands -/

/-- The commands and events of the block, one constructor per row of spec/opcode_table.json, in its order. -/
inductive Instr where
  -- tile instructions: control
  | nop (t : Fin 256) (st : Fin 32) (h : Hdr) (delay : Nat)
  | beatSeq (t : Fin 256) (st : Fin 32) (h : Hdr)
  | beatJump (t : Fin 256) (st : Fin 32) (h : Hdr) (target : Nat)
  | beatLoop (t : Fin 256) (st : Fin 32) (h : Hdr) (target : Nat)
  | beatStop (t : Fin 256) (st : Fin 32) (h : Hdr)
  | semaWait (t : Fin 256) (st : Fin 32) (h : Hdr) (sx n : Nat)
  | semaSignal (t : Fin 256) (st : Fin 32) (h : Hdr) (sx n : Nat)
  | semaSet (t : Fin 256) (st : Fin 32) (h : Hdr) (sx n : Nat)
  | hintEnter (t : Fin 256) (st : Fin 32) (h : Hdr) (phase : Nat)
  | hintAnnounce (t : Fin 256) (st : Fin 32) (h : Hdr) (phase : Nat)
  | wcntRead (t : Fin 256) (st : Fin 32) (h : Hdr) (counter : Nat) (dst3 : Bool)
  | wcntAdd (t : Fin 256) (st : Fin 32) (h : Hdr) (counter inc : Nat) (dst3 : Bool)
  | wcntReset (t : Fin 256) (st : Fin 32) (h : Hdr) (counter : Nat) (dst3 : Bool)
  | workCounterRequest (d : Fin 2) (d2d mesh : List WcReq)
  -- DMA
  | dmaLoad (t : Fin 256) (st : Fin 32) (h : Hdr) (o : DmaOp) (errs : List MemErr)
  | dmaStore (t : Fin 256) (st : Fin 32) (h : Hdr) (o : DmaOp) (errs : List MemErr)
  | dmaAdd (t : Fin 256) (st : Fin 32) (h : Hdr) (o : DmaOp) (errs : List MemErr)
  | dmaTt (t : Fin 256) (st : Fin 32) (h : Hdr) (o : DmaOp)
  | dmaFlush (t : Fin 256) (st : Fin 32) (h : Hdr) (o : DmaOp) (errs : List MemErr)
  | dmaSend (t : Fin 256) (st : Fin 32) (h : Hdr) (o : SendOp)
  -- macros, update engine, drain unit, quantiser
  | cpass (t : Fin 256) (st : Fin 32) (h : Hdr) (o : PassOp) (errs : List WordErr)
  | tpass (t : Fin 256) (st : Fin 32) (h : Hdr) (o : PassOp) (errs : List WordErr)
  | pgwr (t : Fin 256) (st : Fin 32) (h : Hdr) (o : PgwrOp)
  | pgrd (t : Fin 256) (st : Fin 32) (h : Hdr) (o : PgrdOp) (errs : List PageErr)
  | upd (t : Fin 256) (st : Fin 32) (h : Hdr) (o : UpdOp)
  | acmrd (t : Fin 256) (st : Fin 32) (h : Hdr) (o : AcmOp) (errs : List WordErr)
  | acmwr (t : Fin 256) (st : Fin 32) (h : Hdr) (o : AcmOp)
  | drain (t : Fin 256) (st : Fin 32) (h : Hdr) (o : DrainOp) (errs : List WordErr)
  | qstat (t : Fin 256) (st : Fin 32) (h : Hdr) (o : QuantOp)
  | qconvPresent (t : Fin 256) (st : Fin 32) (h : Hdr) (o : QuantOp)
  | qconvCarried (t : Fin 256) (st : Fin 32) (h : Hdr) (o : QuantOp)
  | copy (t : Fin 256) (st : Fin 32) (h : Hdr) (o : CopyOp) (errs : List WordErr)
  -- sparse engine
  | spmacSwForward (t : Fin 256) (st : Fin 32) (h : Hdr) (o : SwOp) (errs : List WordErr)
  | spmacSwTransposed (t : Fin 256) (st : Fin 32) (h : Hdr) (o : SwOp) (errs : List WordErr)
  | spmacSa (t : Fin 256) (st : Fin 32) (h : Hdr) (o : SaOp)
  | pruneSelect (t : Fin 256) (st : Fin 32) (h : Hdr) (o : PruneOp)
  | pruneKeep (t : Fin 256) (st : Fin 32) (h : Hdr) (o : PruneOp) (errs : List WordErr)
  | pruneLoad (t : Fin 256) (st : Fin 32) (h : Hdr) (o : StoreOp)
  | pruneRead (t : Fin 256) (st : Fin 32) (h : Hdr) (o : StoreOp) (errs : List WordErr)
  -- vector engine
  | vopAdd (t : Fin 256) (st : Fin 32) (h : Hdr) (o : VopOp)
  | vopSub (t : Fin 256) (st : Fin 32) (h : Hdr) (o : VopOp)
  | vopMul (t : Fin 256) (st : Fin 32) (h : Hdr) (o : VopOp)
  | vopFma (t : Fin 256) (st : Fin 32) (h : Hdr) (o : VopOp)
  | vopMin (t : Fin 256) (st : Fin 32) (h : Hdr) (o : VopOp)
  | vopMax (t : Fin 256) (st : Fin 32) (h : Hdr) (o : VopOp)
  | vopAbs (t : Fin 256) (st : Fin 32) (h : Hdr) (o : VopOp)
  | vopNeg (t : Fin 256) (st : Fin 32) (h : Hdr) (o : VopOp)
  | vopCvt (t : Fin 256) (st : Fin 32) (h : Hdr) (o : VopOp)
  | vopTwosum (t : Fin 256) (st : Fin 32) (h : Hdr) (o : VopOp)
  | vopCpadd (t : Fin 256) (st : Fin 32) (h : Hdr) (o : VopOp)
  | vopExp (t : Fin 256) (st : Fin 32) (h : Hdr) (o : VopOp)
  | vopLog (t : Fin 256) (st : Fin 32) (h : Hdr) (o : VopOp)
  | vopRcp (t : Fin 256) (st : Fin 32) (h : Hdr) (o : VopOp)
  | vopRsqrt (t : Fin 256) (st : Fin 32) (h : Hdr) (o : VopOp)
  | vopRsum (t : Fin 256) (st : Fin 32) (h : Hdr) (o : VopOp)
  | vopRmax (t : Fin 256) (st : Fin 32) (h : Hdr) (o : VopOp)
  | vopRmin (t : Fin 256) (st : Fin 32) (h : Hdr) (o : VopOp)
  | vopRmaxabs (t : Fin 256) (st : Fin 32) (h : Hdr) (o : VopOp)
  | vopRcsum (t : Fin 256) (st : Fin 32) (h : Hdr) (o : VopOp)
  | vopCsum (t : Fin 256) (st : Fin 32) (h : Hdr) (o : VopOp)
  | vopCmax (t : Fin 256) (st : Fin 32) (h : Hdr) (o : VopOp)
  | vopEmax8 (t : Fin 256) (st : Fin 32) (h : Hdr) (o : VopOp)
  | vopEmin8 (t : Fin 256) (st : Fin 32) (h : Hdr) (o : VopOp)
  | vopIadd (t : Fin 256) (st : Fin 32) (h : Hdr) (o : VopOp)
  | vopDeq (t : Fin 256) (st : Fin 32) (h : Hdr) (o : VopOp)
  | vopImgadd (t : Fin 256) (st : Fin 32) (h : Hdr) (o : VopOp)
  | vopOutl (t : Fin 256) (st : Fin 32) (h : Hdr) (o : VopOp) (errs : List WordErr)
  -- issue and completion
  | issue (t : Fin 256) (errs : List WordErr) (reads : ReadErrs)
  | instructionComplete (t : Fin 256) (tag : Fin 64) (also : List (Fin 64))
  -- TSP lanes
  | tspLineFetch (t : Fin 256) (cycle : Nat) (lane : Fin 8) (reqs : List LaneReq) (errs : List WordErr)
  | tspWriteLine (t : Fin 256) (cycle : Nat) (lane : Fin 8) (errs : List WordErr)
  | tspScrubLine (t : Fin 256) (line : Fin 3072) (errs : List WordErr)
  | meshArrival (t : Fin 256)
  -- macro micro-steps
  | passLatch (t : Fin 256) (m : Fin 72)
  | passResultsMove (t : Fin 256) (m : Fin 72) (upset : List (Nat × Int))
  | abftCheck (t : Fin 256) (m : Fin 72) (regB : Bool)
  | accumTake (t : Fin 256)
  | accumEntryWrite (t : Fin 256) (sparse : Bool) (errs : List WordErr)
  | sparsePortWrite (t : Fin 256) (errs : List WordErr)
  | pageWriteStart (t : Fin 256) (m : Fin 72)
  | pageWriteCommit (t : Fin 256) (m : Fin 72)
  | updPageStart (t : Fin 256) (errs : List WordErr) (mem : List MemErr)
  | scrubRowRead (t : Fin 256) (m : Fin 72) (errs : List WordErr) (sumWrong : Bool)
  | scrubColumnCompare (t : Fin 256) (m : Fin 72) (sumsWrong : List Nat)
  | scrubWriteBack (t : Fin 256) (m : Fin 72) (rereadDiffers : Bool)
  | confirmation (t : Fin 256) (c : Confirm)
  -- the Beat
  | beatStart (p : Fin 2) (now : Nat)
  | beatRelease (p : Fin 2) (now : Nat)
  | tileFinish (t : Fin 256) (busy now : Nat)
  | beatDeadline (p : Fin 2) (now : Nat)
  | maintenanceSlotStart (p : Fin 2) (now : Nat)
  | ledgerHeadUpdate (p : Fin 2)
  | maintenanceSlotEnd (p : Fin 2) (done : Bool) (now : Nat)
  | elasticDoneReport (p : Fin 2)
  | barrierComplete (p : Fin 2) (now : Nat)
  -- Causeway frames
  | writeFrame (port : Fin 5) (f : Frame) (now : Nat)
  | ackFrame (port : Fin 5) (f : Frame) (now : Nat)
  | nackFrame (port : Fin 5) (f : Frame) (now : Nat)
  | helloFrame (port : Fin 5) (f : Frame) (now : Nat)
  | heartbeatFrame (port : Fin 5) (f : Frame) (now : Nat)
  | doneFrame (port : Fin 5) (f : Frame) (now : Nat)
  | releaseFrame (port : Fin 5) (f : Frame) (now : Nat)
  | noticeFrame (port : Fin 5) (f : Frame) (now : Nat)
  | pfcFrame (port : Fin 5) (prio : Fin 8) (quanta : Nat)
  | packetSend (p : Fin 2) (errs : List MemErr) (now : Nat)
  | retransmitTimeout (p : Fin 2) (peer : Nat) (jport : Fin 4) (now : Nat)
  | sendBudgetExpiry (p : Fin 2) (t : Fin 256) (tag : Fin 64) (now : Nat)
  | ackSend (p : Fin 2) (peer : Nat) (jport : Fin 4)
  | heartbeatSend (p : Fin 2) (now : Nat)
  | heartbeatLoss (p : Fin 2) (member : Nat) (now : Nat)
  | helloResend (p : Fin 2) (now : Nat)
  | armTimeout (p : Fin 2) (now : Nat)
  | linkUp (port : Fin 5) (mode : Nat)
  | linkDown (port : Fin 5)
  | portTrainTimeout (port : Fin 5) (now : Nat)
  | fecUncorrectable (port : Fin 5) (now : Nat)
  -- tick source
  | ptpMessage (p : Fin 2) (jport : Fin 4) (domain source : Nat) (m : PtpMsg) (now : Nat)
  | ppsInEdge (early : Int) (held now : Nat)
  | syncTimeout (p : Fin 2) (now : Nat)
  | holdoverExpiry (p : Fin 2) (now : Nat)
  | ppsOutEdge (p : Fin 2) (rising : Bool) (now : Nat)
  -- Fen
  | fenRequest (d : Fin 2) (b : Fin 32) (reqs : List FenReq)
  | fenNearMemoryAdd (d : Fin 2) (errs : List MemErr)
  | fenSectorFill (t : Fin 256) (addr : Nat) (errs : List MemErr)
  | fenWriteBack (t : Fin 256) (addr : Nat) (evict : Bool) (errs : List MemErr)
  | fenScrub (d : Fin 2) (b : Fin 32) (errs : List WordErr)
  | fenBankWrite (d : Fin 2) (b : Fin 32) (mode : Nat) (part : Fin 2)
  | fenBankDrained (d : Fin 2) (b : Fin 32)
  | fenBankCleared (d : Fin 2) (b : Fin 32)
  -- LPDDR5X
  | memoryRequest (reqs : List MemReq) (now : Nat)
  | lpddrRetrain (ch : Fin 52) (halfDrift ok : Bool) (now : Nat)
  | forcedRetrain (ch : Fin 52) (ok : Bool) (now : Nat)
  | retrainEnd (ch : Fin 52) (now : Nat)
  | patrolScrub (ch : Fin 52) (errs : List WordErr) (link : Bool) (now : Nat)
  | channelFail (ch : Fin 52)
  | lpddrClearDone (p : Fin 2)
  -- job lifecycle
  | jobDone (p : Fin 2) (errs : List MemErr) (now : Nat)
  | scrubbingStart (p : Fin 2) (now : Nat)
  | tileClear (t : Fin 256)
  | scrubbingEnd (p : Fin 2)
  -- mailbox commands: the MP takes the command of mailbox k
  | identify (k : Fin 8)
  | getGeometry (k : Fin 8)
  | loadPlan (k : Fin 8) (errs : List MemErr) (now : Nat)
  | arm (k : Fin 8) (errs : List MemErr) (now : Nat)
  | start (k : Fin 8) (now : Nat)
  | kill (k : Fin 8) (now : Nat)
  | queryJob (k : Fin 8)
  | readLedgerPointer (k : Fin 8)
  | retain (k : Fin 8)
  | releaseRetained (k : Fin 8)
  | getCertChain (k : Fin 8)
  | attest (k : Fin 8)
  | fuseJournal (k : Fin 8)
  | ownerKeyEnrol (k : Fin 8) (now : Nat)
  | ownerKeyRevoke (k : Fin 8) (now : Nat)
  | ownerKeySetEnforce (k : Fin 8) (now : Nat)
  | fwStage (k : Fin 8) (errs : List MemErr)
  | fwActivate (k : Fin 8)
  | mpRestartReady (now : Nat)
  | setPartition (k : Fin 8)
  | mapBar2 (k : Fin 8)
  | hostDmaToDevice (k : Fin 8)
  | hostDmaToHost (k : Fin 8) (errs : List MemErr) (cpl : HostCpl) (errAt : Nat)
  | mailboxComplete (k : Fin 8) (now : Nat)
  -- BAR0 and BAR2
  | mailboxWrite (k : Fin 8) (off : Nat) (v : BitVec 32) (now : Nat)
  | irqStatusClear (v : BitVec 32)
  | irqMaskWrite (v : BitVec 32)
  | devReset (v : BitVec 32) (now : Nat)
  | rsLowRead (off size : Nat)
  | registerWrite (off size : Nat) (v : BitVec 64)
  | bar2Read (x len : Nat) (errs : List MemErr)
  | bar2Write (x : Nat) (bs : List Byte) (poisoned : Bool) (errs : List MemErr)
  | flr (now : Nat)
  | hotReset (why : LinkReset)
  | hostLinkError (now : Nat)
  -- management sideband
  | setEndpointId (eid : Nat)
  | getEndpointId
  | getEndpointUuid
  | getMctpVersionSupport (typ : Nat)
  | getMessageTypeSupport
  | mctpUnsupportedCmd (cmd : Nat)
  | getTid
  | getPldmVersion (typ : Nat)
  | getPldmTypes
  | getPldmCommands (typ : Nat)
  | getPdrRepositoryInfo
  | getPdr (handle : Nat)
  | getSensorReading (sensor : Nat)
  | getStateSensorReadings (sensor : Nat)
  | setNumericEffecterValue (effecter value : Nat)
  | getNumericEffecterValue (effecter : Nat)
  | setEventReceiver (eid : Nat)
  | queryDeviceIdentifiers
  | getFirmwareParameters
  | requestUpdate (maxTransfer : Nat)
  | passComponentTable (component : Nat)
  | updateComponent (size : Nat)
  | transferComplete (ok : Bool)
  | verifyComplete
  | applyComplete
  | activateFirmware (selfContained : Bool)
  | getStatus
  | cancelUpdateComponent
  | cancelUpdate
  | readBal (off : Nat)
  | writeBal (off : Nat) (v : BitVec 32) (now : Nat)
  | pldmUnsupportedCmd (typ cmd : Nat)
  -- Balance
  | balCapWrite (v : BitVec 32) (now : Nat)
  | balEventClear (v : BitVec 32)
  | balEventEnWrite (v : BitVec 32)
  | balanceStep
  | rampSlice (d : Fin 2) (work : List TileAct) (now : Nat)
  | powerMeasurement (meas ioMeas : Nat) (temps0 temps1 tempsIo : List Int)
  | dutyStep (now : Nat)
  | thermalStep (d : Fin 2) (now : Nat)
  | thermtrip (now : Nat)
  | droopTrip (d : Fin 2) (det : Fin 32) (now : Nat)
  | droopRecover (d : Fin 2) (now : Nat)
  | phaseGuardRemove (d : Fin 2) (now : Nat)
  | voltageSlewDone (d : Fin 2)
  -- power, reset and start-up
  | pwrEnRise (held now : Nat)
  | pgAssert (now : Nat)
  | pwrEnFall (held now : Nat)
  | perstNAssert (held now : Nat)
  | perstNDeassert (addr : Fin 8) (held now : Nat)
  | inputProtectionTrip (why : InputTrip) (now : Nat)
  | housekeepingStart (now : Nat)
  | housekeepingStop (now : Nat)
  | clearingOnWake (finds : List WakeFind)
  | skovundVerify (slotA slotB : Option (List Byte))
  | interfaceTrainingDone (x : Training)
  | readyAssert (now : Nat)
  | mpWatchdogExpiry (now : Nat)
  | controlMemoryError (now : Nat)
  | dieToDieLinkLoss (k : Fin 12)
  | jtagInstruction (j : Jtag)
  | railFailure (now : Nat)
  | pcieLinkUp (speed width : Nat)
  | configurationRequest (r : CfgReq)
  | msixTableWrite (v : Fin 64) (word : Fin 4) (x : BitVec 32)
  | pfcPauseExpiry (port : Fin 5) (prio : Fin 8)
  | hostReadCompletion (k : Fin 8) (bs : List Byte) (cpl : HostCpl) (ecc : Ecc)
  | completionTimeout (k : Fin 8)
  | requestFirmwareDataResponse (off : Nat) (bs : List Byte)
  | delayReqSend (p : Fin 2) (now : Nat)
  | internalResetRelease (addr : Fin 8) (now : Nat)
deriving DecidableEq, Repr

end Sys2Proof
end

