-- ==== Sys2Proof/Decode.lean ====
section
/-!
DEFINITION. The decoder of the block's commands (the table gives no row any bits) and, for the 128-bit
instruction words of the tiles, the decoder and the encoder of R272 to R294.
-/
namespace Sys2Proof

open Sys2Proof.Machine

/-- The command a word of the opcode table spells: the table gives no row any bits. -/
def decodeTableWord (nbits w : Nat) : Option Instr :=
  match nbits, w with
  | _, _ => none

/-- Field of `n` bits at bit `lo`. -/
def fld (w lo n : Nat) : Nat := w / 2 ^ lo % 2 ^ n

/-- A one-bit field. -/
def flg (w lo : Nat) : Bool := decide (fld w lo 1 = 1)

/-- Place a field. -/
def put (x lo : Nat) : Nat := x * 2 ^ lo

/-- Opcode of an instruction word (R272). -/
def wordOpcode (w : Nat) : Nat := fld w 0 8

/-- The fn field. -/
def wordFn (w : Nat) : Nat := fld w 8 4

/-- The common header (R272). -/
def wordHdr (w : Nat) : Hdr :=
  { sig := flg w 12, sem := fld w 13 4, pred := fld w 17 2, fence := flg w 19 }

def decDma (w : Nat) : DmaOp :=
  { ch := fld w 20 1, rsig := flg w 21, rsem := fld w 22 4, dtile := fld w 26 8, taddr := fld w 34 14
    dev := fld w 48 35, len := fld w 83 16, xsel := fld w 99 2, stride := fld w 101 24, afmt := fld w 125 1 }

def decSend (w : Nat) : SendOp :=
  { peer := fld w 20 14, window := fld w 34 8, woff := fld w 42 24, src := fld w 66 35, len := fld w 101 16
    nm := flg w 117, tsrc := flg w 118 }

def decPass (w : Nat) : PassOp :=
  { grp := fld w 20 6, page := fld w 26 3, a4 := flg w 29, pat := fld w 30 9, desc := fld w 39 14
    tile := fld w 53 6, ovw := flg w 59, gid := fld w 60 4, row0 := fld w 64 5, h := fld w 69 5
    eref := fld w 74 14, eidx := fld w 88 12 }

def decPgwr (w : Nat) : PgwrOp :=
  { grp := fld w 20 6, page := fld w 26 3, w4 := flg w 29, centred := flg w 30, keepExp := flg w 31
    img := fld w 32 14, istep := fld w 46 16, exp := fld w 62 14, estep := fld w 76 16 }

def decPgrd (w : Nat) : PgrdOp :=
  { grp := fld w 20 6, page := fld w 26 3, img := fld w 32 14, istep := fld w 46 16 }

def decUpd (w : Nat) : UpdOp :=
  { grp := fld w 20 6, pmask := fld w 26 8, tied := flg w 34, clearGrad := flg w 35, udesc := fld w 36 6
    hyp := fld w 42 14 }

def decAcm (w : Nat) : AcmOp := { tile := fld w 20 6, widen := flg w 26, img := fld w 27 14 }

def decDrain (w : Nat) : DrainOp :=
  { tile := fld w 20 6, row0 := fld w 26 5, h := fld w 31 5, c8 := fld w 36 2, w8 := fld w 38 2
    ofmt := fld w 40 3, rnd := flg w 43, rowmax := flg w 44, rowsum := flg w 45, rowsumexp := flg w 46
    topk := flg w 47, merge := flg w 48, k := fld w 49 3, dst := fld w 52 14, desc := fld w 66 14
    cs := fld w 80 18, recd := fld w 98 14, ib := fld w 112 13 }

/-- QSTAT and QCONV; for QCONV sym, rnd and bcast are fn bits 9 to 11 (R289). -/
def decQuant (w : Nat) : QuantOp :=
  { sym := flg w 9, rnd := flg w 10, bcast := flg w 11, ifmt := fld w 20 3, a4 := flg w 23, src := fld w 24 14
    dst := fld w 38 14, recd := fld w 52 14, desc := fld w 66 14, dnext := fld w 80 14, strip := fld w 94 14
    n32 := fld w 108 11, r := fld w 119 5, ol := fld w 124 4 }

def decVop (w : Nat) : VopOp :=
  { afmt := fld w 26 3, ofmt := fld w 29 3, bmode := fld w 32 2, cmode := fld w 34 2, a := fld w 36 14
    b := fld w 50 14, c := fld w 64 14, d := fld w 78 14, w := fld w 92 16, h := fld w 108 5
    tile := fld w 113 6, gid := fld w 119 4, o := fld w 123 5 }

def decSw (w : Nat) : SwOp :=
  { tile := fld w 20 6, ovw := flg w 26, gid := fld w 27 4, h := fld w 31 5, a4 := flg w 36, act := fld w 37 14
    desc := fld w 51 14, eref := fld w 65 14, eidx := fld w 79 12, tensor := fld w 91 5, cb := fld w 96 8
    k0 := fld w 104 9, nw := fld w 113 8 }

def decSa (w : Nat) : SaOp :=
  { tile := fld w 20 6, ovw := flg w 26, gid := fld w 27 4, h := fld w 31 5, a4 := flg w 36, act := fld w 37 14
    desc := fld w 51 14, eref := fld w 65 14, eidx := fld w 79 12, wop := fld w 91 14, k32 := fld w 105 11 }

def decPrune (w : Nat) : PruneOp :=
  { tied := flg w 20, table := flg w 21, bf16 := flg w 22, tensor := fld w 23 5, cb := fld w 28 8, k0 := fld w 36 9
    nw := fld w 45 9, src := fld w 54 14, aux := fld w 68 14, eref := fld w 82 14, eidx := fld w 96 12
    treft := fld w 108 14 }

def decStore (w : Nat) : StoreOp :=
  { tied := flg w 20, table := flg w 21, tensor := fld w 23 5, blk := fld w 28 12, nb := fld w 40 12
    src := fld w 54 14, aux := fld w 68 14, eref := fld w 82 14, eidx := fld w 96 12, treft := fld w 108 14 }

/-- The vop codes (R291). -/
def vopCode : Vop → Nat
  | .add => 0x00 | .sub => 0x01 | .mul => 0x02 | .fma => 0x03 | .min => 0x04 | .max => 0x05 | .abs => 0x06
  | .neg => 0x07 | .cvt => 0x08 | .twosum => 0x10 | .cpadd => 0x11 | .exp => 0x18 | .log => 0x19 | .rcp => 0x1A
  | .rsqrt => 0x1B | .rsum => 0x20 | .rmax => 0x21 | .rmin => 0x22 | .rmaxabs => 0x23 | .rcsum => 0x24
  | .csum => 0x28 | .cmax => 0x29 | .emax8 => 0x30 | .emin8 => 0x31 | .iadd => 0x38 | .deq => 0x39
  | .imgadd => 0x3A | .outl => 0x3C

/-- Every operation of the vector engine. -/
def allVops : List Vop :=
  [.add, .sub, .mul, .fma, .min, .max, .abs, .neg, .cvt, .twosum, .cpadd, .exp, .log, .rcp, .rsqrt, .rsum, .rmax,
   .rmin, .rmaxabs, .rcsum, .csum, .cmax, .emax8, .emin8, .iadd, .deq, .imgadd, .outl]

def vopOf (c : Nat) : Option Vop := allVops.find? fun v => decide (vopCode v = c)

/-- The instruction a word spells, by opcode and fn (R273, R275 to R294); `none` for an opcode, fn or vop
code that is not listed. -/
def decodeBody (w : Nat) : Option TileInstr :=
  let fn := wordFn w
  match wordOpcode w with
  | 0x00 => if fn = 0 then some (.nop (fld w 20 16)) else none
  | 0x01 => if fn ≤ 3 then some (.beat fn (fld w 20 12)) else none
  | 0x02 => if fn ≤ 2 then some (.sema fn (fld w 20 4) (fld w 24 16)) else none
  | 0x03 => if fn ≤ 1 then some (.hint fn (fld w 20 4)) else none
  | 0x04 => if fn ≤ 2 then some (.wcnt fn (fld w 20 9) (fld w 29 16) (flg w 45)) else none
  | 0x08 => if fn ≤ 4 then some (.dma fn (decDma w)) else if fn = 5 then some (.send (decSend w)) else none
  | 0x10 => if fn = 0 then some (.cpass (decPass w)) else none
  | 0x11 => if fn = 0 then some (.tpass (decPass w)) else none
  | 0x12 => if fn = 0 then some (.pgwr (decPgwr w)) else none
  | 0x13 => if fn = 0 then some (.pgrd (decPgrd w)) else none
  | 0x14 => if fn = 0 then some (.upd (decUpd w)) else none
  | 0x18 => if fn = 0 then some (.acmrd (decAcm w)) else none
  | 0x19 => if fn = 0 then some (.acmwr { decAcm w with widen := false }) else none
  | 0x1A => if fn = 0 then some (.drain (decDrain w)) else none
  | 0x20 => if fn = 0 then some (.qstat (decQuant w)) else none
  | 0x21 => if flg w 11 && !flg w 8 then none else some (.qconv (flg w 8) (decQuant w))
  | 0x22 => if fn = 0 then some (.xmov { pat := fld w 20 9, dst := fld w 29 14 }) else none
  | 0x28 => if fn = 0 then (vopOf (fld w 20 6)).map fun v => .vop v (decVop w) else none
  | 0x30 =>
    if fn = 0 then some (.spmacSw false (decSw w)) else if fn = 1 then some (.spmacSw true (decSw w))
    else if fn = 2 then some (.spmacSa (decSa w)) else none
  | 0x31 =>
    if fn = 0 then some (.prune false (decPrune w)) else if fn = 1 then some (.prune true (decPrune w))
    else if fn = 2 then some (.store false (decStore w)) else if fn = 3 then some (.store true (decStore w))
    else none
  | _ => none

/-- Decode a 128-bit instruction word. -/
def decodeTile (w : Nat) : Option (Hdr × TileInstr) := (decodeBody w).map fun i => (wordHdr w, i)

/-! ## The encoder, from the same tables -/

def encHdr (opc fn : Nat) (h : Hdr) : Nat :=
  put opc 0 + put fn 8 + put (b2n h.sig) 12 + put h.sem 13 + put h.pred 17 + put (b2n h.fence) 19

def encDma (o : DmaOp) : Nat :=
  put o.ch 20 + put (b2n o.rsig) 21 + put o.rsem 22 + put o.dtile 26 + put o.taddr 34 + put o.dev 48 + put o.len 83
    + put o.xsel 99 + put o.stride 101 + put o.afmt 125

def encSend (o : SendOp) : Nat :=
  put o.peer 20 + put o.window 34 + put o.woff 42 + put o.src 66 + put o.len 101 + put (b2n o.nm) 117
    + put (b2n o.tsrc) 118

def encPass (o : PassOp) : Nat :=
  put o.grp 20 + put o.page 26 + put (b2n o.a4) 29 + put o.pat 30 + put o.desc 39 + put o.tile 53
    + put (b2n o.ovw) 59 + put o.gid 60 + put o.row0 64 + put o.h 69 + put o.eref 74 + put o.eidx 88

def encPgwr (o : PgwrOp) : Nat :=
  put o.grp 20 + put o.page 26 + put (b2n o.w4) 29 + put (b2n o.centred) 30 + put (b2n o.keepExp) 31
    + put o.img 32 + put o.istep 46 + put o.exp 62 + put o.estep 76

def encPgrd (o : PgrdOp) : Nat := put o.grp 20 + put o.page 26 + put o.img 32 + put o.istep 46

def encUpd (o : UpdOp) : Nat :=
  put o.grp 20 + put o.pmask 26 + put (b2n o.tied) 34 + put (b2n o.clearGrad) 35 + put o.udesc 36 + put o.hyp 42

def encAcm (o : AcmOp) : Nat := put o.tile 20 + put (b2n o.widen) 26 + put o.img 27

def encDrain (o : DrainOp) : Nat :=
  put o.tile 20 + put o.row0 26 + put o.h 31 + put o.c8 36 + put o.w8 38 + put o.ofmt 40 + put (b2n o.rnd) 43
    + put (b2n o.rowmax) 44 + put (b2n o.rowsum) 45 + put (b2n o.rowsumexp) 46 + put (b2n o.topk) 47
    + put (b2n o.merge) 48 + put o.k 49 + put o.dst 52 + put o.desc 66 + put o.cs 80 + put o.recd 98 + put o.ib 112

/-- Operand bits of QSTAT and QCONV; sym, rnd and bcast go into fn. -/
def encQuant (o : QuantOp) : Nat :=
  put o.ifmt 20 + put (b2n o.a4) 23 + put o.src 24 + put o.dst 38 + put o.recd 52 + put o.desc 66 + put o.dnext 80
    + put o.strip 94 + put o.n32 108 + put o.r 119 + put o.ol 124

def encVop (o : VopOp) : Nat :=
  put o.afmt 26 + put o.ofmt 29 + put o.bmode 32 + put o.cmode 34 + put o.a 36 + put o.b 50 + put o.c 64 + put o.d 78
    + put o.w 92 + put o.h 108 + put o.tile 113 + put o.gid 119 + put o.o 123

def encSw (o : SwOp) : Nat :=
  put o.tile 20 + put (b2n o.ovw) 26 + put o.gid 27 + put o.h 31 + put (b2n o.a4) 36 + put o.act 37 + put o.desc 51
    + put o.eref 65 + put o.eidx 79 + put o.tensor 91 + put o.cb 96 + put o.k0 104 + put o.nw 113

def encSa (o : SaOp) : Nat :=
  put o.tile 20 + put (b2n o.ovw) 26 + put o.gid 27 + put o.h 31 + put (b2n o.a4) 36 + put o.act 37 + put o.desc 51
    + put o.eref 65 + put o.eidx 79 + put o.wop 91 + put o.k32 105

def encPrune (o : PruneOp) : Nat :=
  put (b2n o.tied) 20 + put (b2n o.table) 21 + put (b2n o.bf16) 22 + put o.tensor 23 + put o.cb 28 + put o.k0 36
    + put o.nw 45 + put o.src 54 + put o.aux 68 + put o.eref 82 + put o.eidx 96 + put o.treft 108

def encStore (o : StoreOp) : Nat :=
  put (b2n o.tied) 20 + put (b2n o.table) 21 + put o.tensor 23 + put o.blk 28 + put o.nb 40 + put o.src 54
    + put o.aux 68 + put o.eref 82 + put o.eidx 96 + put o.treft 108

/-- fn of a QCONV. -/
def quantFn (carried : Bool) (o : QuantOp) : Nat := b2n carried + 2 * b2n o.sym + 4 * b2n o.rnd + 8 * b2n o.bcast

/-- The word of an instruction. -/
def encodeTile (h : Hdr) : TileInstr → Nat
  | .nop d => encHdr 0x00 0 h + put d 20
  | .beat fn t => encHdr 0x01 fn h + put t 20
  | .sema fn s n => encHdr 0x02 fn h + put s 20 + put n 24
  | .hint fn p => encHdr 0x03 fn h + put p 20
  | .wcnt fn c i d => encHdr 0x04 fn h + put c 20 + put i 29 + put (b2n d) 45
  | .dma fn o => encHdr 0x08 fn h + encDma o
  | .send o => encHdr 0x08 5 h + encSend o
  | .cpass o => encHdr 0x10 0 h + encPass o
  | .tpass o => encHdr 0x11 0 h + encPass o
  | .pgwr o => encHdr 0x12 0 h + encPgwr o
  | .pgrd o => encHdr 0x13 0 h + encPgrd o
  | .upd o => encHdr 0x14 0 h + encUpd o
  | .acmrd o => encHdr 0x18 0 h + encAcm o
  | .acmwr o => encHdr 0x19 0 h + encAcm o
  | .drain o => encHdr 0x1A 0 h + encDrain o
  | .qstat o => encHdr 0x20 0 h + encQuant o
  | .qconv c o => encHdr 0x21 (quantFn c o) h + encQuant o
  | .xmov o => encHdr 0x22 0 h + put o.pat 20 + put o.dst 29
  | .vop v o => encHdr 0x28 0 h + put (vopCode v) 20 + encVop o
  | .spmacSw t o => encHdr 0x30 (b2n t) h + encSw o
  | .spmacSa o => encHdr 0x30 2 h + encSa o
  | .prune k o => encHdr 0x31 (b2n k) h + encPrune o
  | .store r o => encHdr 0x31 (2 + b2n r) h + encStore o

/-- The opcode of an instruction (R273). -/
def opcodeOf : TileInstr → Nat
  | .nop _ => 0x00
  | .beat .. => 0x01
  | .sema .. => 0x02
  | .hint .. => 0x03
  | .wcnt .. => 0x04
  | .dma .. => 0x08
  | .send _ => 0x08
  | .cpass _ => 0x10
  | .tpass _ => 0x11
  | .pgwr _ => 0x12
  | .pgrd _ => 0x13
  | .upd _ => 0x14
  | .acmrd _ => 0x18
  | .acmwr _ => 0x19
  | .drain _ => 0x1A
  | .qstat _ => 0x20
  | .qconv .. => 0x21
  | .xmov _ => 0x22
  | .vop .. => 0x28
  | .spmacSw .. => 0x30
  | .spmacSa _ => 0x30
  | .prune .. => 0x31
  | .store .. => 0x31

/-- The reserved bits of a decoded word: the word with every named field removed (R275). -/
def reservedBits (w : Nat) : Bool :=
  match decodeTile w with
  | some (h, i) => decide (encodeTile h i ≠ w)
  | none => false

end Sys2Proof
end

