-- ==== Sys2Proof/Config.lean ====
section
/-!
DEFINITION. What an implementation fixes and what the manual leaves open: constants without a body, so
that nothing can rest on a value of them. Each is named in a row of the assumption log.
-/
namespace Sys2Proof.Config

/-- A byte whose value the manual leaves undefined, by the number of the draw (R165, R316). (log 16) -/
opaque freeByte : Nat → BitVec 8

/-- Which of the FP32 values within the stated error EXP, LOG, RCP and RSQRT return (R168). (log 17) -/
opaque expPick : Nat → Nat
opaque logPick : Nat → Nat
opaque rcpPick : Nat → Nat
opaque rsqrtPick : Nat → Nat

/-- Group id of an IADD result image, from the ids of its operands (R148 does not state it). (log 20) -/
opaque imageGid : Nat → Nat → Nat

/-- The 64-bit seed the device draws afresh at each plan load, by the number of the load (R187). (log 35) -/
opaque deviceSeed : Nat → BitVec 64

/-- TSP byte address of the channel-scale entry of channel 0 of a PRUNE SELECT or KEEP: R226 and R38 use the
entries, and R293 gives the instruction no field that names them. (log 38) -/
opaque pruneCsBase : PruneOp → Nat

/-- The eight check bits of a SEC-DED (72,64) codeword of 64 bits: the manual names the code and no matrix (R72). (log 5) -/
opaque guardBits : (codeword : Nat) → BitVec 8

/-- Which of the 16 lines of a full cache set pseudo-LRU evicts, by the number of the draw (R254). (log 50) -/
opaque victim : Nat → Nat

/-- Values the device draws from its random bit generator, by the number of the draw (R497, R513). (log 128) -/
opaque randomBits : Nat → BitVec 64

/-- Fused identity of the part: serial number, die revision, and the MAC address of each port (R411, R549). (log 128) -/
opaque serial : BitVec 64
opaque revision : BitVec 4
opaque mac : Nat → BitVec 48

/-- The unique device secret, 48 fused bytes (R497). (log 128) -/
opaque uds : List (BitVec 8)

/-- The private half of the device identity key, in fuses (R495). (log 128) -/
opaque dik : Nat

/-- The certificates of R496, DER by the rules of X.509: the root and the product CA; the device's, for the public half of the
DIK and the serial; and the alias certificate, its signed part from the alias public key, the Skovund measurement, the svn and
the lifecycle, and the whole from that part and its signature. (log 128) -/
opaque caCerts : List (BitVec 8)
opaque deviceCert : (key : Nat × Nat) → (serial : BitVec 64) → List (BitVec 8)
opaque aliasBody : (key : Nat × Nat) → (measurement : List (BitVec 8)) → (svn lifecycle : Nat) → List (BitVec 8)
opaque aliasDer : (body signature : List (BitVec 8)) → List (BitVec 8)

/-- What the two slots of the firmware flash hold at the first READY (R498, R502). (log 168) -/
opaque flashImage : (slot : Nat) → List (BitVec 8)

/-- Does a reset or a loss of power, within the 5 ms that a fuse write may take, come before its journal entry, by the number
of the draw (R506, R534)? (log 130) -/
opaque entryCut : Nat → Bool

/-- Digest of the firmware key in the boot ROM (R498). (log 128) -/
opaque fwKeyDigest : List (BitVec 8)

/-- Fused power model (R347, R363): the weight in the activity of one cycle or issue of a kind on a die, in units of A_max
of a 100 ns slice over 8,000,000; the dynamic power of a die at a point for an activity; its static power at
junction temperatures in 0.125 °C; and the power of the I/O die, LPDDR5X and the ports for the units of 128 bytes that a
Beat moves through memory and through the ports, and their static power with regulation. All powers are in mW. (log 80) -/
opaque weight : (die : Nat) → (kind : ActKind) → Nat
opaque dynPower : (die point activity : Nat) → Nat
opaque staticPower : (die point : Nat) → (temps : List Int) → Nat
opaque ioPower : (memUnits portUnits : Nat) → Nat
opaque ioStatic : Nat

/-- Tile that a fault of the Beat controller names (R476 has every such fault name a tile, and R326 and R329 do
not say which), by the number of the draw. (log 57) -/
opaque namedTile : Nat → Nat

/-- Fused setpoints of the two rails of a die at a point, in mV (R354, R378). (log 95) -/
opaque fusedVlogic : (die point : Nat) → Nat
opaque fusedVcim : (die point : Nat) → Nat

/-- What a path monitor of a die needs at a point to hold its target slack at the fused setpoint, in 5 mV steps, by
the number of the measurement (R379); above 10 it is beyond the margin's range. (log 95) -/
opaque pathNeed : (die monitor point n : Nat) → Nat

/-- Bytes of a priority's receive buffer past which a port sends PFC, and the quanta that it asks for (R416). (log 166) -/
opaque pfcThreshold : Nat
opaque pfcQuanta : Nat

/-- Low 12 bits of the JTAG IDCODE, which R525 does not give. (log 129) -/
opaque jtagMaker : BitVec 12

/-- Bit 0 of IDENTIFY byte 21, which R460 gives both to OWNER_ENFORCE and to slot 0 ENROLLED. (log 108) -/
opaque identifyBit : (enforce enrolled : Bool) → Bool

/-- Checkerboard and self-test outcomes come with the commands; the UUID of the endpoint (R465). (log 119) -/
opaque uuid : List (BitVec 8)

/-- Bodies of PLDM and MCTP answers that the manual leaves to the DMTF specifications, by command (R466). (log 119) -/
opaque pldmBody : (typ cmd arg : Nat) → List (BitVec 8)

/-- Kinds of platform descriptor records (R467). -/
inductive PdrKind where
  | numericSensor | stateSensor | numericEffecter
deriving DecidableEq, Repr

/-- What a platform descriptor record says (R467): its kind, the number of its sensor or effecter, its unit, the readings in one
unit, its range where the record has one, and how many state sets it holds. -/
structure Pdr where
  kind : PdrKind
  id : Nat
  unit : String := ""
  perUnit : Nat := 1
  range : Option (Nat × Nat) := none
  sets : Nat := 0
deriving DecidableEq, Repr

/-- A record as DSP0248 writes it, by its handle. (log 119) -/
opaque pdrBytes : (handle : Nat) → Pdr → List (BitVec 8)

end Sys2Proof.Config
end

