-- ==== Sys2Proof/Machine/Table.lean ====
section
/-!
DEFINITION. Sparse tables and byte memories: the one read and the one write of each. Both writes keep
the canonical form (rising keys, no entry equal to the default).
-/
namespace Sys2Proof.Machine

/-- What a table holds at key `k`; `d` where nothing is listed. -/
def tget (d : α) : Tbl α → Nat → α
  | [], _ => d
  | (k', v) :: r, k => if k' = k then v else tget d r k

/-- Write `v` at key `k`; the default is never listed. -/
def tset [DecidableEq α] (d : α) (t : Tbl α) (k : Nat) (v : α) : Tbl α :=
  t.filter (fun e => decide (e.1 < k)) ++ (if v = d then [] else [(k, v)])
    ++ t.filter (fun e => decide (k < e.1))

/-- Rewrite the entry at key `k`. -/
def tmod [DecidableEq α] (d : α) (t : Tbl α) (k : Nat) (f : α → α) : Tbl α :=
  tset d t k (f (tget d t k))

/-- Rewrite every entry by a function that keeps the default. -/
def tmap [DecidableEq α] (d : α) (t : Tbl α) (f : α → α) : Tbl α :=
  t.foldl (fun m e => tset d m e.1 (f (tget d t e.1))) []

/-- The canonical form of a table. -/
def tblWf [DecidableEq α] (d : α) : Tbl α → Bool
  | [] => true
  | [(_, v)] => decide (v ≠ d)
  | (k, v) :: (k', v') :: r => decide (v ≠ d) && decide (k < k') && tblWf d ((k', v') :: r)

/-- One byte of a memory; a byte that is not listed reads 0x00. -/
def mget (m : Mem) (a : Nat) : Byte := tget 0 m a

/-- `n` bytes from address `a`, rising. -/
def mread (m : Mem) (a n : Nat) : List Byte := (List.range n).map fun i => mget m (a + i)

/-- The non-zero cells of a run of bytes laid out from address `a`. -/
def cells (a : Nat) : List Byte → Mem
  | [] => []
  | b :: r => if b = 0 then cells (a + 1) r else (a, b) :: cells (a + 1) r

/-- Store a run of bytes from address `a`. -/
def mwrite (m : Mem) (a : Nat) (bs : List Byte) : Mem :=
  m.filter (fun e => decide (e.1 < a)) ++ cells a bs
    ++ m.filter (fun e => decide (a + bs.length ≤ e.1))

/-- Clear every byte of `[a, a + n)`. -/
def mclear (m : Mem) (a n : Nat) : Mem :=
  m.filter (fun e => decide (e.1 < a)) ++ m.filter (fun e => decide (a + n ≤ e.1))

/-- The canonical form of a memory: strictly rising addresses and no listed zero. -/
def memWf (m : Mem) : Bool := tblWf 0 m

end Sys2Proof.Machine
end

