-- ==== Sys2Proof/Machine/TileState.lean ====
section
/-!
DEFINITION. The state of one physical tile: TSP and chain buffer, accumulator memory, macros and pages,
sparse store, streams, scoreboard, plan tables, engines' queues, ledger and registers (chapters
"Number formats" to "Tile instructions").
-/
namespace Sys2Proof.Machine

/-! ## Counters (R16) -/

/-- A 48-bit statistics counter with its sticky overflow and the latch of its RS pair (R16, R546). -/
structure Stat where
  val : BitVec 48 := 0
  ovf : Bool := false
  latch : BitVec 32 := 0
deriving DecidableEq, Repr

/-- A 48-bit ledger counter with its sticky overflow (R157). -/
structure Ledc where
  val : BitVec 48 := 0
  ovf : Bool := false
deriving DecidableEq, Repr

/-! ## Accumulator memory (R114 to R135) -/

/-- An accumulator tile. Entries and counts are keyed `32 * row + column`. -/
structure AccTile where
  /-- Opened since plan load (R128). -/
  opened : Bool := false
  narrow : Bool := false
  ent : Tbl Int := []
  nparts : Tbl Nat := []
  ntrunc : Tbl Nat := []
  /-- Recorded row scales; 0 means none (R130). -/
  rscale : Tbl Nat := []
  eref : Mem := []
  sat : Bool := false
  trunc : Bool := false
  outlier : Bool := false
  bound : Bool := false
  csat : Nat := 0
  maxspread : Nat := 0
  gid : Nat := 0
deriving DecidableEq, Repr

/-! ## Macros (R72 to R113) -/

/-- A page of a macro: codes, guard check bits, stored sums, exponent entries and page-state record (R72, R75, R76). -/
structure Page where
  w4 : Bool := false
  resident : Bool := false
  retained : Bool := false
  retainOnKill : Bool := false
  codes : Mem := []
  /-- Row checksums S_r. -/
  rows : Tbl Int := []
  /-- Block sums C_c, one per logical column. -/
  cols : Tbl Int := []
  corner : Int := 0
  /-- Guard check bits, byte 4 * row + k for codeword k of a row; none listed in a cleared page, which holds those of zero codes. -/
  guard : List Byte := []
  exps : Mem := []
  /-- Residency handle and tenant of a retained page (R513). -/
  handle : Option Nat := none
  tenant : Nat := 0
deriving DecidableEq, Repr

/-- One pass of one member macro (R79, R83). -/
structure PassJob where
  tag : Nat := 0
  order : Nat := 0
  page : Nat := 0
  a4 : Bool := false
  transposed : Bool := false
  codes : List Nat := []
  z : Nat := 0
  /-- Scale of the input row's descriptor and the sat tally it adds when it is carried (R130). -/
  scale : Nat := 0
  carriedSat : Nat := 0
  /-- Accumulator tile of the first 32 results and the step to the tile of the next 32. -/
  tile : Nat := 0
  tstep : Nat := 2
  ovw : Bool := false
  gid : Nat := 0
  row : Nat := 0
  /-- TSP byte address of the first reference-exponent byte of `tile`. -/
  eref : Nat := 0
  /-- The zero-plane mask, formed when the pass is latched (R79, R81). -/
  mask : Nat := 0
deriving DecidableEq, Repr

/-- An output register of a macro (R86). -/
structure OutReg where
  job : PassJob
  res : List Int := []
  chk : Int := 0
  /-- Set by the ABFT check; the eligibility order is `age`. -/
  eligible : Bool := false
  age : Nat := 0
deriving DecidableEq, Repr

/-- A page write at the page port: a PGWR member or an UPD page (R90, R95). -/
structure PageWrite where
  tag : Nat := 0
  order : Nat := 0
  page : Nat := 0
  w4 : Bool := false
  centred : Bool := false
  keepExp : Bool := false
  /-- TSP byte addresses of the image and of the exponent word (PGWR). -/
  img : Nat := 0
  exp : Nat := 0
  upd : Bool := false
  /-- A PGRD member: it reads the page into the TSP at `img`; the codewords it finds in error (R94). -/
  rd : Bool := false
  errs : List WordErr := []
deriving DecidableEq, Repr

/-- The write staging buffer (R92): codes as they will be stored and the exponent bytes, and whether every byte that
entered was legal. -/
structure Staged where
  op : PageWrite
  codes : List Byte := []
  exps : List Byte := []
  legal : Bool := true
deriving DecidableEq, Repr

/-- What a scrub write-back rewrites (R102). -/
inductive WbWhat where
  /-- Codeword `k` of a row. -/
  | word (row k : Nat)
  | rowSum (r : Nat)
  | colSum (c : Nat)
  | corner
deriving DecidableEq, Repr

/-- A scrub write-back that waits; `counted` says that the PGRD which found the error has counted it (R94). -/
structure WriteBack where
  page : Nat := 0
  what : WbWhat := .corner
  counted : Bool := false
deriving DecidableEq, Repr

/-- The scrubber of a macro (R101 to R104). -/
structure Scrub where
  page : Nat := 0
  row : Nat := 0
  /-- A row of this page holds a double-bit error or a stuck cell: the column comparison is skipped (R101). -/
  bad : Bool := false
  /-- Write-backs that wait (R102). -/
  wb : List WriteBack := []
  /-- Pages scrubbed in this Beat. -/
  done : List Nat := []
deriving DecidableEq, Repr

/-- A physical macro apart from its pages. -/
structure Macro where
  passQ : List PassJob := []
  /-- The pass in its planes and the pass latched behind it (R85). -/
  latched : List PassJob := []
  outA : Option OutReg := none
  outB : Option OutReg := none
  portQ : List PageWrite := []
  stage : Option Staged := none
  scrub : Scrub := {}
  /-- Frozen after an ABFT mismatch until the confirmation has run (R100). -/
  frozen : Bool := false
deriving DecidableEq, Repr

/-! ## Claims (R307) -/

/-- A resource the scoreboard tracks. -/
inductive Res where
  /-- TSP granules 0 to 191, chain halves 192 and 193, sparse-store granules from 256. -/
  | gran (g : Nat)
  | acc (t : Nat)
  | page (k : Nat)
  | xreg (stream which : Nat)
deriving DecidableEq, Repr

/-- A claim: a read, a write, or an add with a group id. -/
structure Claim where
  res : Res
  wr : Bool := false
  add : Option Nat := none
deriving DecidableEq, Repr

/-! ## Streams, issue and scoreboard (R268 to R318) -/

/-- A stream (R269) with its quantiser control and running counters (R58, R59). -/
structure Stream where
  first : Nat := 0
  count : Nat := 0
  pc : BitVec 12 := 0
  lc : BitVec 32 := 0
  it : BitVec 32 := 0
  x2 : BitVec 32 := 0
  x3 : BitVec 32 := 0
  stopped : Bool := true
  /-- The BEAT issued in this Beat (fn, target); the stream waits for the release. -/
  atBeat : Option (Nat × Nat) := none
  /-- Order of entry of the pending instruction in the scoreboard; `none` while none is pending. -/
  entry : Option Nat := none
  /-- The claims of the pending instruction, recorded as it entered (R301). -/
  claims : List Claim := []
  /-- Cycles a NOP still holds the stream (R303). -/
  hold : Nat := 0
  /-- Semaphore that the NOP signals when it completes. -/
  nopSem : Option Nat := none
  satThresh : BitVec 16 := 0x0100
  cEl : Ledc := {}
  cSat : Ledc := {}
deriving DecidableEq, Repr

/-- An issued instruction that has not completed: a tag and its claims (R303, R307). -/
structure Flight where
  tag : Nat
  stream : Nat
  pc : Nat
  order : Nat
  h : Hdr
  op : TileInstr
  claims : List Claim := []
  /-- Order in which it issued (R325). -/
  issued : Nat := 0
  /-- Device memory it writes: runs of bytes, undefined once it is abandoned (R316). -/
  dev : List (Nat × Nat) := []
  /-- Parts of its work still outstanding. -/
  left : Nat := 0
  flagged : Bool := false
  /-- Fault code, 0 for none (R18, R313). -/
  code : Nat := 0
  lm : Nat := 0
  pm : Nat := 0
  /-- Accumulator tiles it has opened. -/
  openedTiles : List Nat := []
  /-- Cycles by which an SA SPMAC that completes is ahead of its charge (R222). -/
  save : Nat := 0
deriving DecidableEq, Repr

/-- The tile's first fault (R318). -/
structure FaultRec where
  valid : Bool := false
  more : BitVec 8 := 0
  code : BitVec 16 := 0
  stream : BitVec 5 := 0
  tag : BitVec 6 := 0
  notag : Bool := false
  index : BitVec 12 := 0
  /-- Logical and physical macro, for source 0x0 (R493). -/
  lm : Nat := 0
  pm : Nat := 0
deriving DecidableEq, Repr

/-! ## Accumulation path and engines -/

/-- The aligned partials of one result register on their way to one accumulator tile. -/
structure AccPart where
  tag : Nat := 0
  tile : Nat := 0
  row : Nat := 0
  /-- 32 aligned partials, and whether each lost bits (R121). -/
  parts : List (Int × Bool) := []
  scale : Nat := 0
  carriedSat : Nat := 0
  ovw : Bool := false
  gid : Nat := 0
  /-- Reference-exponent bytes an overwrite opens with. -/
  eref : List Byte := []
  maxspread : Nat := 0
  /-- Outlier contributions (R63). -/
  outl : Bool := false
  /-- 1 when this part ends a member's pass. -/
  last : Bool := false
deriving DecidableEq, Repr

/-- One row of 32 exact partials of an SPMAC waiting for the sparse port (R203). -/
structure SparsePart where
  tag : Nat := 0
  tile : Nat := 0
  row : Nat := 0
  ps : List Int := []
  ebs : List Nat := []
  scale : Nat := 0
  carriedSat : Nat := 0
  ovw : Bool := false
  gid : Nat := 0
  /-- TSP byte address of the first reference-exponent byte of `tile`. -/
  eref : Nat := 0
  /-- The SA chunk the row belongs to; an SW row stands alone (R211, R221). -/
  chunk : Option Nat := none
  /-- Detector stalls of the chunk, on its first row (R219). -/
  stall : Nat := 0
  /-- The window or chunk read here breaks its rule: the instruction ends in a format fault (R213, R217). -/
  bad : Bool := false
  /-- A whole PRUNE that waits for the engine, and the store codewords its reads find in error (R200, R201). -/
  whole : Bool := false
  errs : List WordErr := []
deriving DecidableEq, Repr

/-- One page an UPD still has to take into the update engine (R186). -/
structure UpdPage where
  tag : Nat := 0
  order : Nat := 0
  lm : Nat := 0
  pm : Nat := 0
  page : Nat := 0
  rb : Nat := 0
  cb : Nat := 0
  r0 : Nat := 0
  c0 : Nat := 0
  /-- Index of the page among those of the UPD, for its state records. -/
  seq : Nat := 0
  o : UpdOp := {}
deriving DecidableEq, Repr

/-- Exponent changes an UPD publishes at completion (R192): (tag, transposed, index, exponent byte). -/
structure UpdPub where
  tag : Nat
  transposed : Bool
  index : Nat
  val : Nat
  changed : Bool := false
deriving DecidableEq, Repr

/-- A line of another tile's DMA TT on its way here (R239, R279). -/
structure Arrival where
  srcTile : Nat := 0
  srcTag : Nat := 0
  addr : Nat := 0
  bytes : List Byte := []
  /-- The last line, with the semaphore to add to. -/
  last : Bool := false
  rsem : Option Nat := none
  op : Nat := 0x08
deriving DecidableEq, Repr

/-- A line in a write buffer: the access, the codewords of the line it writes in part, and the bytes it replaced
(offset in the line, byte), which stand again where its merge fails (R236, R241). -/
structure Posted where
  req : LaneReq
  part : List Nat := []
  old : List (Nat × Byte) := []
deriving DecidableEq, Repr

/-- A sparse tensor the manifest declares (R207). -/
structure SpTensor where
  id : Nat := 0
  /-- 0 2:4, 1 1:4, 2 2:8. -/
  pat : Nat := 0
  k : Nat := 0
  ncb : Nat := 0
  base : Nat := 0
deriving DecidableEq, Repr

/-! ## Ledger and registers -/

/-- The ledger counters of a tile (R157, R158). -/
structure Ledger where
  maxspread : Nat := 0
  sat : Ledc := {}
  trunc : Ledc := {}
  bound : Ledc := {}
  outlier : Ledc := {}
  csat : Ledc := {}
  cunder : Ledc := {}
  abft : Ledc := {}
  calib : BitVec 32 := 0
deriving DecidableEq, Repr

/-- Error counters of a tile (R111, R162, R199, R234, R265, R318). -/
structure TileErr where
  macroCe : BitVec 16 := 0
  macroUe : BitVec 16 := 0
  abft : BitVec 16 := 0
  acmCe : BitVec 16 := 0
  acmUe : BitVec 16 := 0
  updCrc : BitVec 16 := 0
  spsCe : BitVec 16 := 0
  spsUe : BitVec 16 := 0
  tspCe : BitVec 16 := 0
  tspUe : BitVec 16 := 0
  istCe : BitVec 16 := 0
  istUe : BitVec 16 := 0
deriving DecidableEq, Repr

/-- Statistics counters of a tile (R199, R234, R264, R317). -/
structure TileStat where
  updXch : Stat := {}
  saSave : Stat := {}
  saStall : Stat := {}
  /-- TILE_TSPC 0 to 5. -/
  tspc : List Stat := [{}, {}, {}, {}, {}, {}]
  issued : Stat := {}
  flagged : Stat := {}
deriving DecidableEq, Repr

/-- Macro retirement state of a tile (R106, R112, R113). -/
structure Retire where
  /-- Bit k: physical macro k is retired or marked. -/
  mret : BitVec 72 := 0
  /-- Marked, not yet applied by a plan load (physical macros, oldest first). -/
  pend : List Nat := []
  /-- Logical macros that a Reserve macro serves: (logical, physical). -/
  map : List (Nat × Nat) := []
  /-- The tile itself is marked for retirement (R479, R480, TILE_ID.pend). -/
  tilePend : Bool := false
  /-- Retired Reserve macros that stood in for a logical macro, (physical, logical), and the logical tile that this one served
  when another took its place: what a part serves that serves again (R485). -/
  stood : List (Nat × Nat) := []
  stoodTile : Option Nat := none
deriving DecidableEq, Repr

/-- A physical tile. `tsp` holds the TSP at 0 to 0xB_FFFF and the chain halves CH0 and CH1 at
0xC_0000 and 0xC_2000, so that a taddr v is byte 64 v (R274). `sps` holds the sparse store as the
difference from its cleared state. -/
structure Tile where
  tsp : Mem := []
  /-- Lines in write buffers, at most 16 of a master; lines of masters that stall on a full buffer; and lines in fetch
  buffers (R241). -/
  wbuf : List Posted := []
  wstall : List Posted := []
  fbuf : List LaneReq := []
  /-- Lines that issued instructions still have to fetch: their buffers stay theirs until the last has come (R306). -/
  fetching : List LaneReq := []
  /-- TSP lines scrubbed in this Beat (R244). -/
  swept : List Nat := []
  acm : Tbl AccTile := []
  /-- Slots the manifest declares: 0 none, 1 wide, 2 narrow (R114). -/
  slots : Tbl Nat := []
  macros : Tbl Macro := []
  /-- Keyed 8 * physical macro + page. -/
  pages : Tbl Page := []
  sps : Mem := []
  spx : Mem := []
  tensors : List SpTensor := []
  streams : Tbl Stream := []
  flights : List Flight := []
  sems : Tbl Nat := []
  /-- Instruction store and plan tables, one byte memory (R295). -/
  plan : Mem := []
  rr : Nat := 0
  /-- Next order of entry, and of issue. -/
  entries : Nat := 0
  issues : Nat := 0
  ageCtr : Nat := 0
  /-- The model's own counter of free values drawn (no state of the manual). -/
  free : Nat := 0
  /-- Issue is stopped by a fault (R316). -/
  halted : Bool := false
  /-- The Escapement has released a Beat that the tile has not finished (R271). -/
  released : Bool := false
  busy : Nat := 0
  accQ : List (List AccPart) := []
  /-- Accumulator tiles as they stood before the instructions in flight entered anything, and what these have entered
  since, cycle by cycle: an instruction that fails leaves its tiles as the others alone make them (R121, R130). -/
  accBase : List (Nat × AccTile) := []
  accLog : List (List AccPart) := []
  sparseQ : List SparsePart := []
  updQ : List UpdPage := []
  updPub : List UpdPub := []
  arrivals : List Arrival := []
  led : Ledger := {}
  err : TileErr := {}
  /-- Single-bit errors by array (0 TSP, 1 chain buffer, 2 ACM, 3 sparse store, 4 instruction store and plan tables): those
  not yet timed, the times of those of the last hour, and whether an array has had more than 1,000 in an hour (R479). -/
  singles : Tbl Nat := []
  hour : List (Nat × Nat) := []
  worn : Bool := false
  stat : TileStat := {}
  fault : FaultRec := {}
  ret : Retire := {}
deriving DecidableEq, Repr

end Sys2Proof.Machine
end

