-- ==== Sys2Proof/Machine/Flags.lean ====
section
/-!
DEFINITION. Every counter and flag computation: statistics, ledger and error counters (R16), the flags and
tallies of accumulator tiles (R135), and the tile's ledger counts (R158).
-/
namespace Sys2Proof.Machine

/-- Add to a statistics counter: it wraps modulo 2^48 and sets its sticky overflow (R16). -/
def Stat.add (c : Stat) (n : Nat) : Stat :=
  { c with val := BitVec.ofNat 48 (c.val.toNat + n), ovf := c.ovf || decide (2 ^ 48 ≤ c.val.toNat + n) }

/-- The high word of an RS pair: ovf in bit 31, count bits [47:32] below (R16, R265). -/
def Stat.high (c : Stat) : BitVec 32 :=
  BitVec.ofNat 32 (c.val.toNat / 2 ^ 32 + if c.ovf then 2 ^ 31 else 0)

/-- The low word of an RS pair. -/
def Stat.low (c : Stat) : BitVec 32 := BitVec.ofNat 32 c.val.toNat

/-- A read of the low word loads the latch (R11, R13). -/
def Stat.readLow (c : Stat) : Stat := { c with latch := c.high }

/-- Add to a ledger counter (R16, R157). -/
def Ledc.add (c : Ledc) (n : Nat) : Ledc :=
  { val := BitVec.ofNat 48 (c.val.toNat + n), ovf := c.ovf || decide (2 ^ 48 ≤ c.val.toNat + n) }

/-- Add to an error counter, which sticks at 0xFFFF (R16). -/
def errAdd (c : BitVec 16) (n : Nat) : BitVec 16 := BitVec.ofNat 16 (min 0xFFFF (c.toNat + n))

/-- `n` bytes without a value the manual gives, from draw `ctr` on (R165, R316). -/
def freeBytes (ctr n : Nat) : List Byte := (List.range n).map fun i => Config.freeByte (ctr + i)

/-- Codewords that the decoder corrects, well or badly (R564). -/
def eccSingles (es : List Ecc) : Nat := (es.filter fun e => decide (e = .single) || decide (e = .miscorrected)).length

/-- Codewords that the decoder finds uncorrectable. -/
def eccDoubles (es : List Ecc) : Nat := (es.filter fun e => decide (e = .double)).length

/-- Does the decoder pass wrong data on: miscorrected, or undetected? -/
def eccWrong (e : Ecc) : Bool := decide (e = .miscorrected) || decide (e = .undetected)

/-- Codewords whose data the decoder passes on wrong. -/
def wrongWords (es : List WordErr) : List Nat := (es.filter fun e => eccWrong e.ecc).map (·.word)

/-- An 8-bit tally that stays at 0xFF (R318). -/
def satAdd8 (c : BitVec 8) (n : Nat) : BitVec 8 := BitVec.ofNat 8 (min 0xFF (c.toNat + n))

/-! ## Flags of an accumulator tile -/

/-- Fraction bits F of an entry (R115). -/
def AccTile.frac (t : AccTile) : Nat := if t.narrow then 8 else 16

/-- Width of an entry in bits. -/
def AccTile.width (t : AccTile) : Nat := if t.narrow then 32 else 64

/-- Partials an entry is guaranteed to take (R116). -/
def AccTile.guarantee (t : AccTile) : Nat := if t.narrow then 2 ^ 6 else 2 ^ 24

/-- SAT, TRUNC, OUTLIER or BOUND (R137, R141). -/
def AccTile.flagged (t : AccTile) : Bool := t.sat || t.trunc || t.outlier || t.bound

/-- Saturate an exact sum to an entry's range: the value and whether it saturated (R129). -/
def satEntry (width : Nat) (x : Int) : Int × Bool :=
  let hi : Int := (2 ^ (width - 1) : Nat) - 1
  let lo : Int := -((2 ^ (width - 1) : Nat) : Int)
  if hi < x then (hi, true) else if x < lo then (lo, true) else (x, false)

/-- The largest value of a table of counts. -/
def maxOf (t : Tbl Nat) : Nat := (t.map (·.2)).foldl max 0

/-- What an update of accumulator tiles adds to the ledger (R158). -/
structure LedInc where
  sat : Nat := 0
  trunc : Nat := 0
  bound : Nat := 0
  outlier : Nat := 0
  csat : Nat := 0
  cunder : Nat := 0
  abft : Nat := 0
  maxspread : Nat := 0
deriving DecidableEq, Repr

/-- Add to the ledger counters. -/
def Ledger.add (l : Ledger) (d : LedInc) : Ledger :=
  { l with
    sat := l.sat.add d.sat, trunc := l.trunc.add d.trunc, bound := l.bound.add d.bound
    outlier := l.outlier.add d.outlier, csat := l.csat.add d.csat, cunder := l.cunder.add d.cunder
    abft := l.abft.add d.abft, maxspread := max l.maxspread d.maxspread }

/-- Sum of two ledger increments. -/
def LedInc.plus (a b : LedInc) : LedInc :=
  { sat := a.sat + b.sat, trunc := a.trunc + b.trunc, bound := a.bound + b.bound
    outlier := a.outlier + b.outlier, csat := a.csat + b.csat, cunder := a.cunder + b.cunder
    abft := a.abft + b.abft, maxspread := max a.maxspread b.maxspread }

/-- The calibration test of a stream (R58): saturations × 65,536 > k × elements. -/
def calibrates (st : Stream) : Bool :=
  decide (st.satThresh.toNat * st.cEl.val.toNat < st.cSat.val.toNat * 65536)

/-- Add converted elements and saturations to a stream's running counters (R58). -/
def addCarried (s : Tile) (st elements sats : Nat) : Tile :=
  let x := tget {} s.streams st
  { s with streams := tset {} s.streams st { x with cEl := x.cEl.add elements, cSat := x.cSat.add sats } }

/-- Set a stream's calibration bit in the ledger when its counters meet the test (R58). -/
def calibrate (s : Tile) (st : Nat) : Tile :=
  if calibrates (tget {} s.streams st) then
    { s with led := { s.led with calib := s.led.calib ||| BitVec.ofNat 32 (2 ^ st) } }
  else s

end Sys2Proof.Machine
end

