-- ==== Sys2Proof/Machine/Float.lean ====
section
/-!
DEFINITION. The floating-point encodings of R29 and R66 and their arithmetic: every operation forms the
exact value and rounds it once, to nearest with ties to even.
-/
namespace Sys2Proof.Machine

/-- A decoded value: finite values are `(-1)^neg · m · 2^e`. -/
inductive FP where
  | fin (neg : Bool) (m : Nat) (e : Int)
  | inf (neg : Bool)
  | nan
deriving DecidableEq, Repr

/-- A binary format: precision with the hidden bit, exponent of the smallest subnormal, exponent-field
width, and the largest finite value `maxM · 2^maxQ`. -/
structure FFmt where
  p : Nat
  qmin : Int
  ew : Nat
  maxM : Nat
  maxQ : Int
  /-- E4M3 has no infinity and one NaN per sign (R70). -/
  noInf : Bool := false
deriving DecidableEq, Repr

def fp32 : FFmt := { p := 24, qmin := -149, ew := 8, maxM := 2 ^ 24 - 1, maxQ := 104 }
def bf16 : FFmt := { p := 8, qmin := -133, ew := 8, maxM := 2 ^ 8 - 1, maxQ := 120 }
def fp16 : FFmt := { p := 11, qmin := -24, ew := 5, maxM := 2 ^ 11 - 1, maxQ := 5 }
def e4m3 : FFmt := { p := 4, qmin := -9, ew := 4, maxM := 14, maxQ := 5, noInf := true }
def e5m2 : FFmt := { p := 3, qmin := -16, ew := 5, maxM := 7, maxQ := 13 }

/-- Width of a format in bits. -/
def FFmt.width (f : FFmt) : Nat := f.p + f.ew

/-- The value an encoding stands for. -/
def fdec (f : FFmt) (x : Nat) : FP :=
  let neg := x.testBit (f.width - 1)
  let ef := bits x (f.width - 2) (f.p - 1)
  let fr := x % 2 ^ (f.p - 1)
  let ones := 2 ^ f.ew - 1
  if ef = 0 then .fin neg fr f.qmin
  else if ef = ones ∧ f.noInf = true then
    (if fr = 2 ^ (f.p - 1) - 1 then .nan else .fin neg (fr + 2 ^ (f.p - 1)) (f.qmin + ef - 1))
  else if ef = ones then (if fr = 0 then .inf neg else .nan)
  else .fin neg (fr + 2 ^ (f.p - 1)) (f.qmin + ef - 1)

/-- `m / 2^k` to the nearest integer, ties to even. -/
def shrRne (m k : Nat) : Nat :=
  let q := m >>> k
  let r := m % 2 ^ k
  if k = 0 then m
  else if r * 2 < 2 ^ k then q
  else if 2 ^ k < r * 2 then q + 1
  else q + q % 2

/-- A rational `n / d` to the nearest integer, ties to even. -/
def divRne (n d : Nat) : Nat :=
  let q := n / d
  let r := n % d
  if r * 2 < d then q else if d < r * 2 then q + 1 else q + q % 2

/-- Round `m · 2^e` to `p` bits with no exponent of the last place below `qmin`; the result is
`m' · 2^q` with `m' ≤ 2^p`. -/
def roundSig (p : Nat) (qmin : Int) (m : Nat) (e : Int) : Nat × Int :=
  if m = 0 then (0, qmin)
  else
    let q := max ((m.log2 : Int) + e - (p - 1 : Nat)) qmin
    if q ≤ e then (m <<< (e - q).toNat, q) else (shrRne m (q - e).toNat, q)

/-- Did a rounded significand exceed the format (R66)? -/
def exceeds (f : FFmt) (r : Nat × Int) : Bool :=
  decide (f.maxQ < r.2 ∧ r.1 ≠ 0) || (decide (r.2 = f.maxQ) && decide (f.maxM < r.1))

/-- The encoding of a rounded significand that does not exceed the format. -/
def packSig (f : FFmt) (neg : Bool) (r : Nat × Int) : Nat :=
  (if neg then 2 ^ (f.width - 1) else 0) + ((r.2 - f.qmin).toNat <<< (f.p - 1)) + r.1

/-- The largest finite encoding with a sign. -/
def maxFinite (f : FFmt) (neg : Bool) : Nat := packSig f neg (f.maxM, f.maxQ)

/-- The infinity of a format with a sign. -/
def infBits (f : FFmt) (neg : Bool) : Nat :=
  (if neg then 2 ^ (f.width - 1) else 0) + ((2 ^ f.ew - 1) <<< (f.p - 1))

/-- The quiet NaN of FP32 that the model writes (used only where the manual lets a NaN arise). -/
def qnan : Nat := 0x7FC00000

/-- Round an exact value into a format, saturating: the encoding and whether it exceeded the format. -/
def froundSat (f : FFmt) (neg : Bool) (m : Nat) (e : Int) : Nat × Bool :=
  let r := roundSig f.p f.qmin m e
  if exceeds f r then (maxFinite f neg, true) else (packSig f neg r, false)

/-- Round an exact value into a format as IEEE 754-2019 does: overflow gives infinity. -/
def froundIeee (f : FFmt) (neg : Bool) (m : Nat) (e : Int) : Nat :=
  let r := roundSig f.p f.qmin m e
  if exceeds f r then infBits f neg else packSig f neg r

/-- Align two finite values to one exponent. -/
def alignTo (e : Int) (neg : Bool) (m : Nat) (q : Int) : Int :=
  let v : Int := ((m <<< (q - e).toNat : Nat) : Int)
  if neg then -v else v

/-- The exact sum of two finite values as (sign, magnitude, exponent); an exact zero of two values of
one sign keeps the sign, otherwise it is +0. -/
def exactAdd (an : Bool) (am : Nat) (ae : Int) (bn : Bool) (bm : Nat) (be : Int) : Bool × Nat × Int :=
  let e := min ae be
  let v := alignTo e an am ae + alignTo e bn bm be
  if v = 0 then (an && bn, 0, e) else (decide (v < 0), v.natAbs, e)

/-- An exact dyadic number `m · 2^e`. -/
structure Dy where
  m : Int
  e : Int
deriving DecidableEq, Repr

def Dy.neg (a : Dy) : Dy := { a with m := -a.m }
def Dy.add (a b : Dy) : Dy :=
  let e := min a.e b.e
  { m := a.m * (2 ^ (a.e - e).toNat : Nat) + b.m * (2 ^ (b.e - e).toNat : Nat), e := e }
def Dy.sub (a b : Dy) : Dy := a.add b.neg
def Dy.mul (a b : Dy) : Dy := { m := a.m * b.m, e := a.e + b.e }
def Dy.lt (a b : Dy) : Bool := decide ((a.sub b).m < 0)
def Dy.le (a b : Dy) : Bool := decide ((a.sub b).m ≤ 0)
def Dy.isZero (a : Dy) : Bool := decide (a.m = 0)
def Dy.ofInt (i : Int) : Dy := ⟨i, 0⟩
/-- Multiply by a power of two. -/
def Dy.scale (a : Dy) (k : Int) : Dy := { a with e := a.e + k }

/-- The exact dyadic value of a finite encoding; `none` for infinity and NaN. -/
def fval (f : FFmt) (x : Nat) : Option Dy :=
  match fdec f x with
  | .fin n m e => some ⟨if n then -(m : Int) else m, e⟩
  | _ => none

/-- The value of a finite encoding, 0 where it is not finite. -/
def fvalD (f : FFmt) (x : Nat) : Dy := (fval f x).getD ⟨0, 0⟩

/-- Round a dyadic number into a format, IEEE overflow. A zero is +0. -/
def Dy.round (f : FFmt) (a : Dy) : Nat := froundIeee f (decide (a.m < 0)) a.m.natAbs a.e

/-- Round a dyadic number into a format, saturating. -/
def Dy.roundSat (f : FFmt) (a : Dy) : Nat × Bool := froundSat f (decide (a.m < 0)) a.m.natAbs a.e

/-- The integer nearest to a dyadic number, ties to even. -/
def Dy.rne (a : Dy) : Int :=
  let v : Int := if 0 ≤ a.e then ((a.m.natAbs <<< a.e.toNat : Nat) : Int) else ((shrRne a.m.natAbs (-a.e).toNat : Nat) : Int)
  if a.m < 0 then -v else v

/-- The integer next to a dyadic number toward zero. -/
def Dy.trunc (a : Dy) : Int :=
  let v : Int := if 0 ≤ a.e then ((a.m.natAbs <<< a.e.toNat : Nat) : Int) else ((a.m.natAbs >>> (-a.e).toNat : Nat) : Int)
  if a.m < 0 then -v else v

/-- The largest integer not above a dyadic number. -/
def Dy.floor (a : Dy) : Int :=
  if 0 ≤ a.e then a.m * (2 ^ a.e.toNat : Nat) else Int.fdiv a.m (2 ^ (-a.e).toNat : Nat)

/-- A positive quotient with enough bits for any rounding to `p` bits: `(m, e)` with a sticky last bit. -/
def quotSticky (p : Nat) (nm : Nat) (ne : Int) (dm : Nat) (de : Int) : Nat × Int :=
  let k := p + 3 + dm.log2
  let n := nm <<< k
  let q := n / dm
  (2 * q + (if n % dm = 0 then 0 else 1), ne - de - k - 1)

/-- The correctly rounded quotient of two dyadic numbers, the divisor not zero. -/
def Dy.divRound (f : FFmt) (a b : Dy) : Nat :=
  let r := quotSticky f.p a.m.natAbs a.e b.m.natAbs b.e
  froundIeee f (decide (a.m < 0) != decide (b.m < 0)) r.1 r.2

/-- Integer square root by bit descent: the largest `r` with `r * r ≤ n`. -/
def isqrtGo (n : Nat) : Nat → Nat → Nat
  | 0, r => r
  | k + 1, r => let c := r + 2 ^ k; if c * c ≤ n then isqrtGo n k c else isqrtGo n k r

def isqrt (n : Nat) : Nat := isqrtGo n (n.log2 / 2 + 1) 0

/-- The correctly rounded square root of a non-negative dyadic number. -/
def Dy.sqrtRound (f : FFmt) (a : Dy) : Nat :=
  let m := a.m.natAbs
  let odd := decide (a.e % 2 ≠ 0)
  let m1 := if odd then 2 * m else m
  let e1 := if odd then a.e - 1 else a.e
  let k := f.p + 3
  let n := m1 <<< (2 * k)
  let r := isqrt n
  froundIeee f false (2 * r + (if r * r = n then 0 else 1)) (e1 / 2 - k - 1)

/-- Is an FP32 encoding positive, finite and normal (R33, R38)? -/
def posNormal32 (x : Nat) : Bool := decide (0x00800000 ≤ x) && decide (x < 0x7F800000)

/-- Is an encoding finite? -/
def isFinite (f : FFmt) (x : Nat) : Bool := (fval f x).isSome

/-- FP32 addition (IEEE 754-2019, round to nearest even). -/
def fadd (x y : Nat) : Nat :=
  match fdec fp32 x, fdec fp32 y with
  | .nan, _ => qnan
  | _, .nan => qnan
  | .inf a, .inf b => if a = b then infBits fp32 a else qnan
  | .inf a, .fin .. => infBits fp32 a
  | .fin .., .inf b => infBits fp32 b
  | .fin an am ae, .fin bn bm be =>
    let r := exactAdd an am ae bn bm be
    froundIeee fp32 r.1 r.2.1 r.2.2

/-- FP32 negation. -/
def fneg (x : Nat) : Nat := if 2 ^ 31 ≤ x then x - 2 ^ 31 else x + 2 ^ 31

/-- FP32 absolute value. -/
def fabs (x : Nat) : Nat := x % 2 ^ 31

/-- FP32 subtraction. -/
def fsub (x y : Nat) : Nat := fadd x (fneg y)

/-- FP32 multiplication. -/
def fmul (x y : Nat) : Nat :=
  match fdec fp32 x, fdec fp32 y with
  | .nan, _ => qnan
  | _, .nan => qnan
  | .inf a, .inf b => infBits fp32 (a != b)
  | .inf a, .fin b m _ => if m = 0 then qnan else infBits fp32 (a != b)
  | .fin a m _, .inf b => if m = 0 then qnan else infBits fp32 (a != b)
  | .fin an am ae, .fin bn bm be => froundIeee fp32 (an != bn) (am * bm) (ae + be)

/-- FP32 fused multiply-add `x·y + z` with one rounding. -/
def ffma (x y z : Nat) : Nat :=
  match fdec fp32 x, fdec fp32 y, fdec fp32 z with
  | .fin an am ae, .fin bn bm be, .fin cn cm ce =>
    let r := exactAdd (an != bn) (am * bm) (ae + be) cn cm ce
    froundIeee fp32 r.1 r.2.1 r.2.2
  | _, _, _ => fadd (fmul x y) z

/-- FP32 division. -/
def fdiv (x y : Nat) : Nat :=
  match fdec fp32 x, fdec fp32 y with
  | .nan, _ => qnan
  | _, .nan => qnan
  | .inf _, .inf _ => qnan
  | .inf a, .fin b _ _ => infBits fp32 (a != b)
  | .fin a _ _, .inf b => if (a != b) then 2 ^ 31 else 0
  | .fin an am ae, .fin bn bm be =>
    if bm = 0 then (if am = 0 then qnan else infBits fp32 (an != bn))
    else
      let r := quotSticky 24 am ae bm be
      froundIeee fp32 (an != bn) r.1 r.2

/-- FP32 square root. -/
def fsqrt (x : Nat) : Nat :=
  match fdec fp32 x with
  | .nan => qnan
  | .inf n => if n then qnan else infBits fp32 false
  | .fin n m e => if m = 0 then x else if n then qnan else Dy.sqrtRound fp32 ⟨m, e⟩

/-- The order of two FP32 encodings that are not NaN, as numbers: +0 equals -0. -/
def flt (x y : Nat) : Bool :=
  match fdec fp32 x, fdec fp32 y with
  | .fin an am ae, .fin bn bm be =>
    Dy.lt ⟨if an then -(am : Int) else am, ae⟩ ⟨if bn then -(bm : Int) else bm, be⟩
  | .inf a, .inf b => a && !b
  | .inf a, .fin .. => a
  | .fin .., .inf b => !b
  | _, _ => false

/-- A value of a narrow format as FP32: exact for every finite value. -/
def widen (f : FFmt) (x : Nat) : Nat :=
  match fdec f x with
  | .nan => qnan
  | .inf n => infBits fp32 n
  | .fin n m e => froundIeee fp32 n m e

/-- FP32 narrowed to a format with the saturating mode of R66: encoding, and whether it exceeded. -/
def narrowSat (f : FFmt) (x : Nat) : Nat × Bool :=
  match fdec fp32 x with
  | .nan => (maxFinite f false, true)
  | .inf n => (maxFinite f n, true)
  | .fin n m e => froundSat f n m e

/-- The FP32 encoding of an integer, rounded to nearest even. -/
def fofInt (i : Int) : Nat := Dy.round fp32 ⟨i, 0⟩

/-- FP32 1.0. -/
def fone : Nat := 0x3F800000

end Sys2Proof.Machine
end

