-- ==== Sys2Proof/Machine/Operands.lean ====
section
/-!
DEFINITION. Every operand form of the tile instructions: taddr, row descriptors, formats, channel scales,
patterns, macro groups, outlier lists, UPD descriptors, accumulator images, and the TSP regions an
instruction reads and writes (R31 to R38, R136, R150, R245 to R247, R274, R295 to R300, R307).
-/
namespace Sys2Proof.Machine

/-- The absent operand (R274). -/
def taddrNull : Nat := 0x3FFF

/-- Byte address of a taddr in the tile's TSP and chain space. -/
def tbyte (v : Nat) : Nat := 64 * v

/-- Round a byte length up to whole 64-byte words. -/
def up64 (n : Nat) : Nat := (n + 63) / 64 * 64

/-- Offset of the tables in the plan memory (R336). -/
def istoreOff : Nat := 0x400
def patOff : Nat := 0x10400
def grpOff : Nat := 0x14400
def outlOff : Nat := 0x1C800
def updOff : Nat := 0x1CBC0

/-! ## Formats (R274) -/

/-- The floating-point format of a fmt code; CP64 and the integer codes have none. -/
def fmtOf (c : Nat) : FFmt :=
  match c with
  | 1 => bf16
  | 2 => fp16
  | 3 => e4m3
  | 4 => e5m2
  | _ => fp32

/-- Bits of one element of a fmt code. -/
def fmtBits (c : Nat) : Nat :=
  match c with
  | 0 => 32
  | 1 => 16
  | 2 => 16
  | 3 => 8
  | 4 => 8
  | 5 => 64
  | 6 => 8
  | _ => 4

/-- Byte length of a row of n elements of a fmt code, in whole words (R288, R289). -/
def rowLen (c n : Nat) : Nat := up64 ((n * fmtBits c + 7) / 8)

/-- The raw encoding of element i of a row (R31 for A4). -/
def rawElem (m : Mem) (base c i : Nat) : Nat :=
  if c = 7 then bits (mget m (base + i / 2)).toNat (if i % 2 = 0 then 3 else 7) (if i % 2 = 0 then 0 else 4)
  else leNat (mread m (base + i * (fmtBits c / 8)) (fmtBits c / 8))

/-- Bytes of a row of raw elements. -/
def packNibbles : List Nat → List Byte
  | [] => []
  | [a] => [BitVec.ofNat 8 (a % 16)]
  | a :: b :: r => BitVec.ofNat 8 (a % 16 + 16 * (b % 16)) :: packNibbles r

def packRow (c : Nat) (xs : List Nat) : List Byte :=
  if c = 7 then packNibbles xs else xs.flatMap fun x => leBytes (fmtBits c / 8) x

/-! ## Row descriptors (R32, R33) -/

/-- A row descriptor. -/
structure RowDesc where
  scale : Nat := 0
  zp : Nat := 0
  a4 : Bool := false
  sym : Bool := false
  carried : Bool := false
  redone : Bool := false
  resv : Nat := 0
  sat : Nat := 0
deriving DecidableEq, Repr

def descOf (x : Nat) : RowDesc :=
  { scale := bits x 31 0, zp := bits x 39 32, a4 := bit x 40, sym := bit x 41, carried := bit x 42
    redone := bit x 43, resv := bits x 47 44, sat := bits x 63 48 }

def RowDesc.bytes (d : RowDesc) : List Byte :=
  leBytes 4 d.scale ++ [BitVec.ofNat 8 d.zp, BitVec.ofNat 8 (b2n d.a4 + 2 * b2n d.sym + 4 * b2n d.carried + 8 * b2n d.redone)]
    ++ leBytes 2 d.sat

/-- The rule every read descriptor meets (R33). -/
def RowDesc.ok (d : RowDesc) : Bool :=
  posNormal32 d.scale && !(d.a4 && decide (15 < d.zp))
    && !(d.sym && decide (d.zp ≠ if d.a4 then 8 else 128)) && decide (d.resv = 0)

/-- The descriptor at a TSP byte address. -/
def readDesc (m : Mem) (a : Nat) : RowDesc := descOf (leNat (mread m a 8))

/-! ## Channel scales (R38) -/

def readCs (m : Mem) (byteAddr : Nat) : Nat := leNat (mread m byteAddr 4)

def csOk (x : Nat) : Bool := posNormal32 x

/-! ## Patterns (R245, R246, R296) -/

/-- An XMOV pattern. -/
structure Pattern where
  base : Nat := 0
  rows : Nat := 1
  cols : Nat := 1
  pitch : Nat := 64
  r0 : Int := 0
  c0 : Int := 0
  h : Nat := 1
  w : Nat := 1
  esize : Nat := 1
  pad : Nat := 0
  code : Nat := 0
  transpose : Bool := false
  pd : Nat := 0
deriving DecidableEq, Repr

/-- Byte address in the tile's space of a pattern's base field: bits [21:20] name the space. -/
def patBase (x : Nat) : Nat :=
  let sp := bits x 21 20
  let a := bits x 19 0
  if sp = 0 then a else if sp = 1 then 0xC0000 + a else 0xC2000 + a

/-- The bytes of the space that a pattern's base field names: the TSP, CH0 or CH1 (R248, R296). -/
def patSpace (x : Nat) : Nat × Nat :=
  let sp := bits x 21 20
  if sp = 0 then (0, 0xC0000) else if sp = 1 then (0xC0000, 0x2000) else (0xC2000, 0x2000)

def patternOf (bs : List Byte) : Pattern :=
  { base := patBase (fieldAt bs 0 4), rows := fieldAt bs 4 2 + 1, cols := fieldAt bs 6 2 + 1
    pitch := fieldAt bs 8 4, r0 := sext 32 (fieldAt bs 12 4), c0 := sext 32 (fieldAt bs 16 4)
    h := fieldAt bs 20 2 + 1, w := fieldAt bs 22 2 + 1, esize := fieldAt bs 24 1
    pad := fieldAt bs 25 1, code := fieldAt bs 26 1, transpose := bit (fieldAt bs 27 1) 0
    pd := fieldAt bs 28 4 }

def readPattern (plan : Mem) (i : Nat) : Pattern := patternOf (mread plan (patOff + 32 * i) 32)

/-- Bits of an element of a pattern. -/
def Pattern.ebits (p : Pattern) : Nat :=
  match p.esize with
  | 0 => 4
  | 1 => 8
  | 2 => 16
  | 3 => 32
  | _ => 64

/-- The pad value of a pattern; a pass supplies the zero point for ZP (R246). -/
def Pattern.padVal (p : Pattern) (zp : Nat) : Nat :=
  match p.pad with
  | 0 => 0
  | 1 => if p.esize = 0 then p.code % 16 else p.code
  | _ => zp

/-- Does window element (i, j) lie in the window and inside the extent? -/
def Pattern.inside (p : Pattern) (i j : Nat) : Bool :=
  decide (i < p.h) && decide (j < p.w) && decide (0 ≤ p.r0 + i) && decide (p.r0 + i < p.rows)
    && decide (0 ≤ p.c0 + j) && decide (p.c0 + j < p.cols)

/-- Window element (i, j) as XMOV reads it: stored data inside the extent, the pad value elsewhere. -/
def Pattern.elem (p : Pattern) (m : Mem) (zp i j : Nat) : Nat :=
  if p.inside i j then
    let r := (p.r0 + i).toNat
    let c := (p.c0 + j).toNat
    if p.esize = 0 then
      bits (mget m (p.base + r * p.pitch + c / 2)).toNat (if c % 2 = 0 then 3 else 7) (if c % 2 = 0 then 0 else 4)
    else leNat (mread m (p.base + r * p.pitch + c * (p.ebits / 8)) (p.ebits / 8))
  else p.padVal zp

/-! ## Macro groups (R297, R298) -/

/-- A member of a macro group. -/
structure Member where
  lm : Nat := 0
  rb : Nat := 0
  cb : Nat := 0
deriving DecidableEq, Repr

/-- A macro group record. -/
structure Group where
  nmem : Nat := 0
  prb : Int := 0
  pcb : Int := 0
  outl : List Nat := []
  mem : List Member := []
deriving DecidableEq, Repr

def groupOf (bs : List Byte) : Group :=
  let n := fieldAt bs 0 1
  { nmem := n, prb := sext 16 (fieldAt bs 2 2), pcb := sext 16 (fieldAt bs 4 2)
    outl := (List.range 8).map fun p => fieldAt bs (6 + p) 1
    mem := (List.range n).map fun k =>
      { lm := bits (fieldAt bs (16 + 8 * k) 1) 5 0, rb := fieldAt bs (17 + 8 * k) 2, cb := fieldAt bs (19 + 8 * k) 2 } }

def readGroup (plan : Mem) (g : Nat) : Group := groupOf (mread plan (grpOff + 528 * g) 528)

/-- Row block and column block of a member on page p. -/
def Group.rbp (g : Group) (m : Member) (p : Nat) : Nat := ((m.rb : Int) + p * g.prb).toNat
def Group.cbp (g : Group) (m : Member) (p : Nat) : Nat := ((m.cb : Int) + p * g.pcb).toNat

/-- The smallest value of a list; 0 of an empty one. -/
def minOf : List Nat → Nat
  | [] => 0
  | x :: r => r.foldl min x

/-- Smallest row block and column block on page p over the members. -/
def Group.rmin (g : Group) (p : Nat) : Nat := minOf (g.mem.map fun m => g.rbp m p)
def Group.cmin (g : Group) (p : Nat) : Nat := minOf (g.mem.map fun m => g.cbp m p)

/-- An outlier list: the used positions in order (R299). -/
def readOutliers (plan : Mem) (l : Nat) : List Nat :=
  if l < 15 then
    let bs := mread plan (outlOff + 64 * l) 64
    ((List.range 32).map fun i => fieldAt bs (2 * i) 2).filter fun x => decide (x ≠ 0xFFFF)
  else []

/-! ## UPD descriptors (R300) -/

/-- The fixed operands of an UPD. -/
structure UDesc where
  state : Nat := 0
  grad : Nat := 0
  cs : Nat := 0
  eref : Nat := 0
  eidx : Nat := 0
  treft : Nat := taddrNull
  tidx : Nat := 0
  bf16 : Bool := false
deriving DecidableEq, Repr

def readUDesc (plan : Mem) (i : Nat) : UDesc :=
  let bs := mread plan (updOff + 32 * i) 32
  { state := fieldAt bs 0 8, grad := fieldAt bs 8 8, cs := bits (fieldAt bs 16 4) 17 0
    eref := bits (fieldAt bs 20 2) 13 0, eidx := bits (fieldAt bs 22 2) 11 0
    treft := bits (fieldAt bs 24 2) 13 0, tidx := bits (fieldAt bs 26 2) 11 0, bf16 := bit (fieldAt bs 28 1) 0 }

/-! ## Accumulator images (R136) -/

/-- Bytes of an accumulator image. -/
def accImage (t : AccTile) : List Byte :=
  let w := t.width / 8
  ((List.range 32).flatMap fun r => leBytes 4 (tget 0 t.rscale r)) ++
  ((List.range 32).map fun c => mget t.eref c) ++
  leBytes 4 (min 0xFFFFFFFF (maxOf t.nparts)) ++ leBytes 4 (min 0xFFFFFFFF (maxOf t.ntrunc)) ++
  leBytes 2 (min 0xFFFF t.csat) ++
  [BitVec.ofNat 8 t.maxspread, BitVec.ofNat 8 (t.gid % 16),
   BitVec.ofNat 8 (b2n t.sat + 2 * b2n t.trunc + 4 * b2n t.outlier + 8 * b2n t.bound + 16 * b2n t.narrow)] ++
  zeros 83 ++
  ((List.range 1024).flatMap fun i => leBytes w (toField t.width (tget 0 t.ent i)))

/-- A narrow tile as the wide tile ACMRD's widen gives (R137). -/
def widenTile (t : AccTile) : AccTile :=
  if t.narrow then { t with narrow := false, ent := t.ent.map fun e => (e.1, 256 * e.2) } else t

/-- Length of an image in bytes. -/
def imageLen (narrow : Bool) : Nat := 256 + (if narrow then 4096 else 8192)

/-- A table of the non-default values of a list, keyed from 0. -/
def tblOf [DecidableEq α] (d : α) (l : List α) : Tbl α :=
  ((List.range l.length).zip l).filter fun e => decide (e.2 ≠ d)

/-- The accumulator tile an image spells: open, with every per-entry count at the image's npart and ntrunc
(R138). -/
def imageTile (bs : List Byte) : AccTile :=
  let fl := fieldAt bs 172 1
  let narrow := bit fl 4
  let w := if narrow then 32 else 64
  { opened := true, narrow := narrow
    ent := tblOf 0 ((List.range 1024).map fun i => sext w (fieldAt bs (256 + (w / 8) * i) (w / 8)))
    nparts := tblOf 0 (List.replicate 1024 (fieldAt bs 160 4))
    ntrunc := tblOf 0 (List.replicate 1024 (fieldAt bs 164 4))
    rscale := tblOf 0 ((List.range 32).map fun r => fieldAt bs (4 * r) 4)
    eref := tblOf 0 ((List.range 32).map fun c => nth 0 bs (128 + c))
    sat := bit fl 0, trunc := bit fl 1, outlier := bit fl 2, bound := bit fl 3
    csat := fieldAt bs 168 2, maxspread := fieldAt bs 170 1, gid := fieldAt bs 171 1 % 16 }

/-- The checks an image meets when ACMWR loads it, apart from the slot's kind (R138). -/
def imageOk (bs : List Byte) : Bool :=
  ((List.range 32).all fun c => decide (nth 0 bs (128 + c) ≠ 0xFF)) &&
  ((List.range 32).all fun r => let s := fieldAt bs (4 * r) 4; decide (s = 0) || posNormal32 s) &&
  decide (bits (fieldAt bs 171 1) 7 4 = 0) && decide (bits (fieldAt bs 172 1) 7 5 = 0) &&
  ((bs.drop 173).take 83).all (fun b => decide (b = 0))

/-! ## Slots of the ACM (R114) -/

/-- Kind of the slot of an accumulator tile: 0 undeclared, 1 wide, 2 narrow. -/
def slotKind (s : Tile) (tile : Nat) : Nat := tget 0 s.slots (tile / 2)

/-- Step from a tile to the next column block's tile (R132, R298). -/
def tileStep (s : Tile) (tile : Nat) : Nat := if slotKind s tile = 2 then 1 else 2

/-! ## Sparse store (R201, R202) -/

/-- What a sparse-store byte holds in a cleared block. -/
def spsCleared (a : Nat) : Byte := if a % 64 < 32 then 0x00 else 0x80

/-- Read bytes of the sparse store. -/
def spsRead (m : Mem) (a n : Nat) : List Byte := (List.range n).map fun i => mget m (a + i) ^^^ spsCleared (a + i)

/-- Write bytes of the sparse store. -/
def spsWrite (m : Mem) (a : Nat) (bs : List Byte) : Mem :=
  mwrite m a ((List.range bs.length).map fun i => nth 0 bs i ^^^ spsCleared (a + i))

/-! ## Physical macros -/

/-- The physical macro that serves a logical macro of a tile (R73, R106). -/
def physMacro (r : Retire) (lm : Nat) : Nat :=
  match r.map.find? (fun e => decide (e.1 = lm)) with
  | some e => e.2
  | none => lm

/-- The logical macro that a physical macro serves, its own number when none is mapped. -/
def logMacro (r : Retire) (pm : Nat) : Nat :=
  match r.map.find? (fun e => decide (e.2 = pm)) with
  | some e => e.1
  | none => pm

/-- Key of a page. -/
def pageKey (pm page : Nat) : Nat := 8 * pm + page

end Sys2Proof.Machine
end

