-- ==== Sys2Proof/Machine/Accum.lean ====
section
/-!
DEFINITION. The accumulator memory: alignment, opening, entering partials, and failing an instruction in
flight (R114 to R135).
-/
namespace Sys2Proof.Machine

/-- Format fault of an instruction: class 0x5, source 0x4, the opcode as detail (R477). -/
def fmtFault (opcode : Nat) : Nat := 0x5400 + opcode

/-- Align one partial for a column: `none` when its block exponent lies above the reference (R121). -/
def alignOne (frac eref eb : Nat) (p : Int) : Option (Int × Bool) :=
  if eref < eb then none
  else
    let k : Int := (eb : Int) - eref + frac
    if 0 ≤ k then some (p * (2 ^ k.toNat : Nat), false)
    else
      let d := 2 ^ (-k).toNat
      let q : Int := ((p.natAbs / d : Nat) : Int)
      some (if p < 0 then -q else q, decide (p.natAbs % d ≠ 0))

/-- Align 32 partials; `none` when any faults. -/
def alignRow (frac : Nat) (eref eb : Nat → Nat) (ps : List Int) : Option (List (Int × Bool)) :=
  ((List.range 32).map fun c => alignOne frac (eref c) (eb c) (nth 0 ps c)).mapM id

/-- Largest e_ref − e_b over the non-zero partials (R121). -/
def spreadRow (eref eb : Nat → Nat) (ps : List Int) : Nat :=
  (List.range 32).foldl (fun a c => if nth 0 ps c = 0 then a else max a (eref c - eb c)) 0

/-- An accumulator tile opened by an overwrite (R126, R128). -/
def openTile (narrow : Bool) (eref : List Byte) (gid : Nat) : AccTile :=
  { opened := true, narrow := narrow, eref := tblOf 0 eref, gid := gid }

/-- Enter the aligned partials of one cycle into the first `cols` columns of one row: per entry one exact sum, one
saturating update, and the counts and flags of R121, R129 and R135. -/
def enterRow (t : AccTile) (row : Nat) (parts : List (List (Int × Bool))) (cols : Nat := 32) : AccTile × LedInc :=
  let step (acc : AccTile × LedInc) (c : Nat) : AccTile × LedInc :=
    let (t, l) := acc
    let key := 32 * row + c
    let sum := parts.foldl (fun a p => a + (nth (0, false) p c).1) (0 : Int)
    let lost := (parts.filter fun p => (nth (0, false) p c).2).length
    let (v, s) := satEntry t.width (tget 0 t.ent key + sum)
    let n := tget 0 t.nparts key + parts.length
    let b := decide (t.guarantee < n)
    ({ t with ent := tset 0 t.ent key v, nparts := tset 0 t.nparts key n
              ntrunc := tset 0 t.ntrunc key (tget 0 t.ntrunc key + lost)
              sat := t.sat || s, trunc := t.trunc || decide (0 < lost), bound := t.bound || b },
     l.plus { sat := b2n s, bound := b2n (b && !t.bound) })
  if parts.isEmpty then (t, {}) else (List.range cols).foldl step (t, {})

/-- Record a row's scale, or find the mismatch that faults (R130). -/
def noteScale (t : AccTile) (row scale carriedSat : Nat) : Option AccTile :=
  let s := tget 0 t.rscale row
  if s = 0 then some { t with rscale := tset 0 t.rscale row scale, csat := min 0xFFFF (t.csat + carriedSat) }
  else if s = scale then some t else none

/-- The flight of a tag. -/
def flightOf (s : Tile) (tag : Nat) : Option Flight := s.flights.find? fun f => decide (f.tag = tag)

/-- Rewrite the flight of a tag. -/
def modFlight (s : Tile) (tag : Nat) (f : Flight → Flight) : Tile :=
  { s with flights := s.flights.map fun x => if x.tag = tag then f x else x }

/-- Take everything an instruction still has queued out of the engines. A frozen macro keeps what it holds (R100), and
results that the ABFT check has not judged stay for it (R99). -/
def dropWork (s : Tile) (tag : Nat) : Tile :=
  { s with
    accQ := (s.accQ.map fun b => b.filter fun p => decide (p.tag ≠ tag)).filter fun b => !b.isEmpty
    sparseQ := s.sparseQ.filter fun p => decide (p.tag ≠ tag)
    updQ := s.updQ.filter fun p => decide (p.tag ≠ tag)
    macros := tmap {} s.macros fun m =>
      let keep (o : OutReg) : Bool := decide (o.job.tag ≠ tag) || !o.eligible
      if m.frozen then m
      else { m with passQ := m.passQ.filter fun j => decide (j.tag ≠ tag)
                    latched := m.latched.filter fun j => decide (j.tag ≠ tag)
                    outA := m.outA.filter keep, outB := m.outB.filter keep
                    portQ := m.portQ.filter fun j => decide (j.tag ≠ tag) } }

/-- Accumulator tiles that claims write. -/
def accTiles (cs : List Claim) : List Nat :=
  cs.filterMap fun c => match c.res with
    | .acc t => if c.wr then some t else none
    | _ => none

/-- Enter the parts of one cycle into a tile again, with their header work. -/
def replayCycle (t : AccTile) (ps : List AccPart) : AccTile :=
  let t := ps.foldl (fun t p =>
    let t := (noteScale t p.row p.scale p.carriedSat).getD t
    { t with maxspread := max t.maxspread p.maxspread, outlier := t.outlier || p.outl }) t
  (ps.map fun p => (p.row, p.parts.length)).eraseDups.foldl (fun t k =>
    (enterRow t k.1 ((ps.filter fun p => decide ((p.row, p.parts.length) = k)).map (·.parts)) k.2).1) t

/-- Put the accumulator tiles of an instruction to what the others in flight alone make of them: none of its
partials enters them (R121, R130). -/
def restoreAcc (s : Tile) (tag : Nat) : Tile :=
  match flightOf s tag with
  | none => s
  | some f =>
    let log := (s.accLog.map fun b => b.filter fun p => decide (p.tag ≠ tag)).filter fun b => !b.isEmpty
    let one (a : Tbl AccTile) (k : Nat) : Tbl AccTile :=
      match s.accBase.find? fun e => decide (e.1 = k) with
      | some e => tset {} a k (log.foldl (fun t b => replayCycle t (b.filter fun p => decide (p.tile = k))) e.2)
      | none => a
    { s with accLog := log, acm := (accTiles f.claims).foldl one s.acm }

/-- End an instruction's work with a fault code; the completion reports it. -/
def failFlight (s : Tile) (tag code : Nat) : Tile :=
  modFlight (dropWork s tag) tag fun f => { f with left := 0, code := if f.code = 0 then code else f.code }

/-- A format fault after which nothing of the instruction stands in its accumulator tiles. -/
def failAcc (s : Tile) (tag : Nat) : Tile :=
  match flightOf s tag with
  | some f => failFlight (restoreAcc s tag) tag (fmtFault (opcodeOf f.op))
  | none => s

/-- One part of an instruction's work is done. -/
def partDone (s : Tile) (tag : Nat) : Tile := modFlight s tag fun f => { f with left := f.left - 1 }

/-- Single-bit errors of an array of the tile (R479): 0 TSP, 1 chain buffer, 2 ACM, 3 sparse store, 4 instruction store and plan
tables (log 173). -/
def noteSingles (s : Tile) (array n : Nat) : Tile :=
  if n = 0 then s else { s with singles := tset 0 s.singles array (tget 0 s.singles array + n) }

/-- The errors noted take the present time, and an array with more than 1,000 within an hour is remembered (R479). -/
def stampSingles (now : Nat) (s : Tile) : Tile :=
  if s.singles.isEmpty then s
  else
    let hour := (s.hour.filter fun e => decide (now < e.2 + 3600000000000)) ++ s.singles.flatMap fun e => List.replicate e.2 (e.1, now)
    { s with singles := [], hour := hour
             worn := s.worn || (List.range 5).any fun a => decide (1000 < (hour.filter fun e => decide (e.1 = a)).length) }

/-- What the SEC-DED check of the ACM codewords of a tile that are read does (R119, R564): a double-bit error is the
memory fault; a codeword whose data are wrong holds free values. -/
def acmEcc (s : Tile) (tile : Nat) (errs : List WordErr) : Tile × Bool :=
  let es := errs.map (·.ecc)
  let s := noteSingles { s with err := { s.err with acmCe := errAdd s.err.acmCe (eccSingles es), acmUe := errAdd s.err.acmUe (eccDoubles es) } } 2 (eccSingles es)
  let s := (wrongWords errs).foldl (fun s k =>
    let t := tget {} s.acm tile
    let ks := if t.narrow then [2 * k, 2 * k + 1] else [k]
    let t := ks.foldl (fun t k => { t with ent := tset 0 t.ent k (sext t.width (leNat ((List.range 8).map fun i => Config.freeByte (s.free + 8 * (k % 2) + i)))) }) t
    { s with acm := tset {} s.acm tile t, free := s.free + 16 }) s
  (s, decide (0 < eccDoubles es))

/-- Header work of a part: open the tile for an overwrite, refuse a tile that is not open, record the row
scale (R126, R128, R130). Answers whether the part may enter. -/
def partHead (s : Tile) (p : AccPart) : Tile × Bool :=
  match flightOf s p.tag with
  | none => (s, false)
  | some f =>
    if f.code ≠ 0 then (s, false) else
    let opening := p.ovw && !(f.openedTiles.contains p.tile)
    let t0 := tget {} s.acm p.tile
    if opening && (p.eref.contains 0xFF) then (failAcc s p.tag, false)
    else
      let t := if opening then openTile (decide (slotKind s p.tile = 2)) p.eref p.gid else t0
      if !t.opened then (failAcc s p.tag, false)
      else
        match noteScale t p.row p.scale p.carriedSat with
        | none => (failAcc s p.tag, false)
        | some t =>
          let s := { s with acm := tset {} s.acm p.tile { t with maxspread := max t.maxspread p.maxspread } }
          (if opening then modFlight s p.tag fun f => { f with openedTiles := p.tile :: f.openedTiles } else s, true)

/-- Remember what has entered the tiles of instructions in flight. -/
def noteEntered (s : Tile) (ps : List AccPart) : Tile :=
  let ps := ps.filter fun p => s.accBase.any fun e => decide (e.1 = p.tile)
  if ps.isEmpty then s else { s with accLog := s.accLog ++ [ps] }

/-- Enter a batch of parts that arrive in one cycle (R120, R129). -/
def enterBatch (s : Tile) (batch : List AccPart) : Tile :=
  let heads := batch.foldl (fun (acc : Tile × List AccPart) p =>
    let (s, ok) := partHead acc.1 p
    (s, if ok then acc.2 ++ [p] else acc.2)) (s, [])
  let s := heads.1
  let live := heads.2.filter fun p => match flightOf s p.tag with
    | some f => decide (f.code = 0)
    | none => false
  let s := if live.length = batch.length then s else live.foldl (fun s p => (partHead s p).1) s
  let keys := (live.map fun p => (p.tile, p.row)).eraseDups
  let s := keys.foldl (fun s k =>
    let ps := (live.filter fun p => decide ((p.tile, p.row) = k)).map (·.parts)
    let (t, l) := enterRow (tget {} s.acm k.1) k.2 ps
    { s with acm := tset {} s.acm k.1 t, led := s.led.add l }) s
  live.foldl (fun s p => if p.last then partDone s p.tag else s) (noteEntered s live)

/-- The eref bytes an overwrite opens a tile with (R126). -/
def erefBytes (s : Tile) (addr : Nat) : List Byte := mread s.tsp addr 32

end Sys2Proof.Machine
end

