-- ==== Sys2Proof/Machine/Quant.lean ====
section
/-!
DEFINITION. The quantiser: QSTAT, QCONV in both scale modes, and the conversion of a requantising DRAIN
(R42 to R58, R62, R67).
-/
namespace Sys2Proof.Machine

/-- What a unit's work leaves: the tile, a fault code (0 none) and OK_FLAGGED. -/
structure Work where
  t : Tile
  code : Nat := 0
  flagged : Bool := false
deriving DecidableEq, Repr

/-- The raw encodings of one input row. -/
def rowRaw (m : Mem) (fmt base n : Nat) : List Nat := (List.range n).map fun i => rawElem m base fmt i

/-- The elements of one input row as exact values; `none` for a NaN or an infinity. -/
def rowVals (m : Mem) (fmt base n : Nat) : List (Option Dy) :=
  (List.range n).map fun i => fval (fmtOf fmt) (rawElem m base fmt i)

/-! ## Statistics (R42 to R44) -/

/-- A statistics record as QSTAT gathers it: exact values. -/
structure QStat where
  mn : Dy := ⟨0, 0⟩
  mx : Dy := ⟨0, 0⟩
  count : Nat := 0
deriving DecidableEq, Repr

/-- Gather the included elements of a row (R43, R44, R62). -/
def gatherStats (xs : List Dy) : QStat :=
  match xs with
  | [] => {}
  | x :: r =>
    { mn := r.foldl (fun a y => if y.lt a then y else a) x, mx := r.foldl (fun a y => if a.lt y then y else a) x
      count := xs.length }

/-- A value as FP32 with −0 taken as +0 (R43); inputs are exact in FP32. -/
def dyBits (a : Dy) : Nat := Dy.round fp32 a

/-- maxabs = max(−mn, mx), formed after both (R43). -/
def QStat.maxabs (q : QStat) : Dy := if q.mx.lt q.mn.neg then q.mn.neg else q.mx

/-- The 16-byte record (R42). -/
def QStat.bytes (q : QStat) : List Byte :=
  leBytes 4 (dyBits q.mn) ++ leBytes 4 (dyBits q.mx) ++ leBytes 4 (dyBits q.maxabs) ++ leBytes 4 q.count

/-- Indices of a row without its outlier positions. -/
def included (n : Nat) (outl : List Nat) : List Nat := (List.range n).filter fun i => !(outl.contains i)

/-- QSTAT over its rows: records until a row that holds a non-finite element (R44, R51). -/
def qstatGo (s : Tile) (o : QuantOp) (outl : List Nat) (n : Nat) : List Nat → Work
  | [] => { t := s }
  | i :: rest =>
    let xs := rowVals s.tsp o.ifmt (tbyte o.src + i * rowLen o.ifmt n) n
    if xs.any Option.isNone then { t := s, code := fmtFault 0x20 }
    else
      let q := gatherStats ((included n outl).map fun k => (nth none xs k).getD ⟨0, 0⟩)
      qstatGo { s with tsp := mwrite s.tsp (tbyte o.recd + 16 * i) q.bytes } o outl n rest

def qstatWork (s : Tile) (o : QuantOp) : Work :=
  qstatGo s o (readOutliers s.plan o.ol) (32 * (o.n32 + 1)) (List.range (o.r + 1))

/-! ## Scale derivation (R46) -/

/-- Scale and zero point, `none` where a check of R46 fails. A quotient that rounds to a subnormal or a zero of either
sign becomes 2^-126. -/
def deriveScale (a4 sym : Bool) (mn mx maxabs : Option Dy) : Option (Nat × Nat) :=
  let qmax : Nat := if a4 then 15 else 255
  let qs : Nat := if a4 then 7 else 127
  let fix (s : Nat) : Nat := if s % 2 ^ 31 < 0x00800000 then 0x00800000 else s
  let done (s z : Nat) : Option (Nat × Nat) := if posNormal32 s then some (s, z) else none
  match mn, mx with
  | some mn, some mx =>
    if sym then
      match maxabs with
      | none => none
      | some m =>
        let z := if a4 then 8 else 128
        if m.isZero then done fone z
        else done (fix (Dy.divRound fp32 m ⟨qs, 0⟩)) z
    else
      let zero : Dy := ⟨0, 0⟩
      let lo := if mn.lt zero then mn else zero
      let hi := if zero.lt mx then mx else zero
      let d := hi.sub lo
      if d.isZero then done fone 0
      else
        let s := fix (Dy.divRound fp32 d ⟨qmax, 0⟩)
        let rcp := fvalD fp32 (fdiv fone s)
        done s (clampI 0 qmax ((lo.neg.mul rcp).rne)).toNat
  | _, _ => none

/-! ## Element conversion (R47) -/

/-- The code of an element, and whether it saturated and underflowed. -/
def quantElem (a4 sym rnd : Bool) (rcp : Dy) (z : Nat) (x : Dy) : Nat × Bool × Bool :=
  let v := x.mul rcp
  let t := if rnd then v.rne else v.trunc
  let q := t + z
  let lo : Int := if sym then 1 else 0
  let hi : Int := if a4 then 15 else 255
  let sat := decide (q < lo) || decide (hi < q)
  let q := clampI lo hi q
  (q.toNat, sat, !x.isZero && decide (q = z))

/-- Convert a row: codes, saturations and underflows. Outlier positions take the code z (R62). -/
def quantRow (a4 sym rnd : Bool) (scale z : Nat) (outl : List Nat) (xs : List Dy) : List Nat × Nat × Nat :=
  let rcp := fvalD fp32 (fdiv fone scale)
  let rs := ((List.range xs.length).zip xs).map fun (i, x) =>
    if outl.contains i then (z, false, false) else quantElem a4 sym rnd rcp z x
  (rs.map (·.1), (rs.filter (·.2.1)).length, (rs.filter (·.2.2)).length)

/-- An input element rounded to nearest even to BF16, its sign kept through zero (R62). A finite value that rounds above
the largest finite BF16 value is written as that value with its sign: R62 gives no result there, and R66 and R165 give
the clamp to DRAIN and to the vector operations alone (DESIGN CHOICE, log 135). -/
def toBf16 (f : FFmt) (x : Nat) : Nat :=
  match fdec f x with
  | .fin n m e => (froundSat bf16 n m e).1
  | _ => 0

/-- The outlier strip of a row of raw elements: BF16 values in list order, unused slots +0 (R62). A list position at or
beyond the row's length gives +0 in its slot: R62 does not say (DESIGN CHOICE, log 136). -/
def outlierStrip (fmt : Nat) (outl : List Nat) (raw : List Nat) : List Byte :=
  let vs := outl.map fun k => toBf16 (fmtOf fmt) (nth 0 raw k)
  (vs.flatMap fun v => leBytes 2 v) ++ zeros (64 - 2 * vs.length)

/-- Write one converted row (R49, R55, R62). -/
def putRow (s : Tile) (o : QuantOp) (n i : Nat) (codes : List Nat) (d : RowDesc) (next : RowDesc)
    (strip : List Byte) : Tile :=
  let fmt := if o.a4 then 7 else 6
  let m := mwrite s.tsp (tbyte o.dst + i * rowLen fmt n) (packRow fmt codes)
  let m := mwrite m (tbyte o.desc + 8 * i) d.bytes
  let m := if o.dnext = taddrNull then m else mwrite m (tbyte o.dnext + 8 * i) next.bytes
  let m := if o.strip = taddrNull then m else mwrite m (tbyte o.strip + 64 * i) strip
  { s with tsp := m }

/-- PRESENT mode, row by row (R46, R51). -/
def presentGo (s : Tile) (o : QuantOp) (outl : List Nat) (n : Nat) : List Nat → Work
  | [] => { t := s }
  | i :: rest =>
    let xs := rowVals s.tsp o.ifmt (tbyte o.src + i * rowLen o.ifmt n) n
    let r := tbyte o.recd + 16 * i
    let rd (k : Nat) : Option Dy := fval fp32 (leNat (mread s.tsp (r + 4 * k) 4))
    match deriveScale o.a4 o.sym (rd 0) (rd 1) (rd 2) with
    | none => { t := s, code := fmtFault 0x21 }
    | some (sc, z) =>
      if xs.any Option.isNone then { t := s, code := fmtFault 0x21 }
      else
        let vs := xs.map fun x => x.getD ⟨0, 0⟩
        let q := quantRow o.a4 o.sym o.rnd sc z outl vs
        let d : RowDesc := { scale := sc, zp := z, a4 := o.a4, sym := o.sym }
        presentGo (putRow s o n i q.1 d d (outlierStrip o.ifmt outl (rowRaw s.tsp o.ifmt (tbyte o.src + i * rowLen o.ifmt n) n))) o outl n rest

def presentWork (s : Tile) (o : QuantOp) : Work :=
  presentGo s o (readOutliers s.plan o.ol) (32 * (o.n32 + 1)) (List.range (o.r + 1))

/-- CARRIED mode, row by row: a row that saturates past T is converted again (R53 to R56). `one` is the descriptor that
serves every row, of a broadcast. -/
def carriedGo (s : Tile) (stream : Nat) (o : QuantOp) (one : Option RowDesc) (outl : List Nat) (n k : Nat) (flag : Bool) :
    List Nat → Work
  | [] => { t := s, flagged := flag }
  | i :: rest =>
    let xs := rowVals s.tsp o.ifmt (tbyte o.src + i * rowLen o.ifmt n) n
    let din := one.getD (readDesc s.tsp (tbyte o.recd + 8 * i))
    if !din.ok || din.a4 != o.a4 || din.sym != o.sym || xs.any Option.isNone then
      { t := s, code := fmtFault 0x21 }
    else
      let vs := xs.map fun x => x.getD ⟨0, 0⟩
      let q := quantRow o.a4 o.sym o.rnd din.scale din.zp outl vs
      let sats := q.2.1
      let st := gatherStats ((included n outl).map fun c => nth ⟨0, 0⟩ vs c)
      let pres := deriveScale o.a4 o.sym (some st.mn) (some st.mx) (some st.maxabs)
      let count (s : Tile) : Tile :=
        addCarried { s with led := s.led.add { csat := sats, cunder := q.2.2 } } stream n sats
      let strip := outlierStrip o.ifmt outl (rowRaw s.tsp o.ifmt (tbyte o.src + i * rowLen o.ifmt n) n)
      match pres with
      | none => { t := s, code := fmtFault 0x21 }
      | some (sc, z) =>
        let next : RowDesc := { scale := sc, zp := z, a4 := o.a4, sym := o.sym }
        if k * n / 65536 < sats then
          let q2 := quantRow o.a4 o.sym o.rnd sc z outl vs
          let d := { next with redone := true, sat := min 0xFFFF sats }
          carriedGo (count (putRow s o n i q2.1 d next strip)) stream o one outl n k true rest
        else
          let d : RowDesc := { scale := din.scale, zp := din.zp, a4 := o.a4, sym := o.sym, carried := true, sat := min 0xFFFF sats }
          carriedGo (count (putRow s o n i q.1 d next strip)) stream o one outl n k (flag || decide (0 < sats)) rest

/-- A CARRIED-mode QCONV, with the calibration event judged once at its end (R58). -/
def carriedWork (s : Tile) (stream : Nat) (o : QuantOp) : Work :=
  let one := if o.bcast then some (readDesc s.tsp (tbyte o.recd)) else none
  let w := carriedGo s stream o one (readOutliers s.plan o.ol) (32 * (o.n32 + 1)) (tget {} s.streams stream).satThresh.toNat false
    (List.range (o.r + 1))
  { w with t := calibrate w.t stream }

end Sys2Proof.Machine
end

