-- ==== Sys2Proof/Machine/Transcend.lean ====
section
/-!
DEFINITION. EXP, LOG, RCP and RSQRT: the FP32 value returned is any one within the error the manual states,
taken by a free value; the exact result is held to about 150 bits (R168).
-/
namespace Sys2Proof.Machine

/-- Fraction bits of the fixed-point work. -/
def fxBits : Nat := 160

/-- ln 2 in fixed point. -/
def fxLn2 : Int := 1013035739299659071135698605846798551586536899366

/-- Taylor sum of e^r for a fixed-point r. -/
def expGo (r : Int) : Nat → Nat → Int → Int → Int
  | 0, _, _, sum => sum
  | n + 1, k, term, sum =>
    let t := term * r / (2 ^ fxBits : Nat) / (k : Int)
    expGo r n (k + 1) t (sum + t)

/-- e^x for a dyadic x. -/
def expDy (x : Dy) : Dy :=
  let X : Int := if 0 ≤ x.e + fxBits then x.m * (2 ^ (x.e + fxBits).toNat : Nat) else Int.fdiv x.m (2 ^ (-(x.e + fxBits)).toNat : Nat)
  let n := Int.fdiv (2 * X + fxLn2) (2 * fxLn2)
  let r := X - n * fxLn2
  ⟨expGo r 45 1 (2 ^ fxBits : Nat) (2 ^ fxBits : Nat), n - fxBits⟩

/-- Series of 2 atanh(y) for a fixed-point y. -/
def atanhGo (y2 : Int) : Nat → Nat → Int → Int → Int
  | 0, _, _, sum => sum
  | n + 1, k, pw, sum => atanhGo y2 n (k + 2) (pw * y2 / (2 ^ fxBits : Nat)) (sum + pw / (k : Int))

/-- ln x for a positive dyadic x. -/
def logDy (x : Dy) : Dy :=
  let l := x.m.natAbs.log2
  -- m in [1, 2) in fixed point; halve it above 4/3
  let m : Int := if l ≤ fxBits then ((x.m.natAbs <<< (fxBits - l) : Nat) : Int) else ((x.m.natAbs >>> (l - fxBits) : Nat) : Int)
  let big := decide (3 * m > 4 * (2 ^ fxBits : Nat))
  let n : Int := x.e + l + (if big then 1 else 0)
  let one : Int := if big then 2 * (2 ^ fxBits : Nat) else (2 ^ fxBits : Nat)
  let y := (m - one) * (2 ^ fxBits : Nat) / (m + one)
  ⟨2 * atanhGo (y * y / (2 ^ fxBits : Nat)) 60 1 y 0 + n * fxLn2, -(fxBits : Int)⟩

/-- 1 / x for a dyadic x that is not zero. -/
def rcpDy (x : Dy) : Dy :=
  let q := quotSticky 160 1 0 x.m.natAbs x.e
  ⟨if x.m < 0 then -(q.1 : Int) else q.1, q.2⟩

/-- 1 / √x for a positive dyadic x. -/
def rsqrtDy (x : Dy) : Dy :=
  let odd := decide (x.e % 2 ≠ 0)
  let m := if odd then 2 * x.m.natAbs else x.m.natAbs
  let e := if odd then x.e - 1 else x.e
  let k := 200 + m.log2
  ⟨isqrt (2 ^ (2 * k) / m), -(k : Int) - e / 2⟩

/-- The spacing of FP32 values at an exact value, as a power of two. -/
def ulpExp (a : Dy) : Int := if a.m = 0 then -149 else max ((a.m.natAbs.log2 : Int) + a.e - 23) (-149)

/-- |a| ≤ b. -/
def Dy.absLe (a b : Dy) : Bool := Dy.le ⟨a.m.natAbs, a.e⟩ b

/-- The picked FP32 value when it lies within the bound of the exact one, else the correctly rounded one. -/
def withinOr (pick : Nat) (a bound : Dy) : Nat :=
  let c := pick % 2 ^ 32
  match fval fp32 c with
  | some v => if (v.sub a).absLe bound then c else Dy.round fp32 a
  | none => Dy.round fp32 a

/-- EXP; `none` is the format fault (R168). -/
def fexp (x : Nat) : Option Nat :=
  match fdec fp32 x with
  | .nan => none
  | .inf n => if n then some 0 else none
  | .fin .. =>
    let v := fvalD fp32 x
    if Dy.lt ⟨8872, 0⟩ (v.mul ⟨100, 0⟩) then none
    else if (v.mul ⟨100, 0⟩).lt ⟨-10397, 0⟩ then some 0
    else
      let a := expDy v
      some (withinOr (Config.expPick x) a ⟨2, ulpExp a⟩)

/-- LOG; `none` is the format fault. -/
def flog (x : Nat) : Option Nat :=
  match fdec fp32 x with
  | .fin n m _ =>
    if n = true ∨ m = 0 then none
    else
      let v := fvalD fp32 x
      let a := logDy v
      let near := Dy.le ⟨1, -1⟩ v && Dy.le v ⟨2, 0⟩
      some (withinOr (Config.logPick x) a (if near then ⟨1, -24⟩ else ⟨2, ulpExp a⟩))
  | _ => none

/-- RCP; `none` is the format fault, also where the result overflows (R165). -/
def frcp (x : Nat) : Option Nat :=
  match fdec fp32 x with
  | .fin _ m _ =>
    if m = 0 then none
    else
      let a := rcpDy (fvalD fp32 x)
      if isFinite fp32 (Dy.round fp32 a) then some (withinOr (Config.rcpPick x) a ⟨1, ulpExp a⟩) else none
  | _ => none

/-- RSQRT; `none` is the format fault. -/
def frsqrt (x : Nat) : Option Nat :=
  match fdec fp32 x with
  | .fin n m _ =>
    if n = true ∨ m = 0 then none
    else
      let a := rsqrtDy (fvalD fp32 x)
      some (withinOr (Config.rsqrtPick x) a ⟨1, ulpExp a⟩)
  | _ => none

end Sys2Proof.Machine
end

