-- ==== Sys2Proof/Machine/Vector.lean ====
section
/-!
DEFINITION. The vector engine (R142, R147 to R156, R163 to R174): elementwise operations, reductions,
transcendentals, exponent tables, images and outlier contributions.
-/
namespace Sys2Proof.Machine

/-! ## Compensated arithmetic (R142) -/

/-- The first three lines of R142: s + e = a + b exactly. -/
def twoSum (a b : Nat) : Nat × Nat :=
  let s := fadd a b
  let bv := fsub s a
  (s, fadd (fsub a (fsub s bv)) (fsub b bv))

/-- The compensated add of two CP64 pairs (R142). -/
def cpAdd (a b : Nat × Nat) : Nat × Nat :=
  let (s, e) := twoSum a.1 b.1
  let t := fadd (fadd a.2 b.2) e
  let rh := fadd s t
  (rh, fsub t (fsub rh s))

/-- A format fault of a vector operation: its destination is not defined. -/
def vopFault (s : Tile) (dst len : Nat) : Work :=
  { t := { s with tsp := mwrite s.tsp dst (freeBytes s.free len), free := s.free + len }, code := fmtFault 0x28 }

/-! ## Operand access (R167, R290) -/

/-- Raw encoding of operand element (i, j) under its broadcast mode. -/
def vecRaw (m : Mem) (base fmt mode w i j : Nat) : Nat :=
  match mode with
  | 0 => rawElem m (tbyte base + i * rowLen fmt w) fmt j
  | 1 => rawElem m (tbyte base) fmt 0
  | 2 => rawElem m (tbyte base) fmt j
  | _ => rawElem m (tbyte base) fmt i

/-- Rows and columns of a VOP. -/
def vRows (o : VopOp) : Nat := o.h + 1
def vCols (o : VopOp) : Nat := o.w + 1

/-- Length of the destination of an operation with h rows of w elements. -/
def dstLen (fmt h w : Nat) : Nat := h * rowLen fmt w

/-! ## Elementwise operations (R164) -/

/-- A finite value with its sign: (sign, magnitude, exponent). -/
abbrev Fin3 := Bool × Nat × Int

def fin3 (f : FFmt) (x : Nat) : Option Fin3 :=
  match fdec f x with
  | .fin n m e => some (n, m, e)
  | _ => none

def Fin3.dy (a : Fin3) : Dy := ⟨if a.1 then -(a.2.1 : Int) else a.2.1, a.2.2⟩

/-- The exact result of an elementwise operation. -/
def exactOp (v : Vop) (a b c : Fin3) : Fin3 :=
  match v with
  | .add => exactAdd a.1 a.2.1 a.2.2 b.1 b.2.1 b.2.2
  | .sub => exactAdd a.1 a.2.1 a.2.2 (!b.1) b.2.1 b.2.2
  | .mul => (a.1 != b.1, a.2.1 * b.2.1, a.2.2 + b.2.2)
  | .fma => exactAdd (a.1 != b.1) (a.2.1 * b.2.1) (a.2.2 + b.2.2) c.1 c.2.1 c.2.2
  | .min => if b.dy.lt a.dy then b else a
  | .max => if a.dy.lt b.dy then b else a
  | .abs => (false, a.2)
  | .neg => (!a.1, a.2)
  | _ => a

/-- Round a result once to the output format: `none` where FP32 overflows, else the encoding and whether it
exceeded a narrower format (R164, R165). -/
def finishOp (ofmt : Nat) (r : Fin3) : Option (Nat × Bool) :=
  let x := froundSat (fmtOf ofmt) r.1 r.2.1 r.2.2
  if ofmt = 0 ∧ x.2 = true then none else some x

/-- Number of operands an operation reads. -/
def vopArity : Vop → Nat
  | .add => 2 | .sub => 2 | .mul => 2 | .min => 2 | .max => 2 | .fma => 3 | _ => 1

/-- Assemble rows of results, or the fault. -/
def vecRows (s : Tile) (d ofmt h w : Nat) (f : Nat → Nat → Option (Nat × Bool)) : Work :=
  let rows := (List.range h).map fun i => (List.range w).map fun j => f i j
  if rows.any fun r => r.any Option.isNone then vopFault s (tbyte d) (dstLen ofmt h w)
  else
    let m := ((List.range h).zip rows).foldl (fun m (i, r) =>
      mwrite m (tbyte d + i * rowLen ofmt w) (packRow ofmt (r.map fun x => (x.getD (0, false)).1))) s.tsp
    { t := { s with tsp := m }, flagged := rows.any fun r => r.any fun x => (x.getD (0, false)).2 }

/-- ADD, SUB, MUL, FMA, MIN, MAX, ABS, NEG and CVT. -/
def vopElem (v : Vop) (s : Tile) (o : VopOp) : Work :=
  let f := fmtOf o.afmt
  vecRows s o.d o.ofmt (vRows o) (vCols o) fun i j =>
    let a := fin3 f (vecRaw s.tsp o.a o.afmt 0 (vCols o) i j)
    let b := if 2 ≤ vopArity v then fin3 f (vecRaw s.tsp o.b o.afmt o.bmode (vCols o) i j) else some (false, 0, 0)
    let c := if 3 ≤ vopArity v then fin3 f (vecRaw s.tsp o.c o.afmt o.cmode (vCols o) i j) else some (false, 0, 0)
    match a, b, c with
    | some a, some b, some c => finishOp o.ofmt (exactOp v a b c)
    | _, _, _ => none

/-- Widen an element to FP32; `none` for a NaN or an infinity. -/
def vec32 (s : Tile) (base fmt mode w i j : Nat) : Option Nat :=
  let x := vecRaw s.tsp base fmt mode w i j
  if isFinite (fmtOf fmt) x then some (widen (fmtOf fmt) x) else none

/-- Narrow an FP32 result to the output format. -/
def narrowTo (ofmt x : Nat) : Nat × Bool := if ofmt = 0 then (x, false) else narrowSat (fmtOf ofmt) x

/-- EXP, LOG, RCP and RSQRT (R168). -/
def vopTrans (f : Nat → Option Nat) (s : Tile) (o : VopOp) : Work :=
  vecRows s o.d o.ofmt (vRows o) (vCols o) fun i j => (vec32 s o.a o.afmt 0 (vCols o) i j).bind f |>.map (narrowTo o.ofmt)

/-- A CP64 pair as the 64-bit element, hi in the low word; `none` where it is not finite. -/
def cpPack (p : Nat × Nat) : Option (Nat × Bool) :=
  if isFinite fp32 p.1 && isFinite fp32 p.2 then some (p.1 + 2 ^ 32 * p.2, false) else none

def cpUnpack (x : Nat) : Nat × Nat := (x % 2 ^ 32, x / 2 ^ 32 % 2 ^ 32)

def finitePair (p : Nat × Nat) : Bool := isFinite fp32 p.1 && isFinite fp32 p.2

/-- TWOSUM: a CP64 result (R166). -/
def vopTwosum (s : Tile) (o : VopOp) : Work :=
  vecRows s o.d 5 (vRows o) (vCols o) fun i j =>
    match vec32 s o.a o.afmt 0 (vCols o) i j, vec32 s o.b o.afmt o.bmode (vCols o) i j with
    | some a, some b => cpPack (twoSum a b)
    | _, _ => none

/-- CPADD: CP64 + CP64 (R142, R166). -/
def vopCpadd (s : Tile) (o : VopOp) : Work :=
  vecRows s o.d 5 (vRows o) (vCols o) fun i j =>
    let a := cpUnpack (vecRaw s.tsp o.a 5 0 (vCols o) i j)
    let b := cpUnpack (vecRaw s.tsp o.b 5 o.bmode (vCols o) i j)
    if finitePair a && finitePair b then cpPack (cpAdd a b) else none

/-! ## Reductions (R156, R169) -/

/-- Combine, an absent value being the identity. R156 gives the identity of an empty lane no value; here an empty lane
adds nothing, so a row of −0 sums to −0 and an RCSUM of one element takes no step of R142 (DESIGN CHOICE, log 134). -/
def optComb (f : α → α → α) : Option α → Option α → Option α
  | none, y => y
  | x, none => x
  | some x, some y => some (f x y)

/-- Lane l's accumulation of elements l, l + 64, l + 128, … -/
def laneAcc (f : α → α → α) (xs : List α) (l : Nat) : Option α :=
  (List.range (xs.length / 64 + 1)).foldl (fun a k => optComb f a (xs[l + 64 * k]?)) none

/-- The lane tree: lane l takes lane l + 32, then l + 16, 8, 4, 2 and 1. -/
def laneTree (f : α → α → α) (ls : List (Option α)) : Option α :=
  let step (ls : List (Option α)) (d : Nat) : List (Option α) :=
    (List.range d).map fun l => optComb f (ls.getD l none) (ls.getD (l + d) none)
  ([32, 16, 8, 4, 2, 1].foldl step ls).head?.join

/-- A row reduction in the order of R156. -/
def reduceRow (f : α → α → α) (xs : List α) : Option α :=
  laneTree f ((List.range 64).map fun l => laneAcc f xs l)

def fmax2 (a b : Nat) : Nat := if flt a b then b else a
def fmin2 (a b : Nat) : Nat := if flt b a then b else a

/-- −0 as +0. -/
def posZero (x : Nat) : Nat := if x = 2 ^ 31 then 0 else x

/-- FP32 values of one row; `none` when any is not finite. -/
def row32 (s : Tile) (o : VopOp) (i : Nat) : Option (List Nat) :=
  ((List.range (vCols o)).map fun j => vec32 s o.a o.afmt 0 (vCols o) i j).mapM id

/-- Write a column vector of h results. -/
def vecColumn (s : Tile) (d ofmt : Nat) (xs : List (Option (Nat × Bool))) : Work :=
  if xs.any Option.isNone then vopFault s (tbyte d) ((xs.length * fmtBits ofmt + 7) / 8)
  else
    { t := { s with tsp := mwrite s.tsp (tbyte d) (packRow ofmt (xs.map fun x => (x.getD (0, false)).1)) }
      flagged := xs.any fun x => (x.getD (0, false)).2 }

/-- A finite FP32 result narrowed to the output format; `none` where it is not finite. -/
def fin32 (ofmt : Nat) (x : Nat) : Option (Nat × Bool) :=
  if isFinite fp32 x then some (narrowTo ofmt x) else none

/-- RSUM, RMAX, RMIN and RMAXABS. -/
def vopReduce (f : List Nat → Option Nat) (s : Tile) (o : VopOp) : Work :=
  vecColumn s o.d o.ofmt ((List.range (vRows o)).map fun i => ((row32 s o i).bind f).bind (fin32 o.ofmt))

def redMaxabs (xs : List Nat) : Option Nat :=
  match reduceRow fmin2 xs, reduceRow fmax2 xs with
  | some mn, some mx => some (posZero (fmax2 (fneg mn) mx))
  | _, _ => none

/-- RCSUM: a compensated row reduction, written as CP64. -/
def vopRcsum (s : Tile) (o : VopOp) : Work :=
  vecColumn s o.d 5 ((List.range (vRows o)).map fun i =>
    ((row32 s o i).bind fun xs => reduceRow cpAdd (xs.map fun x => (x, 0))).bind cpPack)

/-- CSUM and CMAX: a column reduction, rows ascending. -/
def vopColumns (f : Nat → Nat → Nat) (s : Tile) (o : VopOp) : Work :=
  vecColumn s o.d o.ofmt ((List.range (vCols o)).map fun j =>
    let xs := ((List.range (vRows o)).map fun i => vec32 s o.a o.afmt 0 (vCols o) i j).mapM id
    match xs with
    | some (x :: r) => fin32 o.ofmt (r.foldl f x)
    | _ => none)

/-! ## Exponent tables (R170) -/

/-- EMAX8 and EMIN8 over bytes of two E8M0 tables. -/
def vopEbytes (f : Nat → Nat → Nat) (s : Tile) (o : VopOp) : Work :=
  vecRows s o.d 6 (vRows o) (vCols o) fun i j =>
    let a := vecRaw s.tsp o.a 6 0 (vCols o) i j
    let b := vecRaw s.tsp o.b 6 o.bmode (vCols o) i j
    if a = 0xFF ∨ b = 0xFF then none else some (f a b, false)

/-! ## Images -/

/-- IADD: the integer aligned add of two wide images (R148). -/
def vopIadd (s : Tile) (o : VopOp) : Work :=
  let ba := mread s.tsp (tbyte o.a) 8448
  let bb := mread s.tsp (tbyte o.b) 8448
  let a := imageTile ba
  let b := imageTile bb
  let ok := !a.narrow && !b.narrow &&
    ((List.range 32).all fun c => decide (nth 0 ba (128 + c) = nth 0 bb (128 + c))) &&
    ((List.range 32).all fun r =>
      let x := tget 0 a.rscale r
      let y := tget 0 b.rscale r
      decide (x = y) || decide (x = 0) || decide (y = 0))
  if !ok then { t := s, code := fmtFault 0x28 }
  else
    let sums := (List.range 1024).map fun i => satEntry 64 (tget 0 a.ent i + tget 0 b.ent i)
    let nsat := (sums.filter (·.2)).length
    let npart := min 0xFFFFFFFF (fieldAt ba 160 4 + fieldAt bb 160 4)
    let ntrunc := min 0xFFFFFFFF (fieldAt ba 164 4 + fieldAt bb 164 4)
    let was := a.bound || b.bound
    let bound := was || decide (2 ^ 24 < npart)
    let t : AccTile :=
      { opened := true, ent := tblOf 0 (sums.map (·.1)), nparts := [(0, npart)], ntrunc := [(0, ntrunc)]
        rscale := tblOf 0 ((List.range 32).map fun r => if tget 0 a.rscale r = 0 then tget 0 b.rscale r else tget 0 a.rscale r)
        eref := a.eref, sat := a.sat || b.sat || decide (0 < nsat), trunc := a.trunc || b.trunc
        outlier := a.outlier || b.outlier, bound := bound, csat := min 0xFFFF (a.csat + b.csat)
        maxspread := max a.maxspread b.maxspread, gid := Config.imageGid a.gid b.gid % 16 }
    { t := { s with tsp := mwrite s.tsp (tbyte o.d) (accImage t)
                    led := s.led.add { sat := nsat, bound := b2n (bound && !was) } } }

/-- Exact value of an entry: s_r · c_j · 2^(e_ref − F) · N (R115, R139). -/
def entryVal (scale cs eref frac : Nat) (n : Int) : Dy :=
  ((fvalD fp32 scale).mul (fvalD fp32 cs)).mul ⟨n, (eref : Int) - 133 - frac⟩

/-- hi := fl(x), lo := fl(x − hi) (R149). -/
def cpOf (x : Dy) : Nat × Nat :=
  let hi := Dy.round fp32 x
  (hi, Dy.round fp32 (x.sub (fvalD fp32 hi)))

/-- Bytes of a CP64 image (R150). -/
def cpImage (count csat flags : Nat) (ent : List Nat) : List Byte :=
  leBytes 4 (min 0xFFFFFFFF count) ++ leBytes 2 (min 0xFFFF csat) ++ [BitVec.ofNat 8 flags] ++ zeros 57 ++
    ent.flatMap fun x => leBytes 8 x

/-- DEQ: a wide image to a CP64 image (R149). Its channel scales are checked before anything is written (R38). -/
def vopDeq (s : Tile) (o : VopOp) : Work :=
  let ba := mread s.tsp (tbyte o.a) 8448
  let a := imageTile (patch ba 172 [BitVec.ofNat 8 (fieldAt ba 172 1 % 16)])
  let cs := (List.range 32).map fun j => readCs s.tsp (tbyte o.c + 4 * j)
  let ds := (List.range 32).map fun r => readDesc s.tsp (tbyte o.b + 8 * r)
  let ok := (List.range 32).all fun r =>
    let rs := tget 0 a.rscale r
    decide (rs = 0) || ((nth {} ds r).ok && decide ((nth {} ds r).scale = rs))
  let ent := (List.range 1024).map fun i =>
    let r := i / 32
    let rs := tget 0 a.rscale r
    if rs = 0 then some (0, false)
    else cpPack (cpOf (entryVal rs (nth 0 cs (i % 32)) (mget a.eref (i % 32)).toNat 16 (tget 0 a.ent i)))
  if !(cs.all csOk) then { t := s, code := fmtFault 0x28 }
  else if !ok || ent.any Option.isNone then vopFault s (tbyte o.d) 8256
  else
    { t := { s with tsp := mwrite s.tsp (tbyte o.d) <|
        (cpImage 1 a.csat (fieldAt ba 172 1 % 16) (ent.map fun x => (x.getD (0, false)).1)) } }

/-- IMGADD: the compensated add of two CP64 images (R150). -/
def vopImgadd (s : Tile) (o : VopOp) : Work :=
  let ba := mread s.tsp (tbyte o.a) 8256
  let bb := mread s.tsp (tbyte o.b) 8256
  let ent := (List.range 1024).map fun i =>
    let x := cpUnpack (fieldAt ba (64 + 8 * i) 8)
    let y := cpUnpack (fieldAt bb (64 + 8 * i) 8)
    if finitePair x && finitePair y then cpPack (cpAdd x y) else none
  if ent.any Option.isNone then vopFault s (tbyte o.d) 8256
  else
    let count := fieldAt ba 0 4 + fieldAt bb 0 4
    let fl := (fieldAt ba 6 1 ||| fieldAt bb 6 1) % 16
    let b := decide (65536 < count) && !(bit fl 3)
    let fl := if decide (65536 < count) then fl ||| 8 else fl
    { t := { s with tsp := mwrite s.tsp (tbyte o.d) <|
               (cpImage count (fieldAt ba 4 2 + fieldAt bb 4 2) fl (ent.map fun x => (x.getD (0, false)).1))
                    led := s.led.add { bound := b2n b } } }

/-! ## Outlier contributions (R63, R172) -/

/-- A rational nearest integer of x / y with y positive. -/
def dyDivRne (x y : Dy) : Int :=
  let e := min x.e y.e
  let n := x.m.natAbs * 2 ^ (x.e - e).toNat
  let d := y.m.natAbs * 2 ^ (y.e - e).toNat
  let q : Int := ((divRne n d : Nat) : Int)
  if x.m < 0 then -q else q

/-- The compensated add of R142 with the second pair (x·w, +0): the product enters each FMA exactly (R63, R164). -/
def cpFma (a : Nat × Nat) (x w : Nat) : Nat × Nat :=
  let s := ffma x w a.1
  let bv := fsub s a.1
  let e := fadd (fsub a.1 (fsub s bv)) (ffma x w (fneg bv))
  let t := fadd (fadd a.2 0) e
  let rh := fadd s t
  (rh, fsub t (fsub rh s))

/-- The compensated FMA chain of one row and output channel. -/
def outlChain (ps : List (Nat × Nat)) : Nat × Nat :=
  ps.foldl (fun a (x, w) => cpFma a (widen bf16 x) (widen bf16 w)) (0, 0)

/-- The contributions of an OUTL to row r of a tile, in units of 2^(e_ref − 16); `none` on a format fault (R33, R63,
R130). -/
def outlRow (s : Tile) (o : VopOp) (t : AccTile) (cs : List Nat) (tag r : Nat) : Option AccPart :=
  let d := readDesc s.tsp (tbyte o.c + 8 * r)
  let sat := if d.carried then d.sat else 0
  let vs := (List.range (vCols o)).map fun j =>
    let ps := (List.range (o.o + 1)).map fun k =>
      (rawElem s.tsp (tbyte o.a + 64 * r) 1 k, rawElem s.tsp (tbyte o.b + k * rowLen 1 (vCols o)) 1 j)
    let v := outlChain ps
    let u := ((fvalD fp32 d.scale).mul (fvalD fp32 (nth 0 cs j))).mul ⟨1, ((mget t.eref j).toNat : Int) - 133 - 16⟩
    if (ps.all fun p => isFinite bf16 p.1 && isFinite bf16 p.2) && finitePair v then
      some (dyDivRne ((fvalD fp32 v.1).add (fvalD fp32 v.2)) u, false)
    else none
  if !d.ok || (noteScale t r d.scale sat).isNone then none
  else (vs.mapM id).map fun xs =>
    { tag := tag, tile := o.tile, row := r, parts := xs, scale := d.scale, carriedSat := sat, gid := o.gid, outl := true }

/-- Enter one row of contributions. -/
def enterOutl (a : AccTile × LedInc) (p : AccPart) : AccTile × LedInc :=
  let t := (noteScale a.1 p.row p.scale p.carriedSat).getD a.1
  let r := enterRow { t with outlier := true } p.row [p.parts] p.parts.length
  (r.1, a.2.plus { r.2 with outlier := p.parts.length })

/-- OUTL: contributions of o outlier channels to h + 1 rows and w + 1 columns of an accumulator tile (R63, R172). -/
def vopOutl (s : Tile) (tag : Nat) (o : VopOp) (errs : List WordErr) : Work :=
  let r := acmEcc s o.tile errs
  let s := r.1
  let t := tget {} s.acm o.tile
  let cs := (List.range (vCols o)).map fun j => readCs s.tsp (tbyte o.d + 4 * j)
  if r.2 then { t := s, code := 0x2201 }
  else if !t.opened || !(cs.all csOk) then { t := s, code := fmtFault 0x28 }
  else
    match ((List.range (vRows o)).map fun i => outlRow s o t cs tag i).mapM id with
    | none => { t := s, code := fmtFault 0x28 }
    | some ps =>
      let e := ps.foldl enterOutl (t, {})
      { t := ps.foldl (fun s p => noteEntered s [p]) { s with acm := tset {} s.acm o.tile e.1, led := s.led.add e.2 } }

end Sys2Proof.Machine
end

