-- ==== Sys2Proof/Machine/Drain.lean ====
section
/-!
DEFINITION. The drain unit: DRAIN with its narrow formats, requantisation and fused row statistics, ACMRD
and ACMWR (R65 to R67, R136 to R146, R155).
-/
namespace Sys2Proof.Machine

/-! ## Summation order (R155) -/

/-- G_a: eight values in the fixed tree. -/
def group8 (f : α → α → α) (d : α) (ys : List α) (a : Nat) : α :=
  let y (k : Nat) : α := nth d ys (a + k)
  f (f (f (y 0) (y 1)) (f (y 2) (y 3))) (f (f (y 4) (y 5)) (f (y 6) (y 7)))

/-- The row total of w = 8, 16, 24 or 32 drained columns. -/
def rowTotal (f : α → α → α) (d : α) (ys : List α) : α :=
  let g := group8 f d ys
  match ys.length / 8 with
  | 1 => g 0
  | 2 => f (g 0) (g 8)
  | 3 => f (f (g 0) (g 8)) (g 16)
  | _ => f (f (g 0) (g 8)) (f (g 16) (g 24))

/-! ## Fused records (R143, R144) -/

/-- The largest of a list by FP32 order, the first of equals. -/
def largest (ys : List Nat) : Nat :=
  match ys with
  | [] => 0
  | y :: r => r.foldl fmax2 y

/-- EXP of a difference that is not positive; −∞ gives +0. -/
def expLe (x : Nat) : Nat := (fexp x).getD 0

/-- ROWSUMEXP: (m', l') from the record's (m, l) and the drained columns. -/
def sumExp (merge : Bool) (m l : Nat) (ys : List Nat) : Nat × Nat :=
  let md := largest ys
  let m' := if merge then fmax2 m md else md
  let t := rowTotal fadd 0 (ys.map fun y => expLe (fsub y m'))
  (m', if merge then fadd (fmul l (expLe (fsub m m'))) t else t)

/-- The lowest FP32 value: what an unfilled TOPK slot holds. -/
def fp32Low : Nat := 0xFF7FFFFF

/-- Rank: larger value first, ties to the lower index (−0 equals +0). -/
def topBefore (a b : Nat × Nat) : Bool := flt b.1 a.1 || (!(flt a.1 b.1) && decide (a.2 < b.2))

/-- The k best entries in rank order. -/
def topK (k : Nat) (xs : List (Nat × Nat)) : List (Nat × Nat) := (xs.mergeSort fun a b => !(topBefore b a)).take k

/-- The TOPK record (R144). -/
def topBytes (xs : List (Nat × Nat)) : List Byte :=
  let v (i : Nat) : Nat × Nat := nth (fp32Low, 0xFFFFFFFF) xs i
  ((List.range 8).flatMap fun i => leBytes 4 (v i).1) ++ ((List.range 8).flatMap fun i => leBytes 4 (v i).2)

/-- Write the fused records of one row. -/
def fuseRow (m : Mem) (o : DrainOp) (i : Nat) (ys : List Nat) : Mem :=
  let a := tbyte o.recd + 32 * i
  let old (k : Nat) : Nat := if o.merge then leNat (mread m (a + 4 * k) 4) else 0
  let rmax := if o.rowmax then (if o.merge then fmax2 (old 0) (largest ys) else largest ys) else old 0
  let tot := rowTotal cpAdd (0, 0) (ys.map fun y => (y, 0))
  let rsum := if o.rowsum then (if o.merge then cpAdd (old 1, old 2) tot else tot) else (old 1, old 2)
  let se := if o.rowsumexp then sumExp o.merge (old 3) (old 4) ys else (old 3, old 4)
  let ncols := min 0xFFFFFFFF (old 5 + ys.length)
  let m1 := mwrite m a (leBytes 4 rmax ++ leBytes 4 rsum.1 ++ leBytes 4 rsum.2 ++ leBytes 4 se.1 ++ leBytes 4 se.2
    ++ leBytes 4 ncols ++ zeros 8)
  let b := tbyte o.recd + 2048 + 64 * i
  if o.topk then
    let k := o.k + 1
    let have_ := if o.merge then (List.range k).map fun j => (leNat (mread m (b + 4 * j) 4), leNat (mread m (b + 32 + 4 * j) 4)) else []
    let new := ((List.range ys.length).zip ys).map fun (c, y) => (y, 32 * o.ib + 8 * o.c8 + c)
    mwrite m1 b (topBytes (topK k (have_ ++ new)))
  else if o.merge then m1 else mwrite m1 b (zeros 64)

/-! ## DRAIN (R139 to R141, R145, R288) -/

/-- The FP32 value of an entry, and whether it exceeded FP32 (R66, R139). -/
def drainVal (scale cs eref frac : Nat) (n : Int) : Nat × Bool :=
  if n = 0 then (0, false) else (entryVal scale cs eref frac n).roundSat fp32

/-- Output of one row: the raw encodings, elements that exceeded, saturations and underflows. -/
def drainOut (o : DrainOp) (given : RowDesc) (ys : List (Nat × Bool)) : List Nat × Nat × Nat × Nat :=
  if o.ofmt = 6 ∨ o.ofmt = 7 then
    let q := quantRow (decide (o.ofmt = 7)) given.sym o.rnd given.scale given.zp [] (ys.map fun y => fvalD fp32 y.1)
    (q.1, (ys.filter (·.2)).length, q.2.1, q.2.2)
  else
    let rs := ys.map fun y => let n := narrowTo o.ofmt y.1; (n.1, n.2 || y.2)
    (rs.map (·.1), (rs.filter (·.2)).length, 0, 0)

/-- Rows of a DRAIN in ascending order; the FP32 values are kept for the fused records. -/
def drainGo (s : Tile) (stream : Nat) (o : DrainOp) (t : AccTile) (cs : List Nat) (given : RowDesc) (flag : Bool)
    (vals : List (Nat × List Nat)) : List Nat → Work × List (Nat × List Nat)
  | [] => ({ t := s, flagged := flag }, vals)
  | i :: rest =>
    let row := o.row0 + i
    let w := 8 * (o.w8 + 1)
    let rs := tget 0 t.rscale row
    let d := readDesc s.tsp (tbyte o.desc + 8 * i)
    if rs ≠ 0 ∧ ¬(d.ok = true ∧ d.scale = rs) then ({ t := s, code := fmtFault 0x1A }, [])
    else
      let ys := (List.range w).map fun k =>
        let c := 8 * o.c8 + k
        if rs = 0 then (0, false) else drainVal rs (nth 0 cs k) (mget t.eref c).toNat t.frac (tget 0 t.ent (32 * row + c))
      let (codes, ex, sat, under) := drainOut o given ys
      let rq := decide (o.ofmt = 6 ∨ o.ofmt = 7)
      let m := mwrite s.tsp (tbyte o.dst + i * rowLen o.ofmt w) (packRow o.ofmt codes)
      let m := if rq then mwrite m (tbyte o.recd + 64 + 8 * i) ({ given with sat := min 0xFFFF sat } : RowDesc).bytes else m
      let s := { s with tsp := m, led := s.led.add { sat := ex, csat := sat, cunder := under } }
      let s := if rq then addCarried s stream w sat else s
      drainGo s stream o t cs given (flag || decide (0 < ex) || decide (0 < sat)) (vals ++ [(i, ys.map (·.1))]) rest

/-- Any fused option selected. -/
def drainOpt (o : DrainOp) : Bool := o.rowmax || o.rowsum || o.rowsumexp || o.topk

/-- The whole of a DRAIN. -/
def drainWork (s : Tile) (stream : Nat) (o : DrainOp) (errs : List WordErr) : Work :=
  let (s, bad) := acmEcc s o.tile errs
  let t := tget {} s.acm o.tile
  let w := 8 * (o.w8 + 1)
  let cs := (List.range w).map fun k => readCs s.tsp (4 * o.cs + 4 * (8 * o.c8 + k))
  let rq := decide (o.ofmt = 6 ∨ o.ofmt = 7)
  let given := readDesc s.tsp (tbyte o.recd)
  if bad then { t := s, code := 0x2201 }
  else if !(cs.all csOk) || (rq && !(given.ok && decide (given.a4 = decide (o.ofmt = 7)))) then
    { t := s, code := fmtFault 0x1A }
  else
    let (r, vals) := drainGo s stream o t cs given t.flagged [] (List.range (o.h + 1))
    let r := if rq then { r with t := calibrate r.t stream } else r
    if r.code ≠ 0 ∨ drainOpt o = false then r
    else { r with t := { r.t with tsp := vals.foldl (fun m (i, ys) => fuseRow m o i ys) r.t.tsp } }

/-! ## ACMRD and ACMWR (R137, R138) -/

def acmrdWork (s : Tile) (o : AcmOp) (errs : List WordErr) : Work :=
  let (s, bad) := acmEcc s o.tile errs
  let t := tget {} s.acm o.tile
  if bad then { t := s, code := 0x2201 }
  else
    let t := { t with narrow := decide (slotKind s o.tile = 2) }
    let t := if o.widen then widenTile t else t
    { t := { s with tsp := mwrite s.tsp (tbyte o.img) (accImage t) }, flagged := t.flagged }

def acmwrWork (s : Tile) (o : AcmOp) : Work :=
  let narrow := decide (slotKind s o.tile = 2)
  let bs := mread s.tsp (tbyte o.img) (imageLen narrow)
  if bit (fieldAt bs 172 1) 4 = narrow ∧ imageOk bs = true then
    let x := imageTile bs
    let rise := x.bound && !(tget {} s.acm o.tile).bound
    { t := { s with acm := tset {} s.acm o.tile x, led := s.led.add { bound := b2n rise } } }
  else { t := s, code := fmtFault 0x19 }

end Sys2Proof.Machine
end

