-- ==== Sys2Proof/Machine/MacroOps.lean ====
section
/-!
DEFINITION. The compute macro: stored sums, passes, the ABFT check, the accumulation path, page writes and
reads, and the scrubber (R72 to R113).
-/
namespace Sys2Proof.Machine

/-! ## Page contents -/

/-- Logical columns of a page. -/
def Page.ncols (p : Page) : Nat := if p.w4 then 64 else 32

/-- Weight code of row r and logical column j (R75, R36). -/
def Page.wt (p : Page) (r j : Nat) : Int :=
  if p.w4 then sext 4 (bits (mget p.codes (32 * r + j / 2)).toNat (if j % 2 = 0 then 3 else 7) (if j % 2 = 0 then 0 else 4))
  else sext 8 (mget p.codes (32 * r + j)).toNat

/-- Row checksum, block sum and corner recomputed from the codes (R72). -/
def Page.rowSum (p : Page) (r : Nat) : Int := sumToI p.ncols fun j => p.wt r j
def Page.colSum (p : Page) (j : Nat) : Int := sumToI 32 fun r => p.wt r j

/-- The page with every stored sum recomputed from its codes. -/
def Page.resum (p : Page) : Page :=
  { p with rows := tblOf 0 ((List.range 32).map p.rowSum), cols := tblOf 0 ((List.range p.ncols).map p.colSum)
           corner := sumToI 32 p.rowSum }

/-- Block-exponent byte of a logical column (R37, R75). -/
def Page.eb (p : Page) (j : Nat) : Nat := (mget p.exps j).toNat

/-- Codeword k of a row: 8 bytes of codes. -/
def codeword (codes : List Byte) (i : Nat) : Nat := leNat ((codes.drop (8 * i)).take 8)

/-- The guard check bits of a page's codes (R72, R92). -/
def guardOf (codes : List Byte) : List Byte := (List.range 128).map fun i => Config.guardBits (codeword codes i)

/-- The guard check bits that a page holds; those of a cleared page are the ones of zero codes (R72, R78). -/
def Page.checkBits (p : Page) : List Byte := if p.guard.isEmpty then guardOf [] else p.guard

/-- Does every exponent entry the format uses hold one byte (R123)? -/
def Page.tied (p : Page) : Bool := (List.range p.ncols).all fun j => decide (p.eb j = p.eb 0)

/-! ## Passes (R79 to R89) -/

/-- Input code i of a pass. -/
def PassJob.code (j : PassJob) (i : Nat) : Int := Int.ofNat (nth 0 j.codes i)

/-- Results of a pass: 32 or 64 exact sums, and what the checksum column or block-sum row forms. -/
def passResults (p : Page) (j : PassJob) : List Int × Int :=
  if j.transposed then
    let n := p.ncols
    ((List.range 32).map fun r => -(j.z : Int) * tget 0 p.rows r + sumToI n fun c => j.code c * p.wt r c,
     -(j.z : Int) * p.corner + sumToI n fun c => j.code c * tget 0 p.cols c)
  else
    ((List.range p.ncols).map fun c => -(j.z : Int) * tget 0 p.cols c + sumToI 32 fun r => j.code r * p.wt r c,
     -(j.z : Int) * p.corner + sumToI 32 fun r => j.code r * tget 0 p.rows r)

/-- The zero-plane mask: bit b is set when some code has bit b set (R79). -/
def zeroPlaneMask (codes : List Nat) : Nat := codes.foldl (fun a c => a ||| c) 0

/-- Number of set bits of the mask. -/
def planesOf (mask : Nat) : Nat := ((List.range 8).filter fun b => mask.testBit b).length

/-- Plane cycles of a pass (R81, R83). -/
def planeCycles (transposed : Bool) (mask : Nat) : Nat :=
  max 2 (if transposed then 2 * planesOf mask else planesOf mask)

def macroOf (s : Tile) (pm : Nat) : Macro := tget {} s.macros pm
def setMacro (s : Tile) (pm : Nat) (m : Macro) : Tile := { s with macros := tset {} s.macros pm m }
def pageOf (s : Tile) (pm p : Nat) : Page := tget {} s.pages (pageKey pm p)
def setPage (s : Tile) (pm p : Nat) (x : Page) : Tile := { s with pages := tset {} s.pages (pageKey pm p) x }

/-- Is a pass in flight on the page (R96)? -/
def Macro.inFlight (m : Macro) (page : Nat) : Bool :=
  (m.latched.any fun j => decide (j.page = page)) ||
  (match m.outA with | some r => decide (r.job.page = page) | none => false) ||
  (match m.outB with | some r => decide (r.job.page = page) | none => false)

/-- Does an earlier write to the page hold a pass back (R96, R97)? -/
def Macro.writeAhead (m : Macro) (page order : Nat) : Bool :=
  (m.portQ.any fun o => !o.rd && decide (o.page = page) && decide (o.order < order)) ||
  (match m.stage with | some g => decide (g.op.page = page) | none => false)

/-- Frozen until its confirmation (R100), or marked for retirement and so out of service (R106). -/
def outOfService (s : Tile) (pm : Nat) : Bool := (macroOf s pm).frozen || s.ret.mret.getLsbD pm

/-- The next pass of a macro is latched: the first that no earlier write to its page holds (R79, R85, R97); a TPASS on
a page whose exponents differ faults (R123). -/
def passLatch (s : Tile) (pm : Nat) : Tile :=
  let m := macroOf s pm
  if outOfService s pm || decide (2 ≤ m.latched.length) then s
  else
    match m.passQ.find? fun j => !m.writeAhead j.page j.order with
    | none => s
    | some j =>
      if j.transposed && !(pageOf s pm j.page).tied then failAcc s j.tag
      else
        let j' := { j with mask := zeroPlaneMask (j.codes.take (if j.transposed then (pageOf s pm j.page).ncols else 32)) }
        setMacro s pm { m with passQ := m.passQ.erase j, latched := m.latched ++ [j'] }

/-- Apply injected errors to the results and the checksum (index past the results: the checksum). -/
def applyUpset (r : List Int × Int) (u : List (Nat × Int)) : List Int × Int :=
  u.foldl (fun r e => if e.1 < r.1.length then (r.1.set e.1 (nth 0 r.1 e.1 + e.2), r.2) else (r.1, r.2 + e.2)) r

/-- The pass in its planes ends: its results move to the free output register, A first (R79, R86). -/
def passResultsMove (s : Tile) (pm : Nat) (upset : List (Nat × Int)) : Tile :=
  let m := macroOf s pm
  match m.latched with
  | [] => s
  | j :: rest =>
    if outOfService s pm then s
    else
      let r := applyUpset (passResults (pageOf s pm j.page) j) upset
      let o : OutReg := { job := j, res := r.1, chk := r.2 }
      if m.outA = none then setMacro s pm { m with latched := rest, outA := some o }
      else if m.outB = none then setMacro s pm { m with latched := rest, outB := some o }
      else s

/-- A 27-bit two's-complement value (R98). -/
def wrap27 (x : Int) : Int := sext 27 (toField 27 x)

/-- Free an output register. -/
def freeReg (s : Tile) (pm : Nat) (regB : Bool) : Tile :=
  let m := macroOf s pm
  setMacro s pm (if regB then { m with outB := none } else { m with outA := none })

/-- Has the instruction of a tag ended in a fault, or been abandoned? -/
def deadTag (s : Tile) (tag : Nat) : Bool :=
  match flightOf s tag with
  | some f => decide (f.code ≠ 0)
  | none => true

/-- The ABFT check of an output register (R98 to R100). On a mismatch the macro freezes and the tile stops issue. -/
def abftCheck (s : Tile) (pm : Nat) (regB : Bool) : Tile :=
  let m := macroOf s pm
  match (if regB then m.outB else m.outA) with
  | none => s
  | some o =>
    if o.eligible || m.frozen then s
    else if wrap27 (o.res.foldl (· + ·) 0) = wrap27 o.chk then
      let o' := some { o with eligible := true, age := s.ageCtr }
      let t := setMacro s pm (if regB then { m with outB := o' } else { m with outA := o' })
      let t := { t with led := t.led.add { abft := 1 } }
      if deadTag s o.job.tag then freeReg t pm regB else t
    else
      let code := if o.job.transposed then 0x1002 else 0x1001
      let first := !deadTag s o.job.tag
      let s := failFlight { setMacro s pm { m with frozen := true } with halted := true } o.job.tag code
      if first then modFlight s o.job.tag fun f => { f with lm := logMacro s.ret pm, pm := pm } else s

/-! ## The accumulation path (R120, R121) -/

/-- Eligible registers in taking order: eligibility first, then lowest physical macro (R120). -/
def eligibleRegs (s : Tile) : List (Nat × Bool × OutReg) :=
  let all := s.macros.flatMap fun e =>
    (match e.2.outA with | some o => if o.eligible then [(e.1, false, o)] else [] | none => []) ++
    (match e.2.outB with | some o => if o.eligible then [(e.1, true, o)] else [] | none => [])
  all.mergeSort fun a b => decide (a.2.2.age < b.2.2.age) || (decide (a.2.2.age = b.2.2.age) && decide (a.1 ≤ b.1))

/-- Reference exponents the partials of a job meet in a tile: the table an overwrite will open it with, or
the open tile's own (R121, R126). -/
def jobEref (s : Tile) (tag : Nat) (ovw : Bool) (tile addr : Nat) : List Byte :=
  let opening := ovw && (match flightOf s tag with | some f => !(f.openedTiles.contains tile) | none => false)
  if opening then erefBytes s addr else (List.range 32).map fun c => mget (tget {} s.acm tile).eref c

/-- Align one register into its parts; `none` on the fault of R121. -/
def alignReg (s : Tile) (pm : Nat) (o : OutReg) : Option (List AccPart) :=
  let j := o.job
  let p := pageOf s pm j.page
  let one (k : Nat) (lastPart : Bool) : Option AccPart :=
    let tile := j.tile + k * j.tstep
    let frac := if slotKind s tile = 2 then 8 else 16
    let er := jobEref s j.tag j.ovw tile (j.eref + 32 * k)
    let eref (c : Nat) : Nat := (nth 0 er c).toNat
    let eb (c : Nat) : Nat := if j.transposed then p.eb 0 else p.eb (32 * k + c)
    let ps := (o.res.drop (32 * k)).take 32
    (alignRow frac eref eb ps).map fun a =>
      { tag := j.tag, tile := tile, row := j.row, parts := a, scale := j.scale, carriedSat := j.carriedSat
        ovw := j.ovw, gid := j.gid, eref := er, maxspread := spreadRow eref eb ps, last := lastPart }
  if 32 < o.res.length then
    match one 0 false, one 1 true with
    | some a, some b => some [a, b]
    | _, _ => none
  else (one 0 true).map fun a => [a]

/-- Cost in capacity units of a register (R120). -/
def regCost (s : Tile) (o : OutReg) : Nat := if slotKind s o.job.tile = 2 then 1 else 2

/-- Take registers in strict order while units remain. -/
def takeGo (s : Tile) (units : Nat) (batch : List AccPart) : List (Nat × Bool × OutReg) → Tile × List AccPart
  | [] => (s, batch)
  | (pm, b, o) :: rest =>
    if deadTag s o.job.tag then takeGo (freeReg s pm b) units batch rest
    else if units < regCost s o then (s, batch)
    else
      let s' := freeReg s pm b
      match alignReg s pm o with
      | some ps =>
        let d := ps.foldl (fun (d : LedInc) p =>
          d.plus { trunc := (p.parts.filter (·.2)).length, maxspread := p.maxspread }) {}
        takeGo { s' with led := s'.led.add d } (units - regCost s o) (batch ++ ps) rest
      | none => takeGo (failAcc s' o.job.tag) (units - regCost s o) (batch.filter fun p => decide (p.tag ≠ o.job.tag)) rest

/-- One cycle of the accumulation path: at most 16 units, oldest first (R120). -/
def accumTake (s : Tile) : Tile :=
  let r := takeGo s 16 [] (eligibleRegs s)
  let s := { r.1 with ageCtr := r.1.ageCtr + 1 }
  if r.2.isEmpty then s else { s with accQ := s.accQ ++ [r.2] }

/-- The oldest batch of the accumulation path, without the instructions whose entries read with a double-bit error
(R119): these end with the memory fault. -/
def nextBatch (s : Tile) (errs : List WordErr) : Tile × List AccPart :=
  match s.accQ with
  | [] => (s, [])
  | b :: rest =>
    let tile := match b with
      | p :: _ => p.tile
      | [] => 0
    let r := acmEcc { s with accQ := rest } tile errs
    if r.2 then (b.foldl (fun s p => failFlight s p.tag 0x2201) r.1, []) else (r.1, b)

/-- The oldest batch is written into the entries (R120, R129). -/
def accumEntryWrite (s : Tile) (errs : List WordErr) : Tile :=
  let r := nextBatch s errs
  if r.2.isEmpty then r.1 else enterBatch r.1 r.2

/-! ## Issue of passes (R283, R298) -/

/-- The passes of a CPASS or TPASS, row by row and member by member; `none` on a descriptor fault (R33). -/
def passJobs (s : Tile) (transposed : Bool) (o : PassOp) (tag order : Nat) : Option (List (Nat × PassJob)) :=
  let g := readGroup s.plan o.grp
  let pat := readPattern s.plan o.pat
  let rows := (List.range (o.h + 1)).map fun i => (i, readDesc s.tsp (tbyte o.desc + 8 * i))
  if rows.all (fun r => r.2.ok) then
    some (rows.flatMap fun (i, d) =>
      g.mem.map fun m =>
        let off := if transposed then g.rbp m o.page - g.rmin o.page else g.cbp m o.page - g.cmin o.page
        let c0 := 32 * (if transposed then g.cbp m o.page - g.cmin o.page else g.rbp m o.page - g.rmin o.page)
        let step := tileStep s o.tile
        (physMacro s.ret m.lm,
         { tag := tag, order := order, page := o.page, a4 := o.a4, transposed := transposed
           codes := (List.range (if transposed then 64 else 32)).map fun k => pat.elem s.tsp d.zp i (c0 + k)
           z := d.zp, scale := d.scale, carriedSat := if d.carried then d.sat else 0
           tile := o.tile + off * step, tstep := step, ovw := o.ovw, gid := o.gid, row := o.row0 + i
           eref := tbyte o.eref + o.eidx + 32 * off }))
  else none

/-- Queue passes at their macros. -/
def queuePasses (s : Tile) (js : List (Nat × PassJob)) : Tile :=
  js.foldl (fun s (pm, j) => let m := macroOf s pm; setMacro s pm { m with passQ := m.passQ ++ [j] }) s

/-! ## Page writes and reads (R90 to R97) -/

/-- One staged source byte: the code it stores and its legality (R35, R91). -/
def stageByte (w4 centred : Bool) (b : Byte) : Byte × Bool :=
  if w4 then
    let lo := b.toNat % 16
    let hi := b.toNat / 16
    if centred then
      (BitVec.ofNat 8 ((lo + 8) % 16 + 16 * ((hi + 8) % 16)), decide (lo ≠ 0) && decide (hi ≠ 0))
    else (b, decide (lo ≠ 8) && decide (hi ≠ 8))
  else if centred then (b + 0x80, decide (b ≠ 0)) else (b, decide (b ≠ 0x80))

/-- May a page-port operation start once the port is free (R96, R97)? A write waits for the passes on its page that
came before it, every operation for the earlier writes to its page, a write for the earlier reads; an UPD page waits
until the update engine has reached it (R195). -/
def canStart (s : Tile) (pm : Nat) (o : PageWrite) : Bool :=
  let m := macroOf s pm
  (o.rd || (!(m.inFlight o.page) && !(m.passQ.any fun j => decide (j.page = o.page) && decide (j.order < o.order)))) &&
  !(m.portQ.any fun q => decide (q.page = o.page) && decide (q.order < o.order) && !(o.rd && q.rd)) &&
  (!o.upd || (match s.updQ with
    | u :: _ => decide (u.tag = o.tag) && decide (u.pm = pm) && decide (u.page = o.page)
    | [] => false))

/-- The earliest of some operations in issue order. -/
def earliest (l : List PageWrite) : Option PageWrite :=
  l.foldl (fun a o => match a with
    | none => some o
    | some b => if o.order < b.order then some o else a) none

/-- The operation that has the page port next: of those that may start, the first in issue order (R96). -/
def nextPort (s : Tile) (pm : Nat) : Option PageWrite := earliest ((macroOf s pm).portQ.filter (canStart s pm))

/-- Take an operation out of the port's queue. -/
def unqueuePort (s : Tile) (pm : Nat) (o : PageWrite) : Tile :=
  let m := macroOf s pm
  setMacro s pm { m with portQ := m.portQ.filter fun q => decide (q ≠ o) }

/-- Codewords of a page whose data the decoder passes on wrong hold free values (R564). -/
def freePageWords (s : Tile) (pm page : Nat) (ws : List Nat) : Tile :=
  ws.foldl (fun s k =>
    let p := pageOf s pm page
    { setPage s pm page { p with codes := mwrite p.codes (8 * k) (freeBytes s.free 8) } with free := s.free + 8 }) s

/-- One PGRD member has the port: codes and the exponent word go to the TSP. Each codeword in error is counted; a
correctable one is left to the scrubber to write back (R94). -/
def runRead (s : Tile) (pm : Nat) (o : PageWrite) : Tile :=
  let es := o.errs.map (·.ecc)
  let s := freePageWords (unqueuePort s pm o) pm o.page (wrongWords o.errs)
  let s := { s with err := { s.err with macroCe := errAdd s.err.macroCe (eccSingles es), macroUe := errAdd s.err.macroUe (eccDoubles es) } }
  let m := macroOf s pm
  let fixed := (o.errs.filter fun e => decide (eccSingles [e.ecc] = 1)).map fun e =>
    ({ page := o.page, what := .word (e.word / 4) (e.word % 4), counted := true } : WriteBack)
  let s := setMacro s pm { m with scrub := { m.scrub with wb := m.scrub.wb ++ fixed } }
  let p := pageOf s pm o.page
  if 0 < eccDoubles es then
    modFlight (failFlight s o.tag 0x2002) o.tag fun f => { f with lm := logMacro s.ret pm, pm := pm }
  else partDone { s with tsp := mwrite s.tsp o.img (mread p.codes 0 1024 ++ mread p.exps 0 64) } o.tag

/-- Reads run while they have the port next. -/
def runReadsGo (s : Tile) (pm : Nat) : Nat → Tile
  | 0 => s
  | n + 1 =>
    if (macroOf s pm).stage.isSome || outOfService s pm then s
    else
      match nextPort s pm with
      | some o => if o.rd then runReadsGo (runRead s pm o) pm n else s
      | none => s

def runReads (s : Tile) (pm : Nat) : Tile := runReadsGo s pm (macroOf s pm).portQ.length

/-- Is every source byte of a member's image and exponent word legal (R35, R91, R92)? -/
def imageLegal (s : Tile) (o : PageWrite) : Bool :=
  ((mread s.tsp o.img 1024).map (stageByte o.w4 o.centred)).all (·.2) &&
  (o.keepExp || !(((mread s.tsp o.exp 64).take (if o.w4 then 64 else 32)).contains 0xFF))

/-- The operation that has the port starts: a read runs whole; the source words of a page write enter the staging
buffer, each checked as it enters (R92). An UPD page starts with its engine (R195). -/
def pageWriteStart (s : Tile) (pm : Nat) : Tile :=
  if (macroOf s pm).stage.isSome || outOfService s pm then s
  else
    match nextPort s pm with
    | none => s
    | some o =>
      if o.rd then runReads s pm
      else if o.upd then s
      else
        let g : Staged :=
          { op := o, codes := ((mread s.tsp o.img 1024).map (stageByte o.w4 o.centred)).map (·.1)
            exps := if o.keepExp then [] else (mread s.tsp o.exp 64).take (if o.w4 then 64 else 32), legal := imageLegal s o }
        let s := unqueuePort s pm o
        setMacro s pm { macroOf s pm with stage := some g }

/-- A page that a write commits counts as scrubbed, and its scrub ends there (R103). -/
def Scrub.committed (sc : Scrub) (page : Nat) : Scrub :=
  let done := if sc.done.contains page then sc.done else page :: sc.done
  let wb := sc.wb.filter fun w => decide (w.page ≠ page)
  if sc.page = page then { page := (page + 1) % 8, row := 0, bad := false, wb := wb, done := done }
  else { sc with wb := wb, done := done }

/-- Is every image of a PGWR that is staged or still waits legal (R93)? -/
def groupLegal (s : Tile) (tag : Nat) : Bool :=
  s.macros.all fun e =>
    (e.2.portQ.all fun o => decide (o.tag ≠ tag) || o.rd || o.upd || imageLegal s o) &&
    (match e.2.stage with
     | some g => decide (g.op.tag ≠ tag) || g.legal
     | none => true)

/-- The page a staged write leaves (R92, R95). -/
def Page.committed (p : Page) (g : Staged) : Page :=
  Page.resum { p with w4 := g.op.w4, codes := mwrite [] 0 g.codes, guard := guardOf g.codes, exps := mwrite p.exps 0 g.exps }

/-- The commit of a page write, or its format fault (R92, R93, R95, R103): a member commits while every image of its group
is legal, and nothing of an instruction that has failed. -/
def pageWriteCommit (s : Tile) (pm : Nat) : Tile :=
  let m := macroOf s pm
  match m.stage with
  | none => s
  | some g =>
    if outOfService s pm then s
    else
      let u := setMacro s pm { m with stage := none }
      if deadTag s g.op.tag then runReads u pm
      else if groupLegal s g.op.tag then
        let u := setPage u pm g.op.page ((pageOf s pm g.op.page).committed g)
        let m := macroOf u pm
        runReads (partDone (setMacro u pm { m with scrub := m.scrub.committed g.op.page }) g.op.tag) pm
      else
        match flightOf s g.op.tag with
        | some f => runReads (failFlight u g.op.tag (fmtFault (opcodeOf f.op))) pm
        | none => runReads u pm

/-- Queue page-port operations. -/
def queuePort (s : Tile) (os : List (Nat × PageWrite)) : Tile :=
  os.foldl (fun s (pm, o) => let m := macroOf s pm; setMacro s pm { m with portQ := m.portQ ++ [o] }) s

/-- Members' page writes of a PGWR (R284). -/
def pgwrOps (s : Tile) (o : PgwrOp) (tag order : Nat) : List (Nat × PageWrite) :=
  let g := readGroup s.plan o.grp
  ((List.range g.mem.length).zip g.mem).map fun (k, m) =>
    (physMacro s.ret m.lm,
     { tag := tag, order := order, page := o.page, w4 := o.w4, centred := o.centred, keepExp := o.keepExp
       img := tbyte (o.img + k * o.istep), exp := tbyte (o.exp + k * o.estep) })

/-- Members' page reads of a PGRD (R94, R284). -/
def pgrdOps (s : Tile) (o : PgrdOp) (tag order : Nat) (errs : List PageErr) : List (Nat × PageWrite) :=
  let g := readGroup s.plan o.grp
  ((List.range g.mem.length).zip g.mem).map fun (k, m) =>
    (physMacro s.ret m.lm,
     { tag := tag, order := order, page := o.page, img := tbyte (o.img + k * o.istep), rd := true
       errs := (errs.filter fun e => decide (e.member = k)).map fun e => { word := e.word % 128, ecc := e.ecc } })

/-! ## Scrubbing (R101 to R104). Each step answers the fault it raises, 0 for none. -/

/-- Does the scrubber have the page port: no instruction stages, or may start (R96, R103)? -/
def scrubHasPort (s : Tile) (pm : Nat) : Bool :=
  (macroOf s pm).stage.isNone && (nextPort s pm).isNone && !outOfService s pm

/-- Read and check one row of the page being scrubbed: `errs` are its codewords in error, and `sumWrong` says that the
stored S_r reads wrong. -/
def scrubRowRead (s : Tile) (pm : Nat) (errs : List WordErr) (sumWrong : Bool) : Tile × Nat :=
  let sc := (macroOf s pm).scrub
  if !scrubHasPort s pm || decide (32 ≤ sc.row) then (s, 0)
  else
    let es := errs.map (·.ecc)
    let s := freePageWords s pm sc.page ((wrongWords errs).map fun k => 4 * sc.row + k % 4)
    let p := pageOf s pm sc.page
    let dbl := decide (0 < eccDoubles es)
    let words := (errs.filter fun e => decide (eccSingles [e.ecc] = 1)).map fun e =>
      ({ page := sc.page, what := .word sc.row (e.word % 4) } : WriteBack)
    let sums : List WriteBack :=
      if dbl || (decide (tget 0 p.rows sc.row = p.rowSum sc.row) && !sumWrong) then [] else [{ page := sc.page, what := .rowSum sc.row }]
    let m := macroOf s pm
    let s := setMacro s pm { m with scrub := { sc with row := sc.row + 1, bad := sc.bad || dbl, wb := sc.wb ++ words ++ sums } }
    ({ s with err := { s.err with macroUe := errAdd s.err.macroUe (eccDoubles es) } }, if dbl then 0x2001 else 0)

/-- Does a codeword of the page still wait for its correction? -/
def Scrub.uncorrected (sc : Scrub) : Bool :=
  sc.wb.any fun w => decide (w.page = sc.page) && (match w.what with | .word .. => true | _ => false)

/-- Compare the accumulated column sums and total with the stored ones, and end the page (R101); `sumsWrong` names the
stored C_c (by column) and T (64) that read wrong. The comparison waits until the page's codewords are corrected. The
scrubber goes through the pages from 0 upward and starts again after page 7: R104 gives no order (DESIGN CHOICE,
log 139). -/
def scrubColumnCompare (s : Tile) (pm : Nat) (sumsWrong : List Nat) : Tile :=
  let m := macroOf s pm
  let sc := m.scrub
  if !scrubHasPort s pm || decide (sc.row < 32) || sc.uncorrected then s
  else
    let p := pageOf s pm sc.page
    let cols := ((List.range p.ncols).filter fun j => decide (tget 0 p.cols j ≠ p.colSum j) || sumsWrong.contains j).map fun j =>
      ({ page := sc.page, what := .colSum j } : WriteBack)
    let corner : List WriteBack :=
      if p.corner = sumToI 32 p.rowSum ∧ sumsWrong.contains 64 = false then [] else [{ page := sc.page, what := .corner }]
    setMacro s pm { m with scrub :=
      { page := (sc.page + 1) % 8, row := 0, bad := false, wb := if sc.bad then sc.wb else sc.wb ++ cols ++ corner
        done := if sc.done.contains sc.page then sc.done else sc.page :: sc.done } }

/-- A page with one write-back made. -/
def Page.rewrite (p : Page) : WbWhat → Page
  | .word .. => p
  | .rowSum r => { p with rows := tset 0 p.rows r (p.rowSum r) }
  | .colSum c => { p with cols := tset 0 p.cols c (p.colSum c) }
  | .corner => { p with corner := sumToI 32 p.rowSum }

/-- Make one write-back, which counts once in TILE_MACRO_CE. -/
def makeWriteBack (s : Tile) (pm : Nat) (w : WriteBack) : Tile :=
  let m := macroOf s pm
  let s := setPage (setMacro s pm { m with scrub := { m.scrub with wb := m.scrub.wb.erase w } }) pm w.page ((pageOf s pm w.page).rewrite w.what)
  if w.counted then s else { s with err := { s.err with macroCe := errAdd s.err.macroCe 1 } }

/-- Write back what the scrub found and read it again (R102): a reread that differs is a stuck cell. It counts in
TILE_MACRO_UE, and in TILE_MACRO_CE with the correction that was made: R102 does not say whether the failed correction
counts (DESIGN CHOICE, log 138). The stored sum of a row with a stuck cell is not rewritten (R101). -/
def scrubWriteBack (s : Tile) (pm : Nat) (rereadDiffers : Bool) : Tile × Nat :=
  let m := macroOf s pm
  if !scrubHasPort s pm then (s, 0)
  else
    match m.scrub.wb.find? fun w => !(m.inFlight w.page) with
    | none => (s, 0)
    | some w =>
      let s := makeWriteBack s pm w
      if rereadDiffers then
        let m := macroOf s pm
        let s := { s with err := { s.err with macroUe := errAdd s.err.macroUe 1 } }
        match w.what with
        | .word r _ =>
          let sc := m.scrub
          (setMacro s pm { m with scrub := { sc with bad := sc.bad || decide (w.page = sc.page)
                                                     wb := sc.wb.filter fun x => decide (x.page ≠ w.page ∨ x.what ≠ .rowSum r) } }, 0x1003)
        | _ => (s, 0x1004)
      else (s, 0)

/-- Stored sums of a page that differ from its codes: rows, columns, and whether the corner does. -/
def Page.wrongRows (p : Page) : List Nat := (List.range 32).filter fun r => decide (tget 0 p.rows r ≠ p.rowSum r)
def Page.wrongCols (p : Page) : List Nat := (List.range p.ncols).filter fun j => decide (tget 0 p.cols j ≠ p.colSum j)
def Page.wrongCorner (p : Page) : Bool := decide (p.corner ≠ sumToI 32 p.rowSum)

/-- The maintenance slot completes the Beat's scrubs (R104, R326): what the scrubber still has to write back is written,
and every page not yet scrubbed is scrubbed, its stored sums compared with its codes. Errors of codewords in these pages
come as scrub rows before the slot ends (DESIGN CHOICE, log 140). -/
def slotScrubMacro (s : Tile) (pm : Nat) : Tile :=
  if outOfService s pm then s
  else
    let s := (macroOf s pm).scrub.wb.foldl (fun s w => makeWriteBack s pm w) s
    let todo := (List.range 8).filter fun k => !((macroOf s pm).scrub.done.contains k) && (s.pages.any fun e => decide (e.1 = pageKey pm k))
    let s := todo.foldl (fun s k =>
      let p := pageOf s pm k
      let wrong := p.wrongRows.length + p.wrongCols.length + b2n p.wrongCorner
      if wrong = 0 then s
      else { setPage s pm k p.resum with err := { s.err with macroCe := errAdd s.err.macroCe wrong } }) s
    let m := macroOf s pm
    setMacro s pm { m with scrub := {} }

/-! ## The confirmation of a macro (R105) -/

/-- The pass whose check failed in a frozen macro (R100). -/
def failingPass (m : Macro) : Option PassJob :=
  ((m.outA.toList ++ m.outB.toList).find? fun o => !o.eligible && decide (wrap27 (o.res.foldl (· + ·) 0) ≠ wrap27 o.chk)).map (·.job)

/-- The confirmation's scrub of a page under R101 and R102: `errs` are its codewords in error, `sums` the stored sums that
read wrong, and `stuck` the cells whose reread differs. Answers whether it met a stuck cell or an uncorrectable error. -/
def confirmScrub (s : Tile) (pm page : Nat) (errs : List WordErr) (sums stuck : List Nat) : Tile × Bool :=
  let es := errs.map (·.ecc)
  let s := freePageWords s pm page ((wrongWords errs).map (· % 128))
  let p := pageOf s pm page
  let foul := (errs.filter fun e => decide (e.ecc = .double)).map (fun e => e.word % 128) ++ stuck.filter fun k => decide (k < 128)
  let rows := (List.range 32).filter fun r => (p.wrongRows.contains r || sums.contains r) && !(foul.any fun k => decide (k / 4 = r))
  let cols := if foul.isEmpty then (List.range p.ncols).filter fun j => p.wrongCols.contains j || sums.contains (32 + j) else []
  let corner := foul.isEmpty && (p.wrongCorner || sums.contains 96)
  let q := (rows.map WbWhat.rowSum ++ cols.map WbWhat.colSum ++ if corner then [WbWhat.corner] else []).foldl Page.rewrite p
  let s := setPage s pm page q
  ({ s with err := { s.err with
      macroCe := errAdd s.err.macroCe (eccSingles es + rows.length + cols.length + b2n corner)
      macroUe := errAdd s.err.macroUe (eccDoubles es + stuck.length) } },
   decide (0 < eccDoubles es) || !stuck.isEmpty)

/-- The confirmation of a macro (R105, R479): the scrub, then the failing pass again on its frozen inputs, `upset` as the
first run may have been; its results are discarded. A macro that no check has frozen has no failing pass, and the scrub
takes `page` (DESIGN CHOICE, log 164). Answers whether the macro is to be retired. -/
def confirmMacro (s : Tile) (pm page : Nat) (errs : List WordErr) (sums stuck : List Nat) (upset : List (Nat × Int)) : Tile × Bool :=
  let m := macroOf s pm
  let job := if m.frozen then failingPass m else none
  let r := confirmScrub s pm ((job.map (·.page)).getD page) errs sums stuck
  let again : Bool := match job with
    | some j =>
      let x := applyUpset (passResults (pageOf r.1 pm j.page) j) upset
      decide (wrap27 (x.1.foldl (· + ·) 0) ≠ wrap27 x.2)
    | none => false
  let s := if m.frozen then { r.1 with err := { r.1.err with abft := errAdd r.1.err.abft 1 } } else r.1
  (setMacro s pm { m with frozen := false }, r.2 || again)

end Sys2Proof.Machine
end

