-- ==== Sys2Proof/Machine/Sparse.lean ====
section
/-!
DEFINITION. The sparse engine: SPMAC in SW and SA mode, the sparse port, and PRUNE (R200 to R234).
-/
namespace Sys2Proof.Machine

/-! ## Patterns and blocks (R205 to R208) -/

/-- N, M and W of a pattern code. -/
def nmN (pat : Nat) : Nat := if pat = 1 then 1 else 2
def nmM (pat : Nat) : Nat := if pat = 2 then 8 else 4
def nmW (pat : Nat) : Nat := if pat = 0 then 64 else 128

/-- Windows of a tensor. -/
def spNw (t : SpTensor) : Nat := cdiv t.k (nmW t.pat)

/-- The tensor an instruction names. -/
def tensorOf (s : Tile) (id : Nat) : SpTensor := (s.tensors.find? fun t => decide (t.id = id)).getD {}

/-- Block index of window k, column block cb and channel j (R207). -/
def blockIdx (t : SpTensor) (cb k j : Nat) : Nat := t.base + 32 * (spNw t * cb + k) + j

/-- Slots of a block that hold a weight: (slot, position, code). -/
def slotsOf (blk : List Byte) : List (Nat × Nat × Int) :=
  (List.range 32).filterMap fun i =>
    let pc := (nth 0x80 blk (32 + i)).toNat
    if 128 ≤ pc then none else some (i, pc, sext 8 (nth 0 blk i).toNat)

/-- The checks of R208 on a block of window k. -/
def blockOk (pat klen k : Nat) (blk : List Byte) (exp : Nat) : Bool :=
  let w := nmW pat
  let ps := (slotsOf blk).map (·.2.1)
  ((blk.take 32).all fun b => decide (b ≠ 0x80)) &&
  ((List.range 32).all fun i =>
    let pc := (nth 0 blk (32 + i)).toNat
    decide (pc < 128) || (decide (pc = 0x80) && decide (nth 0 blk i = 0))) &&
  (ps.all fun p => decide (p < w) && decide (k * w + p < klen)) &&
  ((ps.zip (ps.drop 1)).all fun x => decide (x.1 < x.2)) &&
  (ps.all fun p => decide ((ps.filter fun q => decide (q / nmM pat = p / nmM pat)).length ≤ nmN pat)) &&
  decide (exp ≠ 0xFF)

def blockAt (s : Tile) (b : Nat) : List Byte := spsRead s.sps (64 * b) 64
def blockExp (s : Tile) (b : Nat) : Nat := (mget s.spx b).toNat

/-- What the SEC-DED check of the sparse store and its exponent file does (R201, R564). Codewords 0 to 32767 are the
store's, those from 32768 the exponent file's. -/
def spsEcc (s : Tile) (errs : List WordErr) : Tile × Bool :=
  let es := errs.map (·.ecc)
  let s := noteSingles { s with err := { s.err with spsCe := errAdd s.err.spsCe (eccSingles es), spsUe := errAdd s.err.spsUe (eccDoubles es) } } 3 (eccSingles es)
  let s := (wrongWords errs).foldl (fun s k =>
    let bs := freeBytes s.free 8
    if k < 32768 then { s with sps := spsWrite s.sps (8 * k) bs, free := s.free + 8 }
    else { s with spx := mwrite s.spx (8 * (k % 32768)) bs, free := s.free + 8 }) s
  (s, decide (0 < eccDoubles es))

/-! ## SPMAC (R210 to R222) -/

/-- Codes of one activation row. -/
def actRow (s : Tile) (act : Nat) (a4 : Bool) (n r : Nat) : List Nat :=
  let fmt := if a4 then 7 else 6
  (List.range n).map fun i => rawElem s.tsp (tbyte act + r * rowLen fmt n) fmt i

/-- Row descriptors of an SPMAC; `none` when one breaks R33. -/
def rowDescs (s : Tile) (desc h : Nat) : Option (List RowDesc) :=
  let ds := (List.range (h + 1)).map fun i => readDesc s.tsp (tbyte desc + 8 * i)
  if ds.all RowDesc.ok then some ds else none

/-- Forward SW partials in window and row order (R210, R211). -/
def swForward (s : Tile) (o : SwOp) (tag : Nat) (ds : List RowDesc) : List SparsePart :=
  let t := tensorOf s o.tensor
  let w := nmW t.pat
  (List.range (o.nw + 1)).flatMap fun kk =>
    let k := o.k0 + kk
    let blks := (List.range 32).map fun j => (slotsOf (blockAt s (blockIdx t o.cb k j)), blockExp s (blockIdx t o.cb k j))
    (List.range (o.h + 1)).map fun r =>
      let d := nth {} ds r
      let q (p : Nat) : Int := (rawElem s.tsp (tbyte o.act + r * rowLen (if o.a4 then 7 else 6) t.k) (if o.a4 then 7 else 6) (k * w + p) : Nat)
      { tag := tag, tile := o.tile, row := r
        ps := blks.map fun b => b.1.foldl (fun a x => a + (q x.2.1 - d.zp) * x.2.2) 0
        ebs := blks.map (·.2), scale := d.scale, carriedSat := if d.carried then d.sat else 0
        ovw := o.ovw, gid := o.gid, eref := tbyte o.eref + o.eidx }

/-- Transposed SW results (R212 to R214). -/
def swTransposed (s : Tile) (o : SwOp) (tag : Nat) (ds : List RowDesc) : List SparsePart :=
  let t := tensorOf s o.tensor
  let w := nmW t.pat
  let window (kk : Nat) : List SparsePart :=
    let k := o.k0 + kk
    let blks := (List.range 32).map fun j => (slotsOf (blockAt s (blockIdx t o.cb k j)), blockExp s (blockIdx t o.cb k j))
    let e := (nth ([], 0) blks 0).2
    if !(blks.all fun b => decide (b.2 = e)) then [{ tag := tag, bad := true }]
    else
      (List.range (o.h + 1)).flatMap fun r =>
        let d := nth {} ds r
        let g := actRow s o.act o.a4 32 r
        let res := (List.range w).map fun p =>
          ((List.range 32).zip blks).foldl (fun (a : Int) (j, b) =>
            match b.1.find? fun x => decide (x.2.1 = p) with
            | some x => a + (Int.ofNat (nth 0 g j) - d.zp) * x.2.2
            | none => a) 0
        (List.range (w / 32)).map fun c =>
          let col := kk * w + 32 * c
          { tag := tag, tile := o.tile + 2 * (col / 32), row := r, ps := (res.drop (32 * c)).take 32
            ebs := List.replicate 32 e, scale := d.scale, carriedSat := if d.carried then d.sat else 0
            ovw := o.ovw, gid := o.gid, eref := tbyte o.eref + o.eidx + col }
  (List.range (o.nw + 1)).flatMap window

/-- One cycle of the SA detector and lanes: rows pushed, queue lengths, stalled (R219). -/
def saDetect (h : Nat) (nz : Nat → Nat → Bool) : Nat → Nat → List Nat → Nat × List Nat
  | 0, row, q => (row, q)
  | k + 1, row, q =>
    let q' := ((List.range 32).zip q).map fun (l, x) => x + b2n (nz row l)
    if row < h ∧ q'.all (fun x => decide (x ≤ 16)) = true then saDetect h nz k (row + 1) q' else (row, q)

/-- The procedure of R219 over one chunk: cycles and detector stalls. -/
def saCycles (h : Nat) (nz : Nat → Nat → Bool) : Nat → Nat → Nat → List Nat → Nat → Nat × Nat
  | 0, t, _, _, st => (t, st)
  | fuel + 1, t, row, q, st =>
    if row < h ∨ q.any (fun x => decide (0 < x)) = true then
      let (row', q') := saDetect h nz 4 row q
      let stall := decide (row' - row < 4) && decide (row' < h)
      saCycles h nz fuel (t + 1) row' (q'.map fun x => x - 1) (st + b2n stall)
    else (t, st)

/-- Chunk time and stalls. -/
def saChunk (h : Nat) (nz : Nat → Nat → Bool) : Nat × Nat :=
  let r := saCycles h nz (2 * h + 40) 0 0 (List.replicate 32 0) 0
  (max r.1 (cdiv h 4), r.2)

/-- SA chunks: the partials, each chunk's first with its stalls, and the sum of the chunk times (R217 to R222). -/
def saWork (s : Tile) (o : SaOp) (tag : Nat) (ds : List RowDesc) : List SparsePart × Nat :=
  let n := 32 * (o.k32 + 1)
  let h := o.h + 1
  let rows := (List.range h).map fun r => actRow s o.act o.a4 n r
  let exps := tbyte o.wop + 1024 * (o.k32 + 1)
  let chunk (c : Nat) : List SparsePart × Nat :=
    let wt (l j : Nat) : Byte := mget s.tsp (tbyte o.wop + 1024 * c + 32 * l + j)
    let eb := (List.range 32).map fun j => (mget s.tsp (exps + 32 * c + j)).toNat
    let q (r l : Nat) : Int := Int.ofNat (nth 0 (nth [] rows r) (32 * c + l)) - (nth {} ds r).zp
    let bad := (eb.contains 0xFF) || (List.range 1024).any fun i => decide (wt (i / 32) (i % 32) = 0x80)
    let tm := saChunk h fun r l => decide (q r l ≠ 0)
    if bad then ([{ tag := tag, bad := true }], tm.1)
    else
      ((List.range h).map fun r =>
        let d := nth {} ds r
        { tag := tag, tile := o.tile, row := r
          ps := (List.range 32).map fun j => sumToI 32 fun l => q r l * sext 8 (wt l j).toNat
          ebs := eb, scale := d.scale, carriedSat := if d.carried then d.sat else 0
          ovw := o.ovw, gid := o.gid, eref := tbyte o.eref + o.eidx, chunk := some c
          stall := if r = 0 then tm.2 else 0 }, tm.1)
  let cs := (List.range (o.k32 + 1)).map chunk
  (cs.flatMap (·.1), (cs.map (·.2)).foldl (· + ·) 0)

/-- Queue an SPMAC's partials; each is one outstanding part of the instruction. -/
def queueSparse (s : Tile) (tag : Nat) (ps : List SparsePart) : Tile :=
  modFlight { s with sparseQ := s.sparseQ ++ ps } tag fun f => { f with left := ps.length }

/-! ## PRUNE (R223 to R229) -/

/-- Dense source values of a channel row; `none` for a non-finite one. -/
def pruneSrc (s : Tile) (o : PruneOp) (w : Nat) (j : Nat) : List (Option Dy) :=
  let fmt := if o.bf16 then 1 else 0
  let n := (o.nw + 1) * w
  rowVals s.tsp fmt (tbyte o.src + j * rowLen fmt n) n

/-- Positions SELECT keeps in one window: in each group the N largest magnitudes below K (R224). -/
def selectPos (pat klen k : Nat) (x : Nat → Dy) : List Nat :=
  let m := nmM pat
  (List.range (nmW pat / m)).flatMap fun g =>
    let ps := ((List.range m).map fun i => g * m + i).filter fun p => decide (k * nmW pat + p < klen)
    let mag (p : Nat) : Dy := ⟨(x p).m.natAbs, (x p).e⟩
    let best := (ps.mergeSort fun a b => !((mag a).lt (mag b)) && (decide (a ≤ b) || (mag b).lt (mag a))).take (nmN pat)
    best.mergeSort fun a b => decide (a ≤ b)

/-- The smallest exponent byte under which every value encodes within ±127; `none` above 121 (R226). -/
def pruneExp (vs : List (Dy × Dy)) : Option Nat :=
  (List.range 255).find? fun E => vs.all fun (x, c) => decide ((dyDivRne x (c.scale ((E : Int) - 133))).natAbs ≤ 127)

/-- Kept (slot, position) pairs of a block: SELECT chooses them, KEEP takes the stored ones (R224, R225). -/
def keptOf (s : Tile) (keep : Bool) (o : PruneOp) (x : Nat → Dy) (kk j : Nat) : List (Nat × Nat) :=
  let t := tensorOf s o.tensor
  if keep then (slotsOf (blockAt s (blockIdx t o.cb (o.k0 + kk) j))).map fun z => (z.1, z.2.1)
  else
    let ps := selectPos t.pat t.k (o.k0 + kk) x
    (List.range ps.length).zip ps

/-- Exponent byte of every block, window by window, one for the whole window in tied mode (R226). -/
def pruneExps (o : PruneOp) (vals : Nat → Nat → List (Dy × Dy)) : Option (List (List Nat)) :=
  ((List.range (o.nw + 1)).map fun kk =>
    (if o.tied then List.replicate 32 (pruneExp ((List.range 32).flatMap fun j => vals kk j))
     else (List.range 32).map fun j => pruneExp (vals kk j)).mapM id).mapM id

/-- Write one block and its exponent. -/
def pruneBlock (s : Tile) (keep : Bool) (b E cs : Nat) (ks : List (Nat × Nat)) (x : Nat → Dy) : Tile :=
  let code (p : Nat) : Byte := BitVec.ofInt 8 (dyDivRne (x p) ((fvalD fp32 cs).scale ((E : Int) - 133)))
  let blk0 := if keep then blockAt s b else List.replicate 32 0x00 ++ List.replicate 32 0x80
  let blk := ks.foldl (fun bs z =>
    let bs := bs.set z.1 (code z.2)
    if keep then bs else bs.set (32 + z.1) (BitVec.ofNat 8 z.2)) blk0
  { s with sps := spsWrite s.sps (64 * b) blk, spx := mwrite s.spx b [BitVec.ofNat 8 E] }

/-- The mask of SELECT: one row of bits a channel (R224). -/
def pruneMask (t : SpTensor) (o : PruneOp) (kept : Nat → Nat → List (Nat × Nat)) : List Byte :=
  (List.range 32).flatMap fun j =>
    let ps := (List.range (o.nw + 1)).flatMap fun kk => (kept kk j).map fun z => (o.k0 + kk) * nmW t.pat + z.2
    (List.range (64 * cdiv t.k 512)).map fun b => BitVec.ofNat 8 (ps.foldl (fun a p => if p / 8 = b then a + 2 ^ (p % 8) else a) 0)

/-- Write the exponent tables (R227); answers whether an entry changed. -/
def pruneTables (s : Tile) (o : PruneOp) (w : Nat) (E : Nat → Nat → Nat) : Tile × Bool :=
  if !o.table then (s, false)
  else
    let tab := (List.range 32).map fun j => BitVec.ofNat 8 ((List.range (o.nw + 1)).foldl (fun a kk => max a (E kk j)) 0)
    let ttab := (List.range (o.nw + 1)).flatMap fun kk => List.replicate w (BitVec.ofNat 8 (E kk 0))
    let ra := tbyte o.eref + o.eidx
    let m := mwrite s.tsp ra tab
    ({ s with tsp := if o.tied then mwrite m (tbyte o.treft) ttab else m },
     decide (mread s.tsp ra 32 ≠ tab) || (o.tied && decide (mread s.tsp (tbyte o.treft) ttab.length ≠ ttab)))

/-- SELECT and KEEP (R223 to R227). A format fault leaves everything unwritten, and a non-finite source value is one at any
position, also of a KEEP where no slot holds it (DESIGN CHOICE, log 158). -/
def pruneWork (s : Tile) (keep : Bool) (o : PruneOp) (errs : List WordErr) : Work :=
  let r := if keep then spsEcc s errs else (s, false)
  let s := r.1
  let t := tensorOf s o.tensor
  let w := nmW t.pat
  let src := (List.range 32).map fun j => pruneSrc s o w j
  let cs := (List.range 32).map fun j => readCs s.tsp (Config.pruneCsBase o + 4 * j)
  if r.2 then { t := s, code := 0x2301 }
  else if (src.any fun r => r.any Option.isNone) || !(cs.all csOk) then { t := s, code := fmtFault 0x31 }
  else
    let x (kk j p : Nat) : Dy := ((nth [] src j).getD (kk * w + p) none).getD ⟨0, 0⟩
    let kept (kk j : Nat) : List (Nat × Nat) := keptOf s keep o (x kk j) kk j
    match pruneExps o (fun kk j => (kept kk j).map fun z => (x kk j z.2, fvalD fp32 (nth 0 cs j))) with
    | none => { t := s, code := fmtFault 0x31 }
    | some exps =>
      let E (kk j : Nat) : Nat := nth 0 (nth [] exps kk) j
      let s1 := (List.range (o.nw + 1)).foldl (fun s kk => (List.range 32).foldl (fun s j =>
        pruneBlock s keep (blockIdx t o.cb (o.k0 + kk) j) (E kk j) (nth 0 cs j) (kept kk j) (x kk j)) s) s
      let s2 := if keep then s1 else { s1 with tsp := mwrite s1.tsp (tbyte o.aux) (pruneMask t o kept) }
      let f := pruneTables s2 o w E
      { t := f.1, flagged := f.2 }

/-- LOAD, block by block (R228). -/
def loadGo (s : Tile) (o : StoreOp) (t : SpTensor) : List Nat → Work
  | [] => { t := s }
  | i :: rest =>
    let b := o.blk + i
    let blk := mread s.tsp (tbyte o.src + 64 * i) 64
    let e := mget s.tsp (tbyte o.aux + i)
    let k := (b - t.base) / 32 % (spNw t)
    if blockOk t.pat t.k k blk e.toNat then
      loadGo { s with sps := spsWrite s.sps (64 * b) blk, spx := mwrite s.spx b [e] } o t rest
    else { t := s, code := fmtFault 0x31 }

/-- PRUNE LOAD and READ (R228). -/
def storeWork (s : Tile) (read : Bool) (o : StoreOp) (errs : List WordErr) : Work :=
  if read then
    let (s, dbl) := spsEcc s errs
    if dbl then { t := s, code := 0x2301 }
    else
      let m := mwrite s.tsp (tbyte o.src) (spsRead s.sps (64 * o.blk) (64 * (o.nb + 1)))
      { t := { s with tsp := mwrite m (tbyte o.aux) (mread s.spx o.blk (o.nb + 1)) } }
  else loadGo s o (tensorOf s o.tensor) (List.range (o.nb + 1))

/-! ## The sparse port (R200, R203) -/

/-- Put a unit's result into the flight of the instruction. -/
def settle (tag : Nat) (w : Work) : Tile :=
  modFlight w.t tag fun f => { f with code := w.code, flagged := w.flagged }

/-- The engine runs a PRUNE, LOAD or READ whose turn has come. -/
def runWhole (s : Tile) (p : SparsePart) : Tile :=
  match flightOf s p.tag with
  | none => s
  | some f =>
    let s := partDone s p.tag
    match f.op with
    | .prune keep o => settle p.tag (pruneWork s keep o p.errs)
    | .store read o => settle p.tag (storeWork s read o p.errs)
    | _ => s

/-- Whole instructions at the front of the engine's queue run, one after another (R200). -/
def runWholes (s : Tile) : Nat → Tile
  | 0 => s
  | n + 1 =>
    match s.sparseQ with
    | p :: rest => if p.whole then runWholes (runWhole { s with sparseQ := rest } p) n else s
    | [] => s

/-- A PRUNE, LOAD or READ runs at once on an idle engine, else it waits its turn (R200). -/
def startWhole (s : Tile) (tag : Nat) (errs : List WordErr) : Tile :=
  let p : SparsePart := { tag := tag, whole := true, errs := errs }
  let s := modFlight s tag fun f => { f with left := 1 }
  if s.sparseQ.isEmpty then runWhole s p else { s with sparseQ := s.sparseQ ++ [p] }

/-- Rows the port takes in one cycle: one row of an SW window (R211), or up to four rows of one SA chunk (R221). -/
def portTake (q : List SparsePart) : List SparsePart :=
  match q with
  | [] => []
  | p :: _ =>
    if p.chunk.isNone then [p]
    else (q.takeWhile fun x => decide (x.tag = p.tag) && decide (x.tile = p.tile) && decide (x.chunk = p.chunk) && !x.bad && !x.whole).take 4

/-- The sparse port takes the rows at the front of the queue and aligns them (R203, R121); a window or chunk that breaks
its rule ends its instruction. -/
def sparseTake (s : Tile) (errs : List WordErr) : Tile × List AccPart :=
  match s.sparseQ with
  | [] => (s, [])
  | p :: _ =>
    if p.whole then (s, [])
    else if p.bad then
      match flightOf s p.tag with
      | some f => (failFlight s p.tag (fmtFault (opcodeOf f.op)), [])
      | none => (dropWork s p.tag, [])
    else
      let e := acmEcc s p.tile errs
      if e.2 then (failFlight e.1 p.tag 0x2201, [])
      else
        let take := portTake s.sparseQ
        let s1 := { e.1 with sparseQ := s.sparseQ.drop take.length
                             stat := { e.1.stat with saStall := e.1.stat.saStall.add p.stall } }
        let go (acc : Tile × List AccPart) (x : SparsePart) : Tile × List AccPart :=
          let (s, out) := acc
          let er := jobEref s x.tag x.ovw x.tile x.eref
          let eref (c : Nat) : Nat := (nth 0 er c).toNat
          let eb (c : Nat) : Nat := nth 0 x.ebs c
          match alignRow 16 eref eb x.ps with
          | none => (failAcc s x.tag, out.filter fun y => decide (y.tag ≠ x.tag))
          | some a =>
            let sp := spreadRow eref eb x.ps
            ({ s with led := s.led.add { trunc := (a.filter (·.2)).length, maxspread := sp } },
             out ++ [{ tag := x.tag, tile := x.tile, row := x.row, parts := a, scale := x.scale
                       carriedSat := x.carriedSat, ovw := x.ovw, gid := x.gid, eref := er, maxspread := sp, last := true }])
        take.foldl go (s1, [])

/-- The sparse port's cycle: its rows enter the accumulator tile, and whole instructions whose turn has come run. -/
def sparsePortWrite (s : Tile) (errs : List WordErr) : Tile :=
  let r := sparseTake (runWholes s s.sparseQ.length) errs
  let s := enterBatch r.1 r.2
  runWholes s s.sparseQ.length

/-- A cycle of the accumulation path in which the sparse port writes too: each entry takes the exact sum of what both
bring (R203). -/
def accumWithSparse (s : Tile) (errs : List WordErr) : Tile :=
  let r := nextBatch s errs
  let q := sparseTake r.1 []
  let s := enterBatch q.1 (r.2 ++ q.2)
  runWholes s s.sparseQ.length

end Sys2Proof.Machine
end

