-- ==== Sys2Proof/Machine/Update.lean ====
section
/-!
DEFINITION. The update engine: hyperparameters, state records, the optimiser step, stochastic rounding and
block-exponent rechoice (R180 to R199).
-/
namespace Sys2Proof.Machine

/-! ## The hyperparameter record (R182, R183) -/

structure Hyper where
  lr : Nat := 0
  beta1 : Nat := 0
  omb1 : Nat := 0
  beta2 : Nat := 0
  omb2 : Nat := 0
  eps : Nat := 0
  wd : Nat := 0
  bc1 : Nat := 0
  bc2 : Nat := 0
  gscale : Nat := 0
  t : Nat := 0
  opt : Nat := 0
  seed : Nat := 0
  resv : Nat := 0
deriving DecidableEq, Repr

def hyperOf (bs : List Byte) : Hyper :=
  { lr := fieldAt bs 0 4, beta1 := fieldAt bs 4 4, omb1 := fieldAt bs 8 4, beta2 := fieldAt bs 12 4
    omb2 := fieldAt bs 16 4, eps := fieldAt bs 20 4, wd := fieldAt bs 24 4, bc1 := fieldAt bs 28 4
    bc2 := fieldAt bs 32 4, gscale := fieldAt bs 36 4, t := fieldAt bs 40 4, opt := fieldAt bs 44 1
    seed := fieldAt bs 48 8, resv := fieldAt bs 45 3 + fieldAt bs 56 8 }

/-- FP32 value at least 0. -/
def geZero (x : Nat) : Bool := !(fvalD fp32 x).lt ⟨0, 0⟩

/-- The checks of R183. -/
def Hyper.ok (h : Hyper) : Bool :=
  ([h.lr, h.beta1, h.omb1, h.beta2, h.omb2, h.eps, h.wd, h.bc1, h.bc2, h.gscale].all (isFinite fp32)) &&
  geZero h.lr && geZero h.wd && geZero h.gscale &&
  geZero h.beta1 && (fvalD fp32 h.beta1).lt ⟨1, 0⟩ && geZero h.beta2 && (fvalD fp32 h.beta2).lt ⟨1, 0⟩ &&
  geZero h.omb1 && geZero h.omb2 && geZero h.bc1 && geZero h.bc2 &&
  (decide (h.opt ≠ 1) || Dy.lt ⟨0, 0⟩ (fvalD fp32 h.eps)) && decide (1 ≤ h.t) && decide (h.opt ≤ 1) && decide (h.resv = 0)

/-! ## State records (R184, R185) -/

structure URec where
  res : List Byte := []
  m1 : List Byte := []
  v2 : List Byte := []
  eb : Nat := 0
  em : Nat := 0
  ev : Nat := 0
  ctl : Nat := 0
  step : Nat := 0
  resv : Nat := 0
  crcOk : Bool := true
deriving DecidableEq, Repr

def urecOf (bs : List Byte) : URec :=
  { res := bs.take 32, m1 := (bs.drop 32).take 32, v2 := (bs.drop 64).take 32, eb := fieldAt bs 96 1
    em := fieldAt bs 97 1, ev := fieldAt bs 98 1, ctl := fieldAt bs 99 1, step := fieldAt bs 100 4
    resv := fieldAt bs 104 20, crcOk := decide (fieldAt bs 124 4 = crc32c (bs.take 124)) }

def URec.bytes (r : URec) : List Byte :=
  let b := r.res ++ r.m1 ++ r.v2 ++ [BitVec.ofNat 8 r.eb, BitVec.ofNat 8 r.em, BitVec.ofNat 8 r.ev, BitVec.ofNat 8 r.ctl]
    ++ leBytes 4 r.step ++ zeros 20
  b ++ leBytes 4 (crc32c b)

/-- One block of a page as it enters the engine. -/
structure UBlock where
  j : Nat := 0
  r : URec := {}
  cs : Nat := 0
  grads : List Nat := []
  recAddr : Nat := 0
  gradAddr : Nat := 0
deriving DecidableEq, Repr

/-- The fault of the first check of R185 that a block fails, 0 for none. -/
def blockFault (h : Hyper) (p : Page) (bf : Bool) (b : UBlock) : Nat :=
  if !b.r.crcOk then 0x2414
  else if decide (b.r.step ≠ h.t - 1) || decide (b.r.eb ≠ p.eb b.j) || (bit b.r.ctl 3 != p.w4) || decide (b.r.em = 0xFF) ||
      decide (b.r.ev = 0xFF) || decide (b.r.ctl / 16 ≠ 0) || decide (b.r.resv ≠ 0) || !(csOk b.cs) then fmtFault 0x14
  else if b.grads.any fun g => !(isFinite (if bf then bf16 else fp32) g) then fmtFault 0x14
  else 0

/-! ## The equations (R186) -/

/-- One FP32 rounding; `none` where the result is not finite. -/
def fl (a : Dy) : Option Dy := fval fp32 (Dy.round fp32 a)

/-- Weight, first and second moment of one weight after the step: X', m' and √v' (R186, R190). -/
def updWeight (h : Hyper) (eb : Nat) (w rho mc : Int) (em u ev : Nat) (cs : Dy) (G : Dy) : Option (Dy × Dy × Dy) := do
  let v (x : Nat) : Dy := fvalD fp32 x
  let g ← fl ((v h.gscale).mul G)
  let X : Dy := ⟨256 * w + rho, (eb : Int) - 133 - 8⟩
  let W ← fl (cs.mul X)
  let m : Dy := ⟨mc, (em : Int) - 134⟩
  let fma (a b c : Dy) : Option Dy := fl ((a.mul b).add c)
  let nlr := (v h.lr).neg
  if h.opt = 1 then
    let s : Dy := ⟨u, (ev : Int) - 135⟩
    let m' ← fma (v h.beta1) m (← fl ((v h.omb1).mul g))
    let v' ← fma (v h.beta2) (s.mul s) (← fl ((v h.omb2).mul (← fl (g.mul g))))
    let d ← fl ((fvalD fp32 (Dy.sqrtRound fp32 (← fl (v'.mul (v h.bc2))))).add (v h.eps))
    let st ← fval fp32 (Dy.divRound fp32 (← fl (m'.mul (v h.bc1))) d)
    let W' ← fma nlr (← fma (v h.wd) W st) W
    let X' ← fval fp32 (Dy.divRound fp32 W' cs)
    return (X', m', fvalD fp32 (Dy.sqrtRound fp32 v'))
  else
    let m' ← fma (v h.beta1) m (← fma (v h.wd) W g)
    let W' ← fma nlr m' W
    let X' ← fval fp32 (Dy.divRound fp32 W' cs)
    return (X', m', ⟨0, 0⟩)

/-! ## Stochastic rounding (R187) -/

/-- The 16-bit draw of field f of weight i. -/
def srDraw (seed tau t mc page j i f : Nat) : Nat :=
  let M := 2 ^ 64
  let key := (mc <<< 9) ||| (page <<< 6) ||| j
  let x := (seed ^^^ (tau <<< 56) ^^^ ((t % 2 ^ 24) <<< 32) ^^^ (key <<< 8) ^^^ (i <<< 2) ^^^ f) % M
  let x := x ^^^ (x >>> 33)
  let x := x * 0xFF51AFD7ED558CCD % M
  let x := x ^^^ (x >>> 33)
  let x := x * 0xC4CEB9FE1A85EC53 % M
  let x := x ^^^ (x >>> 33)
  x >>> 48

/-- SR(y) := ⌊y + r·2⁻¹⁶⌋. -/
def stochRound (y : Dy) (r : Nat) : Int := (y.add ⟨r, -16⟩).floor

/-! ## Exponent choice (R188 to R190) -/

/-- The largest magnitude of a list. -/
def maxMag (xs : List Dy) : Dy :=
  xs.foldl (fun a x => let y : Dy := ⟨x.m.natAbs, x.e⟩; if a.lt y then y else a) ⟨0, 0⟩

/-- New exponent byte and dcnt for a largest |X'|; `none` where the exponent would exceed 121 (R188). -/
def chooseExp (w4 : Bool) (amax : Dy) (eb dcnt : Nat) : Option (Nat × Nat) :=
  let L : Int := if w4 then 1919 else 32639
  let Q : Int := if w4 then 512 else 8192
  let at_ (E : Nat) : Dy := amax.scale (8 - ((E : Int) - 133))
  if Dy.lt ⟨L, 0⟩ (at_ eb) then
    ((List.range 255).find? fun E => decide (eb < E) && (at_ E).le ⟨L, 0⟩).map fun E => (E, 0)
  else if (at_ eb).lt ⟨Q, 0⟩ && decide (0 < eb) then (if dcnt = 3 then some (eb - 1, 0) else some (eb, dcnt + 1))
  else some (eb, 0)

/-- The smallest byte for which a largest magnitude fits `lim · 2^(E − bias)`; 0xFE where none does (R190). -/
def momentExp (lim : Int) (bias : Int) (amax : Dy) : Nat :=
  ((List.range 255).find? fun (E : Nat) => amax.le ⟨lim, (E : Int) - bias⟩).getD 0xFE

/-! ## One page (R186 to R192) -/

/-- What the engine makes of a page. -/
structure UpdOut where
  code : Nat := 0
  codes : List Byte := []
  exps : List Byte := []
  /-- Writes to device memory: address and bytes. -/
  writes : List (Nat × List Byte) := []
  pubs : List UpdPub := []
  changed : Nat := 0
deriving DecidableEq, Repr

/-- The code byte list of a page from its weights (row, column). -/
def packCodes (w4 : Bool) (wt : Nat → Nat → Int) : List Byte :=
  (List.range 1024).map fun a =>
    let r := a / 32
    let c := a % 32
    if w4 then BitVec.ofNat 8 (toField 4 (wt r (2 * c)) + 16 * toField 4 (wt r (2 * c + 1)))
    else BitVec.ofNat 8 (toField 8 (wt r c))

/-- Encode one block under its chosen exponent E and count dcnt (R187 to R191). The tied bit of ctl is that of this UPD:
one that is not tied writes it 0 (DESIGN CHOICE, log 156). -/
def encBlock (h : Hyper) (u : UpdPage) (w4 : Bool) (draw : Nat → Nat → Nat → Nat) (b : UBlock)
    (xs : List (Dy × Dy × Dy)) (E dc : Nat) : UBlock × Nat × List Int × URec :=
  let ix : List (Nat × Dy × Dy × Dy) := (List.range 32).zip xs
  let ms : List Int := ix.map fun x => stochRound (x.2.1.scale (8 - ((E : Int) - 133))) (draw b.j x.1 0)
  let wcodes : List Int := ms.map fun M => Int.fdiv (M + 128) 256
  let res : List Byte := (ms.zip wcodes).map fun x => BitVec.ofInt 8 (x.1 - 256 * x.2)
  let em := momentExp 127 134 (maxMag (xs.map fun x => x.2.1))
  let m1 : List Byte := ix.map fun x =>
    BitVec.ofInt 8 (clampI (-127) 127 (stochRound (x.2.2.1.scale (134 - (em : Int))) (draw b.j x.1 1)))
  let ev := if h.opt = 1 then momentExp 255 135 (maxMag (xs.map fun x => x.2.2)) else b.r.ev
  let v2 : List Byte := if h.opt = 1 then ix.map fun x =>
      BitVec.ofInt 8 (clampI 0 255 (stochRound (x.2.2.2.scale (135 - (ev : Int))) (draw b.j x.1 2)))
    else b.r.v2
  (b, E, wcodes, { res := res, m1 := m1, v2 := v2, eb := E, em := em, ev := ev, step := h.t
                   ctl := dc + 4 * b2n u.o.tied + 8 * b2n w4 })

/-- Update one page: records and gradients in, new codes, exponents, records and publications out. -/
def updPage (h : Hyper) (seed tau : Nat) (u : UpdPage) (d : UDesc) (p : Page) (bs : List UBlock) : UpdOut :=
  match (bs.map (blockFault h p d.bf16)).find? (fun c => decide (c ≠ 0)) with
  | some c => { code := c }
  | none =>
    let n := p.ncols
    let calcB (b : UBlock) : Option (List (Dy × Dy × Dy)) :=
      ((List.range 32).map fun i =>
        updWeight h b.r.eb (p.wt i b.j) (sext 8 (nth 0 b.r.res i).toNat) (sext 8 (nth 0 b.r.m1 i).toNat) b.r.em
          (nth 0 b.r.v2 i).toNat b.r.ev (fvalD fp32 b.cs)
          (fvalD (if d.bf16 then bf16 else fp32) (nth 0 b.grads i))).mapM id
    match (bs.map calcB).mapM id with
    | none => { code := fmtFault 0x14 }
    | some ws =>
      let ws := bs.zip ws
      let top := (bs.map fun b => b.r.eb).foldl max 0
      let dmin := minOf (bs.map fun b => b.r.ctl % 4)
      let tiedChoice := chooseExp p.w4 (maxMag (ws.flatMap fun x => x.2.map (·.1))) top dmin
      let choice (x : UBlock × List (Dy × Dy × Dy)) : Option (Nat × Nat) :=
        if u.o.tied then tiedChoice else chooseExp p.w4 (maxMag (x.2.map (·.1))) x.1.r.eb (x.1.r.ctl % 4)
      match (ws.map choice).mapM id with
      | none => { code := fmtFault 0x14 }
      | some chs =>
        let all := ws.zip chs
        let draw (j i f : Nat) : Nat := srDraw seed tau h.t u.lm u.page j i f
        let enc : List (UBlock × Nat × List Int × URec) := all.map fun x => encBlock h u p.w4 draw x.1.1 x.1.2 x.2.1 x.2.2
        let wt (i j : Nat) : Int := match enc.find? fun x => decide (x.1.j = j) with
          | some x => nth 0 x.2.2.1 i
          | none => 0
        let moved := (enc.filter fun x => decide (x.2.1 ≠ x.1.r.eb)).length
        let glen := if d.bf16 then 64 else 128
        { codes := packCodes p.w4 wt
          exps := enc.map fun x => BitVec.ofNat 8 x.2.1
          writes := enc.flatMap fun x =>
            (x.1.recAddr, x.2.2.2.bytes) :: (if u.o.clearGrad then [(x.1.gradAddr, zeros glen)] else [])
          pubs := (enc.map fun x =>
              { tag := u.tag, transposed := false, index := d.eidx + 32 * (u.cb - u.c0) + x.1.j, val := x.2.1
                changed := decide (x.2.1 ≠ x.1.r.eb) }) ++
            (if u.o.tied then (List.range 32).map fun i =>
              { tag := u.tag, transposed := true, index := d.tidx + 32 * (u.rb - u.r0) + i
                val := (enc.map fun x => x.2.1).foldl max 0, changed := decide (0 < moved) } else [])
          changed := if u.o.tied then (if 0 < moved then n else 0) else moved }

/-! ## The instruction -/

/-- The pages of an UPD in block order (R181, R298). -/
def updPages (s : Tile) (o : UpdOp) (tag order : Nat) : List UpdPage :=
  let g := readGroup s.plan o.grp
  let ps := (List.range 8).filter fun p => o.pmask.testBit p
  let c0 := minOf (ps.map fun p => g.cmin p)
  let r0 := minOf (ps.map fun p => g.rmin p)
  let all := ps.flatMap fun p => g.mem.map fun m => (p, m)
  ((List.range all.length).zip all).map fun (i, (p, m)) =>
    { tag := tag, order := order, lm := m.lm, pm := physMacro s.ret m.lm, page := p, rb := g.rbp m p, cb := g.cbp m p
      r0 := r0, c0 := c0, seq := i, o := o }

/-- Blocks of the pages that stand before a page in its UPD's order. -/
def blockBase (s : Tile) (u : UpdPage) : Nat :=
  let before := (updPages s u.o u.tag u.order).take u.seq
  (before.map fun x => (pageOf s x.pm x.page).ncols).foldl (· + ·) 0

/-- An UPD page as its macro's page port sees it (R95). -/
def UpdPage.write (u : UpdPage) : PageWrite := { tag := u.tag, order := u.order, page := u.page, upd := true }

/-- Queue the pages of an UPD: in the engine, and at the page ports (R95, R96). -/
def queueUpd (s : Tile) (us : List UpdPage) : Tile := queuePort { s with updQ := s.updQ ++ us } (us.map fun u => (u.pm, u.write))

/-- May the head page start: has it the page port (R96, R195)? -/
def updReady (s : Tile) (u : UpdPage) : Bool :=
  (macroOf s u.pm).stage.isNone && !outOfService s u.pm && decide (nextPort s u.pm = some u.write)

/-- The blocks of a page with their records, gradients and channel scales; `rd` reads device memory (R175, R184). -/
def updBlocksOf (s : Tile) (u : UpdPage) (rd : Nat → Nat → List Byte) : List UBlock :=
  let d := readUDesc s.plan u.o.udesc
  let base := blockBase s u
  let glen := if d.bf16 then 64 else 128
  (List.range (pageOf s u.pm u.page).ncols).map fun j =>
    let ra := d.state + 128 * (base + j)
    let ga := d.grad + glen * (base + j)
    let gb := rd ga glen
    { j := j, r := urecOf (rd ra 128), cs := readCs s.tsp (4 * d.cs + 4 * (32 * (u.cb - u.c0) + j))
      grads := (List.range 32).map fun i => if d.bf16 then fieldAt gb (2 * i) 2 else fieldAt gb (4 * i) 4
      recAddr := ra, gradAddr := ga }

/-- What the engine makes of a page (R186 to R191). -/
def updResult (s : Tile) (u : UpdPage) (tau devSeed : Nat) (rd : Nat → Nat → List Byte) : UpdOut :=
  let h := hyperOf (mread s.tsp (tbyte u.o.hyp) 64)
  updPage h (if h.seed = 0 then devSeed else h.seed) tau u (readUDesc s.plan u.o.udesc) (pageOf s u.pm u.page) (updBlocksOf s u rd)

/-- The engine takes its next page; `rd` reads device memory, and `errs` are the page's codewords in error. Answers the
tile and the memory writes. -/
def updPageStart (s : Tile) (tau devSeed : Nat) (rd : Nat → Nat → List Byte) (errs : List WordErr) :
    Tile × List (Nat × List Byte) :=
  match s.updQ with
  | [] => (s, [])
  | u :: rest =>
    if !updReady s u then (s, [])
    else
      let es := errs.map (·.ecc)
      let s := freePageWords s u.pm u.page ((wrongWords errs).map (· % 128))
      let s := { s with err := { s.err with macroCe := errAdd s.err.macroCe (eccSingles es), macroUe := errAdd s.err.macroUe (eccDoubles es) } }
      if 0 < eccDoubles es then
        (modFlight (failFlight s u.tag 0x2002) u.tag fun f => { f with lm := u.lm, pm := u.pm }, [])
      else
        let r := updResult s u tau devSeed rd
        if r.code ≠ 0 then
          let s := if r.code = 0x2414 then { s with err := { s.err with updCrc := errAdd s.err.updCrc 1 } } else s
          (failFlight s u.tag r.code, [])
        else
          let g : Staged := { op := { u.write with w4 := (pageOf s u.pm u.page).w4 }, codes := r.codes, exps := r.exps }
          let s := unqueuePort s u.pm u.write
          let s := setMacro s u.pm { macroOf s u.pm with stage := some g }
          ({ s with updQ := rest, updPub := s.updPub ++ r.pubs
                    stat := { s.stat with updXch := s.stat.updXch.add r.changed } }, r.writes)

/-- At completion the tables of the changed channels are rewritten (R192); answers whether any was. -/
def updFinish (s : Tile) (tag : Nat) (o : UpdOp) : Tile × Bool :=
  let d := readUDesc s.plan o.udesc
  let mine := s.updPub.filter fun x => decide (x.tag = tag)
  let keys := (mine.map fun x => (x.transposed, x.index)).eraseDups
  let hit := keys.filter fun k => mine.any fun x => decide ((x.transposed, x.index) = k) && x.changed
  let m := hit.foldl (fun m k =>
    let v := ((mine.filter fun x => decide ((x.transposed, x.index) = k)).map (·.val)).foldl max 0
    mwrite m (tbyte (if k.1 then d.treft else d.eref) + k.2) [BitVec.ofNat 8 v]) s.tsp
  ({ s with tsp := m, updPub := s.updPub.filter fun x => decide (x.tag ≠ tag) }, !hit.isEmpty)

end Sys2Proof.Machine
end

