-- ==== Sys2Proof/Machine/Claims.lean ====
section
/-!
DEFINITION. What an instruction reads and writes: its TSP operands as runs of bytes with their lane masters,
its scoreboard claims and hazards, and the units that accept it (R302 to R308).
-/
namespace Sys2Proof.Machine

/-! ## Streams and their pending instructions (R269, R301) -/

def streamOf (s : Tile) (k : Nat) : Stream := tget {} s.streams k
def setStream (s : Tile) (k : Nat) (x : Stream) : Tile := { s with streams := tset {} s.streams k x }

/-- The instruction word at a stream's pc. -/
def wordAt (s : Tile) (x : Stream) : Nat := leNat (mread s.plan (istoreOff + 16 * (x.first + x.pc.toNat)) 16)

/-- A pending instruction (R301). -/
structure Pending where
  st : Nat
  entry : Nat
  h : Hdr
  op : TileInstr
deriving DecidableEq, Repr

/-- The pending instruction of a stream, if it has one. -/
def pendingOf (s : Tile) (k : Nat) : Option Pending :=
  let x := streamOf s k
  match x.entry with
  | none => none
  | some e =>
    if x.stopped || x.atBeat.isSome || decide (0 < x.hold) then none
    else (decodeTile (wordAt s x)).map fun d => { st := k, entry := e, h := d.1, op := d.2 }

/-- Every pending instruction. -/
def pendings (s : Tile) : List Pending := (List.range 32).filterMap (pendingOf s)

/-- Is the instruction skipped (R272, R315)? -/
def skipped (x : Stream) (h : Hdr) : Bool :=
  (decide (h.pred = 1) && decide (x.x2 = 0xFFFFFFFF)) || (decide (h.pred = 2) && decide (x.x3 = 0xFFFFFFFF))

/-! ## The format a page will have (R90, R131) -/

/-- PGWRs that entered before `e` and have not completed, in order of entry: the order, whether a register may still skip
it, and the operation. -/
def earlierWrites (s : Tile) (e : Nat) : List (Nat × Bool × PgwrOp) :=
  let fl := s.flights.filterMap fun f => match f.op with
    | .pgwr o => some (f.order, false, o)
    | _ => none
  let pe := (pendings s).filterMap fun p => match p.op with
    | .pgwr o => some (p.entry, decide (p.h.pred = 1 ∨ p.h.pred = 2), o)
    | _ => none
  ((fl ++ pe).filter fun w => decide (w.1 < e)).mergeSort fun a b => decide (a.1 ≤ b.1)

/-- The tile as an instruction that enters at `e` will find its pages' formats. Of a PGWR that a register may still skip the
wider format counts. -/
def foreseen (s : Tile) (e : Nat) : Tile :=
  (earlierWrites s e).foldl (fun s w => (readGroup s.plan w.2.2.grp).mem.foldl (fun s m =>
    let pm := physMacro s.ret m.lm
    let p := pageOf s pm w.2.2.page
    setPage s pm w.2.2.page { p with w4 := w.2.2.w4 || (w.2.1 && p.w4) }) s) s

/-! ## Operands as runs of bytes -/

/-- One TSP or chain operand: the master that moves it, and its runs in the order they are moved. `fetch`
marks the read streams. -/
structure Operand where
  master : Master
  wr : Bool := false
  fetch : Bool := false
  runs : List (Nat × Nat) := []
deriving DecidableEq, Repr

def rd (m : Master) (a n : Nat) : Operand := { master := m, fetch := true, runs := [(a, n)] }
def wrt (m : Master) (a n : Nat) : Operand := { master := m, wr := true, runs := [(a, n)] }

/-- Runs of a pattern's window that lie inside the extent, row by row. -/
def windowRuns (p : Pattern) : List (Nat × Nat) :=
  (List.range p.h).filterMap fun i =>
    let cs := (List.range p.w).filter fun j => p.inside i j
    match cs.head?, cs.getLast? with
    | some a, some b =>
      let c0 := (p.c0 + a).toNat
      let c1 := (p.c0 + b).toNat
      let r := (p.r0 + i).toNat
      some (p.base + r * p.pitch + c0 * p.ebits / 8, (c1 * p.ebits + p.ebits + 7) / 8 - c0 * p.ebits / 8)
    | _, _ => none

/-- Largest of a list. -/
def maxL (l : List Nat) : Nat := l.foldl max 0

/-- Tile offsets a pass uses: (offset of each member), and whether its page is W4. -/
def passOffsets (s : Tile) (transposed : Bool) (o : PassOp) : List Nat :=
  let g := readGroup s.plan o.grp
  g.mem.flatMap fun m =>
    if transposed then [g.rbp m o.page - g.rmin o.page]
    else
      let a := g.cbp m o.page - g.cmin o.page
      if (pageOf s (physMacro s.ret m.lm) o.page).w4 then [a, a + 1] else [a]

/-- Bytes of a VOP operand under its broadcast mode. -/
def vecLen (fmt mode h w : Nat) : Nat :=
  match mode with
  | 0 => dstLen fmt h w
  | 1 => (fmtBits fmt + 7) / 8
  | 2 => (w * fmtBits fmt + 7) / 8
  | _ => (h * fmtBits fmt + 7) / 8

/-- Operands of a VOP (R290, R291). -/
def vopOperands (v : Vop) (o : VopOp) : List Operand :=
  let h := vRows o
  let w := vCols o
  let a (f : Nat) : Operand := rd .vecA (tbyte o.a) (dstLen f h w)
  let b (f : Nat) : Operand := rd .vecB (tbyte o.b) (vecLen f o.bmode h w)
  let d (f : Nat) : Operand := wrt .vecW (tbyte o.d) (dstLen f h w)
  let col (f n : Nat) : Operand := wrt .vecW (tbyte o.d) ((n * fmtBits f + 7) / 8)
  match v with
  | .add | .sub | .mul | .min | .max => [a o.afmt, b o.afmt, d o.ofmt]
  | .fma => [a o.afmt, b o.afmt, rd .vecC (tbyte o.c) (vecLen o.afmt o.cmode h w), d o.ofmt]
  | .abs | .neg | .cvt | .exp | .log | .rcp | .rsqrt => [a o.afmt, d o.ofmt]
  | .twosum => [a o.afmt, b o.afmt, d 5]
  | .cpadd => [a 5, b 5, d 5]
  | .rsum | .rmax | .rmin | .rmaxabs => [a o.afmt, col o.ofmt h]
  | .rcsum => [a o.afmt, col 5 h]
  | .csum | .cmax => [a o.afmt, col o.ofmt w]
  | .emax8 | .emin8 => [a 6, b 6, d 6]
  | .iadd => [rd .vecA (tbyte o.a) 8448, rd .vecB (tbyte o.b) 8448, wrt .vecW (tbyte o.d) 8448]
  | .deq => [rd .vecA (tbyte o.a) 8448, rd .vecB (tbyte o.b) 256, rd .vecC (tbyte o.c) 128, wrt .vecW (tbyte o.d) 8256]
  | .imgadd => [rd .vecA (tbyte o.a) 8256, rd .vecB (tbyte o.b) 8256, wrt .vecW (tbyte o.d) 8256]
  | .outl => [rd .vecA (tbyte o.a) (64 * h), rd .vecB (tbyte o.b) (dstLen 1 (o.o + 1) w), rd .vecC (tbyte o.c) (8 * h),
              rd .vecC (tbyte o.d) (4 * w)]

/-- Operands of a DRAIN (R288). -/
def drainOperands (o : DrainOp) : List Operand :=
  let w := 8 * (o.w8 + 1)
  let h := o.h + 1
  let rq := decide (o.ofmt = 6 ∨ o.ofmt = 7)
  [rd .drain (tbyte o.desc) (8 * h), rd .drain (4 * o.cs + 32 * o.c8) (4 * w), wrt .drain (tbyte o.dst) (h * rowLen o.ofmt w)] ++
  (if rq then [rd .drain (tbyte o.recd) 8, wrt .drain (tbyte o.recd + 64) (8 * h)] else []) ++
  (if drainOpt o then
    let r1 := (tbyte o.recd, 32 * h)
    let r2 := (tbyte o.recd + 2048, 64 * h)
    let rs := if o.topk || !o.merge then [r1, r2] else [r1]
    { master := .drain, wr := true, runs := rs } :: (if o.merge then [{ master := .drain, fetch := true, runs := rs }] else [])
  else [])

/-- The master of a DMA channel. -/
def dmaMaster (ch : Nat) : Master := if ch = 0 then .dma0 else .dma1

/-- Every TSP operand of an instruction (R307). Each read is a stream of its master that issue waits for (R302 item 4; the
master of a SEND's source is DMA channel 0: DESIGN CHOICE, log 155). -/
def operandsOf (s : Tile) (i : TileInstr) : List Operand :=
  let pass (tr : Bool) (o : PassOp) : List Operand :=
    [{ master := .xmov, fetch := true, runs := windowRuns (readPattern s.plan o.pat) },
     rd .xmov (tbyte o.desc) (8 * (o.h + 1)),
     rd .xmov (tbyte o.eref + o.eidx) (32 * (maxL (passOffsets s tr o) + 1))]
  match i with
  | .cpass o => pass false o
  | .tpass o => pass true o
  | .pgwr o =>
    let n := (readGroup s.plan o.grp).nmem
    [{ master := .pagePath, fetch := true, runs := (List.range n).map fun k => (tbyte (o.img + k * o.istep), 1024) }] ++
    (if o.keepExp then [] else [{ master := .pagePath, fetch := true, runs := (List.range n).map fun k => (tbyte (o.exp + k * o.estep), 64) }])
  | .pgrd o =>
    [{ master := .pagePath, wr := true
       runs := (List.range (readGroup s.plan o.grp).nmem).map fun k => (tbyte (o.img + k * o.istep), 1088) }]
  | .upd o =>
    let d := readUDesc s.plan o.udesc
    let us := updPages s o 0 0
    let nc := maxL (us.map fun u => 32 * (u.cb - u.c0) + (pageOf s u.pm u.page).ncols)
    let nr := maxL (us.map fun u => 32 * (u.rb - u.r0) + 32)
    [rd .upd (tbyte o.hyp) 64, rd .upd (4 * d.cs) (4 * nc), wrt .upd (tbyte d.eref + d.eidx) nc] ++
    (if o.tied then [wrt .upd (tbyte d.treft + d.tidx) nr] else [])
  | .acmrd o => [wrt .drain (tbyte o.img) (imageLen (decide (slotKind s o.tile = 2) && !o.widen))]
  | .acmwr o => [rd .drain (tbyte o.img) (imageLen (decide (slotKind s o.tile = 2)))]
  | .drain o => drainOperands o
  | .qstat o =>
    let n := 32 * (o.n32 + 1)
    [rd .quant (tbyte o.src) ((o.r + 1) * rowLen o.ifmt n), wrt .quant (tbyte o.recd) (16 * (o.r + 1))]
  | .qconv c o =>
    let n := 32 * (o.n32 + 1)
    let r := o.r + 1
    [rd .quant (tbyte o.src) (r * rowLen o.ifmt n), rd .quant (tbyte o.recd) (if c then (if o.bcast then 8 else 8 * r) else 16 * r),
     wrt .quant (tbyte o.dst) (r * rowLen (if o.a4 then 7 else 6) n), wrt .quant (tbyte o.desc) (8 * r)] ++
    (if o.dnext = taddrNull then [] else [wrt .quant (tbyte o.dnext) (8 * r)]) ++
    (if o.strip = taddrNull then [] else [wrt .quant (tbyte o.strip) (64 * r)])
  | .xmov o =>
    let p := readPattern s.plan o.pat
    let rows := if p.transpose then p.w else p.h
    let cols := if p.transpose then p.h else p.w
    [{ master := .xmov, fetch := true, runs := windowRuns p },
     { master := .xmov, wr := true, runs := (List.range rows).map fun k => (tbyte o.dst + k * p.pd, (cols * p.ebits + 7) / 8) }]
  | .vop v o => vopOperands v o
  | .spmacSw tr o =>
    let t := tensorOf s o.tensor
    let n := if tr then 32 else t.k
    [rd .sparse (tbyte o.act) ((o.h + 1) * rowLen (if o.a4 then 7 else 6) n), rd .sparse (tbyte o.desc) (8 * (o.h + 1)),
     rd .sparse (tbyte o.eref + o.eidx) (if tr then (o.nw + 1) * nmW t.pat else 32)]
  | .spmacSa o =>
    let n := 32 * (o.k32 + 1)
    [rd .sparse (tbyte o.act) ((o.h + 1) * rowLen (if o.a4 then 7 else 6) n), rd .sparse (tbyte o.desc) (8 * (o.h + 1)),
     rd .sparse (tbyte o.eref + o.eidx) 32, rd .sparse (tbyte o.wop) (1056 * (o.k32 + 1))]
  | .prune keep o =>
    let t := tensorOf s o.tensor
    let n := (o.nw + 1) * nmW t.pat
    [rd .sparse (tbyte o.src) (32 * rowLen (if o.bf16 then 1 else 0) n)] ++
    (if keep then [] else [wrt .sparse (tbyte o.aux) (32 * (64 * cdiv t.k 512))]) ++
    (if o.table then wrt .sparse (tbyte o.eref + o.eidx) 32 :: (if o.tied then [wrt .sparse (tbyte o.treft) n] else []) else [])
  | .store false o => [rd .sparse (tbyte o.src) (64 * (o.nb + 1)), rd .sparse (tbyte o.aux) (o.nb + 1)]
  | .store true o => [wrt .sparse (tbyte o.src) (64 * (o.nb + 1)), wrt .sparse (tbyte o.aux) (o.nb + 1)]
  | .dma fn o =>
    let n := 32 * (o.len + 1)
    if fn = 0 then [wrt (dmaMaster o.ch) (tbyte o.taddr) n]
    else if fn ≤ 3 then [rd (dmaMaster o.ch) (tbyte o.taddr) n] else []
  | .send o => if o.tsrc then [rd .dma0 (tbyte (o.src % 2 ^ 14)) (32 * (o.len + 1))] else []
  | .nop _ | .beat .. | .sema .. | .hint .. | .wcnt .. => []

/-! ## Lines (R235, R241) -/

/-- TSP lines of a run; the chain halves use no lane. -/
def runLines (r : Nat × Nat) : List Nat :=
  if r.2 = 0 ∨ 0xC0000 ≤ r.1 then []
  else (List.range ((r.1 + r.2 - 1) / 256 - r.1 / 256 + 1)).map fun k => r.1 / 256 + k

/-- Lines of an operand in order, each once. -/
def operandLines (o : Operand) : List Nat := (o.runs.flatMap runLines).eraseDups

/-- Read streams of an instruction with this order of entry, line by line. -/
def readStreams (s : Tile) (entry : Nat) (i : TileInstr) : List (List LaneReq) :=
  ((operandsOf (foreseen s entry) i).filter fun o => o.fetch && !o.wr).map fun o =>
    (operandLines o).map fun l => { master := o.master, line := l, entry := entry }

/-- Every line an instruction fetches. -/
def fetchLines (s : Tile) (entry : Nat) (i : TileInstr) : List LaneReq := (readStreams s entry i).flatten

/-- The lines R302 item 4 waits for: the first 8 of each read stream, and every exponent word of a PGWR (R243). -/
def neededLines (s : Tile) (entry : Nat) (i : TileInstr) : List LaneReq :=
  let all : Bool := match i with
    | .pgwr _ => true
    | _ => false
  (readStreams s entry i).zipIdx.flatMap fun (ls, k) => if all && decide (k = 1) then ls else ls.take 8

/-- Codewords of a line that a run of bytes covers in part. -/
def partWords (line : Nat) (r : Nat × Nat) : List Nat :=
  (List.range 32).filter fun k =>
    let a := 256 * line + 8 * k
    overlaps a 8 r.1 r.2 && !(decide (r.1 ≤ a) && decide (a + 8 ≤ r.1 + r.2))

/-- Bytes of a line that a run of bytes covers, with what stands there now. -/
def oldBytes (m : Mem) (line : Nat) (r : Nat × Nat) : List (Nat × Byte) :=
  ((List.range 256).filter fun k => decide (r.1 ≤ 256 * line + k) && decide (256 * line + k < r.1 + r.2)).map fun k =>
    (k, mget m (256 * line + k))

/-- A write of some runs of bytes into a line. -/
def postLine (m : Mem) (q : LaneReq) (runs : List (Nat × Nat)) : Posted :=
  { req := q, part := (runs.flatMap (partWords q.line)).eraseDups, old := runs.flatMap (oldBytes m q.line) }

/-- The lines an instruction's results enter into write buffers. -/
def postedLines (s : Tile) (entry : Nat) (i : TileInstr) : List Posted :=
  (operandsOf s i).flatMap fun o =>
    if o.wr then (operandLines o).map fun l => postLine s.tsp { master := o.master, line := l, entry := entry } o.runs else []

/-- Lines a master has in its write buffer. -/
def bufferedOf (s : Tile) (m : Master) : Nat := (s.wbuf.filter fun l => decide (l.req.master = m)).length

/-- Enter lines into write buffers: a master's buffer holds 16, and further lines wait (R241). An owner's write to a
line drops a scrub write-back of that line that has not left yet (R251). -/
def post (s : Tile) (ps : List Posted) : Tile :=
  ps.foldl (fun s p =>
    let keep (l : Posted) : Bool := decide (p.req.master = .maint) || !(decide (l.req.master = .maint) && decide (l.req.line = p.req.line))
    let s := { s with wbuf := s.wbuf.filter keep, wstall := s.wstall.filter keep }
    if bufferedOf s p.req.master < 16 then { s with wbuf := s.wbuf ++ [p] } else { s with wstall := s.wstall ++ [p] }) s

/-- A line has left: the first line of its master that waits enters the buffer. -/
def refillBuffer (s : Tile) (m : Master) : Tile :=
  match s.wstall.find? fun p => decide (p.req.master = m) with
  | some p => { s with wbuf := s.wbuf ++ [p], wstall := s.wstall.erase p }
  | none => s

/-! ## Claims (R307) and hazards (R308) -/

/-- Granule of a byte address. -/
def granOf (a : Nat) : Nat := if a < 0xC0000 then a / 4096 else if a < 0xC2000 then 192 else 193

/-- Granules between an operand's first byte and its last. -/
def operandGrans (o : Operand) : List Nat :=
  let rs := o.runs.filter fun r => decide (0 < r.2)
  match rs with
  | [] => []
  | r :: rest =>
    let lo := rest.foldl (fun a x => min a x.1) r.1
    let hi := rest.foldl (fun a x => max a (x.1 + x.2 - 1)) (r.1 + r.2 - 1)
    (List.range (granOf hi - granOf lo + 1)).map fun k => granOf lo + k

/-- Accumulator tiles an instruction claims, and how. -/
def accClaims (s : Tile) (i : TileInstr) : List Claim :=
  let acc (ts : List Nat) (ovw : Bool) (gid : Nat) : List Claim :=
    ts.eraseDups.map fun t => { res := .acc t, wr := true, add := if ovw then none else some gid }
  match i with
  | .cpass o => acc ((passOffsets s false o).map fun k => o.tile + k * tileStep s o.tile) o.ovw o.gid
  | .tpass o => acc ((passOffsets s true o).map fun k => o.tile + k * tileStep s o.tile) o.ovw o.gid
  | .spmacSw tr o =>
    let n := if tr then (o.nw + 1) * nmW (tensorOf s o.tensor).pat / 32 else 1
    acc ((List.range n).map fun k => o.tile + 2 * k) o.ovw o.gid
  | .spmacSa o => acc [o.tile] o.ovw o.gid
  | .vop .outl o => acc [o.tile] false o.gid
  | .drain o => [{ res := .acc o.tile }]
  | .acmrd o => [{ res := .acc o.tile }]
  | .acmwr o => [{ res := .acc o.tile, wr := true }]
  | _ => []

/-- Pages an instruction claims (logical macro and page). -/
def pageClaims (s : Tile) (i : TileInstr) : List Claim :=
  let g (grp : Nat) (ps : List Nat) (wr : Bool) : List Claim :=
    ps.flatMap fun p => (readGroup s.plan grp).mem.map fun m => { res := .page (pageKey m.lm p), wr := wr }
  match i with
  | .cpass o => g o.grp [o.page] false
  | .tpass o => g o.grp [o.page] false
  | .pgrd o => g o.grp [o.page] false
  | .pgwr o => g o.grp [o.page] true
  | .upd o => g o.grp ((List.range 8).filter fun p => o.pmask.testBit p) true
  | _ => []

/-- Sparse-store granules of a run of blocks (R230). -/
def storeGrans (lo n : Nat) : List Nat := (List.range ((lo + n - 1) / 64 - lo / 64 + 1)).map fun k => 256 + lo / 64 + k

def storeClaims (s : Tile) (i : TileInstr) : List Claim :=
  let blocks (id cb k0 nw : Nat) : List Nat :=
    let t := tensorOf s id
    storeGrans (blockIdx t cb k0 0) (32 * (nw + 1))
  match i with
  | .spmacSw _ o => (blocks o.tensor o.cb o.k0 o.nw).map fun g => { res := .gran g }
  | .prune keep o =>
    (if keep then (blocks o.tensor o.cb o.k0 o.nw).map fun g => { res := .gran g } else []) ++
    (blocks o.tensor o.cb o.k0 o.nw).map fun g => { res := .gran g, wr := true }
  | .store read o =>
    let tables : List Operand :=
      if o.table && !read then
        let t := tensorOf s o.tensor
        wrt .sparse (tbyte o.eref + o.eidx) 32 :: (if o.tied then [wrt .sparse (tbyte o.treft) (spNw t * nmW t.pat)] else [])
      else []
    ((storeGrans o.blk (o.nb + 1)).map fun g => { res := .gran g, wr := !read }) ++
    tables.flatMap fun x => (operandGrans x).map fun g => { res := .gran g, wr := true }
  | _ => []

/-- x2 and x3 (R307): read by pred and xsel, written by WCNT. -/
def regClaims (stream : Nat) (h : Hdr) (i : TileInstr) : List Claim :=
  let x (n : Nat) : Claim := { res := .xreg stream n }
  (if h.pred = 1 then [x 2] else if h.pred = 2 then [x 3] else []) ++
  (match i with
   | .dma _ o => if o.xsel = 2 then [x 2] else if o.xsel = 3 then [x 3] else []
   | .wcnt _ _ _ d => [{ x (if d then 3 else 2) with wr := true }]
   | _ => [])

/-- Every claim of an instruction, by the tables and page formats of a tile. -/
def claimsOf (s : Tile) (stream : Nat) (h : Hdr) (i : TileInstr) : List Claim :=
  ((operandsOf s i).flatMap fun o => (operandGrans o).map fun g => { res := .gran g, wr := o.wr }) ++
  accClaims s i ++ pageClaims s i ++ storeClaims s i ++ regClaims stream h i

/-- The claims an instruction of stream `k` records as it enters at `e` (R301). -/
def entryClaims (s : Tile) (e stream : Nat) (h : Hdr) (i : TileInstr) : List Claim := claimsOf (foreseen s e) stream h i

/-- Does an earlier claim hold a later one back? `issued` says the earlier instruction has issued (R308). -/
def holds (issued : Bool) (a b : Claim) : Bool :=
  decide (a.res = b.res) &&
  (match a.res with
   | .gran _ => a.wr || b.wr
   | .acc _ =>
     (match a.add, b.add with
      | some g, some g' => decide (g ≠ g')
      | none, none => a.wr || b.wr
      | _, _ => true)
   | .page _ => !issued
   | .xreg _ _ => a.wr)

/-! ## Units (R304) -/

/-- Units of the tile. -/
inductive Eu where
  | mac (lm : Nat)
  | quant | drain | vec | sparse | xmov | upd | send | counter
  | dma (ch : Nat)
deriving DecidableEq, Repr

/-- Units an instruction counts in. -/
def unitsOf (s : Tile) (i : TileInstr) : List Eu :=
  let g (grp : Nat) : List Eu := (readGroup s.plan grp).mem.map fun m => .mac m.lm
  match i with
  | .cpass o => g o.grp
  | .tpass o => g o.grp
  | .pgwr o => g o.grp
  | .pgrd o => g o.grp
  | .upd o => .upd :: g o.grp
  | .qstat _ => [.quant]
  | .qconv .. => [.quant]
  | .drain _ => [.drain]
  | .acmrd _ => [.drain]
  | .acmwr _ => [.drain]
  | .vop .. => [.vec]
  | .spmacSw .. => [.sparse]
  | .spmacSa _ => [.sparse]
  | .prune .. => [.sparse]
  | .store .. => [.sparse]
  | .xmov _ => [.xmov]
  | .dma _ o => [.dma o.ch]
  | .send _ => [.send]
  | .wcnt .. => [.counter]
  | .nop _ | .beat .. | .sema .. | .hint .. => []

/-- Instructions a unit accepts. -/
def unitLimit : Eu → Nat
  | .mac _ => 4 | .quant => 4 | .drain => 4 | .vec => 8 | .sparse => 4 | .xmov => 4 | .upd => 2 | .dma _ => 8
  | .send => 8 | .counter => 8

/-- Does every unit of the instruction accept one more? -/
def unitsAccept (s : Tile) (i : TileInstr) : Bool :=
  (unitsOf s i).all fun u =>
    decide ((s.flights.filter fun f => (unitsOf s f.op).contains u).length < unitLimit u)

end Sys2Proof.Machine
end

