-- ==== Sys2Proof/Machine/Move.lean ====
section
/-!
DEFINITION. XMOV COPY (R245 to R250).
-/
namespace Sys2Proof.Machine

/-- Bytes of one output row; the unused half of an odd A4 row's last byte is a free value. -/
def copyRow (p : Pattern) (free : Nat) (xs : List Nat) : List Byte :=
  if p.esize = 0 then
    let bs := packNibbles xs
    if xs.length % 2 = 1 then
      bs.dropLast ++ [BitVec.ofNat 8 (nth 0 xs (xs.length - 1) % 16 + 16 * ((Config.freeByte free).toNat / 16))]
    else bs
  else xs.flatMap fun x => leBytes (p.ebits / 8) x

/-- COPY: the window row by row, or its transpose, at the output pitch. -/
def copyWork (s : Tile) (o : CopyOp) : Work :=
  let p := readPattern s.plan o.pat
  let rows := if p.transpose then p.w else p.h
  let row (k : Nat) : List Nat :=
    if p.transpose then (List.range p.h).map fun i => p.elem s.tsp 0 i k
    else (List.range p.w).map fun j => p.elem s.tsp 0 k j
  let m := (List.range rows).foldl (fun m k => mwrite m (tbyte o.dst + k * p.pd) (copyRow p (s.free + k) (row k))) s.tsp
  { t := { s with tsp := m, free := s.free + rows } }

end Sys2Proof.Machine
end

