-- ==== Sys2Proof/Machine/Issue.lean ====
section
/-!
DEFINITION. Streams, the scoreboard, issue, semaphores, completion and fault records of one tile
(R268 to R271, R301 to R318).
-/
namespace Sys2Proof.Machine

/-! ## Fault records (R316, R318) -/

/-- Record a fault: the first one fills TILE_FAULT0 and TILE_FAULT1, later ones are counted. Issue stops. -/
def recordFault (s : Tile) (r : FaultRec) : Tile :=
  if s.fault.valid then { s with halted := true, fault := { s.fault with more := satAdd8 s.fault.more 1 } }
  else { s with halted := true, fault := { r with valid := true, more := 0 } }

/-- A fault that no instruction with a tag raised. -/
def tagless (code stream pc : Nat) : FaultRec :=
  { code := BitVec.ofNat 16 code, stream := BitVec.ofNat 5 stream, notag := true, index := BitVec.ofNat 12 pc }

/-! ## Semaphores (R310, R311) -/

def semOf (s : Tile) (k : Nat) : Nat := tget 0 s.sems k
def setSem (s : Tile) (k v : Nat) : Tile := { s with sems := tset 0 s.sems k v }

/-- Add to a semaphore; `false` when the sum would pass 0xFFFF, and the semaphore keeps its value. -/
def semAdd (s : Tile) (k n : Nat) : Tile × Bool :=
  if semOf s k + n ≤ 0xFFFF then (setSem s k (semOf s k + n), true) else (s, false)

/-- Fault code of a semaphore overflow; the detail is the signalling instruction's opcode. -/
def semFault (op : TileInstr) : Nat := 0x5500 + opcodeOf op

/-! ## Streams -/

/-- The next instruction of a stream enters the scoreboard, which records its claims (R301). -/
def enterNext (s : Tile) (k : Nat) : Tile :=
  let x := streamOf s k
  let cl := match decodeTile (wordAt s x) with
    | some d => entryClaims s s.entries k d.1 d.2
    | none => []
  { setStream s k { x with entry := some s.entries, claims := cl } with entries := s.entries + 1 }

/-- Instructions that complete at issue, or take no tag (R303). -/
def tagFree : TileInstr → Bool
  | .nop _ => true
  | .beat .. => true
  | .sema .. => true
  | .hint .. => true
  | _ => false

/-! ## Ready (R302, R308) -/

/-- No claim of an earlier instruction holds the pending one; the claims are those recorded at entry (R301, R308). -/
def hazardFree (s : Tile) (ps : List Pending) (p : Pending) : Bool :=
  let mine := (streamOf s p.st).claims
  (s.flights.all fun f => decide (p.entry ≤ f.order) || f.claims.all fun a => mine.all fun b => !(holds true a b)) &&
  (ps.all fun q => decide (p.entry ≤ q.entry) || (streamOf s q.st).claims.all fun a => mine.all fun b => !(holds false a b))

/-- The six items of R302. A skipped instruction needs no line and no tag (R315). -/
def ready (s : Tile) (ps : List Pending) (p : Pending) : Bool :=
  let x := streamOf s p.st
  let skip := skipped x p.h
  hazardFree s ps p &&
  (!(p.h.fence || (match p.op with | .beat .. => true | _ => false)) ||
    !(s.flights.any fun f => decide (f.stream = p.st))) &&
  (match p.op with | .sema 0 k n => decide (n ≤ semOf s k) | _ => true) &&
  (skip || (neededLines s p.entry p.op).all fun l => s.fbuf.contains l) &&
  (skip || tagFree p.op || decide (s.flights.length < 64)) &&
  unitsAccept s p.op

/-- The stream the issue unit takes: the first ready one at or above its pointer, else the lowest (R303). -/
def pick (s : Tile) : Option Pending :=
  let ps := pendings s
  let rs := ps.filter (ready s ps)
  match rs.find? (fun p => decide (s.rr ≤ p.st)) with
  | some p => some p
  | none => rs.head?

/-- The lowest free tag. -/
def freeTag (s : Tile) : Option Nat := lowest 64 fun t => s.flights.all fun f => decide (f.tag ≠ t)

/-! ## Issue -/

/-- What an issued instruction asks of the rest of the device. -/
inductive Ask where
  | nothing
  | hint (announce : Bool) (phase : Nat)
  | wcnt (tag : Nat)
  /-- `addr` is the device address of R281, and `n` the length in bytes. -/
  | dma (fn : Nat) (tag addr n : Nat) (o : DmaOp)
  | send (tag : Nat) (o : SendOp)
deriving DecidableEq, Repr

/-- Bookkeeping of every issue: the counter, the pointer, the pc and the next pending instruction. -/
def advance (s : Tile) (k : Nat) : Tile :=
  let x := streamOf s k
  let s := { s with stat := { s.stat with issued := s.stat.issued.add 1 }, rr := (k + 1) % 32 }
  enterNext (setStream s k { x with pc := x.pc + 1, entry := none }) k

/-- The signal of an instruction that completes at issue or is skipped, and its fault. -/
def signalNow (s : Tile) (k pc : Nat) (h : Hdr) (op : TileInstr) : Tile × Option FaultRec :=
  if h.sig then
    match semAdd s h.sem 1 with
    | (s, true) => (s, none)
    | (s, false) => (s, some (tagless (semFault op) k pc))
  else (s, none)

/-- The vector engine's operations (R291). -/
def vopWork (v : Vop) (s : Tile) (tag : Nat) (o : VopOp) (errs : List WordErr) : Work :=
  match v with
  | .add | .sub | .mul | .fma | .min | .max | .abs | .neg | .cvt => vopElem v s o
  | .twosum => vopTwosum s o
  | .cpadd => vopCpadd s o
  | .exp => vopTrans fexp s o
  | .log => vopTrans flog s o
  | .rcp => vopTrans frcp s o
  | .rsqrt => vopTrans frsqrt s o
  | .rsum => vopReduce (reduceRow fadd) s o
  | .rmax => vopReduce (reduceRow fmax2) s o
  | .rmin => vopReduce (reduceRow fmin2) s o
  | .rmaxabs => vopReduce redMaxabs s o
  | .rcsum => vopRcsum s o
  | .csum => vopColumns fadd s o
  | .cmax => vopColumns fmax2 s o
  | .emax8 => vopEbytes max s o
  | .emin8 => vopEbytes min s o
  | .iadd => vopIadd s o
  | .deq => vopDeq s o
  | .imgadd => vopImgadd s o
  | .outl => vopOutl s tag o errs

/-- Codewords that XMOV finds in error where it reads a chain half: corrected, or the memory fault of R251. A pattern
over the TSP meets its errors line by line instead. -/
def chainEcc (s : Tile) (p : Pattern) (errs : List WordErr) : Tile × Bool :=
  if p.base < 0xC0000 then (s, false)
  else
    let es := errs.map (·.ecc)
    let half := if p.base < 0xC2000 then 0xC0000 else 0xC2000
    let s := noteSingles { s with err := { s.err with tspCe := errAdd s.err.tspCe (eccSingles es), tspUe := errAdd s.err.tspUe (eccDoubles es) } } 1 (eccSingles es)
    let s := (wrongWords errs).foldl (fun s k =>
      { s with tsp := mwrite s.tsp (half + 8 * (k % 1024)) (freeBytes s.free 8), free := s.free + 8 }) s
    (s, decide (0 < eccDoubles es))

/-- Queue a pass instruction, or end it with the format fault of a bad descriptor (R33) or the memory fault of its
chain half. -/
def startPass (s : Tile) (tr : Bool) (o : PassOp) (tag order : Nat) (op : TileInstr) (errs : List WordErr) : Tile :=
  let r := chainEcc s (readPattern s.plan o.pat) errs
  if r.2 then modFlight r.1 tag fun f => { f with code := 0x2102 }
  else
    match passJobs r.1 tr o tag order with
    | some js => modFlight (queuePasses r.1 js) tag fun f => { f with left := js.length }
    | none => modFlight r.1 tag fun f => { f with code := fmtFault (opcodeOf op) }

/-- State records and gradients of an UPD in device memory (R175, R184). -/
def updRuns (s : Tile) (o : UpdOp) (us : List UpdPage) : List (Nat × Nat) :=
  let d := readUDesc s.plan o.udesc
  let n := (us.map fun u => (pageOf s u.pm u.page).ncols).foldl (· + ·) 0
  (d.state, 128 * n) :: (if o.clearGrad then [(d.grad, (if d.bf16 then 64 else 128) * n)] else [])

/-- Hand an instruction that has its tag to its unit. -/
def startWork (s : Tile) (k tag order : Nat) (op : TileInstr) (errs : ReadErrs) : Tile :=
  let bad (s : Tile) : Tile := modFlight s tag fun f => { f with code := fmtFault (opcodeOf op) }
  match op with
  | .cpass o => startPass s false o tag order op errs.unit
  | .tpass o => startPass s true o tag order op errs.unit
  | .pgwr o =>
    let js := pgwrOps s o tag order
    modFlight (queuePort s js) tag fun f => { f with left := js.length }
  | .pgrd o =>
    let js := pgrdOps s o tag order errs.pages
    let s := modFlight (queuePort s js) tag fun f => { f with left := js.length }
    (js.map (·.1)).eraseDups.foldl (fun s pm => runReads s pm) s
  | .upd o =>
    if (hyperOf (mread s.tsp (tbyte o.hyp) 64)).ok then
      let us := updPages s o tag order
      modFlight (queueUpd s us) tag fun f => { f with left := us.length, dev := updRuns s o us }
    else bad s
  | .acmrd o => settle tag (acmrdWork s o errs.unit)
  | .acmwr o => settle tag (acmwrWork s o)
  | .drain o => settle tag (drainWork s k o errs.unit)
  | .qstat o => settle tag (qstatWork s o)
  | .qconv c o => settle tag (if c then carriedWork s k o else presentWork s o)
  | .xmov o =>
    let r := chainEcc s (readPattern s.plan o.pat) errs.unit
    settle tag (if r.2 then { t := r.1, code := 0x2102 } else copyWork r.1 o)
  | .vop v o => settle tag (vopWork v s tag o errs.unit)
  | .spmacSw tr o =>
    match rowDescs s o.desc o.h with
    | none => bad s
    | some ds =>
      let (s, dbl) := spsEcc s errs.unit
      if dbl then modFlight s tag fun f => { f with code := 0x2301 }
      else queueSparse s tag (if tr then swTransposed s o tag ds else swForward s o tag ds)
  | .spmacSa o =>
    match rowDescs s o.desc o.h with
    | none => bad s
    | some ds =>
      let (ps, cyc) := saWork s o tag ds
      modFlight (queueSparse s tag ps) tag fun f => { f with save := (o.h + 1) * (o.k32 + 1) - cyc }
  | .prune .. => startWhole s tag errs.unit
  | .store .. => startWhole s tag errs.unit
  | .nop _ | .beat .. | .sema .. | .hint .. | .wcnt .. | .dma .. | .send _ => s

/-- The index register that xsel names (R278). -/
def indexOf (x : Stream) (xsel : Nat) : Nat :=
  match xsel with
  | 1 => x.it.toNat
  | 2 => x.x2.toNat
  | 3 => x.x3.toNat
  | _ => 0

/-- Device address of a DMA, in 64 bits (R281). -/
def dmaAddr (x : Stream) (o : DmaOp) : Nat :=
  (32 * o.dev + (if o.xsel = 0 then 0 else 32 * o.stride * indexOf x o.xsel)) % 2 ^ 64

/-- What an instruction with a tag asks for. -/
def askOf (x : Stream) (tag : Nat) (op : TileInstr) : Ask :=
  match op with
  | .wcnt .. => .wcnt tag
  | .dma fn o => .dma fn tag (dmaAddr x o) (32 * (o.len + 1)) o
  | .send o => .send tag o
  | _ => .nothing

/-- An instruction of stream `k` takes its tag: its claims stand, the lines it has are used, the rest of its read streams
is still to come, its results enter write buffers, and the accumulator tiles it writes are remembered (R241, R303, R306). -/
def enterFlight (s : Tile) (k : Nat) (h : Hdr) (op : TileInstr) (cl : List Claim) (tag : Nat) : Tile :=
  let x := streamOf s k
  let order := x.entry.getD s.entries
  let all := fetchLines s order op
  let f : Flight :=
    { tag := tag, stream := k, pc := x.pc.toNat, order := order, h := h, op := op, claims := cl, issued := s.issues }
  let base := (accTiles cl).filter fun t => !(s.accBase.any fun e => decide (e.1 = t))
  let s' := advance { s with
    flights := s.flights ++ [f], issues := s.issues + 1
    fbuf := s.fbuf.filter fun l => decide (l.entry ≠ order)
    fetching := s.fetching ++ (all.filter fun l => !(s.fbuf.contains l)).eraseDups
    accBase := s.accBase ++ base.map fun t => (t, tget {} s.acm t) } k
  post s' (postedLines s order op)

/-- An instruction of stream `k` issues: the tile, what it asks of the device, and the fault it raised at once. `cl`
are its claims. -/
def issueTile (s : Tile) (k : Nat) (h : Hdr) (op : TileInstr) (cl : List Claim) (errs : ReadErrs) : Tile × Ask × Option FaultRec :=
  let x := streamOf s k
  let pc := x.pc.toNat
  let order := x.entry.getD s.entries
  if skipped x h then
    let (s, c) := signalNow (advance s k) k pc h op
    (s, .nothing, c)
  else
    match op with
    | .nop d =>
      let s := { s with stat := { s.stat with issued := s.stat.issued.add 1 }, rr := (k + 1) % 32 }
      (setStream s k { x with pc := x.pc + 1, hold := 1 + d, entry := none, nopSem := if h.sig then some h.sem else none },
       .nothing, none)
    | .beat fn target =>
      let s := { s with stat := { s.stat with issued := s.stat.issued.add 1 }, rr := (k + 1) % 32 }
      let (s, c) := signalNow s k pc h op
      (setStream s k { x with atBeat := some (fn, target), entry := none }, .nothing, c)
    | .sema fn sx n =>
      let s := advance s k
      let r : Tile × Bool :=
        if fn = 0 then (setSem s sx (semOf s sx - n), true)
        else if fn = 1 then semAdd s sx n
        else (setSem s sx n, true)
      if r.2 then
        let (s, c) := signalNow r.1 k pc h op
        (s, .nothing, c)
      else (r.1, .nothing, some (tagless (semFault op) k pc))
    | .hint fn phase =>
      let (s, c) := signalNow (advance s k) k pc h op
      (s, .hint (decide (fn = 1)) phase, c)
    | op =>
      match freeTag s with
      | none => (s, .nothing, none)
      | some tag =>
        (startWork (enterFlight s k h op cl tag) k tag order op errs, askOf x tag op, none)

/-- One cycle of a stream that a NOP holds: at the last one the NOP completes, and its next instruction enters in the
cycle after (R301, R303). -/
def holdTick (s : Tile) (k : Nat) : Tile × List FaultRec :=
  let x := streamOf s k
  if x.hold = 0 then (s, [])
  else if x.hold = 1 then
    let s := enterNext (setStream s k { x with hold := 0, nopSem := none }) k
    match x.nopSem with
    | none => (s, [])
    | some m =>
      match semAdd s m 1 with
      | (s, true) => (s, [])
      | (s, false) => (s, [tagless 0x5500 k (x.pc.toNat - 1)])
  else (setStream s k { x with hold := x.hold - 1 }, [])

/-- Streams that a NOP holds. -/
def heldStreams (s : Tile) : List Nat := (List.range 32).filter fun k => decide (0 < (streamOf s k).hold)

/-- The cycle's holds of some streams, in ascending order, and their faults. -/
def holdTicks (s : Tile) (ks : List Nat) : Tile × List FaultRec :=
  ks.foldl (fun (a : Tile × List FaultRec) k =>
    let r := holdTick a.1 k
    (r.1, a.2 ++ r.2)) (s, [])

/-- Instructions that enter in one cycle take their places in ascending stream order (R301): the streams that have
entered since `e0` enter again in that order. -/
def reseat (s : Tile) (e0 : Nat) : Tile :=
  let ks := (List.range 32).filter fun k => match (streamOf s k).entry with
    | some e => decide (e0 ≤ e)
    | none => false
  let s := ks.foldl (fun s k => setStream s k { streamOf s k with entry := none }) s
  ks.foldl enterNext { s with entries := if ks.isEmpty then s.entries else e0 }

/-! ## Release (R270, R271, R301) -/

/-- Where a stream continues at a release. -/
def continueAt (x : Stream) : Stream :=
  match x.atBeat with
  | none => x
  | some (fn, target) =>
    let y := { x with atBeat := none }
    match fn with
    | 0 => { y with pc := x.pc + 1 }
    | 1 => { y with pc := BitVec.ofNat 12 target }
    | 2 =>
      if 0 < x.lc.toNat then { y with pc := BitVec.ofNat 12 target, lc := x.lc - 1, it := x.it + 1 }
      else { y with pc := x.pc + 1 }
    | _ => { y with stopped := true, entry := none }

/-- The Escapement releases a Beat's instructions to the tile. -/
def releaseTile (s : Tile) : Tile :=
  (List.range 32).foldl (fun s k =>
    let x := continueAt (streamOf s k)
    let s := setStream s k x
    if x.stopped || x.entry.isSome || decide (0 < x.hold) then s else enterNext s k) { s with rr := 0, released := true }

/-- Has the tile finished the Beat's work (R271)? -/
def finished (s : Tile) : Bool :=
  s.flights.isEmpty && (List.range 32).all fun k => let x := streamOf s k; x.stopped || x.atBeat.isSome

/-- The instruction a missed deadline names (R325): (stream, tag, has no tag, pc). -/
def lateNamed (s : Tile) : FaultRec :=
  let base := tagless 0x3601 0 0
  match lowest 32 (fun k => let x := streamOf s k; !x.stopped && x.atBeat.isNone) with
  | some k => tagless 0x3601 k (streamOf s k).pc.toNat
  | none =>
    match s.flights.mergeSort (fun a b => decide (a.issued ≤ b.issued)) with
    | f :: _ => { base with stream := BitVec.ofNat 5 f.stream, tag := BitVec.ofNat 6 f.tag, notag := false
                            index := BitVec.ofNat 12 f.pc }
    | [] => base

/-! ## Completion (R313 to R316) -/

/-- Free the tag of an instruction; accumulator tiles that no other instruction in flight writes need no memory of how
they stood. -/
def freeFlight (s : Tile) (tag : Nat) : Tile :=
  let fs := s.flights.filter fun f => decide (f.tag ≠ tag)
  let live (t : Nat) : Bool := fs.any fun f => (accTiles f.claims).contains t
  let order := (flightOf s tag).map (·.order)
  { s with flights := fs, fetching := s.fetching.filter fun l => decide (some l.entry ≠ order), accBase := s.accBase.filter fun e => live e.1
           accLog := (s.accLog.map fun b => b.filter fun p => live p.tile).filter fun b => !b.isEmpty }

/-- The fault record of an instruction in flight. -/
def Flight.fault (f : Flight) (code : Nat) : FaultRec :=
  { code := BitVec.ofNat 16 code, stream := BitVec.ofNat 5 f.stream, tag := BitVec.ofNat 6 f.tag
    index := BitVec.ofNat 12 f.pc, lm := f.lm, pm := f.pm }

/-- Must an instruction's completion wait: for its work, for lines it still fetches, or for results that have no place in a
write buffer yet (R241, R313)? One that has failed waits for nothing. -/
def notDone (s : Tile) (f : Flight) : Bool :=
  decide (0 < f.left) || (decide (f.code = 0) && ((s.fetching.any fun l => decide (l.entry = f.order)) ||
    s.wstall.any fun p => decide (p.req.entry = f.order) && decide (p.req.master ≠ .mesh) && decide (p.req.master ≠ .maint)))

/-- The instruction with this tag completes once its work is done and its results are in write buffers: the tile, and
its fault. -/
def completeTile (s : Tile) (tag : Nat) : Tile × Option FaultRec :=
  match flightOf s tag with
  | none => (s, none)
  | some f =>
    if notDone s f then (s, none)
    else if f.code ≠ 0 then (freeFlight s tag, some (f.fault f.code))
    else
      let (s, fl) := match f.op with
        | .upd o => updFinish s tag o
        | _ => (s, f.flagged)
      let s := freeFlight s tag
      let s := { s with stat := { s.stat with saSave := s.stat.saSave.add f.save } }
      let s := if fl then { s with stat := { s.stat with flagged := s.stat.flagged.add 1 } } else s
      if f.h.sig then
        match semAdd s f.h.sem 1 with
        | (s, true) => (s, none)
        | (s, false) => (s, some (f.fault (semFault f.op)))
      else (s, none)

/-- Instructions that complete in one cycle, in the order of their streams, and their faults (R316). -/
def completeAll (s : Tile) (tags : List Nat) : Tile × List FaultRec :=
  let key (t : Nat) : Nat := match flightOf s t with
    | some f => f.stream
    | none => 32
  (tags.eraseDups.mergeSort fun a b => decide (key a ≤ key b)).foldl (fun (a : Tile × List FaultRec) t =>
    let r := completeTile a.1 t
    (r.1, a.2 ++ r.2.toList)) (s, [])

/-- The first of some faults is recorded, the others are counted (R316). -/
def recordAll (s : Tile) (fs : List FaultRec) : Tile := fs.foldl recordFault s

/-! ## Work abandoned at a fault (R316) -/

/-- A free integer of `w` bits, from draw `ctr` on. -/
def freeInt (ctr w : Nat) : Int := sext w (leNat (freeBytes ctr 8))

/-- An accumulator tile without a defined content. -/
def freeAcc (ctr : Nat) (t : AccTile) : AccTile :=
  let b (i : Nat) : Bool := (Config.freeByte (ctr + 8192)).getLsbD i
  { t with ent := tblOf 0 ((List.range 1024).map fun i => freeInt (ctr + 8 * i) t.width)
           sat := b 0, trunc := b 1, outlier := b 2, bound := b 3 }

/-- A page without a defined content. -/
def freePage (ctr : Nat) (p : Page) : Page :=
  { p with codes := mwrite [] 0 (freeBytes ctr 1024), exps := mwrite [] 0 (freeBytes (ctr + 1024) 64)
           guard := freeBytes (ctr + 1088) 128
           rows := tblOf 0 ((List.range 32).map fun i => freeInt (ctr + 1216 + 8 * i) 13)
           cols := tblOf 0 ((List.range 64).map fun i => freeInt (ctr + 1472 + 8 * i) 18), corner := freeInt (ctr + 1984) 18 }

/-- The destinations of an instruction that a fault cuts off are undefined: TSP bytes, accumulator tiles, pages, granules
of the sparse store, x2 and x3. -/
def freeDest (s : Tile) (f : Flight) : Tile :=
  let runs := ((operandsOf s f.op).filter (·.wr)).flatMap (·.runs)
  let s := runs.foldl (fun s r => { s with tsp := mwrite s.tsp r.1 (freeBytes s.free r.2), free := s.free + r.2 }) s
  let s := (accTiles f.claims).foldl (fun s t => { s with acm := tset {} s.acm t (freeAcc s.free (tget {} s.acm t)), free := s.free + 8193 }) s
  f.claims.foldl (fun s c => match c.res with
    | .page k =>
      let pm := physMacro s.ret (k / 8)
      if c.wr && !(macroOf s pm).frozen then
        { setPage s pm (k % 8) (freePage s.free (pageOf s pm (k % 8))) with free := s.free + 2000 }
      else s
    | .gran g =>
      if c.wr && decide (256 ≤ g) then
        { s with sps := mwrite s.sps (4096 * (g - 256)) (freeBytes s.free 4096)
                 spx := mwrite s.spx (64 * (g - 256)) (freeBytes (s.free + 4096) 64), free := s.free + 4160 }
      else s
    | .xreg st w =>
      if c.wr then
        let v := BitVec.ofNat 32 (leNat (freeBytes s.free 4))
        let x := streamOf s st
        { setStream s st (if w = 3 then { x with x3 := v } else { x with x2 := v }) with free := s.free + 4 }
      else s
    | .acc _ => s) s

/-- The tile issues nothing more, and what it had in flight is abandoned: its destinations are undefined (R316). A tile
may also finish such work within 64 cycles; the destinations are undefined then too, so the model abandons it all
(DESIGN CHOICE, log 141). -/
def abandonTile (s : Tile) : Tile :=
  let s := s.flights.foldl freeDest s
  let s := s.flights.foldl (fun s f => dropWork s f.tag) s
  let s := s.arrivals.foldl (fun s a => { s with tsp := mwrite s.tsp a.addr (freeBytes s.free a.bytes.length), free := s.free + a.bytes.length }) s
  { s with halted := true, arrivals := [], updPub := [], accBase := [], accLog := [], fetching := []
           flights := s.flights.map fun f => { f with left := 0 }
           macros := tmap {} s.macros fun m => if m.frozen then m else { m with stage := none } }

/-! ## TSP lanes (R238 to R244, R251) -/

/-- Lane of a master's reads, of its writes, and its rank in the lane (R239). -/
def readLane : Master → Nat × Nat
  | .xmov => (0, 0) | .vecA => (1, 0) | .vecB => (2, 0) | .vecC => (3, 0) | .sparse => (4, 0) | .drain => (5, 0)
  | .pagePath => (6, 0) | .quant => (7, 0) | .upd => (7, 1) | .dma0 => (7, 2) | .dma1 => (7, 3)
  | .vecW => (8, 0) | .mesh => (8, 0) | .maint => (8, 0) | .loader => (8, 0)

def writeLane : Master → Nat × Nat
  | .xmov => (0, 0) | .vecW => (1, 0) | .drain => (2, 0) | .quant => (3, 0) | .sparse => (4, 0) | .upd => (4, 1)
  | .pagePath => (5, 0) | .dma0 => (6, 0) | .dma1 => (6, 1) | .mesh => (6, 2) | .maint => (7, 0) | .loader => (7, 1)
  | .vecA => (8, 0) | .vecB => (8, 0) | .vecC => (8, 0)

/-- Conflict counter of a refused master (R264). -/
def refusedRead : Master → Option Nat
  | .upd => some 0 | .dma0 => some 2 | .dma1 => some 3 | _ => none
def refusedWrite : Master → Option Nat
  | .upd => some 1 | .dma1 => some 4 | .mesh => some 5 | _ => none

/-- Bank group that a lane reaches in a cycle (R238). -/
def laneGroup (cycle lane : Nat) : Nat := (cycle % 8 + 8 - lane % 8) % 8

/-- Count refused masters. -/
def countRefused (s : Tile) (ns : List Nat) : Tile :=
  { s with stat := { s.stat with tspc := ns.foldl (fun c n => setAt c n ((nth {} c n).add 1)) s.stat.tspc } }

/-- The request that a lane serves among those it reaches, and the losers: the master first in R239, and of its own
requests the instruction that entered the scoreboard first (R306). -/
def serve (rank : Master → Nat × Nat) (lane group : Nat) (rs : List LaneReq) : Option LaneReq × List LaneReq :=
  let mine := rs.filter fun r => decide ((rank r.master).1 = lane) && decide (r.line % 8 = group)
  let before (a b : LaneReq) : Bool :=
    decide ((rank a.master).2 < (rank b.master).2) || (decide ((rank a.master).2 = (rank b.master).2) && decide (a.entry ≤ b.entry))
  match mine.mergeSort before with
  | [] => (none, [])
  | w :: rest => (some w, rest.filter fun r => decide (r.master ≠ w.master))

/-- The fault of a read of the TSP for the instruction that entered at `e` (R318): in flight it has a tag; pending it has
none. -/
def readFault (s : Tile) (e : Nat) : FaultRec :=
  match s.flights.find? fun f => decide (f.order = e) with
  | some f => f.fault 0x2101
  | none =>
    match (pendings s).find? fun p => decide (p.entry = e) with
    | some p => tagless 0x2101 p.st (streamOf s p.st).pc.toNat
    | none => tagless 0x2101 0 0

/-- TSP codewords of a line in error (R251, R564): corrected ones are counted, wrong ones hold free values, and an
uncorrectable one is the memory fault `r`. -/
def tspErrs (s : Tile) (r : FaultRec) (line : Nat) (errs : List WordErr) : Tile × Nat :=
  let es := errs.map (·.ecc)
  let s := noteSingles { s with err := { s.err with tspCe := errAdd s.err.tspCe (eccSingles es), tspUe := errAdd s.err.tspUe (eccDoubles es) } } 0 (eccSingles es)
  let s := (wrongWords errs).foldl (fun s k =>
    { s with tsp := mwrite s.tsp (256 * line + 8 * (k % 32)) (freeBytes s.free 8), free := s.free + 8 }) s
  if 0 < eccDoubles es then (recordFault s r, 0x2101) else (s, 0)

/-- A corrected line is written back through write lane 7 (R244, R251). -/
def correctLine (s : Tile) (line : Nat) (errs : List WordErr) : Tile :=
  if 0 < eccSingles (errs.map (·.ecc)) then post s [{ req := { master := .maint, line := line } }] else s

/-- May a master fetch for this instruction: it has a buffer, or one of its four is free (R306)? -/
def hasBuffer (s : Tile) (r : LaneReq) : Bool :=
  let open_ := (((s.fbuf ++ s.fetching).filter fun l => decide (l.master = r.master)).map (·.entry)).eraseDups
  open_.contains r.entry || decide (open_.length < 4)

/-- Is a request one that a fetch unit makes: a line an issued instruction still has to fetch, or one that a pending
instruction needs whose hazards are clear and whose pred does not skip it (R241, R306, R315)? -/
def wanted (s : Tile) (r : LaneReq) : Bool :=
  let ps := pendings s
  s.fetching.contains r ||
    (!s.fbuf.contains r && ps.any fun p => decide (p.entry = r.entry) && hazardFree s ps p && !skipped (streamOf s p.st) p.h &&
      (neededLines s p.entry p.op).contains r && hasBuffer s r)

/-- A read lane's cycle: the winner's line enters its fetch buffer, or goes to the instruction that has issued (R240,
R241). -/
def lineFetch (s : Tile) (cycle lane : Nat) (reqs : List LaneReq) (errs : List WordErr) : Tile × Nat :=
  let (w, lost) := serve readLane lane (laneGroup cycle lane) (reqs.filter (wanted s))
  match w with
  | none => (s, 0)
  | some w =>
    let s := countRefused s ((lost.map (·.master)).eraseDups.filterMap refusedRead)
    let (s, c) := tspErrs s (readFault s w.entry) w.line errs
    if c ≠ 0 then (s, c)
    else
      let s := if s.fetching.contains w then { s with fetching := s.fetching.filter fun l => decide (l ≠ w) }
        else { s with fbuf := s.fbuf ++ [w] }
      (correctLine s w.line errs, 0)

/-- A write lane's cycle: one posted line leaves for the banks. Where it writes a codeword in part, the merge reads the
stored codeword: on a double-bit error the write is not made, the line's other bytes stay as stored, and the codeword
itself holds free values (R236, R240, R241). The write not made is the line's: its whole codewords stay as they were too
(DESIGN CHOICE, log 159). -/
def lineWrite (s : Tile) (cycle lane : Nat) (errs : List WordErr) : Tile × Nat :=
  let (w, lost) := serve writeLane lane (laneGroup cycle lane) (s.wbuf.map (·.req))
  match w.bind fun w => s.wbuf.find? fun p => decide (p.req = w) with
  | none => (s, 0)
  | some p =>
    let s := countRefused s ((lost.map (·.master)).eraseDups.filterMap refusedWrite)
    let s := refillBuffer { s with wbuf := s.wbuf.erase p } p.req.master
    let met := errs.filter fun e => p.part.contains e.word
    let dbl := met.filter fun e => decide (e.ecc = .double)
    let fault := if (writeLane p.req.master).1 = 7 ∨ p.req.master = .mesh then tagless 0x2101 0 0 else readFault s p.req.entry
    if dbl.isEmpty then tspErrs s fault p.req.line met
    else
      let s := { s with tsp := p.old.foldl (fun m o => mwrite m (256 * p.req.line + o.1) [o.2]) s.tsp }
      let s := dbl.foldl (fun s e =>
        { s with tsp := mwrite s.tsp (256 * p.req.line + 8 * (e.word % 32)) (freeBytes s.free 8), free := s.free + 8 }) s
      tspErrs s fault p.req.line met

/-- The scrubber reads one line; a corrected one is written back (R244). -/
def lineScrub (s : Tile) (line : Nat) (errs : List WordErr) : Tile × Nat :=
  let r := tspErrs { s with swept := if s.swept.contains line then s.swept else line :: s.swept } (tagless 0x2101 0 0) line errs
  (correctLine r.1 line errs, r.2)

end Sys2Proof.Machine
end

