-- ==== Sys2Proof/Machine/DeviceState.lean ====
section
/-!
DEFINITION. The state of the module outside its tiles: the Fen, LPDDR5X, Causeway, jobs, Balance, the host
link and mailboxes, the management sideband, security, and start-up (chapters 07 and 09 to 17).
-/
namespace Sys2Proof.Machine

/-! ## The Fen and the work counters (R252 to R267) -/

/-- State of a Fen bank (R253). -/
inductive BankState where
  | unassigned | ready | draining | clearing
deriving DecidableEq, Repr

structure Bank where
  state : BankState := .unassigned
  /-- 0 none, 1 scratchpad, 2 cache. -/
  mode : Nat := 0
  part : Nat := 0
  /-- While the bank drains: mode and owner it drains (R259). -/
  oldMode : Nat := 0
  oldPart : Nat := 0
  /-- The handover ends unassigned and not ready (R509). -/
  release : Bool := false
  /-- Next line of the scrubber, 0 to 16,383, and lines scrubbed in this slot (R258). -/
  scrub : Nat := 0
  scrubbed : Nat := 0
deriving DecidableEq, Repr

/-- A work counter (R260). -/
structure Counter where
  val : BitVec 32 := 0
  limit : BitVec 32 := 0
  init : BitVec 32 := 0
deriving DecidableEq, Repr

/-- A near-memory add waiting at the bank ports of a die: one 32-byte sector (R176, R177). -/
structure NearAdd where
  tile : Nat := 0
  tag : Nat := 0
  addr : Nat := 0
  bf16 : Bool := false
  xs : List Byte := []
deriving DecidableEq, Repr

structure Fen where
  banks : Tbl Bank := []
  /-- Scratchpad contents, at 0x20_0000 · bank + offset. -/
  scr : Mem := []
  ce : BitVec 16 := 0
  ue : BitVec 16 := 0
  confMem : Stat := {}
  confD2d : Stat := {}
  confMesh : Stat := {}
  hit : Stat := {}
  miss : Stat := {}
  wcs : Tbl Counter := []
  portQ : List WcReq := []
  adds : List NearAdd := []
  /-- What a bank port answered to the last read. -/
  out : List Byte := []
deriving DecidableEq, Repr

/-- A cache line: 4 sectors with valid and dirty bits; `data` is keyed by byte in the line (R254). -/
structure CLine where
  die : Nat := 0
  /-- Bank that holds it. -/
  bank : Nat := 0
  part : Nat := 0
  valid : BitVec 4 := 0
  dirty : BitVec 4 := 0
  data : Mem := []
deriving DecidableEq, Repr

/-! ## LPDDR5X (R383 to R405, R511) -/

/-- State of a byte of device memory (R511). -/
inductive ByteState where
  | free | owned | held | awaiting
deriving DecidableEq, Repr

/-- A DMA of a tile that waits for a channel (R400). -/
structure DmaWait where
  t : Nat := 0
  pt : Nat := 0
  fn : Nat := 0
  tag : Nat := 0
  addr : Nat := 0
  n : Nat := 0
  o : DmaOp := {}
  errs : List MemErr := []
deriving DecidableEq, Repr

structure Channel where
  /-- 0 serving, 1 Reserve free, 2 failed awaiting replacement, 3 failed replaced, 4 marked. -/
  state : Nat := 0
  part : Nat := 0
  slot : Nat := 0xFF
  ce : BitVec 16 := 0
  ue : BitVec 16 := 0
  link : BitVec 16 := 0
  lastRetrain : Nat := 0
  retraining : Bool := false
  /-- Requests that wait for the retrain to end, oldest first (R400). -/
  waiting : List MemReq := []
  /-- Times of the corrected errors of the last hour (R397). -/
  ceTimes : List Nat := []
  /-- Channel addresses that returned uncorrectable errors, one entry each time (R401). -/
  bad : List Nat := []
  /-- Next channel address of the patrol, and sectors patrolled in this slot (R396). -/
  patrol : Nat := 0
  patrolled : Nat := 0
  /-- Retrained in this maintenance slot. -/
  slotRetrained : Bool := false
  /-- When the drift monitor passed half of its limit, until a retrain ends (R398). -/
  driftAt : Option Nat := none
deriving DecidableEq, Repr

structure MemPart where
  forced : Stat := {}
  units : List Stat := [{}, {}, {}, {}]
  /-- Token buckets of the classes in bytes, and the time of the last refill (R390). -/
  tokens : List Nat := [65536, 65536, 16384, 8192]
  refilled : Nat := 0
  /-- Class and tile that were served last (R390, R391). -/
  lastClass : Nat := 3
  lastTile : Nat := 511
  /-- What the memory answered to the last read. -/
  out : List Byte := []
deriving DecidableEq, Repr

/-! ## Causeway (R406 to R442) -/

structure Port where
  /-- 0 down, 1 training, 2 up, 3 marked failed. -/
  state : Nat := 0
  mode : Nat := 0
  assigned : Bool := false
  part : Nat := 0
  jport : Nat := 0
  txf : Stat := {}
  rxf : Stat := {}
  fecc : Stat := {}
  pause : Stat := {}
  fecu : BitVec 16 := 0
  badf : BitVec 16 := 0
  linkdn : BitVec 16 := 0
  /-- Times of the uncorrectable codewords of the last second (R409). -/
  fecTimes : List Nat := []
  /-- Paused priorities, and the frames that wait for them: the partition that sends each (R416). -/
  paused : List Nat := []
  held : List (Nat × Frame) := []
  /-- Priorities whose senders the port has paused. -/
  xoff : List Nat := []
  trainFrom : Nat := 0
deriving DecidableEq, Repr

/-- A member of the job group (R413): MAC and IPv6 of its job ports. -/
structure MemberAddr where
  macs : List (List Byte) := []
  ips : List (List Byte) := []
deriving DecidableEq, Repr

/-- The member table as the transport engine holds it (R413, R414). -/
structure MemberTable where
  n : Nat := 0
  encap : Nat := 0
  vlan : Nat := 0xFFFF
  pcpData : Nat := 0
  pcpCtl : Nat := 0
  dscpData : Nat := 0
  dscpCtl : Nat := 0
  udpPort : Nat := 0
  addrs : List MemberAddr := []
deriving DecidableEq, Repr

/-- The IPv6 and UDP headers of a frame in UDP mode (R415, R417). -/
structure UdpHdr where
  srcIp : List Byte := []
  dstIp : List Byte := []
  dscp : Nat := 0
  /-- ECN field ECT(0). -/
  ect : Bool := false
  hopLimit : Nat := 64
  flowLabel : Nat := 0
  srcPort : Nat := 0
  dstPort : Nat := 0
  checksum : Nat := 0
deriving DecidableEq, Repr

/-- What carries a frame on the link (R413, R415, R416). -/
structure Encap where
  dmac : List Byte := []
  smac : List Byte := []
  /-- VLAN id and priority; `none` on an untagged frame. -/
  tag : Option (Nat × Nat) := none
  etherType : Nat := 0
  udp : Option UdpHdr := none
deriving DecidableEq, Repr

/-- A frame sent: the physical port, the transport frame and what carries it. -/
structure OnWire where
  port : Nat
  frame : Frame
  link : Encap
deriving DecidableEq, Repr

/-- An unacknowledged packet of a flow. -/
structure Packet where
  seq : Nat := 0
  tile : Nat := 0
  tag : Nat := 0
  /-- Its frame as sent, and when it was last sent. -/
  frame : Frame := {}
  sentAt : Nat := 0
deriving DecidableEq, Repr

/-- A sending flow, to one member on one job port (R420, R422, R424). -/
structure TxFlow where
  next : Nat := 0
  window : Nat := 32
  /-- Packets acknowledged without ece since the window last rose (R417). -/
  gained : Nat := 0
  unacked : List Packet := []
deriving DecidableEq, Repr

/-- A receiving flow, from one member on one job port (R421). -/
structure RxFlow where
  expected : Nat := 0
  nacked : Bool := false
  /-- An ACK is due, and the ece it carries. -/
  ackDue : Bool := false
  ece : Bool := false
  /-- Packets applied in order since the last ACK, and when the first of them arrived. -/
  run : Nat := 0
  since : Nat := 0
deriving DecidableEq, Repr

/-- A DMA SEND in the transport engine (R422, R424, R427). -/
structure Send where
  tile : Nat := 0
  tag : Nat := 0
  o : SendOp := {}
  gen : Nat := 0
  started : Option Nat := none
  budget : Nat := 0
  packets : Nat := 0
  sent : Nat := 0
  acked : Nat := 0
  rounds : Nat := 0
deriving DecidableEq, Repr

/-- A Sluice window (R429, R430). -/
structure Window where
  declared : Bool := false
  part : Nat := 0
  base : Nat := 0
  /-- Length in 32-byte units. -/
  len : Nat := 0
  tile : Nat := 0
  stream : Nat := 0
  g0 : Nat := 0
  gen : BitVec 16 := 0
  isOpen : Bool := false
  /-- The owner stream has executed BEAT STOP. -/
  closing : Bool := false
  appl : Stat := {}
  drop : BitVec 16 := 0
deriving DecidableEq, Repr

/-- A PTP source that has announced itself (R439). -/
structure PtpSource where
  id : Nat := 0
  rank : List Nat := []
  /-- Its logMinDelayReqInterval. -/
  logMin : Int := 0
deriving DecidableEq, Repr

/-- The PTP port of a partition's clock (R439). -/
structure PtpPort where
  sources : List PtpSource := []
  /-- The last Sync: its sequence number, when it arrived in tick time, and its correction; `waits` for the Follow_Up of a
  two-step source. -/
  seq : Nat := 0
  arrived : Nat := 0
  corr : Int := 0
  waits : Bool := false
  /-- The last Sync's arrival less its origin, corrected, and the mean path delay once it is known. -/
  gap : Option Int := none
  path : Option Int := none
  /-- The Delay_Req that waits for its answer: its number and when it left, in tick time; number of the next, and when the
  last one left. -/
  asked : Option (Nat × Nat) := none
  next : Nat := 0
  askedAt : Option Nat := none
deriving DecidableEq, Repr

/-- The tick source of a partition (R319, R320). -/
structure Tick where
  locked : Bool := false
  holdover : Bool := false
  /-- Last measured offset in ns. -/
  offset : Int := 0
  /-- Consecutive good synchronisation intervals or PPS edges. -/
  good : Nat := 0
  lastSync : Nat := 0
  lostAt : Nat := 0
  /-- Tick time less the device's own time, in ns (R319). -/
  shift : Int := 0
  /-- PPS mode: second number of the next edge (R351). -/
  second : Nat := 0
  ppsOut : Bool := false
  ptp : PtpPort := {}
deriving DecidableEq, Repr

/-- A frame of the link layer: a Delay_Req of a partition's clock (R439), or an IEEE 802.1Qbb frame (R416). -/
inductive LinkFrame where
  | delayReq (p seq domain : Nat) (pcp : Nat) (dscp : Option Nat)
  | pfc (prio quanta : Nat)
deriving DecidableEq, Repr

/-! ## Jobs (R322 to R353, R471 to R475, R493) -/

/-- Job states (R349), in the order of DEV_JOB_STATE.state. -/
inductive JobState where
  | idle | loaded | armed | running | done | faulted | killed | scrubbing
deriving DecidableEq, Repr

/-- Part of a Beat (R322). -/
inductive Part where
  | off | guard | work | slot
deriving DecidableEq, Repr

/-- A memory region of the manifest: kind, base, length (R337). -/
structure Region where
  kind : Nat := 0
  base : Nat := 0
  len : Nat := 0
deriving DecidableEq, Repr

/-- A Beat-schedule entry (R339): type (0xFFFF END), target, count left. -/
structure SchedEntry where
  typ : Nat := 0xFFFF
  target : Nat := 0
  count : Nat := 0
deriving DecidableEq, Repr

/-- The ledger ring of a partition (R159 to R161). -/
structure LedgerRing where
  base : Nat := 0
  depth : Nat := 0
  nrec : Nat := 0
  valid : Bool := false
  headValid : Bool := false
  head : BitVec 48 := 0
  latch : BitVec 32 := 0
  werr : BitVec 16 := 0
deriving DecidableEq, Repr

/-- A confirmation SCRUBBING still has to run (R105, R479): (physical tile, macro) or a kind code. -/
structure ConfirmDue where
  tile : Nat := 0
  pm : Nat := 0
  /-- 0 macro, 1 tile array, 2 tile logic, 3 Fen line, 4 die-to-die module. -/
  kind : Nat := 0
deriving DecidableEq, Repr

structure Job where
  state : JobState := .idle
  outcome : Nat := 0
  code : BitVec 16 := 0
  whereW : BitVec 32 := 0
  id : BitVec 64 := 0
  tenant : Nat := 0
  planId : Nat := 0
  member : Nat := 0
  gsize : Nat := 1
  ownerSlot : Nat := 0xFF
  /-- SHA-384 of the loaded image (R502); empty for all zeros. -/
  mPlan : List Byte := []
  /-- Beat counter (R323). -/
  beat : BitVec 48 := 0
  beatLatch : BitVec 32 := 0
  beatUs : Nat := 0
  leadNs : Nat := 0
  elastic : Bool := false
  pps : Bool := false
  tickPort : Nat := 0
  ptpDomain : Nat := 0
  pc : Nat := 0
  ports : Nat := 0
  slack : BitVec 32 := 0xFFFFFFFF
  early : Stat := {}
  sched : List SchedEntry := []
  pos : Nat := 0
  /-- Beat types: tiles whose program of the type holds a SEND (R426). -/
  senders : List Nat := []
  /-- S_0 once START has given it; start of the Beat in progress and its index j. -/
  s0 : Option Nat := none
  sn : Nat := 0
  j : Nat := 0
  part : Part := .off
  /-- Start of the next Beat that a release has named (R329). -/
  nextStart : Option Nat := none
  finished : List Nat := []
  lastFinish : Nat := 0
  /-- Children that have reported done for the Beat in progress; own report sent; barrier complete. -/
  doneFrom : List Nat := []
  reported : Bool := false
  /-- The Beat in progress is the job's last. -/
  lastBeat : Bool := false
  regions : List Region := []
  banks : List (Nat × Nat × Nat) := []
  counters : List Nat := []
  ring : LedgerRing := {}
  slotRecords : Bool := false
  /-- First cycle of the maintenance slot in progress (R398). -/
  slotFrom : Nat := 0
  handle : Option (BitVec 64) := none
  table : MemberTable := {}
  /-- ARM in progress: members that have not yet replied, its start, and the last HELLO. -/
  arming : Bool := false
  awaiting : List Nat := []
  armFrom : Nat := 0
  helloAt : Nat := 0
  /-- Mailboxes of the ARM and of the LOAD_PLAN in progress. -/
  armBox : Option Nat := none
  loadBox : Option Nat := none
  /-- SEND peers of the plan. -/
  peers : List Nat := []
  /-- Last HEARTBEAT heard, by 4 · member + job port, and the last sent. -/
  heard : Tbl Nat := []
  beatSent : Nat := 0
  lost : BitVec 32 := 0
  /-- The seed that the last plan load has drawn (R187). -/
  seed : BitVec 64 := 0
  /-- Rate of the slowest job port as the plan load found it, in bytes per ns (R426). -/
  rate : Nat := 0
  /-- The recorded fault (R473, R493). -/
  faultValid : Bool := false
  remote : Bool := false
  ltile : Nat := 0
  ptile : Nat := 0
  lmacro : Nat := 0
  pmacro : Nat := 0
  faultBeat : BitVec 48 := 0
  orig : Nat := 0xFFFF
  confirms : List ConfirmDue := []
  txFlows : Tbl TxFlow := []
  rxFlows : Tbl RxFlow := []
  /-- WRITE frames that wait for a channel, oldest first (R400). -/
  rxHeld : List Frame := []
  sends : List Send := []
  /-- Round-robin position of the transport engine, a physical tile. -/
  sendRr : Nat := 0
  retx : Stat := {}
  ece : Stat := {}
  nack : BitVec 16 := 0
  tick : Tick := {}
  /-- LOADED with the LPDDR5X tokens and member table at rest; declared phase powers in mW (R340). -/
  phases : List (Nat × Nat × Nat) := []
  /-- Largest computed module power of the plan, in mW (R347). -/
  power : Nat := 0
deriving DecidableEq, Repr

/-! ## Balance (R354 to R382) -/

/-- Learnt power and droop guard of a phase of a die (R360, R367). -/
structure Phase where
  learnt : Nat := 0
  guard : Nat := 0
  calm : Nat := 0
  /-- Power attributed in this Beat, in mW · tile-µs, and the tile-µs. -/
  sum : Nat := 0
  n : Nat := 0
deriving DecidableEq, Repr

/-- A phase guard in force (R361): its phase, its voltage in mV, and when the phase was entered, if it has been. -/
structure Guard where
  phase : Nat
  mv : Nat
  entered : Option Nat := none
  /-- Announced for the next Beat, which has not been released (R276). -/
  ahead : Bool := false
deriving DecidableEq, Repr

structure Die where
  target : Nat := 15
  top : Nat := 0
  current : Nat := 15
  /-- Setpoints in force of VDD_LOGIC and VDD_CIM and the levels the slews have reached, in mV (R354, R355). -/
  vlogic : Nat := 0
  vnow : Nat := 0
  vcim : Nat := 0
  cnow : Nat := 0
  /-- Logic margin in 5 mV steps and its changes (R379). -/
  steps : Nat := 0
  changes : BitVec 16 := 0
  /-- Fastest point the thermal rule allows (R375). -/
  thermal : Nat := 0
  thermalAt : Nat := 0
  guards : List Guard := []
  phases : Tbl Phase := []
  /-- Phase of each tile, by logical tile; 0 by default. -/
  tilePhase : Tbl Nat := []
  /-- Activity of the last slice, in units of A_max over 8,000,000, and the ballast in it (R363). -/
  activity : Nat := 0
  ballast : Nat := 0
  /-- Equal share of the present slice's allowance for each tile, once slices run; what each tile did in the last slice
  and has issued in this one (R363). -/
  allow : Option Nat := none
  did : Tbl Nat := []
  issued : Tbl Nat := []
  /-- Slices since the last 1 µs step, their activities and those of each tile (R360, R368). -/
  slices : Nat := 0
  actSum : Nat := 0
  acts : Tbl Nat := []
  /-- Issue cycle of each tile within its window of 16 while the duty is cut (R372). -/
  cycles : Tbl Nat := []
  /-- Droop detectors, of 32, that have tripped; the die runs stretched while one has (R366). The stretched time of this
  Beat in ns, and up to when it has been counted. -/
  tripped : List Nat := []
  stretchBeat : Nat := 0
  stretchFrom : Nat := 0
  droop : Stat := {}
  stretch : Stat := {}
  /-- Hottest working sensor in 0.125 °C, the last reading of the 48 sensors, those that failed, and reads in a row each
  was off (R375, R377). -/
  hottest : BitVec 16 := 0
  temps : List Int := []
  failed : List Nat := []
  off : Tbl Nat := []
  held : Bool := false
deriving DecidableEq, Repr

/-- A BAL_MHIST entry (R382). -/
structure MHist where
  valid : Bool := false
  die : Nat := 0
  old : Nat := 0
  new : Nat := 0
  load : Nat := 0
deriving DecidableEq, Repr

structure Balance where
  capReq : BitVec 32 := 0x258
  cap : Nat := 600
  measLed : Bool := false
  pwrAlert : Bool := false
  belowCommit : Bool := false
  throttle : Bool := false
  duty : Nat := 15
  event : BitVec 32 := 0
  eventEn : BitVec 32 := 0x3FF
  energy : Stat := {}
  meas : BitVec 16 := 0
  est : BitVec 16 := 0
  ioMeas : Nat := 0
  /-- Estimates since the last measurement: their sum in mW and their number (R368). -/
  estSum : Nat := 0
  estN : Nat := 0
  /-- Windows in a row that differ, or agree (R369). -/
  windows : Nat := 0
  dutyAt : Nat := 0
  lowSince : Nat := 0
  dies : List Die := [{}, {}]
  ioHottest : BitVec 16 := 0
  ioFailed : List Nat := []
  ioOff : Tbl Nat := []
  mhist : List MHist := List.replicate 16 {}
  mhistN : Nat := 0
  loads : Nat := 0
deriving DecidableEq, Repr

/-! ## The host link (R443 to R470) -/

/-- A command the MP has taken (R454). -/
structure Cmd where
  /-- 0 OK, else a status of R458. -/
  status : Nat := 0
  out : List Byte := []
  /-- Set when the command's work has ended and MAILBOX_COMPLETE may return the mailbox. -/
  ended : Bool := false
  /-- Bytes a HOST_DMA or a FW_STAGE has moved. -/
  moved : Nat := 0
deriving DecidableEq, Repr

structure Mailbox where
  owner : Bool := false
  opcode : BitVec 8 := 0
  tag : BitVec 16 := 0
  lenIn : BitVec 9 := 0
  lenOut : BitVec 9 := 0
  status : BitVec 16 := 0
  part : Bool := false
  seq : BitVec 32 := 0
  time : BitVec 32 := 0
  drop : BitVec 16 := 0
  payload : Mem := []
  /-- Order and time of the handoff. -/
  order : Nat := 0
  handoff : Nat := 0
  /-- When the handoff arrived (R351). -/
  arrival : Nat := 0
  cmd : Option Cmd := none
deriving DecidableEq, Repr

/-- An access of the host that waits for a channel that retrains (R400): a BAR2 read or write of a device range, or the data
of a HOST_DMA toward the device. -/
inductive HostWait where
  | read (addr len : Nat) (errs : List MemErr)
  | write (addr : Nat) (bs : List Byte) (errs : List MemErr)
  | fill (box : Nat) (bs : List Byte) (ecc : Ecc)
deriving DecidableEq, Repr

structure HostLink where
  mbx : List Mailbox := List.replicate 8 {}
  orders : Nat := 0
  irqStatus : BitVec 11 := 0
  irqMask : BitVec 11 := 0x7FF
  /-- Causes whose bit rose while it was masked in IRQ_MASK: a message is still owed (R452). -/
  owed : BitVec 11 := 0
  /-- MSI-X table words keyed 4 · vector + word, as the difference from their reset values (R554). -/
  msix : Tbl (BitVec 32) := []
  pba : BitVec 64 := 0
  /-- MSI-X messages sent, oldest first. -/
  sent : List Nat := []
  /-- BAR2: base of the device side and log2 of its size in GiB (R448). -/
  bar2Base : Nat := 0
  bar2Log : Nat := 6
  barBase : List Nat := [0, 0]
  mps : Nat := 128
  mrrs : Nat := 512
  cto : Nat := 50000
  linkUp : Bool := true
  speed : Nat := 64
  width : Nat := 16
  /-- Configuration state the manual names or leaves to the base specification: the power state D3hot, ECRC generation and
  checking, and MSI-X enable and function mask (R443, R445). -/
  d3hot : Bool := false
  ecrcGen : Bool := false
  ecrcCheck : Bool := false
  msixEn : Bool := false
  msixMask : Bool := false
  /-- Accesses that wait for a channel, oldest first (R400). -/
  waits : List HostWait := []
  /-- Answer to the last read: 0 Successful, 1 Unsupported Request, 2 Completer Abort, and its bytes. -/
  cpl : Nat := 0
  readData : List Byte := []
  /-- Writes HOST_DMA made on the PCI Express fabric, oldest first. -/
  hostWrites : List (Nat × List Byte) := []
  /-- Errors logged for AER: 0 unsupported request, 1 poisoned, 2 completer abort, 3 internal, 4 completion timeout. -/
  aer : List Nat := []
deriving DecidableEq, Repr

/-! ## The management sideband (R465 to R468) -/

/-- States of the firmware update (DSP0267). -/
inductive FdState where
  | idle | learn | ready | download | verify | apply | activate
deriving DecidableEq, Repr

structure Sideband where
  addr : BitVec 7 := 0x5F
  eid : Nat := 0
  tid : Nat := 0
  receiver : Nat := 0
  /-- Last response: completion code and data. -/
  code : Nat := 0
  data : List Byte := []
  events : List Nat := []
  fd : FdState := .idle
  fdSize : Nat := 0
  fdImage : List Byte := []
  /-- The update agent's largest transfer, and the RequestFirmwareData requests sent for the component: offset and length. -/
  fdMax : Nat := 0
  asked : List (Nat × Nat) := []
  /-- Platform latches of the BAL_ RS pairs: energy, then droop and stretch of die 0 and of die 1. -/
  latches : List (BitVec 32) := [0, 0, 0, 0, 0]
deriving DecidableEq, Repr

/-! ## Security and retirement (R480, R485, R495 to R519) -/

structure KeySlot where
  /-- 0 EMPTY, 1 ENROLLED, 2 REVOKED. -/
  state : Nat := 0
  key : List Byte := []
deriving DecidableEq, Repr

/-- A firmware image in a slot of the flash (R498). -/
structure FwImage where
  version : BitVec 32 := 0
  svn : Nat := 0
  bytes : List Byte := []
deriving DecidableEq, Repr

structure Security where
  lifecycle : Nat := 1
  debugDis : Bool := true
  enforce : Bool := false
  slots : List KeySlot := [{}, {}, {}, {}]
  fallback : Bool := false
  counter : Nat := 0
  /-- The two slots of the flash, which of them is active and which runs (false A), the image that runs, and the one FW_STAGE
  has put into the inactive slot since READY (R498, R500). -/
  flash : List (List Byte) := [[], []]
  activeB : Bool := false
  slotB : Bool := false
  run : FwImage := {}
  staged : Option FwImage := none
  /-- Entries since manufacture, and the last 256 by position (R506). -/
  journal : BitVec 16 := 0
  entries : Tbl (List Byte) := []
  /-- When the last fuse was written and what its entry overwrote, while the write may still be under way; and the kind and
  argument of a fuse whose entry is missing (R506, R534). -/
  fuseAt : Option (Nat × List Byte) := none
  missing : Option (Nat × List Byte) := none
  /-- READY count since manufacture and since PWR_EN, and the time of the last READY. -/
  readyEver : BitVec 32 := 1
  readyPwr : BitVec 64 := 1
  readyAt : Nat := 0
  /-- Draws taken from the random bit generator. -/
  draws : Nat := 0
  /-- Of the boot: its salt, the alias private scalar, the CDI until the boot ROM erases it, and whether the boot ROM may
  read the DIK and the UDS (R497). -/
  salt : List Byte := []
  aliasKey : Nat := 0
  aliasCert : List Byte := []
  cdi : List Byte := []
  rootOpen : Bool := false
  /-- Clearing of device memory has begun since READY (R15, R519). -/
  clearing : Bool := false
  /-- In-field Reserve records in the order written, and the volatile table with the kind of each entry (R485). -/
  records : List (List Byte) := []
  volatile : List (Nat × List Byte) := []
  /-- Entry to RMA has zeroised the DIK and the UDS (R505). -/
  zeroised : Bool := false
  /-- An activation awaits its first READY. -/
  activated : Bool := false
deriving DecidableEq, Repr

/-! ## Power, reset and start-up (R520 to R542) -/

/-- Where the device stands (R539). -/
inductive Phase0 where
  | unpowered | inReset | starting | ready | activating | down | bootFailed
deriving DecidableEq, Repr

structure Startup where
  phase : Phase0 := .ready
  /-- Pins: PWR_EN and PERST_N as driven, PG, FAULT_N, THERMTRIP_N, PWR_ALERT_N, SMB_ALERT_N, PPS_IN. -/
  pwrEn : Bool := true
  perstN : Bool := true
  pg : Bool := true
  faultN : Bool := true
  thermtripN : Bool := true
  /-- Up to when PPS_IN is high, and the levels of ADDR as sampled (R521). -/
  ppsUntil : Nat := 0
  addrPins : Nat := 7
  housekeeping : Bool := true
  /-- The hot-swap latch of an input trip (R529), and when PWR_EN fell. -/
  tripped : Bool := false
  pwrFell : Nat := 0
  /-- DEV_RESET holds its internal reset (R534). -/
  internalReset : Bool := false
  squelched : Bool := false
  cause : Nat := 0
  causeCode : BitVec 16 := 0
  /-- Steps of R536 that have ended. -/
  arraysCleared : Bool := true
  verified : Bool := true
  d2dTrained : List Nat := List.range 12
  lpddrTrained : List Nat := List.range 52
  cwyTrained : List Nat := List.range 5
  /-- Failures beyond the Reserve (R484): (affects WHOLE and which partition; 2 for WHOLE only, fault code). -/
  beyond : List (Nat × Nat) := []
  /-- Test data out of the access port, TRST_N, and the levels EXTEST drives on the outputs. -/
  tdo : BitVec 32 := 0
  trstN : Bool := false
  extest : Option (BitVec 16) := none
  /-- Fifteen tile retirements have awaited a plan load at one time since READY (R494). -/
  tpendFull : Bool := false
deriving DecidableEq, Repr

end Sys2Proof.Machine
end

