-- ==== Sys2Proof/Machine/Crypto.lean ====
section
/-!
DEFINITION. The cryptography the manual names, SHA-384 with its HMAC and HKDF and ECDSA over brainpoolP384r1 (FIPS 180-4,
FIPS 186-5, RFC 5639, RFC 5869), and the keys of a boot (R343, R497, R498, R502 to R504).
-/
namespace Sys2Proof.Machine

/-! ## SHA-384 -/

/-- The greatest `r` of `n` bits with `r ^ k` at most `x`, over a part `acc` already found. -/
def rootBits (k x : Nat) : Nat → Nat → Nat
  | 0, acc => acc
  | n + 1, acc => rootBits k x n (if (acc + 2 ^ n) ^ k ≤ x then acc + 2 ^ n else acc)

/-- The first 64 bits of the fraction of the `k`-th root of a number below 2 ^ 9 (FIPS 180-4 names its constants so). -/
def rootFraction (k p : Nat) : BitVec 64 := .ofNat 64 (rootBits k (p * 2 ^ (64 * k)) 69 0)

/-- The first 80 primes. -/
def smallPrimes : List Nat :=
  (List.range' 2 408).filter fun n => (List.range' 2 19).all fun d => n == d || n % d != 0

/-- The round constants, of the cube roots of those primes. -/
def shaK : List (BitVec 64) := smallPrimes.map (rootFraction 3)

/-- The initial hash value, of the square roots of the ninth to the sixteenth. -/
def shaInit : List (BitVec 64) := ((smallPrimes.drop 8).take 8).map (rootFraction 2)

/-- A message padded to whole blocks of 128 bytes. -/
def shaPad (bs : List Byte) : List Byte :=
  bs ++ [0x80] ++ zeros ((239 - bs.length % 128) % 128) ++ beBytes 16 (8 * bs.length)

/-- The `n`-byte pieces of a list, the first `k` of them. -/
def pieces (n : Nat) : Nat → List Byte → List (List Byte)
  | 0, _ => []
  | k + 1, bs => bs.take n :: pieces n k (bs.drop n)

/-- A word against its turns by two counts and its shift, or its third turn, by a third. -/
def turns (i j : Nat) (third w : BitVec 64) : BitVec 64 := w.rotateRight i ^^^ w.rotateRight j ^^^ third

/-- The message schedule: 16 words and 64 more, newest first. -/
def shaSchedule : Nat → List (BitVec 64) → List (BitVec 64)
  | 0, w => w
  | k + 1, w =>
    let late := nth 0 w 1
    let old := nth 0 w 14
    shaSchedule k ((nth 0 w 15 + turns 1 8 (old >>> 7) old + nth 0 w 6 + turns 19 61 (late >>> 6) late) :: w)

/-- One round, of a constant and a word of the schedule: the newest of the eight working words leads. -/
def shaRound (v : List (BitVec 64)) (kw : BitVec 64 × BitVec 64) : List (BitVec 64) :=
  let a := nth 0 v 0
  let e := nth 0 v 4
  let pick := nth 0 v 6 ^^^ (e &&& (nth 0 v 5 ^^^ nth 0 v 6))
  let most := (a &&& (nth 0 v 1 ||| nth 0 v 2)) ||| (nth 0 v 1 &&& nth 0 v 2)
  let add := kw.1 + kw.2 + nth 0 v 7 + pick + turns 14 18 (e.rotateRight 41) e
  (add + most + turns 28 34 (a.rotateRight 39) a) :: v.take 3 ++ (nth 0 v 3 + add) :: (v.drop 4).take 3

/-- Take one block into the hash value. -/
def shaBlock (h : List (BitVec 64)) (block : List Byte) : List (BitVec 64) :=
  let w := (pieces 8 16 block).map fun b => BitVec.ofNat 64 (beNat b)
  let ws := (shaSchedule 64 w.reverse).reverse
  List.zipWith (· + ·) h ((shaK.zip ws).foldl shaRound h)

/-- SHA-384. -/
def sha384 (bs : List Byte) : List Byte :=
  let m := shaPad bs
  (((pieces 128 (m.length / 128) m).foldl shaBlock shaInit).take 6).flatMap fun w => beBytes 8 w.toNat

/-- HMAC-SHA-384. -/
def hmac384 (key msg : List Byte) : List Byte :=
  let k := if 128 < key.length then sha384 key else key
  let k := k ++ zeros (128 - k.length)
  sha384 (k.map (· ^^^ 0x5C) ++ sha384 (k.map (· ^^^ 0x36) ++ msg))

/-- HKDF-SHA-384: 56 bytes from a secret, a salt and an info string. -/
def hkdf384 (ikm salt info : List Byte) : List Byte :=
  let prk := hmac384 salt ikm
  let t1 := hmac384 prk (info ++ [1])
  (t1 ++ hmac384 prk (t1 ++ info ++ [2])).take 56

/-! ## ECDSA over brainpoolP384r1 -/

def curveP : Nat := 0x8CB91E82A3386D280F5D6F7E50E641DF152F7109ED5456B412B1DA197FB71123ACD3A729901D1A71874700133107EC53
def curveA : Nat := 0x7BC382C63D8C150C3C72080ACE05AFA0C2BEA28E4FB22787139165EFBA91F90F8AA5814A503AD4EB04A8C7DD22CE2826
def curveB : Nat := 0x04A8C7DD22CE28268B39B55416F0447C2FB77DE107DCD2A62E880EA53EEB62D57CB4390295DBC9943AB78696FA504C11
def curveN : Nat := 0x8CB91E82A3386D280F5D6F7E50E641DF152F7109ED5456B31F166E6CAC0425A7CF3AB6AF6B7FC3103B883202E9046565
def curveG : Nat × Nat :=
  (0x1D1C64F068CF45FFA2A63A81B7C13F6B8847A3E77EF14FE3DB7FCAFE0CBD10E8E826E03436D646AAEF87B2E247D4AF1E,
   0x8ABE1D7520F9C2A45CB1EB8E95CFD55262B70B29FEEC5864E19C054FF99129280E4646217791811142820341263C5315)

/-- The bits of a 384-bit number, the highest first. -/
def bits384 (k : Nat) : List Bool := (List.range 384).reverse.map fun i => k.testBit i

/-- A power modulo m. -/
def powMod (m b e : Nat) : Nat := (bits384 e).foldl (fun acc x => let y := acc * acc % m; if x then y * b % m else y) (1 % m)

/-- The inverse modulo a prime. -/
def invMod (m x : Nat) : Nat := powMod m (x % m) (m - 2)

/-- Sum of two points; `none` is the point at infinity. -/
def addPoint (a b : Option (Nat × Nat)) : Option (Nat × Nat) :=
  match a, b with
  | none, _ => b
  | _, none => a
  | some (x1, y1), some (x2, y2) =>
    let p := curveP
    if x1 = x2 ∧ (y1 + y2) % p = 0 then none
    else
      let l := if x1 = x2 ∧ y1 = y2 then (3 * x1 * x1 + curveA) * invMod p (2 * y1) % p
        else (y2 + p - y1) * invMod p (x2 + p - x1) % p
      let x3 := (l * l + 2 * p - x1 - x2) % p
      some (x3, (l * (x1 + p - x3) + p - y1) % p)

/-- A multiple of a point. -/
def mulPoint (k : Nat) (q : Nat × Nat) : Option (Nat × Nat) :=
  (bits384 k).foldl (fun acc x => let d := addPoint acc acc; if x then addPoint d (some q) else d) none

/-- Is the pair a point of the curve? -/
def onCurve (q : Nat × Nat) : Bool :=
  decide (q.1 < curveP) && decide (q.2 < curveP) && decide (q.2 * q.2 % curveP = (q.1 * q.1 * q.1 + curveA * q.1 + curveB) % curveP)

/-- The point of a 97-byte public key. -/
def keyPoint (key : List Byte) : Nat × Nat := (beNat ((key.drop 1).take 48), beNat ((key.drop 49).take 48))

/-- Is a 97-byte string an uncompressed public key (R504)? -/
def validPoint (key : List Byte) : Bool := decide (key.length = 97) && decide (key.head? = some 4) && onCurve (keyPoint key)

/-- Does an ECDSA signature verify (R343, R498, R503)? -/
def ecdsaVerify (key digest r s : List Byte) : Bool :=
  let rn := beNat r
  let sn := beNat s
  let w := invMod curveN sn
  let v := addPoint (mulPoint (beNat digest * w % curveN) curveG) (mulPoint (rn * w % curveN) (keyPoint key))
  validPoint key && decide (0 < rn) && decide (rn < curveN) && decide (0 < sn) && decide (sn < curveN) &&
    (match v with | some q => decide (q.1 % curveN = rn) | none => false)

/-- A private scalar from 56 random bytes: FIPS 186-5, Appendix A.2.1. -/
def scalarOf (bs : List Byte) : Nat := beNat bs % (curveN - 1) + 1

/-- An ECDSA signature r, s with a per-message secret number. -/
def ecdsaSign (key secret : Nat) (digest : List Byte) : List Byte :=
  let r := ((mulPoint secret curveG).map (·.1)).getD 0 % curveN
  let s := invMod curveN secret * (beNat digest + r * key) % curveN
  beBytes 48 r ++ beBytes 48 s

/-! ## The keys of a boot (R495, R497, R502, R505) -/

/-- `n` draws of eight bytes each from the random bit generator. -/
def drawBytes (from_ n : Nat) : List Byte := (List.range n).flatMap fun i => leBytes 8 (Config.randomBits (from_ + i)).toNat

/-- The digest of the fuses. -/
def fuseDigest (x : Security) : List Byte :=
  let keys := (x.slots.filter fun k => decide (k.state ≠ 0)).flatMap (·.key)
  sha384 ([BitVec.ofNat 8 x.lifecycle, BitVec.ofNat 8 (b2n x.debugDis), BitVec.ofNat 8 x.counter, BitVec.ofNat 8 (b2n x.enforce)] ++
    (x.slots.map fun k => BitVec.ofNat 8 k.state) ++ (if keys.isEmpty then zeros 48 else sha384 keys) ++ zeros 8)

/-- The Skovund measurement (R502). -/
def fwDigest (x : Security) : List Byte := sha384 x.run.bytes

/-- The fused unique device secret and the private half of the DIK: zero once entry to RMA has zeroised them (R505). -/
def udsOf (x : Security) : List Byte := if x.zeroised then zeros 48 else Config.uds
def dikOf (x : Security) : Nat := if x.zeroised then 0 else Config.dik

/-- The public half of a key. -/
def publicKey (k : Nat) : Nat × Nat := (mulPoint k curveG).getD (0, 0)

/-- The per-message secret number of a signature, from the random bit generator (FIPS 186-5, Appendix A.3.1). -/
def signSecret (x : Security) : Nat := scalarOf (drawBytes x.draws 7)

/-- The info string KERYN-ALIAS. -/
def aliasInfo : List Byte := [0x4B, 0x45, 0x52, 0x59, 0x4E, 0x2D, 0x41, 0x4C, 0x49, 0x41, 0x53]

/-- The boot ROM signs the alias certificate with the DIK (R496, R497). -/
def signAlias (x : Security) : Security :=
  let body := Config.aliasBody (publicKey x.aliasKey) (fwDigest x) x.run.svn x.lifecycle
  { x with draws := x.draws + 7, aliasCert := Config.aliasDer body (ecdsaSign (dikOf x) (signSecret x) (sha384 body)) }

/-- A boot ROM derives the CDI, draws the boot salt, derives the alias key and signs its certificate; then it erases the CDI and
closes its access to the DIK and the UDS (R497). -/
def bootKeys (x : Security) : Security :=
  let cdi := hmac384 (udsOf x) (fwDigest x ++ fuseDigest x)
  let salt := drawBytes x.draws 4
  { signAlias { x with draws := x.draws + 4, salt := salt, aliasKey := scalarOf (hkdf384 cdi salt aliasInfo) } with cdi := [], rootOpen := false }

/-- A boot begins: the boot ROM may read the DIK and the UDS. -/
def openBoot (x : Security) : Security := { x with salt := [], aliasKey := 0, aliasCert := [], cdi := [], rootOpen := true }

/-- The certificate chain (R496). -/
def certChain (x : Security) : List Byte := Config.caCerts ++ Config.deviceCert (publicKey Config.dik) Config.serial ++ x.aliasCert

/-! ## Skovund images (R498, R500) -/

/-- An image, by its header. -/
def imageOf (bs : List Byte) : FwImage := { version := BitVec.ofNat 32 (fieldAt bs 4 4), svn := fieldAt bs 8 1, bytes := bs }

/-- Verify a Skovund image against the key, its signature and the counter: 0, or a status of R458. -/
def verifyImage (x : Security) (bs : List Byte) : Nat :=
  let n := bs.length
  let key := (bs.drop 13).take 97
  let svn := fieldAt bs 8 1
  if n < 352 ∨ fieldAt bs 0 4 ≠ 0x56444B53 ∨ sha384 key ≠ Config.fwKeyDigest ∨
      ecdsaVerify key (sha384 (bs.take (n - 96))) ((bs.drop (n - 96)).take 48) (bs.drop (n - 48)) = false then 0xB
  else if 128 < svn then 0xF
  else if svn < x.counter then 0x10
  else 0

/-- What a slot of the flash holds. -/
def slotBytes (x : Security) (b : Bool) : List Byte := nth [] x.flash (if b then 1 else 0)

/-- The boot ROM runs the image of a slot. -/
def runSlot (x : Security) (b : Bool) : Security := { x with run := imageOf (slotBytes x b), slotB := b, fallback := decide (b ≠ x.activeB) }

/-- The boot ROM checks the active slot, then the other, and runs the first image that verifies (R498). -/
def bootFrom (x : Security) : Option Security :=
  if verifyImage x (slotBytes x x.activeB) = 0 then some (bootKeys (runSlot x x.activeB))
  else if verifyImage x (slotBytes x !x.activeB) = 0 then some (bootKeys (runSlot x !x.activeB))
  else none

/-- An image is written to the inactive slot (R500). -/
def stageImage (x : Security) (bs : List Byte) : Security :=
  { x with flash := setAt x.flash (if x.activeB then 0 else 1) bs, staged := some (imageOf bs) }

end Sys2Proof.Machine
end

