-- ==== Sys2Proof/Machine/State.lean ====
section
/-!
DEFINITION. The state of the module, its reset value, and the reasons a step stops.
-/
namespace Sys2Proof.Machine

/-- No command of this model stops the machine: a fault of the device is an effect on the state (R471). -/
inductive Fault where
  /-- Never raised. -/
  | none
deriving DecidableEq, Repr

/-- Why a step is refused. -/
inductive Refusal where
  /-- Raised by an arm of `exec` whose meaning has not been written; safe. -/
  | notModelled (mnemonic : String)
  /-- Raised by JTAG_INSTRUCTION for an instruction the manual does not describe while debug-disable is
  clear (R505, R525); safe. -/
  | debugInstruction
deriving DecidableEq, Repr

/-- The whole module. -/
structure State where
  /-- Commands that wait, first in, first out. -/
  pending : List Instr := []
  /-- Physical tiles, keyed by die [8], row [7:5], column [4:0] (R493). -/
  tiles : Tbl Tile := []
  /-- Logical tiles that another physical tile serves (R481), and retired physical tiles. -/
  tileMap : Tbl (Option Nat) := []
  fens : List Fen := [{}, {}]
  cache : Tbl CLine := []
  /-- LPDDR5X contents by device address. -/
  mem : Mem := []
  /-- States of the memory's bytes: each entry holds from its address to the next entry's. -/
  segs : List (Nat × ByteState) := [(0, .awaiting)]
  chans : List Channel := []
  memParts : List MemPart := [{}, {}]
  /-- DMAs of tiles that wait for a channel, oldest first. -/
  waits : List DmaWait := []
  ports : List Port := []
  windows : Tbl Window := []
  split : Bool := false
  jobs : List Job := [{}, {}]
  bal : Balance := {}
  host : HostLink := {}
  side : Sideband := {}
  sec : Security := {}
  start : Startup := {}
  /-- Causeway frames sent, oldest first. -/
  sentFrames : List OnWire := []
  /-- Frames of the link layer sent, oldest first, with the physical port. -/
  sentLink : List (Nat × LinkFrame) := []
  /-- The latest time a command has carried, in ns. -/
  now : Nat := 0
  /-- The model's own counter of free values drawn. -/
  free : Nat := 0
deriving DecidableEq, Repr

/-- The channels after manufacture in WHOLE: slot s on channel s, Reserve 48 to 51 (R384). -/
def resetChannels : List Channel :=
  (List.range 52).map fun n => if n < 48 then { slot := n } else { state := 1 }

/-- A port that came up during start-up (R537), assigned to no job. -/
def resetPorts : List Port := (List.range 5).map fun _ => { state := 2, mode := 1 }

/-- Security after the boot that led to the first READY, from slot A (R497, R498). -/
def resetSec : Security :=
  bootKeys (runSlot { flash := [Config.flashImage 0, Config.flashImage 1] } false)

/-- A die as PWR_EN leaves it: P15, with its rails as fused (R354, R381). -/
def freshDie (d : Nat) : Die :=
  let v := Config.fusedVlogic d 15
  let c := Config.fusedVcim d 15
  { vlogic := v, vnow := v, vcim := c, cnow := c }

/-- Balance as PWR_EN leaves it (R381, R563). -/
def freshBal : Balance := { dies := [freshDie 0, freshDie 1] }

/-- The module at the moment READY asserts after a first power-on (R15, R536, R537). -/
def State.reset : State := { chans := resetChannels, ports := resetPorts, bal := freshBal, sec := resetSec }

end Sys2Proof.Machine
end

