-- ==== Sys2Proof/Machine/Ops.lean ====
section
/-!
DEFINITION. The named operations over the module's state: tiles and partitions, interrupts, frames, job states
and faults, device memory and the Fen, retirement records.
-/
namespace Sys2Proof.Machine

/-! ## Time, tiles and partitions -/

/-- The time a command carries (R319). -/
def atTime (s : State) (now : Nat) : State := { s with now := max s.now now }

/-- The tick time of a job's partition at a time of the device (R319). -/
def Job.tickOf (j : Job) (now : Nat) : Nat := (now + j.tick.shift).toNat

/-- The physical tile of a logical tile that was never remapped (R561). -/
def homeTile (t : Nat) : Nat := 256 * (t / 128) + 32 * (t / 16 % 8) + t % 16

/-- The physical tile that serves a logical tile (R481). -/
def physTile (s : State) (t : Nat) : Nat :=
  match tget none s.tileMap t with
  | some p => p
  | none => homeTile t

def tileAt (s : State) (pt : Nat) : Tile := tget {} s.tiles pt
def setTile (s : State) (pt : Nat) (x : Tile) : State := { s with tiles := tset {} s.tiles pt x }
def modTile (s : State) (pt : Nat) (f : Tile → Tile) : State := setTile s pt (f (tileAt s pt))

/-- Die of a logical tile, and its partition. -/
def dieOf (t : Nat) : Nat := t / 128 % 2
def partOfDie (s : State) (d : Nat) : Nat := if s.split then d else 0
def partOf (s : State) (t : Nat) : Nat := partOfDie s (dieOf t)

/-- Logical tiles of a partition. -/
def tilesOf (s : State) (p : Nat) : List Nat :=
  if s.split then (List.range 128).map fun t => 128 * p + t else List.range 256

/-- Partitions of the present setting. -/
def partitions (s : State) : List Nat := if s.split then [0, 1] else [0]

/-- Dies of a partition. -/
def diesOf (s : State) (p : Nat) : List Nat := if s.split then [p] else [0, 1]

def jobOf (s : State) (p : Nat) : Job := nth {} s.jobs p
def setJob (s : State) (p : Nat) (j : Job) : State := { s with jobs := setAt s.jobs p j }
def modJob (s : State) (p : Nat) (f : Job → Job) : State := setJob s p (f (jobOf s p))

def fenOf (s : State) (d : Nat) : Fen := nth {} s.fens d
def setFen (s : State) (d : Nat) (x : Fen) : State := { s with fens := setAt s.fens d x }
def modFen (s : State) (d : Nat) (f : Fen → Fen) : State := setFen s d (f (fenOf s d))

def portAt (s : State) (k : Nat) : Port := nth {} s.ports k
def modPort (s : State) (k : Nat) (f : Port → Port) : State := { s with ports := setAt s.ports k (f (portAt s k)) }

def chanAt (s : State) (n : Nat) : Channel := nth {} s.chans n
def modChan (s : State) (n : Nat) (f : Channel → Channel) : State := { s with chans := setAt s.chans n (f (chanAt s n)) }

def mbxAt (s : State) (k : Nat) : Mailbox := nth {} s.host.mbx k
def modMbx (s : State) (k : Nat) (f : Mailbox → Mailbox) : State :=
  { s with host := { s.host with mbx := setAt s.host.mbx k (f (mbxAt s k)) } }

/-- Is the device in service (R539)? -/
def inService (s : State) : Bool := decide (s.start.phase = .ready)

/-! ## Interrupts (R451, R452, R554) -/

/-- Is an MSI-X vector masked: the function mask, or bit 0 of its vector control? -/
def vectorMasked (s : State) (v : Nat) : Bool := s.host.msixMask || !(tget 0 s.host.msix (4 * v + 3)).getLsbD 0

/-- Can the function send a message (R445)? -/
def canSend (h : HostLink) : Bool := h.linkUp && !h.d3hot && h.msixEn

/-- Send an MSI-X message, or hold it in the Pending Bit Array while its vector is masked; a message that the function cannot
send is lost. -/
def signalVector (s : State) (v : Nat) : State :=
  if !canSend s.host then s
  else if vectorMasked s v then { s with host := { s.host with pba := s.host.pba ||| BitVec.ofNat 64 (2 ^ v) } }
  else { s with host := { s.host with sent := s.host.sent ++ [v] } }

/-- Send the messages held for vectors that are no longer masked. -/
def sendPending (s : State) : State :=
  (List.range 12).foldl (fun s v =>
    if canSend s.host && !vectorMasked s v && s.host.pba.getLsbD v then
      signalVector { s with host := { s.host with pba := s.host.pba &&& ~~~(BitVec.ofNat 64 (2 ^ v)) } } v
    else s) s

/-- Do the host's accesses of the BARs reach the device? -/
def barReach (s : State) : Bool := s.host.linkUp && !s.host.d3hot

/-- Complete a host's read. -/
def answer (s : State) (cpl : Nat) (bs : List Byte) : State := { s with host := { s.host with cpl := cpl, readData := bs } }

/-- Log an error for AER, and signal its vector (R443, R451). -/
def logAer (s : State) (e : Nat) : State := signalVector { s with host := { s.host with aer := s.host.aer ++ [e] } } 11

/-- Log an access as an Unsupported Request. -/
def unsupported (s : State) : State := logAer (answer s 1 []) 0

/-- A cause of R451 occurs. -/
def raiseCause (s : State) (b : Nat) : State :=
  if s.host.irqStatus.getLsbD b then s
  else
    let s := { s with host := { s.host with irqStatus := s.host.irqStatus ||| BitVec.ofNat 11 (2 ^ b) } }
    if s.host.irqMask.getLsbD b then { s with host := { s.host with owed := s.host.owed ||| BitVec.ofNat 11 (2 ^ b) } }
    else signalVector s b

/-! ## Causeway frames (R418 to R420, R435) -/

/-- The physical port that serves a job port of a partition. -/
def physPort (s : State) (p k : Nat) : Option Nat :=
  lowest 5 fun n => let x := portAt s n; x.assigned && decide (x.part = p) && decide (x.jport = k)

/-- Is a frame of the data priority: a WRITE, or an acknowledgement of one (R413)? -/
def dataPriority (typ : Nat) : Bool := decide (1 ≤ typ) && decide (typ ≤ 3)

/-- The flow hash of a frame (R420). -/
def flowHash (f : Frame) : Nat := ((f.src * 4 + f.jport) ^^^ (f.dst * 7)) % 2 ^ 14

/-- A transport frame as bytes: header, body, payload and CRC-32C (R418). -/
def frameBytes (f : Frame) : List Byte :=
  let b := [BitVec.ofNat 8 (16 * f.ver + f.typ), BitVec.ofNat 8 (b2n f.nm + 2 * b2n f.last + 4 * b2n f.ece)] ++
    leBytes 2 (f.payload.length / 32) ++ leBytes 8 f.jobId ++ leBytes 2 (f.src % 2 ^ 14 + 2 ^ 14 * (f.jport % 4)) ++
    leBytes 2 (f.dst % 2 ^ 14) ++ leBytes 4 (f.seq % 2 ^ 24) ++ (f.body ++ zeros 28).take 28 ++ f.payload
  b ++ leBytes 4 (crc32c b)

/-- The sum of big-endian 16-bit words. -/
def sumWords : List Byte → Nat
  | [] => 0
  | [x] => 256 * x.toNat
  | x :: y :: r => 256 * x.toNat + y.toNat + sumWords r

/-- The UDP checksum over the IPv6 pseudo header, the UDP header and the data (R415). -/
def udpChecksum (src dst : List Byte) (sport dport : Nat) (data : List Byte) : Nat :=
  let n := 8 + data.length
  let t := sumWords (src ++ dst ++ beBytes 4 n ++ [0, 0, 0, 17] ++ beBytes 2 sport ++ beBytes 2 dport ++ beBytes 2 n ++ [0, 0] ++ data)
  let t := t % 65536 + t / 65536
  let c := 65535 - (t % 65536 + t / 65536) % 65536
  if c = 0 then 65535 else c

/-- What carries a frame of a job on the link of physical port `n`, by its member table (R413, R415, R417). -/
def encapOf (j : Job) (n : Nat) (f : Frame) : Encap :=
  let m := j.table
  let d := dataPriority f.typ
  let ip (k : Nat) : List Byte := nth [] (nth {} m.addrs k).ips f.jport
  { dmac := nth [] (nth {} m.addrs f.dst).macs f.jport
    smac := beBytes 6 (Config.mac n).toNat
    tag := if m.vlan = 0xFFFF then none else some (m.vlan % 2 ^ 12, if d then m.pcpData else m.pcpCtl)
    etherType := if m.encap = 1 then 0x86DD else 0x8B4D
    udp := if m.encap = 1 then
        some { srcIp := ip f.src, dstIp := ip f.dst, dscp := if d then m.dscpData else m.dscpCtl, ect := decide (f.typ = 1)
               flowLabel := flowHash f, srcPort := 0xC000 + flowHash f, dstPort := m.udpPort
               checksum := udpChecksum (ip f.src) (ip f.dst) (0xC000 + flowHash f) m.udpPort (frameBytes f) }
      else none }

/-- Does a physical port send: its link is up, and the transmitter is not squelched? -/
def portOpen (s : State) (n : Nat) : Bool :=
  decide ((portAt s n).state = 2 ∨ ((portAt s n).state = 3 ∧ (portAt s n).mode ≠ 0)) && !s.start.squelched

/-- The priority in which a job's frame travels (R413). -/
def prioOf (j : Job) (f : Frame) : Nat := if dataPriority f.typ then j.table.pcpData else j.table.pcpCtl

/-- A frame leaves on a physical port that is up. -/
def emitFrame (s : State) (p n : Nat) (f : Frame) : State :=
  if portOpen s n then
    { modPort s n (fun x => { x with txf := x.txf.add 1 }) with
      sentFrames := s.sentFrames ++ [{ port := n, frame := f, link := encapOf (jobOf s p) n f }] }
  else s

/-- Send a frame on a job port; while its priority is paused it waits there (R416). -/
def sendFrame (s : State) (p k : Nat) (f : Frame) : State :=
  match physPort s p k with
  | none => s
  | some n =>
    if (portAt s n).paused.contains (prioOf (jobOf s p) f) then modPort s n fun x => { x with held := x.held ++ [(p, f)] }
    else emitFrame s p n f

/-- A pause of a port ends: the frames that waited for the priority leave in order. -/
def endPause (s : State) (n prio : Nat) : State :=
  let x := portAt s n
  let go (e : Nat × Frame) : Bool := decide (prioOf (jobOf s e.1) e.2 = prio)
  let s := modPort s n fun x => { x with paused := x.paused.filter fun k => decide (k ≠ prio), held := x.held.filter fun e => !go e }
  (x.held.filter go).foldl (fun s e => emitFrame s e.1 n e.2) s

/-- Send a frame of the link layer on a physical port that is up. -/
def sendLinkFrame (s : State) (n : Nat) (x : LinkFrame) : State :=
  if portOpen s n then
    { modPort s n (fun y => { y with txf := y.txf.add 1 }) with sentLink := s.sentLink ++ [(n, x)] }
  else s

/-- Bytes of a transport frame: header, payload and CRC-32C (R418). -/
def frameLen (f : Frame) : Nat := 52 + f.payload.length

/-- The receive buffers of a partition's ports: past the threshold a port pauses its sender, and below it lets it go on
(R416; log 166). -/
def pfcUpdate (s : State) (p : Nat) : State :=
  let j := jobOf s p
  (List.range j.ports).foldl (fun s k =>
    match physPort s p k with
    | none => s
    | some n =>
      let prio := j.table.pcpData
      let full := decide (Config.pfcThreshold < ((j.rxHeld.filter fun f => decide (f.jport = k)).map frameLen).foldl (· + ·) 0)
      if full = (portAt s n).xoff.contains prio then s
      else
        let rest := (portAt s n).xoff.filter fun q => decide (q ≠ prio)
        sendLinkFrame (modPort s n fun x => { x with xoff := if full then rest ++ [prio] else rest }) n
          (.pfc prio (if full then Config.pfcQuanta else 0))) s

/-- A control frame from a partition to a member on job port k. -/
def control (s : State) (p k dst typ : Nat) (body : List Byte) : Frame :=
  let j := jobOf s p
  { typ := typ, jobId := j.id.toNat, src := j.member, jport := k, dst := dst
    body := body ++ zeros (28 - body.length) }

/-- Send a control frame on every job port. -/
def sendAll (s : State) (p dst typ : Nat) (body : List Byte) : State :=
  (List.range (jobOf s p).ports).foldl (fun s k => sendFrame s p k (control s p k dst typ body)) s

/-- Parent and children of a member in the barrier tree (R328). -/
def parentOf (m : Nat) : List Nat := if m = 0 then [] else [(m - 1) / 16]
def childrenOf (m n : Nat) : List Nat := ((List.range 16).map fun i => 16 * m + 1 + i).filter fun c => decide (c < n)
def neighbours (j : Job) : List Nat := parentOf j.member ++ childrenOf j.member j.gsize

/-- Send a NOTICE to every neighbour but one (R437). -/
def notice (s : State) (p orig code : Nat) (abort : Bool) (skip : Option Nat) : State :=
  ((neighbours (jobOf s p)).filter fun m => decide (some m ≠ skip)).foldl
    (fun s m => sendAll s p m 8 (leBytes 2 orig ++ leBytes 2 code ++ [BitVec.ofNat 8 (b2n abort)])) s

/-! ## Windows (R429, R430) -/

def windowAt (s : State) (w : Nat) : Window := tget {} s.windows w
def setWindow (s : State) (w : Nat) (x : Window) : State := { s with windows := tset {} s.windows w x }

/-- Device number of a partition's local window. -/
def devWindow (s : State) (p w : Nat) : Nat := if s.split then 128 * p + w % 128 else w

def windowsOf (s : State) (p : Nat) : List Nat := if s.split then (List.range 128).map fun w => 128 * p + w else List.range 256

/-- Every window of a partition closes. -/
def closeWindows (s : State) (p : Nat) : State :=
  (windowsOf s p).foldl (fun s w => let x := windowAt s w; if x.isOpen then setWindow s w { x with isOpen := false } else s) s

/-! ## The tokens of the memory regulator (R390) -/

/-- Bucket depth of a class in bytes (R390). -/
def bucketDepth (c : Nat) : Nat := nth 0 [65536, 65536, 16384, 8192] c

/-- Rate at which a class of a partition gains tokens, in bytes per ns: MAINT also takes the TILE allocation while no job
runs, and TILE and CWY in the maintenance slot (R390). -/
def classRate (s : State) (p c : Nat) : Nat :=
  let own := nth 0 [560, 200, 32, 8] c
  let j := jobOf s p
  let more := if c ≠ 3 then 0 else if j.state ≠ .running then 560 else if j.part = .slot then 760 else 0
  (own + more) / if s.split then 2 else 1

/-- Refill the buckets of a partition up to the present time. -/
def refill (s : State) (p : Nat) : State :=
  let m := nth {} s.memParts p
  let dt := s.now - m.refilled
  let tok := (List.range 4).map fun c => min (bucketDepth c) (nth 0 m.tokens c + dt * classRate s p c)
  { s with memParts := setAt s.memParts p { m with tokens := tok, refilled := max m.refilled s.now } }

/-! ## Job states and faults (R349, R471 to R474) -/

/-- The code DEV_JOB_STATE.state shows. -/
def JobState.code : JobState → Nat
  | .idle => 0 | .loaded => 1 | .armed => 2 | .running => 3 | .done => 4 | .faulted => 5 | .killed => 6 | .scrubbing => 7

/-- Change a job's state: the vector of R451 follows each change. -/
def setJobState (s : State) (p : Nat) (st : JobState) : State :=
  if (jobOf s p).state = st then s else raiseCause (modJob (refill s p) p fun j => { j with state := st }) (8 + p)

/-- May a fault end the job of the partition (R471)? -/
def faultable (st : JobState) : Bool := decide (st = .loaded ∨ st = .armed ∨ st = .running)

/-- First scratchpad address of the Fen, and its size per die and per bank. -/
def fenBase : Nat := 0x8000000000
def fenDie : Nat := 0x4000000
def fenBank : Nat := 0x200000
def isFen (a : Nat) : Bool := decide (fenBase ≤ a) && decide (a < fenBase + 2 * fenDie)

/-- Device memory without a defined content. -/
def freeDev (s : State) (a n : Nat) : State :=
  let bs := freeBytes s.free n
  let s := { s with free := s.free + n }
  if isFen a then modFen s ((a - fenBase) / fenDie) fun x => { x with scr := mwrite x.scr ((a - fenBase) % fenDie) bs }
  else { s with mem := mwrite s.mem a bs }

/-- The physical tile that a DMA TT of a physical tile writes to (R279). -/
def ttDest (s : State) (pt : Nat) (o : DmaOp) : Nat := physTile s (if s.split then 128 * (pt / 256) + o.dtile % 128 else o.dtile)

/-- A DMA TT is abandoned: the lines on their way are lost, and its whole destination is undefined (R316). -/
def abandonTt (s : State) (pt : Nat) (f : Flight) : State :=
  match f.op with
  | .dma 3 o => modTile s (ttDest s pt o) fun x =>
      let n := 32 * (o.len + 1)
      { x with arrivals := x.arrivals.filter fun a => decide (a.srcTile ≠ pt ∨ a.srcTag ≠ f.tag)
               tsp := mwrite x.tsp (tbyte (o.dev % 2 ^ 14)) (freeBytes x.free n), free := x.free + n }
  | _ => s

/-- A tile issues nothing more, and abandons what it had in flight (R316). -/
def haltTile (s : State) (pt : Nat) : State :=
  let x := tileAt s pt
  if x = {} then s
  else
    let s := (x.flights.flatMap (·.dev)).foldl (fun s r => freeDev s r.1 r.2) s
    let s := x.flights.foldl (fun s f => abandonTt s pt f) s
    let s := modTile s pt abandonTile
    { s with waits := s.waits.filter fun w => decide (w.pt ≠ pt)
             fens := s.fens.map fun f => { f with adds := f.adds.filter fun a => decide (a.tile ≠ pt)
                                                  portQ := f.portQ.filter fun r => decide (r.tile ≠ pt) } }

/-- The tiles of a partition stop issue (R316). -/
def haltTiles (s : State) (p : Nat) : State := (tilesOf s p).foldl (fun s t => haltTile s (physTile s t)) s

/-- The command of a mailbox has ended. -/
def endBox (s : State) (box : Option Nat) (status : Nat) (out : List Byte) : State :=
  match box with
  | some k => modMbx s k fun m => { m with cmd := m.cmd.map fun c => if c.ended then c else { c with status := status, out := out, ended := true } }
  | none => s

/-- The ARM in progress ends with a status (R435, R456, R458). -/
def endArm (s : State) (p status : Nat) (out : List Byte) : State :=
  let s := endBox s (jobOf s p).armBox status out
  modJob s p fun j => { j with arming := false, awaiting := [], armBox := none }

/-- Payload of status FAULT: bytes 8 and 9 hold the code (R458). -/
def faultOut (code : Nat) : List Byte := zeros 8 ++ leBytes 2 code

/-- The channels of a partition begin anew what a maintenance slot bounds (R396, R398). -/
def freshSlot (s : State) (p : Nat) : State :=
  { s with chans := s.chans.map fun c => if c.part = p then { c with slotRetrained := false, patrolled := 0 } else c }

/-- Leave RUNNING, or end an ARM in progress: windows close, the clock of the Beat stops. -/
def leaveRunning (s : State) (p : Nat) : State :=
  let s := if (jobOf s p).state = .running then freshSlot (closeWindows s p) p else s
  modJob s p fun j => { j with arming := false, awaiting := [] }

/-- Where a fault arose (R493). -/
structure Loc where
  ltile : Nat := 0
  ptile : Nat := 0
  lm : Nat := 0
  pm : Nat := 0
deriving DecidableEq, Repr

/-- The confirmation that SCRUBBING owes for a fault code (R479). -/
def confirmFor (code : Nat) (l : Loc) : List ConfirmDue :=
  let cls := code / 4096
  let src := code / 256 % 16
  if cls = 1 ∨ (cls = 2 ∧ src = 0) then [{ tile := l.ptile, pm := l.pm, kind := 0 }]
  else if cls = 2 ∧ (src = 1 ∨ src = 2 ∨ src = 3 ∨ src = 5) then [{ tile := l.ptile, kind := 1 }]
  else if code = 0xF501 then [{ tile := l.ptile, kind := 2 }]
  else if cls = 2 ∧ src = 7 then [{ tile := l.ptile, pm := l.pm, kind := 3 }]
  else if cls = 15 ∧ src = 12 then [{ pm := code % 256, kind := 4 }]
  else []

/-- A fault of the partition: it ends a job that is LOADED, ARMED or RUNNING, and is recorded (R471, R473). -/
def raiseFault (s : State) (p code : Nat) (l : Loc := {}) : State :=
  let j := jobOf s p
  if faultable j.state then
    let src := code / 256 % 16
    let tile := decide (src ≤ 6)
    let told := decide (j.state = .armed ∨ j.state = .running)
    let s := leaveRunning (haltTiles (endArm s p 6 (faultOut code)) p) p
    let s := modJob s p fun j =>
      { j with outcome := 2, code := BitVec.ofNat 16 code, faultValid := true, remote := false
               ltile := if tile then l.ltile else 0, ptile := if tile then l.ptile else 0
               lmacro := if src = 0 then l.lm else 0, pmacro := if src = 0 then l.pm else 0
               faultBeat := j.beat, orig := j.member, confirms := j.confirms ++ confirmFor code l }
    let s := if told then notice s p (jobOf s p).member code false none else s
    setJobState s p .faulted
  else
    let s := endBox s j.loadBox 6 (faultOut code)
    modJob s p fun j => { j with loadBox := none, confirms := j.confirms ++ confirmFor code l }

/-- A fault notice of another member (R437, R473). -/
def remoteFault (s : State) (p orig code : Nat) (from_ : Nat) : State :=
  let s := leaveRunning (haltTiles (endArm s p 6 (faultOut code)) p) p
  let s := modJob s p fun j =>
    { j with outcome := 2, code := BitVec.ofNat 16 code, faultValid := true, remote := true, faultBeat := j.beat, orig := orig }
  setJobState (notice s p orig code false (some from_)) p .faulted

/-- A job enters KILLED; a RUNNING member sends an abort notice (R349, R437). -/
def enterKilled (s : State) (p : Nat) (orig : Nat) (from_ : Option Nat) : State :=
  let j := jobOf s p
  if faultable j.state then
    let told := decide (j.state = .running) || from_.isSome
    let s := leaveRunning (haltTiles (endArm s p 10 []) p) p
    let s := modJob s p fun j => { j with outcome := 3, code := 0, orig := orig }
    let s := if told then notice s p orig 0 true from_ else s
    setJobState s p .killed
  else s

/-- ARMED returns to LOADED; the dies go back to P15 through Balance (R356, R349). -/
def backToLoaded (s : State) (p : Nat) : State :=
  if (jobOf s p).state = .armed then setJobState (modJob s p fun j => { j with s0 := none }) p .loaded else s

/-- Report a tile's fault code (0 none) to its partition. -/
def tileFault (s : State) (t code : Nat) (lm pm : Nat := 0) : State :=
  if code = 0 then s
  else raiseFault s (partOf s t) code { ltile := t, ptile := physTile s t, lm := lm, pm := pm }

/-- A tile's work that answers a fault code. -/
def tileWork (s : State) (t : Nat) (f : Tile → Tile × Nat) : State :=
  let pt := physTile s t
  let r := f (tileAt s pt)
  tileFault (setTile s pt (stampSingles s.now r.1)) t r.2

/-- Report the faults of one cycle of a tile, in order. -/
def tileFaults (s : State) (t : Nat) (fs : List FaultRec) : State :=
  fs.foldl (fun s f => tileFault s t f.code.toNat f.lm f.pm) s

/-! ## Reserve records and the fuse journal (R485, R506) -/

/-- Write an entry of the fuse journal, with its time. -/
def writeEntry (s : State) (kind : Nat) (arg : List Byte) (time : Nat) : State :=
  let x := s.sec
  let n := x.journal.toNat
  let e := leBytes 2 n ++ [BitVec.ofNat 8 kind] ++ (arg ++ zeros 8).take 8 ++ [0] ++ leBytes 4 x.run.version.toNat ++
    leBytes 4 x.readyEver.toNat ++ leBytes 8 time
  let e := e ++ leBytes 4 (crc32c e)
  { s with sec := { x with journal := x.journal + 1, entries := tset [] x.entries (n % 256) e
                           fuseAt := some (s.now, tget [] x.entries (n % 256)) } }

/-- A fuse is written, and its entry appended to the journal. -/
def journalEntry (s : State) (kind : Nat) (arg : List Byte) : State := writeEntry s kind arg ((s.now - s.sec.readyAt) / 1000)

/-- A reset or a loss of power meets a fuse write, of at most 5 ms: the fuse stands, and its entry is missing (R506, R534).
Whether the write still runs is not to be seen, and free (log 130). -/
def cutEntry (s : State) : State :=
  let x := s.sec
  match x.fuseAt with
  | some (t, under) =>
    let n := x.journal.toNat - 1
    let e := tget [] x.entries (n % 256)
    if 0 < x.journal.toNat ∧ s.now < t + 5000000 ∧ Config.entryCut s.free = true then
      { s with free := s.free + 1
               sec := { x with journal := x.journal - 1, entries := tset [] x.entries (n % 256) under, fuseAt := none
                               missing := some (fieldAt e 2 1, (e.drop 3).take 8) } }
    else { s with sec := { x with fuseAt := none } }
  | none => s

/-- READY returns: the missing entry is written, its time all ones (R506). -/
def mendJournal (s : State) : State :=
  match s.sec.missing with
  | some (kind, arg) =>
    let s := writeEntry s kind arg (2 ^ 64 - 1)
    { s with sec := { s.sec with missing := none, fuseAt := none } }
  | none => s

/-- Record a retirement: in fuses while records are left, else in the volatile table. -/
def reserveRecord (s : State) (kind : Nat) (arg : List Byte) : State :=
  let a := (arg ++ zeros 8).take 8
  let s :=
    if s.sec.records.length < 256 then
      journalEntry { s with sec := { s.sec with records := s.sec.records ++ [a] } } kind a
    else { s with sec := { s.sec with volatile := s.sec.volatile ++ [(kind, a)] } }
  raiseCause s 10

/-- Logical tiles whose physical tile awaits retirement (R480). -/
def pendingTiles (s : State) : List Nat := (List.range 256).filter fun t => (tileAt s (physTile s t)).ret.tilePend

/-- Free Reserve macros of a tile: neither in use nor retired. A retirement that waits for its plan load is not
deducted (R113). -/
def freeMacros (r : Retire) : Nat :=
  ((List.range 8).filter fun k =>
    (!(r.mret.getLsbD (64 + k)) || r.pend.contains (64 + k)) && !(r.map.any fun e => decide (e.2 = 64 + k))).length

/-- Mark a tile for retirement (R480). -/
def retireTile (s : State) (pt : Nat) : State :=
  if (tileAt s pt).ret.tilePend then s
  else
    let s := modTile s pt fun x => { x with ret := { x.ret with tilePend := true } }
    reserveRecord { s with start := { s.start with tpendFull := s.start.tpendFull || decide (15 ≤ (pendingTiles s).length) } } 6 (leBytes 2 pt)

/-- Mark a macro for retirement; with no Reserve macro left the tile retires in its place (R106, R480). The macro's
TILE_MRET bit then stays 0: R112 does not say whether a macro whose tile is retired in its place is marked (DESIGN
CHOICE, log 142). -/
def retireMacro (s : State) (pt m : Nat) : State :=
  let r := (tileAt s pt).ret
  if r.mret.getLsbD m then s
  else if freeMacros r ≤ r.pend.length then retireTile s pt
  else
    let s := modTile s pt fun x => { x with ret := { x.ret with mret := x.ret.mret ||| BitVec.ofNat 72 (2 ^ m), pend := x.ret.pend ++ [m] } }
    reserveRecord s 5 (leBytes 2 pt ++ [BitVec.ofNat 8 m])

/-- A failure beyond the Reserve (R484). -/
def beyondReserve (s : State) (scope code : Nat) : State :=
  if s.start.beyond.contains (scope, code) then s else { s with start := { s.start with beyond := s.start.beyond ++ [(scope, code)] } }

/-! ## Channels (R397, R401) -/

/-- Partition of a channel: the one it serves, or of the Reserve the one that may use it (R384). -/
def chanPart (s : State) (n : Nat) : Nat := if s.split && decide (2 ≤ n % 4) then 1 else 0

/-- Does the channel serve nothing more (R401)? -/
def deadChan (c : Channel) : Bool := decide (c.state = 2) || decide (c.state = 3)

/-- A channel fails, a memory fault of a RUNNING job; a Reserve record follows before the group leaves SCRUBBING
(R401), unless its marking has written it. With no job that it could end, it ends a LOAD_PLAN in progress (R474). -/
def failChannel (s : State) (n : Nat) : State :=
  let c := chanAt s n
  if deadChan c then s
  else
    let p := chanPart s n
    let s := modChan s n fun c => { c with state := if c.state = 1 then 3 else 2, retraining := false, waiting := [] }
    let s := if c.state = 4 then s else reserveRecord s 7 [BitVec.ofNat 8 n]
    let st := (jobOf s p).state
    if st = .running ∨ faultable st = false then raiseFault s p (0x2900 + n) else s

/-- A corrected error on a channel: more than 1,000 within any hour mark a serving channel, with its Reserve record (R394,
R397, R486). -/
def channelCe (s : State) (n : Nat) : State :=
  let ts := ((chanAt s n).ceTimes.filter fun t => decide (s.now < t + 3600000000000)) ++ [s.now]
  let mark := decide (1000 < ts.length) && decide ((chanAt s n).state = 0)
  let s := modChan s n fun c => { c with ce := errAdd c.ce 1, ceTimes := ts, state := if mark then 4 else c.state }
  if mark then reserveRecord s 7 [BitVec.ofNat 8 n] else s

/-- An uncorrectable error at a channel address: the third at one address fails the channel (R394, R395, R401). -/
def channelUe (s : State) (n ca : Nat) : State :=
  let s := modChan s n fun c => { c with ue := errAdd c.ue 1, bad := c.bad ++ [ca] }
  if 3 ≤ ((chanAt s n).bad.filter fun x => decide (x = ca)).length then failChannel s n else s

/-! ## The device as a whole -/

/-- Every job of both partitions ends at once, without notices; nothing of a partition runs any more (R349, R488, R535). -/
def endJobs (s : State) : State :=
  [0, 1].foldl (fun s p =>
    let s := haltTiles s p
    closeWindows (modJob s p fun j => { j with state := .idle, part := .off, arming := false, awaiting := [], armBox := none, loadBox := none }) p) s

/-- The device goes down as a whole (R487, R488). -/
def deviceDown (s : State) (cause : Nat) (code : BitVec 16) : State :=
  let s := endJobs s
  { s with start := { s.start with phase := .down, faultN := false, squelched := true, cause := cause, causeCode := code } }

/-! ## Balance events (R381, R465) -/

/-- SMB_ALERT_N is low while an enabled event is set. -/
def smbAlertN (b : Balance) : Bool := decide (b.event &&& b.eventEn = 0)

/-- Raise a Balance event; an enabled one is sent as a PLDM event (R467). -/
def balEvent (s : State) (k : Nat) : State :=
  let b := s.bal
  let new := !b.event.getLsbD k
  let s := { s with bal := { b with event := b.event ||| BitVec.ofNat 32 (2 ^ k) } }
  if new && b.eventEn.getLsbD k then { s with side := { s.side with events := s.side.events ++ [k] } } else s

/-- A list of numbers with one more, if it lacks it. -/
def addOnce (l : List Nat) (n : Nat) : List Nat := if l.contains n then l else l ++ [n]

def dieAt (s : State) (d : Nat) : Die := nth {} s.bal.dies d
def modDie (s : State) (d : Nat) (f : Die → Die) : State := { s with bal := { s.bal with dies := setAt s.bal.dies d (f (dieAt s d)) } }

end Sys2Proof.Machine
end

