-- ==== Sys2Proof/Machine/Memory.lean ====
section
/-!
DEFINITION. Device memory: the Fen's banks and caches, the LPDDR5X map, its regulator, the states of its bytes, its
errors, and what tiles and other requesters do to it (R252 to R258, R281, R386 to R401, R511, R564).
-/
namespace Sys2Proof.Machine

/-! ## The Fen (R252 to R258) -/

def bankAt (s : State) (d b : Nat) : Bank := tget {} (fenOf s d).banks b
def modBank (s : State) (d b : Nat) (f : Bank → Bank) : State := modFen s d fun x => { x with banks := tmod {} x.banks b f }

/-- Does the bank serve the partition's scratchpad requests (R253)? -/
def scratchReady (s : State) (p d b : Nat) : Bool :=
  let x := bankAt s d b
  decide (x.state = .ready) && decide (x.mode = 1) && decide (x.part = p)

/-- Cache banks of a partition on a die, in ascending order (R254). -/
def cacheBanks (s : State) (p d : Nat) : List Nat :=
  (List.range 32).filter fun b => let x := bankAt s d b; decide (x.state = .ready) && decide (x.mode = 2) && decide (x.part = p)

/-- Bank and set of a line (R254). -/
def lineSlot (s : State) (p d line : Nat) : Option (Nat × Nat) :=
  let bs := cacheBanks s p d
  let n := bs.length
  if n = 0 then none else some (nth 0 bs (line % (2 ^ 32) % n), line / n % 1024)

/-- Die, bank and offset in the die's scratchpad of a Fen address (R252). -/
def fenDieOf (a : Nat) : Nat := (a - fenBase) / fenDie
def fenOff (a : Nat) : Nat := (a - fenBase) % fenDie
def fenBankOf (a : Nat) : Nat := fenOff a / fenBank

def fenCorrected (s : State) (d : Nat) : State := modFen s d fun f => { f with ce := errAdd f.ce 1 }

/-- A double-bit error of a scratchpad bank, a dirty sector or a tag: a memory fault, counted (R258, R474). -/
def fenUncorrectable (s : State) (d b : Nat) : State :=
  let s := modFen s d fun f => { f with ue := errAdd f.ue 1 }
  let x := bankAt s d b
  if x.state = .ready then raiseFault s x.part 0x2701 { pm := 32 * d + b } else s

/-! ## The LPDDR5X map (R384, R386) -/

/-- Bytes of LPDDR5X, and the start and length of a partition's share. -/
def memTop : Nat := 0x6000000000
def memBase (s : State) (p : Nat) : Nat := if s.split then p * 0x3000000000 else 0
def memSize (s : State) : Nat := if s.split then 0x3000000000 else memTop

/-- The partition that owns a device address. -/
def partOfAddr (s : State) (a : Nat) : Nat := if s.split && decide (0x3000000000 ≤ a) then 1 else 0

/-- Slots of the interleave set. -/
def slotCount (s : State) : Nat := if s.split then 24 else 48

/-- Rotation h of a unit quotient (R386). -/
def slotTurn (s : State) (q : Nat) : Nat :=
  (bits q 5 0 ^^^ bits q 11 6 ^^^ bits q 17 12 ^^^ bits q 23 18 ^^^ bits q 24 24) % slotCount s

/-- Interleave slot of an address (R386), and its address within the channel. -/
def slotOf (s : State) (a : Nat) : Nat × Nat :=
  let k := slotCount s
  let ap := a - memBase s (partOfAddr s a)
  let q := ap / 256 / k
  ((ap / 256 % k + slotTurn s q) % k, 256 * q + ap % 256)

/-- The device address at a channel address of a slot: R386 the other way. -/
def addrOf (s : State) (p slot ca : Nat) : Nat :=
  let k := slotCount s
  let q := ca / 256
  memBase s p + 256 * (q * k + (slot + k - slotTurn s q) % k) + ca % 256

/-- The channel that holds an address. -/
def chanOf (s : State) (a : Nat) : Option Nat :=
  let sl := (slotOf s a).1
  lowest 52 fun n => let c := chanAt s n; decide (c.slot = sl) && decide (c.part = partOfAddr s a)

/-- Does the channel of an address serve nothing more (R401), or is there none? -/
def deadAt (s : State) (a : Nat) : Bool :=
  match chanOf s a with
  | some n => deadChan (chanAt s n)
  | none => true

/-- Must an access to the address wait, its channel retraining or serving nothing more (R400, R401)? -/
def waitsAt (s : State) (a : Nat) : Bool :=
  match chanOf s a with
  | some n => (chanAt s n).retraining || deadChan (chanAt s n)
  | none => true

/-- Does a range lie in LPDDR5X? -/
def inLpddr (a n : Nat) : Bool := decide (a + n ≤ memTop)

/-- 256-byte units a request touches, and the part of the request in each. -/
def unitsTouched (a n : Nat) : Nat := if n = 0 then 0 else (a + n - 1) / 256 - a / 256 + 1
def unitParts (a n : Nat) : List (Nat × Nat) :=
  (List.range (unitsTouched a n)).map fun k =>
    let lo := max a (256 * (a / 256 + k))
    (lo, min (a + n) (256 * (a / 256 + k + 1)) - lo)

/-- Must some unit of a range wait? -/
def rangeWaits (s : State) (a n : Nat) : Bool := (unitParts a n).any fun u => waitsAt s u.1

/-! ## The regulator (R390, R391) -/

def classIdx : MemClass → Nat
  | .tile => 0 | .cwy => 1 | .host => 2 | .maint => 3

/-- Charge an access to a class of the partition that owns the address: one token a unit while it has them. The tile is
the one a TILE access belongs to (R391). -/
def charge (s : State) (c : MemClass) (tile : Option Nat) (a n : Nat) : State :=
  let p := partOfAddr s a
  let s := refill s p
  let m := nth {} s.memParts p
  let u := unitsTouched a n
  let t := nth 0 m.tokens (classIdx c)
  let m := { m with units := setAt m.units (classIdx c) ((nth {} m.units (classIdx c)).add u)
                    tokens := setAt m.tokens (classIdx c) (t - min t (256 * u))
                    lastClass := classIdx c, lastTile := tile.getD m.lastTile }
  { s with memParts := setAt s.memParts p m }

/-- Charge a range that may meet both partitions: each is charged what it owns (R390). -/
def chargeRange (s : State) (c : MemClass) (a n : Nat) : State :=
  let b := memBase s 1
  if s.split && decide (a < b) && decide (b < a + n) then charge (charge s c none a (b - a)) c none b (a + n - b) else charge s c none a n

/-! ## States of the bytes (R449, R511, R512) -/

/-- State of a byte (R511). -/
def byteState (s : State) (a : Nat) : ByteState :=
  (s.segs.foldl (fun acc e => if e.1 ≤ a then e.2 else acc) .awaiting)

/-- Join neighbouring segments of one state. -/
def joinSegs : List (Nat × ByteState) → List (Nat × ByteState)
  | [] => []
  | [e] => [e]
  | e :: f :: r => if e.2 = f.2 then joinSegs (e :: r) else e :: joinSegs (f :: r)

/-- Put a run of bytes into a state. -/
def setBytes (s : State) (a n : Nat) (st : ByteState) : State :=
  if n = 0 then s
  else
    let after := byteState s (a + n)
    { s with segs := joinSegs ((s.segs.filter fun e => decide (e.1 < a)) ++ [(a, st), (a + n, after)] ++
                               s.segs.filter fun e => decide (a + n < e.1))
             sec := { s.sec with clearing := true } }

/-- Runs of the bytes of a range that are in a state. -/
def stateRuns (s : State) (st : ByteState) (a n : Nat) : List (Nat × Nat) :=
  let ends := (s.segs.map (·.1)).drop 1 ++ [memTop]
  (s.segs.zip ends).filterMap fun (e, hi) =>
    let lo := max e.1 a
    let h := min hi (a + n)
    if e.2 = st ∧ lo < h then some (lo, h - lo) else none

def awaitingRuns (s : State) (a n : Nat) : List (Nat × Nat) := stateRuns s .awaiting a n

/-- Clear the AWAITING bytes of a range: they read zero and are FREE (R511, R512). -/
def clearAwaiting (s : State) (a n : Nat) : State :=
  (awaitingRuns s a n).foldl (fun s r => { setBytes s r.1 r.2 .free with mem := mclear s.mem r.1 r.2 }) s

/-- Host and command accesses meet AWAITING bytes: the aligned 1 GiB of each is cleared first (R449). -/
def gib : Nat := 2 ^ 30
def touchAwaiting (s : State) (a n : Nat) : State :=
  if (awaitingRuns s a n).isEmpty then s
  else
    let g0 := a / gib
    let g1 := (a + n - 1) / gib
    (List.range (g1 - g0 + 1)).foldl (fun s k => clearAwaiting s ((g0 + k) * gib) gib) s

/-! ## Errors of LPDDR5X (R394, R395, R564) -/

/-- The aligned 64 bits of an address hold a value the manual does not give. -/
def spoilMem (s : State) (a : Nat) : State :=
  { s with mem := mwrite s.mem (8 * (a / 8)) (freeBytes s.free 8), free := s.free + 8 }

/-- What a read's codeword at a channel address counts; an uncorrectable one ends the job it is read for, ahead of the
channel's own failure, whose source is higher (R473). -/
def memEcc (s : State) (n ca : Nat) (job : Option Nat) : Ecc → State
  | .clean | .undetected => s
  | .single | .miscorrected => channelCe s n
  | .double =>
    channelUe (match job with
      | some p => raiseFault s p (0x2800 + n)
      | none => s) n ca

/-- A burst failed its read link ECC, and is read once more (R394). -/
def linkErr (s : State) (n : Nat) (link : Bool) : State := if link then modChan s n fun c => { c with link := errAdd c.link 1 } else s

/-- A codeword that a read of LPDDR5X finds in error, for a job or outside every job. -/
def lpddrErr (s : State) (forJob : Bool) (e : MemErr) : State :=
  match chanOf s e.addr with
  | none => s
  | some n =>
    let s := linkErr (if eccWrong e.ecc then spoilMem s e.addr else s) n e.link
    memEcc s n (slotOf s e.addr).2 (if forJob then some (partOfAddr s e.addr) else none) e.ecc

/-- Errors of a host's or a command's read: they end a job whose region they lie in (R395). -/
def outsideErrs (s : State) (errs : List MemErr) : State :=
  errs.foldl (fun s e => lpddrErr s (decide (byteState s e.addr = .owned)) e) s

/-- Does some unit of a range lie in a channel that retrains, or in one that serves nothing more? -/
def rangeRetrains (s : State) (a n : Nat) : Bool :=
  (unitParts a n).any fun u => match chanOf s u.1 with
    | some k => (chanAt s k).retraining
    | none => false
def rangeDead (s : State) (a n : Nat) : Bool := (unitParts a n).any fun u => deadAt s u.1

/-- The errors of a read that lie in a range. -/
def errsIn (errs : List MemErr) (a n : Nat) : List MemErr := errs.filter fun e => overlaps (8 * (e.addr / 8)) 8 a n

/-- Does a read of a range meet an uncorrectable error? -/
def uncorrectable (errs : List MemErr) (a n : Nat) : Bool :=
  errs.any fun e => decide (e.ecc = .double) && decide (8 * (e.addr / 8) < a + n) && decide (a < 8 * (e.addr / 8) + 8)

/-- A command's read of device memory as the class MAINT: the state, and whether it failed, for an uncorrectable error or
a channel that serves nothing more (log 146). -/
def cmdRead (s : State) (errs : List MemErr) (a n : Nat) : State × Bool :=
  (outsideErrs (chargeRange (touchAwaiting s a n) .maint a n) errs, uncorrectable errs a n || rangeDead s a n)

/-! ## Requests at the controller (R393, R400, R401) -/

/-- Serve a request of one unit: the regulator charges its class, its channel's errors count, and its data moves. -/
def serveUnit (s : State) (r : MemReq) : State :=
  let n := if r.wr.isEmpty then r.len else r.wr.length
  if deadAt s r.addr then s
  else
    let s := if r.cls = .host then touchAwaiting s r.addr n else s
    let s := charge s r.cls (if r.cls = .tile then some r.tile else none) r.addr n
    let s := match chanOf s r.addr with
      | some ch => linkErr s ch r.link
      | none => s
    let p := partOfAddr s r.addr
    if r.wr.isEmpty then
      let forJob := decide (r.cls = .tile ∨ r.cls = .cwy) || decide (byteState s r.addr = .owned)
      let s := r.errs.foldl (fun s e => lpddrErr s forJob e) s
      if uncorrectable r.errs r.addr n then s
      else
        let m := nth {} s.memParts p
        { s with memParts := setAt s.memParts p { m with out := m.out ++ mread s.mem r.addr n } }
    else { s with mem := mwrite s.mem r.addr r.wr }

/-- A request of one unit reaches its channel, and waits there while it retrains (R400). Those that wait are served in
the order they came, so the requests of one requester to one sector keep theirs (R393). -/
def postUnit (s : State) (r : MemReq) : State :=
  match chanOf s r.addr with
  | some n =>
    if (chanAt s n).retraining then modChan s n fun c => { c with waiting := c.waiting ++ [r] } else serveUnit s r
  | none => s

/-- A request unit by unit. -/
def memUnits (r : MemReq) : List MemReq :=
  let n := if r.wr.isEmpty then r.len else r.wr.length
  (unitParts r.addr n).map fun u =>
    { r with addr := u.1, len := u.2, wr := (r.wr.drop (u.1 - r.addr)).take u.2
             errs := r.errs.filter fun e => decide (u.1 ≤ e.addr) && decide (e.addr < u.1 + u.2)
             link := r.link && decide (u.1 = r.addr) }

def postRequest (s : State) (r : MemReq) : State := (memUnits r).foldl postUnit s

/-! ## The cache (R254, R256) -/

/-- Kind of the region that holds an address (R255); 2 for the ledger ring and everything undeclared. -/
def regionKind (j : Job) (a : Nat) : Nat :=
  match j.regions.find? fun r => decide (r.base ≤ a) && decide (a < r.base + r.len) with
  | some r => r.kind
  | none => 2

/-- Home die of a cached address, `none` for an uncached one. -/
def homeDie (s : State) (p a : Nat) : Option Nat :=
  let k := regionKind (jobOf s p) a
  if k ≤ 1 then some (if s.split then p else k) else none

/-- A sector write that a tile's access causes, or nobody's (R391). -/
def postSector (s : State) (tile : Option Nat) (a : Nat) (bs : List Byte) : State :=
  if waitsAt s a then postUnit s { tile := tile.getD 0, addr := a, wr := bs }
  else { charge s .tile tile a bs.length with mem := mwrite s.mem a bs }

/-- Write some dirty sectors of a line back. -/
def writeBackSectors (s : State) (tile : Option Nat) (line : Nat) (ks : List Nat) : State :=
  (ks.filter fun k => (tget {} s.cache line).dirty.getLsbD k).foldl (fun s k =>
    let l := tget {} s.cache line
    let s := { s with cache := tset {} s.cache line { l with dirty := l.dirty &&& ~~~(BitVec.ofNat 4 (2 ^ k)) } }
    postSector s tile (128 * line + 32 * k) (mread l.data (32 * k) 32)) s

/-- Write a line's dirty sectors back. -/
def writeBack (s : State) (tile : Option Nat) (line : Nat) : State := writeBackSectors s tile line (List.range 4)

/-- Make room for a line in its set: a full set evicts the line pseudo-LRU names, for the tile whose fill comes. -/
def makeRoom (s : State) (p d : Nat) (tile : Option Nat) (line : Nat) : State :=
  if (s.cache.any fun e => decide (e.1 = line)) then s
  else
    let mine := s.cache.filter fun e => decide (e.2.die = d ∧ e.2.part = p) &&
      decide (lineSlot s p d e.1 = lineSlot s p d line)
    if mine.length < 16 then s
    else
      match mine[Config.victim s.free % 16]? with
      | some e => let s := writeBack { s with free := s.free + 1 } tile e.1; { s with cache := tset {} s.cache e.1 {} }
      | none => s

/-- Put a sector into the cache. -/
def putSector (s : State) (p d a : Nat) (dirty : Bool) (bs : List Byte) : State :=
  let line := a / 128
  let k := a / 32 % 4
  let l := tget {} s.cache line
  let m := BitVec.ofNat 4 (2 ^ k)
  let l := { l with die := d, bank := ((lineSlot s p d line).map (·.1)).getD 0, part := p, valid := l.valid ||| m
                    dirty := if dirty then l.dirty ||| m else l.dirty, data := mwrite l.data (32 * k) bs }
  { s with cache := tset {} s.cache line l }

/-- The 32 bytes of a sector as a fetch finds them: behind the writes that wait at its channel (R393). -/
def fetchedSector (s : State) (x : Nat) : List Byte :=
  match (if waitsAt s x then chanOf s x else none) with
  | some n => mread (((chanAt s n).waiting).foldl (fun m r => mwrite m r.addr r.wr) s.mem) x 32
  | none => mread s.mem x 32

/-- Bring a sector into the cache from LPDDR5X: a miss of a tile. -/
def fillSector (s : State) (p d : Nat) (tile : Option Nat) (a : Nat) : State :=
  let s := makeRoom s p d tile (a / 128)
  let s := putSector s p d a false (fetchedSector s (32 * (a / 32)))
  charge (modFen s d fun x => { x with miss := x.miss.add 1 }) .tile tile (32 * (a / 32)) 32

def sectorValid (s : State) (a : Nat) : Bool := (tget {} s.cache (a / 128)).valid.getLsbD (a / 32 % 4)
def sectorDirty (s : State) (a : Nat) : Bool := (tget {} s.cache (a / 128)).dirty.getLsbD (a / 32 % 4)

/-- A sector is no longer valid. -/
def dropSector (s : State) (a : Nat) : State :=
  let l := tget {} s.cache (a / 128)
  { s with cache := tset {} s.cache (a / 128) { l with valid := l.valid &&& ~~~(BitVec.ofNat 4 (2 ^ (a / 32 % 4))) } }

/-- A read of a sector through the cache counts a hit, or fetches it. -/
def touchSector (s : State) (p d : Nat) (tile : Option Nat) (a : Nat) : State :=
  if sectorValid s a then modFen s d fun x => { x with hit := x.hit.add 1 } else fillSector s p d tile a

/-- Write a whole sector into the cache: valid and dirty without a fetch. It looks for no data, and counts neither a hit nor a
miss (R266; DESIGN CHOICE, log 162). -/
def writeSector (s : State) (p d : Nat) (tile : Option Nat) (a : Nat) (bs : List Byte) : State :=
  putSector (makeRoom s p d tile (a / 128)) p d a true bs

/-- Sector addresses of a range. -/
def sectorsOf (a n : Nat) : List Nat := if n = 0 then [] else (List.range ((a + n - 1) / 32 - a / 32 + 1)).map fun k => 32 * (a / 32 + k)

/-! ## A tile's accesses to device memory (R24, R253, R255, R281) -/

/-- Where a tile of a partition reaches a sector: a Fen scratchpad, the cache of a die, or LPDDR5X itself. -/
inductive Place where
  | bank (d : Nat)
  | cached (d : Nat)
  | memory
deriving DecidableEq, Repr

def placeOf (s : State) (p a : Nat) : Place :=
  if isFen a then .bank (fenDieOf a)
  else
    match homeDie s p a with
    | some d => if (cacheBanks s p d).isEmpty then .memory else .cached d
    | none => .memory

/-- Is every sector of a range granted to the job: its regions but kind 3, its ledger ring, its scratchpad banks? -/
def granted (s : State) (p a n : Nat) : Bool :=
  let j := jobOf s p
  (sectorsOf a n).all fun x =>
    if isFen x then j.banks.any fun e => decide (e = (fenDieOf x, fenBankOf x, 1))
    else
      (j.regions.any fun r => decide (r.kind ≠ 3) && decide (r.base ≤ x) && decide (x < r.base + r.len)) ||
      (j.ring.valid && decide (j.ring.base ≤ x) && decide (x < j.ring.base + j.ring.depth * 64 * j.ring.nrec))

/-- A bank of a range in the Fen refuses it (R253). -/
def fenRefuses (s : State) (p a n : Nat) : Bool :=
  (sectorsOf a n).any fun x => isFen x && !scratchReady s p (fenDieOf x) (fenBankOf x)

/-- Fault code of a tile's access: outside the grant, or refused by its bank; 0 for none. -/
def accessFault (s : State) (p a n : Nat) : Nat :=
  if !granted s p a n then 0x8408 else if fenRefuses s p a n then 0x8701 else 0

/-- The 32 bytes of a sector as a tile reads them. -/
def peekSector (s : State) (p x : Nat) : List Byte :=
  match placeOf s p x with
  | .bank d => mread (fenOf s d).scr (fenOff x) 32
  | .cached _ => if sectorValid s x then mread (tget {} s.cache (x / 128)).data (x % 128) 32 else fetchedSector s x
  | .memory => mread s.mem x 32

/-- Bytes a tile reads. -/
def tilePeek (s : State) (p a n : Nat) : List Byte := (((sectorsOf a n).flatMap (peekSector s p)).drop (a % 32)).take n

/-- Is a sector of LPDDR5X the first of its unit in a tile's access that passes by the cache (R390)? -/
def firstOfUnit (s : State) (p a x : Nat) : Bool :=
  decide (x < a + 32) || decide (x % 256 = 0) || decide (placeOf s p (x - 32) ≠ .memory)

/-- What a tile's read does to the cache and the regulator. -/
def tileTouch (s : State) (p pt a n : Nat) : State :=
  (sectorsOf a n).foldl (fun s x =>
    match placeOf s p x with
    | .bank _ => s
    | .cached d => touchSector s p d (some pt) x
    | .memory => if firstOfUnit s p a x then charge s .tile (some pt) x 32 else s) s

/-- A tile's write of one sector. -/
def storeSector (s : State) (p pt a x : Nat) (bs : List Byte) : State :=
  match placeOf s p x with
  | .bank d => modFen s d fun f => { f with scr := mwrite f.scr (fenOff x) bs }
  | .cached d => writeSector s p d (some pt) x bs
  | .memory =>
    let s := if firstOfUnit s p a x then charge s .tile (some pt) x 32 else s
    { s with mem := mwrite s.mem x bs }

/-- A tile's write of whole sectors. -/
def tileStore (s : State) (p pt a : Nat) (bs : List Byte) : State :=
  (List.range (bs.length / 32)).foldl (fun s k => storeSector s p pt a (a + 32 * k) ((bs.drop (32 * k)).take 32)) s

/-- Dirty lines of the cache in a range. -/
def dirtyIn (s : State) (a n : Nat) : List Nat :=
  (s.cache.filter fun e => overlaps (128 * e.1) 128 a n && decide (e.2.dirty ≠ 0)).map (·.1)

/-- Write back every dirty sector in a range (FLUSH). -/
def flushRange (s : State) (pt a n : Nat) : State :=
  (dirtyIn s a n).foldl (fun s line =>
    writeBackSectors s (some pt) line ((List.range 4).filter fun k => overlaps (128 * line + 32 * k) 32 a n)) s

/-- Write back every dirty line of a partition. -/
def flushAll (s : State) (p : Nat) : State :=
  (s.cache.filter fun e => decide (e.2.part = p)).foldl (fun s e => writeBack s none e.1) s

/-- Invalidate the cache of a partition. -/
def dropCache (s : State) (p : Nat) : State := { s with cache := s.cache.filter fun e => decide (e.2.part ≠ p) }

/-- Must a tile's access wait for a channel: a sector it reads or writes past the cache, one it fetches, or one it
flushes (R400)? -/
def accessWaits (s : State) (p a n : Nat) (fetches flush : Bool) : Bool :=
  (sectorsOf a n).any fun x =>
    match placeOf s p x with
    | .bank _ => false
    | .cached _ => (if flush then sectorDirty s x else fetches && !sectorValid s x) && waitsAt s x
    | .memory => !flush && waitsAt s x

/-! ## Errors that a tile's access finds (R258, R394, R564) -/

/-- A codeword in error of a scratchpad bank. -/
def bankErr (s : State) (d : Nat) (e : MemErr) : State :=
  let s := if eccWrong e.ecc then
      { modFen s d (fun f => { f with scr := mwrite f.scr (8 * (fenOff e.addr / 8)) (freeBytes s.free 8) }) with free := s.free + 8 }
    else s
  match e.ecc with
  | .clean | .undetected => s
  | .single | .miscorrected => fenCorrected s d
  | .double => fenUncorrectable s d (fenBankOf e.addr)

/-- A codeword in error of a valid sector of a cache: a clean sector is fetched again, a dirty one is lost. -/
def cacheErr (s : State) (d : Nat) (e : MemErr) : State :=
  let l := tget {} s.cache (e.addr / 128)
  let s := if eccWrong e.ecc then
      { s with cache := tset {} s.cache (e.addr / 128) { l with data := mwrite l.data (8 * (e.addr % 128 / 8)) (freeBytes s.free 8) }
               free := s.free + 8 }
    else s
  match e.ecc with
  | .clean | .undetected => s
  | .single | .miscorrected => fenCorrected s d
  | .double => if sectorDirty s e.addr then fenUncorrectable s d l.bank else fenCorrected (dropSector s e.addr) d

/-- A line whose tag reads wrong answers with what the manual does not give. -/
def spoilLine (s : State) (line : Nat) : State :=
  { s with cache := tmod {} s.cache line fun l => { l with data := mwrite l.data 0 (freeBytes s.free 128) }, free := s.free + 128 }

/-- The tag and state entry of a line of bank `b` in error (R258). -/
def tagErr (s : State) (d b line : Nat) (e : Ecc) : State :=
  let s := if eccWrong e then spoilLine s line else s
  match e with
  | .clean | .undetected => s
  | .single | .miscorrected => fenCorrected s d
  | .double => fenUncorrectable s d b

/-- Bank of die `d` in whose set a line of the partition lives (R254). -/
def lineBank (s : State) (p d line : Nat) : Nat := ((lineSlot s p d line).map (·.1)).getD 0

/-- What the codewords in error do that a tile's access finds. -/
def accessErrs (s : State) (p : Nat) (errs : List MemErr) : State :=
  errs.foldl (fun s e =>
    match placeOf s p e.addr with
    | .bank d => bankErr s d e
    | .cached d =>
      if e.tag then tagErr s d (lineBank s p d (e.addr / 128)) (e.addr / 128) e.ecc
      else if sectorValid s e.addr then cacheErr s d e else lpddrErr s true e
    | .memory => lpddrErr s true e) s

end Sys2Proof.Machine
end

