-- ==== Sys2Proof/Machine/Rails.lean ====
section
/-!
DEFINITION. The rails, the phases and the issue gates of a die, which tile instructions reach: setpoints and guards,
the ramp limiter's shares and the duty window (R354, R355, R360, R361, R363, R367, R372, R378, R379).
-/
namespace Sys2Proof.Machine

/-- The job that a die follows (R356). -/
def dieJob (s : State) (d : Nat) : Job := jobOf s (partOfDie s d)

/-- Logical tiles of a die that its job uses. -/
def dieTiles (s : State) (d : Nat) : List Nat := (tilesOf s (partOfDie s d)).filter fun t => decide (dieOf t = d)

/-- Phase that a tile is in (R360). -/
def phaseOf (x : Die) (t : Nat) : Nat := tget 0 x.tilePhase t

def learntOf (x : Die) (k : Nat) : Nat := (tget {} x.phases k).learnt

/-! ## Setpoints (R354, R361, R367, R378, R379) -/

/-- Droop guard in force: the largest of the phases that tiles of a RUNNING job's die are in (R367). -/
def droopGuard (s : State) (d : Nat) : Nat :=
  let x := dieAt s d
  if (dieJob s d).state = .running then
    maxL (((dieTiles s d).map (phaseOf x)).eraseDups.map fun k => (tget {} x.phases k).guard)
  else 0

/-- Phase guards in force: one for each heavy step (R361). -/
def guardSum (x : Die) : Nat := (x.guards.map (·.mv)).foldl (· + ·) 0

/-- VDD_LOGIC setpoint of a die at a point (R379). -/
def setpoint (s : State) (d n : Nat) : Nat :=
  Config.fusedVlogic d n + 5 * (dieAt s d).steps + guardSum (dieAt s d) + droopGuard s d

/-- A die takes a target and the setpoints of its rails; VDD_CIM follows the fused table alone (R378). -/
def setTarget (s : State) (d target : Nat) : State :=
  let v := setpoint s d target
  modDie s d fun x => { x with target := target, vlogic := v, vcim := Config.fusedVcim d target }

/-- The setpoints follow a change of margin or guard. -/
def refreshRails (s : State) (d : Nat) : State := setTarget s d (dieAt s d).target

/-- Have both rails reached their setpoints? -/
def railsUp (x : Die) : Bool := decide (x.vlogic ≤ x.vnow) && decide (x.vcim ≤ x.cnow)

/-- ACLK of a point in MHz (R8). -/
def aclk (n : Nat) : Nat := 1050 - 35 * n

/-- Count what the die has run stretched up to now: its time, and its cycles at 0.8 of its point's frequency (R366;
DESIGN CHOICE, log 181). -/
def countStretch (x : Die) (now : Nat) : Die :=
  if x.tripped.isEmpty then x
  else
    let dt := now - x.stretchFrom
    { x with stretch := x.stretch.add (4 * dt * aclk x.current / 5000), stretchBeat := x.stretchBeat + dt, stretchFrom := max now x.stretchFrom }

/-- Downward ACLK changes at once, upward only when both rails are up (R355). -/
def clockDie (now : Nat) (x : Die) : Die :=
  if x.current ≤ x.target ∨ railsUp x = true then { countStretch x now with current := x.target } else x

/-- Move a die to a target, in place of any target it had (R355). -/
def moveDie (s : State) (d target : Nat) : State := modDie (setTarget s d target) d (clockDie s.now)

/-! ## Phases and guards (R277, R360, R361) -/

/-- Enter a phase into the guards: a guard that waits for it in this Beat counts from now. -/
def enterGuards (gs : List Guard) (phase now : Nat) : List Guard :=
  gs.map fun g => if g.phase = phase ∧ g.ahead = false ∧ g.entered = none then { g with entered := some now } else g

/-- A release begins the Beat that the ANNOUNCEs before it named (R276, R361). -/
def arriveGuards (gs : List Guard) : List Guard := gs.map fun g => { g with ahead := false }

/-- A HINT passes its phase to Balance (R277). A heavy step adds its guard to those in force: at the ANNOUNCE, for the next
Beat, which starts in phase 0, or at the ENTER. The tiles of a die that take one phase make one step, so a Beat has one guard
of a phase at a time (R361; DEDUCED, log 90). -/
def hintPhase (s : State) (t : Nat) (announce : Bool) (phase : Nat) : State :=
  let d := dieOf t
  let x := dieAt s d
  let n := (dieTiles s d).length
  let step := n * learntOf x phase - n * learntOf x (if announce then 0 else phaseOf x t)
  let have_ := x.guards.any fun g => decide (g.phase = phase ∧ g.ahead = announce)
  let added : List Guard :=
    if 20000 ≤ step ∧ have_ = false then [{ phase := phase, mv := min 30 (5 * (step / 20000)), ahead := announce }] else []
  let gs := x.guards ++ added
  let s := modDie s d fun x =>
    if announce then { x with guards := gs }
    else { x with guards := enterGuards gs phase s.now, tilePhase := tset 0 x.tilePhase t phase }
  refreshRails s d

/-! ## Activity and power (R363, R364) -/

/-- A_max of a slice. -/
def aMax : Nat := 8000000

/-- The learnt activity of phase 0 at a point: the least whose dynamic power at Pc is the learnt power, for the cycles that a
slice has at the point (R364; log 80). -/
def phase0Level (d pc n power : Nat) : Nat :=
  min aMax (((lowest (aMax + 1) fun a => decide (power ≤ Config.dynPower d pc a)).getD aMax) * aclk n / aclk pc)

/-! ## Issue gates (R363, R372) -/

/-- The engine that an instruction's issue uses, as the activity counts it; a pass or a page instruction uses a macro
plane or a page port (R363). -/
def actOf : TileInstr → Option ActKind
  | .nop _ => none
  | .beat .. => none
  | .sema .. => none
  | .hint .. => none
  | .wcnt .. => none
  | .dma .. => some .dma
  | .send _ => some .dma
  | .cpass _ => some .plane
  | .tpass _ => some .plane
  | .pgwr _ => some .page
  | .pgrd _ => some .page
  | .upd _ => some .update
  | .acmrd _ => some .drain
  | .acmwr _ => some .drain
  | .drain _ => some .drain
  | .qstat _ => some .quant
  | .qconv .. => some .quant
  | .xmov _ => some .xmov
  | .vop .. => some .vector
  | .spmacSw .. => some .sparse
  | .spmacSa _ => some .sparse
  | .prune .. => some .sparse
  | .store .. => some .sparse

/-- ACLK cycles in a 100 ns slice at a point. -/
def sliceCycles (n : Nat) : Nat := aclk n / 10

/-- Does a macro have passes in its planes or waiting, and its page port page operations? -/
def planesBusy (x : Tile) (m : Nat) : Bool := let y := macroOf x m; !y.passQ.isEmpty || !y.latched.isEmpty
def portBusy (x : Tile) (m : Nat) : Bool := let y := macroOf x m; !y.portQ.isEmpty || y.stage.isSome

/-- Activity that an instruction's issue adds to a slice of `n` cycles: its engine's issue, or of a pass or page instruction
the plane and page-port cycles that its members spend in the slice, where a member did not spend them before (R88, R92, R94,
R363; DESIGN CHOICE, log 150). -/
def issueCost (d n : Nat) (members : Nat → List Nat) (planesFree portFree : Nat → Bool) (op : TileInstr) : Nat :=
  let macros (g cycles : Nat) (free : Nat → Bool) (k : ActKind) : Nat :=
    ((members g).filter free).length * min n cycles * Config.weight d k
  match op with
  | .cpass o => macros o.grp ((if o.a4 then 4 else 8) * (o.h + 1)) planesFree .plane
  | .tpass o => macros o.grp ((if o.a4 then 8 else 16) * (o.h + 1)) planesFree .plane
  | .pgwr o => macros o.grp 20 portFree .page
  | .pgrd o => macros o.grp 17 portFree .page
  | op => match actOf op with
    | none => 0
    | some k => Config.weight d k

/-- Physical members of a tile's group. -/
def membersOf (x : Tile) (g : Nat) : List Nat := (readGroup x.plan g).mem.map fun m => physMacro x.ret m.lm

/-- Activity that the macros of a tile spend in a slice of `n` cycles with what they have taken on. -/
def macroLoad (d n : Nat) (x : Tile) : Nat :=
  n * ((x.macros.filter fun e => planesBusy x e.1).length * Config.weight d .plane +
       (x.macros.filter fun e => portBusy x e.1).length * Config.weight d .page)

/-- What an issue of a tile adds to the present slice. -/
def tileCost (s : State) (t : Nat) (op : TileInstr) : Nat :=
  let x := tileAt s (physTile s t)
  issueCost (dieOf t) (sliceCycles (dieAt s (dieOf t)).current) (membersOf x) (fun m => !planesBusy x m) (fun m => !portBusy x m) op

/-- Would the tile's issue lift the die above its slice limit? With what it has issued in the slice and what its macros
spend, it may add its own share of the allowance to what it did in the last slice (R363). -/
def rampOpen (s : State) (t : Nat) (op : TileInstr) : Bool :=
  let x := dieAt s (dieOf t)
  match x.allow with
  | none => true
  | some a =>
    let c := tileCost s t op
    decide (c = 0) ||
      decide (tget 0 x.issued t + macroLoad (dieOf t) (sliceCycles x.current) (tileAt s (physTile s t)) + c ≤ tget 0 x.did t + a)

/-- Is the tile's issue cycle one of the k of 16 that the duty allows (R372)? -/
def dutyOpen (s : State) (t : Nat) : Bool := decide (tget 0 (dieAt s (dieOf t)).cycles t ≤ s.bal.duty)

/-- Does neither gate hold the issue back? -/
def gateOpen (s : State) (t : Nat) (op : TileInstr) : Bool := dutyOpen s t && rampOpen s t op

/-- Does an instruction spend plane or page-port cycles, which its macros show? -/
def onMacros (op : TileInstr) : Bool :=
  match actOf op with
  | some .plane => true
  | some .page => true
  | _ => false

/-- The slice counts what issued on an engine. -/
def noteIssue (s : State) (t : Nat) (op : TileInstr) : State :=
  let d := dieOf t
  match (if onMacros op then none else (dieAt s d).allow) with
  | none => s
  | some _ => modDie s d fun x => { x with issued := tset 0 x.issued t (tget 0 x.issued t + tileCost s t op) }

/-- An issue cycle of a tile passes in its window of 16. -/
def dutyTick (s : State) (t : Nat) : State :=
  if s.bal.duty < 15 then
    modDie s (dieOf t) fun x => { x with cycles := tset 0 x.cycles t ((tget 0 x.cycles t + 1) % 16) }
  else s

end Sys2Proof.Machine
end

