-- ==== Sys2Proof/Machine/TileExec.lean ====
section
/-!
DEFINITION. Tile instructions as commands: each row is the instruction once issued by a stream of a logical
tile. The unit's effect follows chapters 02 to 08; what it asks of the device is done here.
-/
namespace Sys2Proof.Machine

/-! ## What an issued instruction asks of the device -/

/-- The counter port of a die serves one request (R261). -/
def serveCounter (s : State) (d : Nat) (r : WcReq) : State :=
  let f := fenOf s d
  let k := r.counter % 256
  let c := tget {} f.wcs k
  let (c, res) : Counter × BitVec 32 :=
    if r.op = 0 then (c, c.val)
    else if r.op = 2 then ({ c with val := c.init }, c.init)
    else if c.val.toNat + r.inc ≤ c.limit.toNat then ({ c with val := BitVec.ofNat 32 (c.val.toNat + r.inc) }, c.val)
    else ({ c with val := c.limit }, 0xFFFFFFFF)
  let s := setFen s d { f with wcs := tset {} f.wcs k c }
  modTile s r.tile fun t =>
    match flightOf t r.tag with
    | none => t
    | some _ =>
      let x := streamOf t r.stream
      partDone (setStream t r.stream (if r.dst3 then { x with x3 := res } else { x with x2 := res })) r.tag

/-- The die whose port an issued WCNT asks, and what it asks, until the port has served it (R260, R262). -/
def counterAsk (s : State) (pt : Nat) (f : Flight) : Option (Nat × WcReq) :=
  match f.op with
  | .wcnt op c inc d3 =>
    if f.left = 0 then none
    else some (if s.split then partOfDie s (pt / 256) else c / 256 % 2,
               { tile := pt, stream := f.stream, op := op, counter := c, inc := inc, dst3 := d3, tag := f.tag })
  | _ => none

/-- Is a request that arrives at die `d` one that a WCNT in flight still makes, and not at the port already? -/
def counterLive (s : State) (d : Nat) (r : WcReq) : Bool :=
  !(fenOf s d).portQ.contains r && (match flightOf (tileAt s r.tile) r.tag with
    | some f => decide (counterAsk s r.tile f = some (d, r))
    | none => false)

/-- Fail or finish the instruction of a tag. -/
def endFlight (s : State) (pt tag code : Nat) : State :=
  modTile s pt fun t => if code = 0 then modFlight t tag fun f => { f with left := 0 } else failFlight t tag code

/-- Lines of a DMA TT, to the tile that `dtile` names (R279). -/
def startTt (s : State) (t tag n : Nat) (o : DmaOp) : State :=
  let pt := physTile s t
  let dt := if s.split then 128 * partOf s t + o.dtile % 128 else o.dtile
  let src := mread (tileAt s pt).tsp (tbyte o.taddr) n
  let lines := (n + 255) / 256
  let arr : List Arrival := (List.range lines).map fun k =>
    { srcTile := pt, srcTag := tag, addr := tbyte (o.dev % 2 ^ 14) + 256 * k, bytes := (src.drop (256 * k)).take 256
      last := decide (k + 1 = lines), rsem := if o.rsig then some o.rsem else none }
  let s := modTile s (physTile s dt) fun x => { x with arrivals := x.arrivals ++ arr }
  modTile s pt fun x => modFlight x tag fun f => { f with left := lines }

/-- Is every sector of a range in a cached region or in the Fen (R281)? -/
def addable (s : State) (p addr n : Nat) : Bool := (sectorsOf addr n).all fun a => isFen a || (homeDie s p a).isSome

/-- The near-memory adds of a DMA ADD, each at the die that holds its sector (R176). -/
def queueAdds (s : State) (t tag addr n : Nat) (o : DmaOp) : State :=
  let pt := physTile s t
  let src := mread (tileAt s pt).tsp (tbyte o.taddr) n
  let s := (List.range (n / 32)).foldl (fun s k =>
    let a := addr + 32 * k
    let d := if isFen a then fenDieOf a else (homeDie s (partOf s t) a).getD 0
    let x : NearAdd := { tile := pt, tag := tag, addr := a, bf16 := decide (o.afmt = 1), xs := (src.drop (32 * k)).take 32 }
    modFen s d fun f => { f with adds := f.adds ++ [x] }) s
  modTile s pt fun x => modFlight x tag fun f => { f with left := n / 32, dev := [(addr, n)] }

/-- A DMA with fn 0 to 4 moves its data; `errs` are the codewords in error that it meets (R176 to R178, R279,
R564). -/
def runDma (s : State) (t fn tag addr n : Nat) (o : DmaOp) (errs : List MemErr) : State :=
  let pt := physTile s t
  let p := partOf s t
  let s := accessErrs s p errs
  if (tileAt s pt).halted then s
  else
    match fn with
    | 0 =>
      let s := tileTouch s p pt addr n
      let bs := tilePeek s p addr n
      endFlight (modTile s pt fun x => { x with tsp := mwrite x.tsp (tbyte o.taddr) bs }) pt tag 0
    | 1 =>
      let s := modTile s pt fun x => modFlight x tag fun f => { f with dev := [(addr, n)] }
      endFlight (tileStore s p pt addr (mread (tileAt s pt).tsp (tbyte o.taddr) n)) pt tag 0
    | 2 => queueAdds s t tag addr n o
    | 3 => startTt s t tag n o
    | _ => endFlight (flushRange s pt addr n) pt tag 0

/-- Does an access of a tile stand behind a DMA that waits: of the same DMA channel, whose instructions start in issue order
(R279), or of the same sectors, which one requester reaches in its order (R393)? `ch` past 1 is no DMA channel's, and TT
reaches no device memory. -/
def behindWait (s : State) (t ch fn addr n : Nat) : Bool :=
  s.waits.any fun w => decide (w.pt = physTile s t) &&
    (decide (w.o.ch = ch) || (decide (w.fn ≠ 3) && decide (fn ≠ 3) && overlaps w.addr w.n addr n))

/-- Must an access with fn 0 to 4 wait: behind another, or for a memory channel it reaches (R279, R393, R400)? -/
def dmaWaits (s : State) (t ch fn addr n : Nat) : Bool :=
  behindWait s t ch fn addr n ||
    (decide (fn ≠ 2 ∧ fn ≠ 3) && accessWaits s (partOf s t) addr n (decide (fn = 0)) (decide (fn = 4)))

/-- A DMA with fn 0 to 4 (R279, R281, R176 to R178, R400). -/
def startDma (s : State) (t fn tag addr n : Nat) (o : DmaOp) (errs : List MemErr) : State :=
  let pt := physTile s t
  let code := if fn = 3 then 0 else accessFault s (partOf s t) addr n
  if code ≠ 0 then endFlight s pt tag code
  else if fn = 2 ∧ addable s (partOf s t) addr n = false then endFlight s pt tag 0x8408
  else if dmaWaits s t o.ch fn addr n then
    let w : DmaWait := { t := t, pt := pt, fn := fn, tag := tag, addr := addr, n := n, o := o, errs := errs }
    let dev := if fn = 1 ∨ fn = 2 then [(addr, n)] else []
    modTile { s with waits := s.waits ++ [w] } pt fun x => modFlight x tag fun f => { f with left := 1, dev := dev }
  else runDma s t fn tag addr n o errs

/-- The DMAs that wait are tried again, oldest first (R400). -/
def retryDmas (s : State) : State :=
  s.waits.foldl (fun s w =>
    if dmaWaits s w.t w.o.ch w.fn w.addr w.n then { s with waits := s.waits ++ [w] }
    else runDma s w.t w.fn w.tag w.addr w.n w.o w.errs) { s with waits := [] }

/-- Packets of a SEND of `n` bytes: (offset in its data, bytes) (R420, R432). -/
def sendCuts (nm : Bool) (n : Nat) : List (Nat × Nat) :=
  if nm then
    let nb := (n - 32) / 65
    let rest := nb - min nb 63
    let blocks := (List.range (cdiv rest 64)).map fun k => (4064 + 4096 * k, 64 * min 64 (rest - 64 * k))
    let e0 := 32 + 64 * nb
    (0, 32 + 64 * min nb 63) :: blocks ++ (List.range (cdiv (n - e0) 4096)).map fun k => (e0 + 4096 * k, min 4096 (n - e0 - 4096 * k))
  else (List.range (cdiv n 4096)).map fun k => (4096 * k, min 4096 (n - 4096 * k))

/-- The budget of a SEND in ns (R426, R427). -/
def sendBudget (s : State) (p : Nat) (o : SendOp) : Nat :=
  let j := jobOf s p
  let senders := max 1 (nth 1 j.senders (nth {} j.sched j.pos).typ)
  let wire := j.ports * j.rate
  let r := max 1 (if o.tsrc then wire else min wire (if s.split then 50 else 100))
  let b := 32 * (o.len + 1)
  cdiv (b * senders) r + 2 * cdiv (min b 131072 * senders) r + 18000

/-- Each tile's first SEND with packets to send for the first time starts (R422). -/
def startSends (s : State) (p : Nat) : State :=
  modJob s p fun j => { j with sends := (j.sends.zip (List.range j.sends.length)).map fun e =>
    let first := !((j.sends.take e.2).any fun y => decide (y.tile = e.1.tile) && decide (y.sent < y.packets))
    if first && e.1.started.isNone && decide (e.1.sent < e.1.packets) then
      { e.1 with started := some s.now, budget := sendBudget s p e.1.o }
    else e.1 }

/-- A DMA SEND enters the transport engine (R280, R422, R431). -/
def startSend (s : State) (t tag : Nat) (o : SendOp) : State :=
  let pt := physTile s t
  let p := partOf s t
  let j := jobOf s p
  let w := windowAt s (devWindow s p o.window)
  let x : Send := { tile := pt, tag := tag, o := o, gen := (w.g0 + j.j) % 65536, packets := (sendCuts o.nm (32 * (o.len + 1))).length }
  let s := startSends (modJob s p fun j => { j with sends := j.sends ++ [x] }) p
  modTile s pt fun x => modFlight x tag fun f => { f with left := 1 }

/-- Everything an issued instruction asks. -/
def doAsk (s : State) (t : Nat) (errs : List MemErr) : Ask → State
  | .nothing => s
  | .hint a ph => hintPhase s t a ph
  | .wcnt tag => modTile s (physTile s t) fun x => modFlight x tag fun f => { f with left := 1 }
  | .dma fn tag a n o => startDma s t fn tag a n o errs
  | .send tag o => startSend s t tag o

/-- The faults of one cycle of a tile: that of the lowest stream is recorded, the others are counted (R316), and all are
reported. -/
def cycleFaults (s : State) (t : Nat) (fs : List FaultRec) : State :=
  if fs.isEmpty then s
  else
    let fs := fs.mergeSort fun a b => decide (a.stream ≤ b.stream)
    tileFaults (modTile s (physTile s t) fun x => recordAll x fs) t fs

/-- Instructions of a tile complete, in a cycle that has raised `fs` besides. -/
def completeCycle (s : State) (t : Nat) (tags : List (Fin 64)) (fs : List FaultRec) : State :=
  let r := completeAll (tileAt s (physTile s t)) (tags.map (·.val))
  cycleFaults (setTile s (physTile s t) r.1) t (fs ++ r.2)

/-- May the tile issue: no fault has stopped it (R316), and the Beat is released and not finished (R327)? -/
def mayIssue (x : Tile) : Bool := !x.halted && x.released

/-- An instruction of stream `k` of logical tile `t` issues (R303): the state, and the fault it raises at once. -/
def issueCore (s : State) (t k : Nat) (h : Hdr) (op : TileInstr) (cl : List Claim) (errs : ReadErrs) : State × List FaultRec :=
  let pt := physTile s t
  let r := issueTile (tileAt s pt) k h op cl errs
  (doAsk (setTile s pt (stampSingles s.now r.1)) t errs.mem r.2.1, r.2.2.toList)

/-- What the issue gates see: a skipped instruction uses no engine (R315). -/
def gatedOp (x : Tile) (k : Nat) (h : Hdr) (op : TileInstr) : TileInstr := if skipped (streamOf x k) h then .nop 0 else op

/-- An instruction row: the instruction issues if its tile may issue and neither the ramp limiter nor the duty holds
it (R363, R372). -/
def issueOp (s : State) (t k : Nat) (h : Hdr) (op : TileInstr) (errs : ReadErrs := {}) : State :=
  let x := tileAt s (physTile s t)
  if mayIssue x && gateOpen s t (gatedOp x k h op) then
    let r := issueCore (noteIssue s t (gatedOp x k h op)) t k h op (entryClaims x ((streamOf x k).entry.getD x.entries) k h op) errs
    cycleFaults r.1 t r.2
  else s

/-! ## The instruction rows -/

abbrev Out := Host.Outcome State Fault Refusal

def execNop (t : Fin 256) (st : Fin 32) (h : Hdr) (delay : Nat) (s : State) : Out := .next (issueOp s t st h (.nop delay))
def execBeatSeq (t : Fin 256) (st : Fin 32) (h : Hdr) (s : State) : Out := .next (issueOp s t st h (.beat 0 0))
def execBeatJump (t : Fin 256) (st : Fin 32) (h : Hdr) (target : Nat) (s : State) : Out := .next (issueOp s t st h (.beat 1 target))
def execBeatLoop (t : Fin 256) (st : Fin 32) (h : Hdr) (target : Nat) (s : State) : Out := .next (issueOp s t st h (.beat 2 target))
def execBeatStop (t : Fin 256) (st : Fin 32) (h : Hdr) (s : State) : Out := .next (issueOp s t st h (.beat 3 0))
/-- SEMA WAIT issues only while the semaphore holds at least n (R310). -/
def execSemaWait (t : Fin 256) (st : Fin 32) (h : Hdr) (sx n : Nat) (s : State) : Out :=
  if n ≤ semOf (tileAt s (physTile s t)) sx then .next (issueOp s t st h (.sema 0 sx n)) else .next s
def execSemaSignal (t : Fin 256) (st : Fin 32) (h : Hdr) (sx n : Nat) (s : State) : Out := .next (issueOp s t st h (.sema 1 sx n))
def execSemaSet (t : Fin 256) (st : Fin 32) (h : Hdr) (sx n : Nat) (s : State) : Out := .next (issueOp s t st h (.sema 2 sx n))
def execHintEnter (t : Fin 256) (st : Fin 32) (h : Hdr) (phase : Nat) (s : State) : Out := .next (issueOp s t st h (.hint 0 phase))
def execHintAnnounce (t : Fin 256) (st : Fin 32) (h : Hdr) (phase : Nat) (s : State) : Out := .next (issueOp s t st h (.hint 1 phase))
def execWcntRead (t : Fin 256) (st : Fin 32) (h : Hdr) (counter : Nat) (dst3 : Bool) (s : State) : Out :=
  .next (issueOp s t st h (.wcnt 0 counter 0 dst3))
def execWcntAdd (t : Fin 256) (st : Fin 32) (h : Hdr) (counter inc : Nat) (dst3 : Bool) (s : State) : Out :=
  .next (issueOp s t st h (.wcnt 1 counter inc dst3))
def execWcntReset (t : Fin 256) (st : Fin 32) (h : Hdr) (counter : Nat) (dst3 : Bool) (s : State) : Out :=
  .next (issueOp s t st h (.wcnt 2 counter 0 dst3))

/-- Requests of WCNTs in flight arrive at a counter port in one cycle, die-to-die first; one is served (R261, R262). A tile
reaches its own die over the mesh, and the other over the die-to-die path (R24). -/
def execWorkCounterRequest (d : Fin 2) (d2d mesh : List WcReq) (s : State) : Out :=
  let live := counterLive s d
  let far := (d2d.filter fun r => decide (r.tile / 256 ≠ (d : Nat)) && live r).eraseDups
  let near := (mesh.filter fun r => decide (r.tile / 256 = (d : Nat)) && live r).eraseDups
  match (fenOf s d).portQ ++ far ++ near with
  | [] => .next s
  | r :: rest => .next (serveCounter (modFen s d fun f => { f with portQ := rest }) d r)

def execDmaLoad (t : Fin 256) (st : Fin 32) (h : Hdr) (o : DmaOp) (errs : List MemErr) (s : State) : Out :=
  .next (issueOp s t st h (.dma 0 o) { mem := errs })
def execDmaStore (t : Fin 256) (st : Fin 32) (h : Hdr) (o : DmaOp) (errs : List MemErr) (s : State) : Out :=
  .next (issueOp s t st h (.dma 1 o) { mem := errs })
def execDmaAdd (t : Fin 256) (st : Fin 32) (h : Hdr) (o : DmaOp) (errs : List MemErr) (s : State) : Out :=
  .next (issueOp s t st h (.dma 2 o) { mem := errs })
def execDmaTt (t : Fin 256) (st : Fin 32) (h : Hdr) (o : DmaOp) (s : State) : Out := .next (issueOp s t st h (.dma 3 o))
def execDmaFlush (t : Fin 256) (st : Fin 32) (h : Hdr) (o : DmaOp) (errs : List MemErr) (s : State) : Out :=
  .next (issueOp s t st h (.dma 4 o) { mem := errs })
def execDmaSend (t : Fin 256) (st : Fin 32) (h : Hdr) (o : SendOp) (s : State) : Out := .next (issueOp s t st h (.send o))
def execCpass (t : Fin 256) (st : Fin 32) (h : Hdr) (o : PassOp) (errs : List WordErr) (s : State) : Out :=
  .next (issueOp s t st h (.cpass o) { unit := errs })
def execTpass (t : Fin 256) (st : Fin 32) (h : Hdr) (o : PassOp) (errs : List WordErr) (s : State) : Out :=
  .next (issueOp s t st h (.tpass o) { unit := errs })
def execPgwr (t : Fin 256) (st : Fin 32) (h : Hdr) (o : PgwrOp) (s : State) : Out := .next (issueOp s t st h (.pgwr o))
def execPgrd (t : Fin 256) (st : Fin 32) (h : Hdr) (o : PgrdOp) (errs : List PageErr) (s : State) : Out :=
  .next (issueOp s t st h (.pgrd o) { pages := errs })
def execUpd (t : Fin 256) (st : Fin 32) (h : Hdr) (o : UpdOp) (s : State) : Out := .next (issueOp s t st h (.upd o))
def execAcmrd (t : Fin 256) (st : Fin 32) (h : Hdr) (o : AcmOp) (errs : List WordErr) (s : State) : Out :=
  .next (issueOp s t st h (.acmrd o) { unit := errs })
def execAcmwr (t : Fin 256) (st : Fin 32) (h : Hdr) (o : AcmOp) (s : State) : Out := .next (issueOp s t st h (.acmwr o))
def execDrain (t : Fin 256) (st : Fin 32) (h : Hdr) (o : DrainOp) (errs : List WordErr) (s : State) : Out :=
  .next (issueOp s t st h (.drain o) { unit := errs })
def execQstat (t : Fin 256) (st : Fin 32) (h : Hdr) (o : QuantOp) (s : State) : Out := .next (issueOp s t st h (.qstat o))
def execQconvPresent (t : Fin 256) (st : Fin 32) (h : Hdr) (o : QuantOp) (s : State) : Out := .next (issueOp s t st h (.qconv false o))
def execQconvCarried (t : Fin 256) (st : Fin 32) (h : Hdr) (o : QuantOp) (s : State) : Out := .next (issueOp s t st h (.qconv true o))
def execCopy (t : Fin 256) (st : Fin 32) (h : Hdr) (o : CopyOp) (errs : List WordErr) (s : State) : Out :=
  .next (issueOp s t st h (.xmov o) { unit := errs })
def execSpmacSwForward (t : Fin 256) (st : Fin 32) (h : Hdr) (o : SwOp) (errs : List WordErr) (s : State) : Out :=
  .next (issueOp s t st h (.spmacSw false o) { unit := errs })
def execSpmacSwTransposed (t : Fin 256) (st : Fin 32) (h : Hdr) (o : SwOp) (errs : List WordErr) (s : State) : Out :=
  .next (issueOp s t st h (.spmacSw true o) { unit := errs })
def execSpmacSa (t : Fin 256) (st : Fin 32) (h : Hdr) (o : SaOp) (s : State) : Out := .next (issueOp s t st h (.spmacSa o))
def execPruneSelect (t : Fin 256) (st : Fin 32) (h : Hdr) (o : PruneOp) (s : State) : Out := .next (issueOp s t st h (.prune false o))
def execPruneKeep (t : Fin 256) (st : Fin 32) (h : Hdr) (o : PruneOp) (errs : List WordErr) (s : State) : Out :=
  .next (issueOp s t st h (.prune true o) { unit := errs })
def execPruneLoad (t : Fin 256) (st : Fin 32) (h : Hdr) (o : StoreOp) (s : State) : Out := .next (issueOp s t st h (.store false o))
def execPruneRead (t : Fin 256) (st : Fin 32) (h : Hdr) (o : StoreOp) (errs : List WordErr) (s : State) : Out :=
  .next (issueOp s t st h (.store true o) { unit := errs })
def execVopAdd (t : Fin 256) (st : Fin 32) (h : Hdr) (o : VopOp) (s : State) : Out := .next (issueOp s t st h (.vop .add o))
def execVopSub (t : Fin 256) (st : Fin 32) (h : Hdr) (o : VopOp) (s : State) : Out := .next (issueOp s t st h (.vop .sub o))
def execVopMul (t : Fin 256) (st : Fin 32) (h : Hdr) (o : VopOp) (s : State) : Out := .next (issueOp s t st h (.vop .mul o))
def execVopFma (t : Fin 256) (st : Fin 32) (h : Hdr) (o : VopOp) (s : State) : Out := .next (issueOp s t st h (.vop .fma o))
def execVopMin (t : Fin 256) (st : Fin 32) (h : Hdr) (o : VopOp) (s : State) : Out := .next (issueOp s t st h (.vop .min o))
def execVopMax (t : Fin 256) (st : Fin 32) (h : Hdr) (o : VopOp) (s : State) : Out := .next (issueOp s t st h (.vop .max o))
def execVopAbs (t : Fin 256) (st : Fin 32) (h : Hdr) (o : VopOp) (s : State) : Out := .next (issueOp s t st h (.vop .abs o))
def execVopNeg (t : Fin 256) (st : Fin 32) (h : Hdr) (o : VopOp) (s : State) : Out := .next (issueOp s t st h (.vop .neg o))
def execVopCvt (t : Fin 256) (st : Fin 32) (h : Hdr) (o : VopOp) (s : State) : Out := .next (issueOp s t st h (.vop .cvt o))
def execVopTwosum (t : Fin 256) (st : Fin 32) (h : Hdr) (o : VopOp) (s : State) : Out := .next (issueOp s t st h (.vop .twosum o))
def execVopCpadd (t : Fin 256) (st : Fin 32) (h : Hdr) (o : VopOp) (s : State) : Out := .next (issueOp s t st h (.vop .cpadd o))
def execVopExp (t : Fin 256) (st : Fin 32) (h : Hdr) (o : VopOp) (s : State) : Out := .next (issueOp s t st h (.vop .exp o))
def execVopLog (t : Fin 256) (st : Fin 32) (h : Hdr) (o : VopOp) (s : State) : Out := .next (issueOp s t st h (.vop .log o))
def execVopRcp (t : Fin 256) (st : Fin 32) (h : Hdr) (o : VopOp) (s : State) : Out := .next (issueOp s t st h (.vop .rcp o))
def execVopRsqrt (t : Fin 256) (st : Fin 32) (h : Hdr) (o : VopOp) (s : State) : Out := .next (issueOp s t st h (.vop .rsqrt o))
def execVopRsum (t : Fin 256) (st : Fin 32) (h : Hdr) (o : VopOp) (s : State) : Out := .next (issueOp s t st h (.vop .rsum o))
def execVopRmax (t : Fin 256) (st : Fin 32) (h : Hdr) (o : VopOp) (s : State) : Out := .next (issueOp s t st h (.vop .rmax o))
def execVopRmin (t : Fin 256) (st : Fin 32) (h : Hdr) (o : VopOp) (s : State) : Out := .next (issueOp s t st h (.vop .rmin o))
def execVopRmaxabs (t : Fin 256) (st : Fin 32) (h : Hdr) (o : VopOp) (s : State) : Out := .next (issueOp s t st h (.vop .rmaxabs o))
def execVopRcsum (t : Fin 256) (st : Fin 32) (h : Hdr) (o : VopOp) (s : State) : Out := .next (issueOp s t st h (.vop .rcsum o))
def execVopCsum (t : Fin 256) (st : Fin 32) (h : Hdr) (o : VopOp) (s : State) : Out := .next (issueOp s t st h (.vop .csum o))
def execVopCmax (t : Fin 256) (st : Fin 32) (h : Hdr) (o : VopOp) (s : State) : Out := .next (issueOp s t st h (.vop .cmax o))
def execVopEmax8 (t : Fin 256) (st : Fin 32) (h : Hdr) (o : VopOp) (s : State) : Out := .next (issueOp s t st h (.vop .emax8 o))
def execVopEmin8 (t : Fin 256) (st : Fin 32) (h : Hdr) (o : VopOp) (s : State) : Out := .next (issueOp s t st h (.vop .emin8 o))
def execVopIadd (t : Fin 256) (st : Fin 32) (h : Hdr) (o : VopOp) (s : State) : Out := .next (issueOp s t st h (.vop .iadd o))
def execVopDeq (t : Fin 256) (st : Fin 32) (h : Hdr) (o : VopOp) (s : State) : Out := .next (issueOp s t st h (.vop .deq o))
def execVopImgadd (t : Fin 256) (st : Fin 32) (h : Hdr) (o : VopOp) (s : State) : Out := .next (issueOp s t st h (.vop .imgadd o))
def execVopOutl (t : Fin 256) (st : Fin 32) (h : Hdr) (o : VopOp) (errs : List WordErr) (s : State) : Out :=
  .next (issueOp s t st h (.vop .outl o) { unit := errs })

/-! ## Issue and completion -/

/-- Byte address of a codeword that an issue reads: 0 and 1 are the instruction word's, and 2 + k is codeword k of the plan
tables, whose records the instruction names (R295). -/
def issueWordAt (x : Tile) (k w : Nat) : Nat :=
  if w < 2 then istoreOff + 16 * ((streamOf x k).first + (streamOf x k).pc.toNat) + 8 * w else patOff + 8 * (w - 2)

/-- The instruction word and table records of an issue met errors (R295, R564). One that reads wrong holds free values. -/
def istErrs (x : Tile) (k : Nat) (errs : List WordErr) : Tile :=
  let es := errs.map (·.ecc)
  let x := noteSingles { x with err := { x.err with istCe := errAdd x.err.istCe (eccSingles es), istUe := errAdd x.err.istUe (eccDoubles es) } }
    4 (eccSingles es)
  (wrongWords errs).foldl (fun x w =>
    { x with plan := mwrite x.plan (issueWordAt x k w) (freeBytes x.free 8), free := x.free + 8 }) x

/-- The issue of a cycle: the instruction the unit takes, unless the ramp limiter or the cut duty holds the tile (R363,
R372). Its word and table records are read with correction; a double-bit error is a memory fault, and nothing issues
(R295). -/
def issueNext (t : Nat) (errs : List WordErr) (reads : ReadErrs) (s : State) : State × List FaultRec :=
  let pt := physTile s t
  let x := tileAt s pt
  match (if dutyOpen s t then pick x else none) with
  | none => (s, [])
  | some p =>
    let g := gatedOp x p.st p.h p.op
    if !rampOpen s t g then (s, [])
    else
      let y := stampSingles s.now (istErrs x p.st errs)
      let s := setTile s pt y
      if 0 < eccDoubles (errs.map (·.ecc)) then (s, [tagless 0x2501 p.st (streamOf y p.st).pc.toNat])
      else
        match pendingOf y p.st with
        | none => (s, [])
        | some p => issueCore (noteIssue s t g) t p.st p.h p.op (streamOf y p.st).claims reads

/-- One cycle of the issue unit of a tile: one ready instruction issues, then the holds of NOPs run on, and what enters
the scoreboard takes its places in stream order (R301, R303, R311). Instructions that complete in the cycle follow, and the
faults of all of these are one cycle's (R316), with that of the control-logic check (R477, R478). -/
def execIssue (t : Fin 256) (errs : List WordErr) (reads : ReadErrs) (s : State) : Out :=
  let pt := physTile s t
  let x := tileAt s pt
  let logic := if reads.logic then [tagless 0xF501 0 0] else []
  if !mayIssue x then
    if reads.done.isEmpty && !reads.logic then .next s else .next (completeCycle s t reads.done logic)
  else
    let r := issueNext t errs reads s
    let u := holdTicks (tileAt r.1 pt) (heldStreams x)
    .next (dutyTick (completeCycle (setTile r.1 pt (reseat u.1 x.entries)) t reads.done (logic ++ r.2 ++ u.2)) t)

/-- Instructions complete in one cycle (R313 to R316). -/
def execInstructionComplete (t : Fin 256) (tag : Fin 64) (also : List (Fin 64)) (s : State) : Out :=
  .next (completeCycle s t (tag :: also) [])

/-! ## TSP lanes and mesh -/

def execTspLineFetch (t : Fin 256) (cycle : Nat) (lane : Fin 8) (reqs : List LaneReq) (errs : List WordErr) (s : State) : Out :=
  .next (tileWork s t fun x => lineFetch x cycle lane reqs errs)
def execTspWriteLine (t : Fin 256) (cycle : Nat) (lane : Fin 8) (errs : List WordErr) (s : State) : Out :=
  .next (tileWork s t fun x => lineWrite x cycle lane errs)
def execTspScrubLine (t : Fin 256) (line : Fin 3072) (errs : List WordErr) (s : State) : Out :=
  .next (tileWork s t fun x => lineScrub x line errs)

/-- Lines an arrival writes. -/
def arrivalLines (x : Tile) (a : Arrival) : List Posted :=
  (runLines (a.addr, a.bytes.length)).map fun l => postLine x.tsp { master := .mesh, line := l } [(a.addr, a.bytes.length)]

/-- A line of another tile's DMA TT arrives: it enters the write buffer of the mesh arrivals, and stalls while that is
full; the last byte adds to the semaphore it names (R239, R241, R279, R310). -/
def execMeshArrival (t : Fin 256) (s : State) : Out :=
  let pt := physTile s t
  let x := tileAt s pt
  match x.arrivals with
  | [] => .next s
  | a :: rest =>
    let ls := arrivalLines x a
    if 16 < bufferedOf x .mesh + ls.length then .next s
    else
      let x := { post { x with arrivals := rest } ls with tsp := mwrite x.tsp a.addr a.bytes }
      match (if a.last then a.rsem else none) with
      | none => .next (modTile (setTile s pt x) a.srcTile fun y => partDone y a.srcTag)
      | some k =>
        let r := semAdd x k 1
        if r.2 then .next (modTile (setTile s pt r.1) a.srcTile fun y => partDone y a.srcTag)
        else .next (endFlight (setTile s pt x) a.srcTile a.srcTag 0x5508)

/-! ## Macro micro-steps -/

/-- A step of a tile that raises no fault of its own: an instruction it fails reports at completion. -/
def tileStepOp (s : State) (t : Nat) (f : Tile → Tile) : State := modTile s (physTile s t) fun x => stampSingles s.now (f x)

def execPassLatch (t : Fin 256) (m : Fin 72) (s : State) : Out := .next (tileStepOp s t fun x => passLatch x m)
def execPassResultsMove (t : Fin 256) (m : Fin 72) (upset : List (Nat × Int)) (s : State) : Out :=
  .next (tileStepOp s t fun x => passResultsMove x m upset)
def execAbftCheck (t : Fin 256) (m : Fin 72) (regB : Bool) (s : State) : Out := .next (tileStepOp s t fun x => abftCheck x m regB)
def execAccumTake (t : Fin 256) (s : State) : Out := .next (tileStepOp s t accumTake)
/-- The accumulation path writes its entries; `sparse` says that the sparse port writes in the same cycle (R203). -/
def execAccumEntryWrite (t : Fin 256) (sparse : Bool) (errs : List WordErr) (s : State) : Out :=
  .next (tileStepOp s t fun x => if sparse then accumWithSparse x errs else accumEntryWrite x errs)
def execSparsePortWrite (t : Fin 256) (errs : List WordErr) (s : State) : Out := .next (tileStepOp s t fun x => sparsePortWrite x errs)
def execPageWriteStart (t : Fin 256) (m : Fin 72) (s : State) : Out := .next (tileStepOp s t fun x => pageWriteStart x m)
def execPageWriteCommit (t : Fin 256) (m : Fin 72) (s : State) : Out := .next (tileStepOp s t fun x => pageWriteCommit x m)

/-- Record and gradient ranges the head page of an UPD reads (R175, R184). -/
def updRanges (x : Tile) : List (Nat × Nat) :=
  match x.updQ with
  | [] => []
  | u :: _ =>
    let d := readUDesc x.plan u.o.udesc
    let base := blockBase x u
    let glen := if d.bf16 then 64 else 128
    let n := (pageOf x u.pm u.page).ncols
    [(d.state + 128 * base, 128 * n), (d.grad + glen * base, glen * n)]

/-- The update engine takes its next page: records and gradients are read, and the new records and cleared
gradients written (R186, R191). It waits for the channels they lie in, and behind the DMAs of its tile (R393, R400);
`mem` are the codewords of the Fen and LPDDR5X that the reads find in error. -/
def execUpdPageStart (t : Fin 256) (errs : List WordErr) (mem : List MemErr) (s : State) : Out :=
  let pt := physTile s t
  let p := partOf s t
  let x := tileAt s pt
  match x.updQ with
  | [] => .next s
  | u :: _ =>
    let rs := updRanges x
    let blocked := rs.any fun r => dmaWaits s t 2 0 r.1 r.2
    if !updReady x u || blocked then .next s
    else
      match rs.find? fun r => decide (accessFault s p r.1 r.2 ≠ 0) with
      | some r => .next (endFlight s pt u.tag (accessFault s p r.1 r.2))
      | none =>
        let seed := (jobOf s p).seed.toNat
        let s := accessErrs s p mem
        if (tileAt s pt).halted then .next s
        else
          let s := rs.foldl (fun s r => tileTouch s p pt r.1 r.2) s
          let r := updPageStart x t seed (fun a n => tilePeek s p a n) errs
          .next (r.2.foldl (fun s w => tileStore s p pt w.1 w.2) (setTile s pt r.1))

/-- A scrub step: an uncorrectable error or a stuck cell is a fault and marks the macro for retirement (R102). -/
def scrubStep (s : State) (t m : Nat) (r : Tile × Nat) : State :=
  let pt := physTile s t
  let u := tileFault (setTile s pt r.1) t r.2 (logMacro r.1.ret m) m
  if r.2 = 0 then u else retireMacro u pt m

def execScrubRowRead (t : Fin 256) (m : Fin 72) (errs : List WordErr) (sumWrong : Bool) (s : State) : Out :=
  .next (scrubStep s t m (scrubRowRead (tileAt s (physTile s t)) m errs sumWrong))
def execScrubColumnCompare (t : Fin 256) (m : Fin 72) (sumsWrong : List Nat) (s : State) : Out :=
  .next (tileStepOp s t fun x => scrubColumnCompare x m sumsWrong)
def execScrubWriteBack (t : Fin 256) (m : Fin 72) (rereadDiffers : Bool) (s : State) : Out :=
  .next (scrubStep s t m (scrubWriteBack (tileAt s (physTile s t)) m rereadDiffers))

end Sys2Proof.Machine
end

