-- ==== Sys2Proof/Machine/Balance.lean ====
section
/-!
DEFINITION. Balance: the cap, operating points, phases, the ramp limiter, droop, measurement, thermal rules and
the logic margin (R354 to R382).
-/
namespace Sys2Proof.Machine

/-! ## Powers, needs and shares (R360, R362, R368, R369) -/

/-- Mean activity of a die since the last 1 µs step (R363, R368). -/
def meanAct (x : Die) : Nat := if x.slices = 0 then x.activity else x.actSum / x.slices

/-- Estimated power of a die at a point in mW: its mean activity, and static power at the measured temperatures (R368). -/
def estimateAt (s : State) (d n : Nat) : Nat :=
  let x := dieAt s d
  Config.staticPower d n x.temps + Config.dynPower d n (meanAct x)

/-- Estimated power of both compute dies at the points in force. -/
def estimateNow (s : State) : Nat := estimateAt s 0 (dieAt s 0).current + estimateAt s 1 (dieAt s 1).current

/-- Control target in mW (R369). -/
def capTarget (b : Balance) : Nat := if b.measLed then 900 * b.cap else 1000 * b.cap

/-- Need of a die in mW with its static power taken at a point: R360 takes it at the point in force, and R362 at Pc. -/
def needAt (s : State) (d n : Nat) : Nat :=
  let x := dieAt s d
  Config.staticPower d n x.temps + ((dieTiles s d).map fun t => learntOf x (phaseOf x t)).foldl (· + ·) 0

/-- What the two dies share in mW: the target less the I/O die, LPDDR5X and regulation (R362). -/
def sharedCap (s : State) : Nat := capTarget s.bal - s.bal.ioMeas

/-- Share of die 0 of `b` under needs `n0` and `n1`: in proportion, each die leaves the other what it does not need, and
in SPLIT a die that needs half or more has half (R362). -/
def share0 (split : Bool) (b n0 n1 : Nat) : Nat :=
  let r0 := b * n0 / max 1 (n0 + n1)
  let r1 := b - r0
  let s0 := min r0 n0 + (r1 - min r1 n1)
  let s0 := if split && decide (b ≤ 2 * n0) then max s0 (b / 2) else s0
  if split && decide (b ≤ 2 * n1) then min s0 (b - b / 2) else s0

/-- A die's share of the cap in mW; the two shares make up what is shared (R362). -/
def shareOf (s : State) (d : Nat) : Nat :=
  let b := sharedCap s
  let s0 := share0 s.split b (needAt s 0 (dieJob s 0).pc) (needAt s 1 (dieJob s 1).pc)
  if d = 0 then s0 else b - s0

/-- Power of a die at a point: the estimate, or in measurement-led mode the measurement scaled by the ratio of
estimates (R369). -/
def powerAt (s : State) (d n : Nat) : Nat :=
  let e := estimateAt s d n
  if s.bal.measLed then (100 * s.bal.meas.toNat - s.bal.ioMeas) * e / max 1 (estimateNow s) else e

/-! ## Points (R355 to R359, R380) -/

/-- The fastest point whose power fits the die's share. -/
def capPoint (s : State) (d : Nat) : Nat :=
  (lowest 16 fun n => decide (powerAt s d n ≤ shareOf s d)).getD 15

/-- The point of R356 to R358 without the thermal limit: an elastic Beat runs at the fastest point, at or above Pc, that
the share and the top allow. -/
def ruledPoint (s : State) (d : Nat) : Nat :=
  let j := dieJob s d
  if j.state = .armed then j.pc
  else if j.state = .running then
    (if j.elastic && decide (j.part ≠ .off ∨ 0 < j.j) then min j.pc (max (capPoint s d) (dieAt s d).top) else j.pc)
  else 15

/-- Need at P15 in mW. -/
def needP15 (s : State) : Nat := powerAt s 0 15 + powerAt s 1 15 + s.bal.ioMeas

/-- Is the need above the target even at P15 (R372)? -/
def overCap15 (s : State) : Bool := decide (capTarget s.bal < needP15 s)

/-- The slowest of the points of R359; above the target at P15 every die runs there, and while issue duty is cut no point rises
(R372). -/
def chosenPoint (s : State) (d : Nat) : Nat :=
  let x := dieAt s d
  if x.held || overCap15 s then 15
  else
    let n := max (max (ruledPoint s d) (capPoint s d)) (max x.thermal x.top)
    if s.bal.duty < 15 then max n x.target else n

/-- A rail moves 10 mV toward its setpoint in a microsecond (R355). -/
def slew (v goal : Nat) : Nat := if v ≤ goal then min goal (v + 10) else max goal (v - 10)

/-- A microsecond of both rails' slew, and the upward clock change that it allows. -/
def slewDie (s : State) (d : Nat) : State :=
  modDie s d fun x => clockDie s.now { x with vnow := slew x.vnow x.vlogic, cnow := slew x.cnow x.vcim }

/-- A slew reaches its setpoint; an upward move then changes ACLK. It ends when both rails are within a microsecond's
slew (R355). -/
def execVoltageSlewDone (d : Fin 2) (s : State) : Out :=
  let x := dieAt s d
  if x.vlogic ≤ x.vnow + 10 ∧ x.vnow ≤ x.vlogic + 10 ∧ x.vcim ≤ x.cnow + 10 ∧ x.cnow ≤ x.vcim + 10 then
    .next (modDie s d fun x => clockDie s.now { x with vnow := x.vlogic, cnow := x.vcim })
  else .next s

/-- An activity at one point as the same work makes it at another: a slice has its cycles in proportion to ACLK. -/
def scaleActivity (a n m : Nat) : Nat := a * aclk m / aclk n

/-- Attribute each tile's activity of the last microsecond, scaled to Pc, to the phase the tile is in (R360). -/
def attributeDie (s : State) (d : Nat) : State :=
  let j := dieJob s d
  let x := dieAt s d
  if j.state = .running ∧ j.part ≠ .off ∧ 0 < x.slices then
    let phases := (dieTiles s d).foldl (fun ps t =>
      tmod {} ps (phaseOf x t) fun f =>
        { f with sum := f.sum + Config.dynPower d j.pc (scaleActivity (tget 0 x.acts t / x.slices) x.current j.pc), n := f.n + 1 }) x.phases
    modDie s d fun x => { x with phases := phases }
  else s

/-- Is a die of a RUNNING job below Pc for cap reasons (R372)? -/
def belowCommit (s : State) (d : Nat) : Bool :=
  decide ((dieJob s d).state = .running) && (decide ((dieJob s d).pc < capPoint s d) || (overCap15 s && decide ((dieJob s d).pc < 15)))

/-- The next microsecond's slices start afresh. -/
def restartSlices (s : State) (d : Nat) : State := modDie s d fun x => { x with slices := 0, actSum := 0, acts := [] }

/-- The 1 µs step: the slews, phases, the estimate, shares and points (R355, R359, R360, R362, R368). -/
def execBalanceStep (s : State) : Out :=
  let s := attributeDie (attributeDie (slewDie (slewDie s 0) 1) 0) 1
  let s := { s with bal := { s.bal with estSum := s.bal.estSum + estimateNow s + s.bal.ioMeas, estN := s.bal.estN + 1 } }
  let below := belowCommit s 0 || belowCommit s 1
  let p0 := chosenPoint s 0
  let p1 := chosenPoint s 1
  let s := restartSlices (restartSlices (moveDie (moveDie s 0 p0) 1 p1) 0) 1
  let s := if below && !s.bal.belowCommit then balEvent s 0 else s
  .next { s with bal := { s.bal with belowCommit := below } }

/-! ## The ramp limiter (R363, R364) -/

/-- What a slice may change: 1.25 % of A_max. -/
def sliceStep : Nat := 100000

/-- Activity of a tile in a slice: its cycles and issues, weighted (R363). -/
def tileActivity (d t : Nat) (work : List TileAct) : Nat :=
  ((work.filter fun w => decide (w.tile = t)).map fun w => w.n * Config.weight d w.kind).foldl (· + ·) 0

/-- When the next Beat releases, for a RUNNING job (R322, R329). -/
def nextRelease (j : Job) : Nat :=
  (match j.part with
   | .off => j.sn
   | .guard => j.sn
   | _ => match j.nextStart with
     | some n => n
     | none => j.sn + 1000 * j.beatUs) + 1000

/-- Has the die finished the work of the Beat in progress? -/
def dieIdle (s : State) (d : Nat) : Bool :=
  let j := dieJob s d
  decide (j.part ≠ .work) || (dieTiles s d).all fun t => j.finished.contains t

/-- The level that ballast holds outside the Beat's work: the learnt activity of phase 0. It lets activity fall no
lower, and raises it only in the 8 µs before the release (R364). -/
def rampFloor (s : State) (d : Nat) : Nat :=
  let j := dieJob s d
  let x := dieAt s d
  if j.state = .running ∧ dieIdle s d = true then
    let l0 := phase0Level d j.pc x.current ((dieTiles s d).length * learntOf x 0)
    if nextRelease j ≤ j.tickOf s.now + 8000 then l0 else min l0 x.activity
  else 0

/-- A 100 ns slice: what the tiles did, the ballast that keeps the fall within the limit, and each tile's share of what
the next slice may rise by (R363). -/
def execRampSlice (d : Fin 2) (work : List TileAct) (now : Nat) (s : State) : Out :=
  let s := atTime s now
  let x := dieAt s d
  let ts := dieTiles s d
  let did := ts.map fun t => (t, tileActivity d t work)
  let total := (did.map (·.2)).foldl (· + ·) 0
  let a := max (x.activity - sliceStep) (min (x.activity + sliceStep) (min aMax (max total (rampFloor s d))))
  let did := did.filter fun e => decide (e.2 ≠ 0)
  .next (modDie s d fun x =>
    { x with activity := a, ballast := a - total, did := did, issued := []
             allow := some ((a + sliceStep - total) / max 1 ts.length)
             slices := x.slices + 1, actSum := x.actSum + a
             acts := did.foldl (fun m e => tset 0 m e.1 (tget 0 m e.1 + e.2)) x.acts })

/-! ## The cap (R370 to R373) -/

/-- A cap request of `w` watts: BAL_CAP keeps the ten bits it has, and the cap in force lies from 300 to 600 (R371). -/
def setCap (s : State) (w : Nat) : State :=
  let c := max 300 (min 600 w)
  let s := { s with bal := { s.bal with capReq := BitVec.ofNat 32 (w % 1024), cap := c } }
  if c ≠ w then balEvent s 1 else s

/-- The BAL_ space is there while the device is in service (R563). -/
def execBalCapWrite (v : BitVec 32) (now : Nat) (s : State) : Out :=
  let s := atTime s now
  .next (if inService s then setCap s (v.toNat % 1024) else s)

def execBalEventClear (v : BitVec 32) (s : State) : Out :=
  .next (if inService s then { s with bal := { s.bal with event := s.bal.event &&& ~~~v } } else s)

def execBalEventEnWrite (v : BitVec 32) (s : State) : Out :=
  .next (if inService s then { s with bal := { s.bal with eventEn := v &&& 0x3FF } } else s)

/-- Duty and PWR_ALERT_N (R372, R373). -/
def execDutyStep (now : Nat) (s : State) : Out :=
  let s := atTime s now
  let b := s.bal
  let at15 := (List.range 2).all fun d => decide ((dieAt s d).current = 15)
  if overCap15 s then
    if !at15 then .next { s with bal := { b with lowSince := now } }
    else if 7 < b.duty then
      if b.dutyAt + 100000 ≤ now ∨ b.duty = 15 then
        .next (if b.duty = 15 then balEvent { s with bal := { b with duty := b.duty - 1, dutyAt := now, lowSince := now } } 4
               else { s with bal := { b with duty := b.duty - 1, dutyAt := now, lowSince := now } })
      else .next { s with bal := { b with lowSince := now } }
    else
      let s := { s with bal := { b with pwrAlert := true, lowSince := now } }
      .next (if b.pwrAlert then s else balEvent s 5)
  else
    let up := decide (b.duty < 15) && decide (b.dutyAt + 1000000 ≤ now)
    let off := b.pwrAlert && decide (b.lowSince + 10000000 ≤ now)
    .next { s with bal := { b with duty := if up then b.duty + 1 else b.duty, dutyAt := if up then now else b.dutyAt
                                   pwrAlert := b.pwrAlert && !off } }

/-! ## Measurement and sensors (R368, R369, R374, R375, R377) -/

/-- Median of a list of readings: the middle one in ascending order, the lower of two. -/
def median (xs : List Int) : Int := nth 0 (xs.mergeSort fun a b => decide (a ≤ b)) ((xs.length - 1) / 2)

/-- Sensors that fail by this read, with the runs of reads off the median. -/
def readSensors (failed : List Nat) (off : Tbl Nat) (xs : List Int) : List Nat × Tbl Nat × Nat :=
  let m := median xs
  (List.range xs.length).foldl (fun (acc : List Nat × Tbl Nat × Nat) i =>
    let (f, o, new) := acc
    if f.contains i then acc
    else
      let x := nth 0 xs i
      let far := decide (200 < (x - m).natAbs)
      let run := if far then tget 0 o i + 1 else 0
      let dead := decide (x < -320) || decide (1200 < x) || decide (10 ≤ run)
      (if dead then f ++ [i] else f, tset 0 o i (if dead then 0 else run), if dead then new + 1 else new)) (failed, off, 0)

/-- Hottest working sensor. -/
def hottestOf (failed : List Nat) (xs : List Int) (old : BitVec 16) : BitVec 16 :=
  match (((List.range xs.length).zip xs).filter fun e => !(failed.contains e.1)).map (·.2) with
  | [] => old
  | x :: r => BitVec.ofInt 16 (r.foldl max x)

/-- The 48 sensors of a compute die are read (R375, R377). -/
def senseDie (s : State) (d : Nat) (xs : List Int) : State :=
  if xs.length ≠ 48 then s
  else
    let x := dieAt s d
    let (f, o, new) := readSensors x.failed x.off xs
    let s := modDie s d fun x =>
      { x with failed := f, off := o, temps := xs, hottest := hottestOf f xs x.hottest, held := x.held || decide (8 < f.length) }
    if 0 < new then balEvent s 7 else s

/-- The 16 sensors of the I/O die are read (R375, R377). -/
def senseIo (s : State) (xs : List Int) : State :=
  if xs.length ≠ 16 then s
  else
    let (f, o, new) := readSensors s.bal.ioFailed s.bal.ioOff xs
    let s := { s with bal := { s.bal with ioFailed := f, ioOff := o, ioHottest := hottestOf f xs s.bal.ioHottest } }
    if 0 < new then balEvent s 7 else s

/-- The 100 µs measurement. Powers are in 0.1 W, temperatures in 0.125 °C. -/
def execPowerMeasurement (meas ioMeas : Nat) (temps0 temps1 tempsIo : List Int) (s : State) : Out :=
  let b := s.bal
  let est := if b.estN = 0 then b.est.toNat else b.estSum / b.estN / 100
  let differs := decide (meas < 5 * (max est meas - min est meas))
  let w := if differs = !b.measLed then b.windows + 1 else 0
  let flip := if b.measLed then decide (10000 ≤ w) else decide (100 ≤ w)
  let b' := { b with meas := BitVec.ofNat 16 meas, est := BitVec.ofNat 16 est, estSum := 0, estN := 0, ioMeas := 100 * ioMeas
                     energy := b.energy.add (10 * meas), windows := if flip then 0 else w
                     measLed := if flip then !b.measLed else b.measLed }
  let s := { s with bal := b' }
  let s := if flip then balEvent s (if b.measLed then 3 else 2) else s
  .next (senseIo (senseDie (senseDie s 0 temps0) 1 temps1) tempsIo)

/-- Does a die's thermal point limit: is it slower than the point R357 or R358 would give, or is the die held for its
sensors (R375, R377)? -/
def thermalLimits (s : State) (d : Nat) : Bool := (dieAt s d).held || decide (ruledPoint s d < (dieAt s d).thermal)

/-- Thermal throttling of a die, and its recovery while its thermal point limits (R375). -/
def execThermalStep (d : Fin 2) (now : Nat) (s : State) : Out :=
  let s := atTime s now
  let x := dieAt s d
  let hot := max (sext 16 x.hottest.toNat) (sext 16 s.bal.ioHottest.toNat)
  let up := decide (840 ≤ hot) && decide (x.thermal < 15) && decide (x.thermalAt + 1000000 ≤ now)
  let down := decide (hot ≤ 816) && decide (ruledPoint s d < x.thermal) && decide (x.thermalAt + 10000000 ≤ now)
  let s := modDie s d fun x =>
    if up then { x with thermal := x.thermal + 1, thermalAt := now }
    else if down then { x with thermal := x.thermal - 1, thermalAt := now } else x
  let th := thermalLimits s 0 || thermalLimits s 1
  let s := if th && !s.bal.throttle then balEvent s 6 else s
  .next { s with bal := { s.bal with throttle := th } }

/-! ## Droop (R366, R367) and guards (R361) -/

/-- A detector trips: the die runs stretched from then on. -/
def execDroopTrip (d : Fin 2) (det : Fin 32) (now : Nat) (s : State) : Out :=
  let s := atTime s now
  .next (modDie s d fun x =>
    let y := countStretch x s.now
    { y with droop := x.droop.add 1, tripped := addOnce x.tripped det, stretchFrom := if x.tripped.isEmpty then s.now else y.stretchFrom })

/-- Every detector has read above setpoint − 30 mV for 64 cycles: the full frequency returns. -/
def execDroopRecover (d : Fin 2) (now : Nat) (s : State) : Out :=
  let s := atTime s now
  .next (modDie s d fun x => { countStretch x s.now with tripped := [] })

/-- Has a guard's phase been entered for 20 µs? -/
def guardSpent (g : Guard) (now : Nat) : Bool := match g.entered with
  | none => false
  | some e => decide (e + 20000 ≤ now)

/-- Each phase guard goes 20 µs after its own phase was entered (R361). -/
def execPhaseGuardRemove (d : Fin 2) (now : Nat) (s : State) : Out :=
  let s := atTime s now
  if (dieAt s d).guards.any fun g => guardSpent g now then
    .next (refreshRails (modDie s d fun x => { x with guards := x.guards.filter fun g => !guardSpent g now }) d)
  else .next s

/-- End of a Beat on a die: learnt powers and droop guards (R360, R367). `window` is the work window in ns. -/
def endBeatDie (s : State) (d window : Nat) : State :=
  let s := modDie s d fun x => countStretch x s.now
  let x := dieAt s d
  let time := x.stretchBeat
  let bad := decide (window < 200 * time)
  let calm := decide (1000 * time ≤ window)
  let phases := (List.range 16).foldl (fun ps k =>
    tmod {} ps k fun f =>
      let l := if f.n = 0 then f.learnt else
        let m := f.sum / f.n
        if f.learnt ≤ m then f.learnt + (m - f.learnt) / 8 else f.learnt - (f.learnt - m) / 8
      let c := if calm then f.calm + 1 else 0
      let drop := decide (64 ≤ c)
      let g := if bad && decide (0 < f.n) then min 20 (f.guard + 5) else if drop then f.guard - 5 else f.guard
      { learnt := l, guard := g, calm := if drop then 0 else c, sum := 0, n := 0 }) x.phases
  refreshRails (modDie s d fun x => { x with phases := phases, stretchBeat := 0 }) d

/-! ## Logic margin and ageing (R379, R380) -/

/-- What the 64 path monitors of a die need at a point, in 5 mV steps: the most that one of them needs. -/
def needSteps (d point n : Nat) : Nat := maxL ((List.range 64).map fun m => Config.pathNeed d m point n)

/-- Fastest point at which +50 mV restores the target slack (R380). -/
def agedTop (d n : Nat) : Nat := (lowest 16 fun k => decide (needSteps d k n ≤ 10)).getD 15

/-- Measure the margin of a die at P0 and a point; `load` is what BAL_MHIST records. -/
def measureMargin (s : State) (d pc load : Nat) : State :=
  let n := s.free
  let s := { s with free := n + 1 }
  let need := needSteps d 0 n
  let steps := min 10 (max need (needSteps d pc n))
  let x := dieAt s d
  let s := if 10 < need then modDie (balEvent s 9) d fun x => { x with top := max x.top (agedTop d n) } else s
  if steps = x.steps then s
  else
    let e : MHist := { valid := true, die := d, old := x.steps, new := steps, load := min load 0xFFFFF }
    let s := refreshRails (modDie s d fun x => { x with steps := steps, changes := errAdd x.changes 1 }) d
    balEvent { s with bal := { s.bal with mhist := setAt s.bal.mhist (s.bal.mhistN % 16) e, mhistN := s.bal.mhistN + 1 } } 8

end Sys2Proof.Machine
end

