-- ==== Sys2Proof/Machine/Beat.lean ====
section
/-!
DEFINITION. Tick sources, the Beat and its maintenance slot, elastic Beats, the end of a job and SCRUBBING
(R157 to R160, R319 to R332, R349, R473 to R480, R509 to R514).
-/
namespace Sys2Proof.Machine

/-! ## Tick sources (R319 to R321, R439) -/

def modTick (s : State) (p : Nat) (f : Tick → Tick) : State := modJob s p fun j => { j with tick := f j.tick }

/-- Does the partition's plan keep a clock: from plan load until the job leaves RUNNING (R439)? -/
def clockRuns (j : Job) : Bool := faultable j.state

/-- Lock is lost: holdover starts, and an ARMED job returns to LOADED (R320, R349). -/
def loseLock (s : State) (p : Nat) : State :=
  if (jobOf s p).tick.locked then
    backToLoaded (modTick s p fun t => { t with locked := false, holdover := true, lostAt := s.now, good := 0, ppsOut := false }) p
  else modTick s p fun t => { t with good := 0 }

/-- An ARM completes once every member has replied and the source is locked (R435). -/
def tryArmed (s : State) (p : Nat) : State :=
  let j := jobOf s p
  if j.arming && j.awaiting.isEmpty && j.tick.locked && decide (j.state = .loaded) then
    let s := endArm s p 0 []
    setJobState (modJob s p fun j => { j with heard := (neighbours j).flatMap fun m => (List.range j.ports).map fun k => (4 * m + k, s.now + 1)
                                              beatSent := s.now }) p .armed
  else s

/-- A measured offset in ns: `need` consecutive good ones lock the source. -/
def measureOffset (s : State) (p : Nat) (off : Int) (need : Nat) : State :=
  let off' := clampI (-32767) 32767 off
  let s := modTick s p fun t => { t with offset := off', lastSync := s.now }
  if 50 < off.natAbs then loseLock s p
  else
    let s := modTick s p fun t =>
      let g := if off.natAbs ≤ 40 then t.good + 1 else 0
      if need ≤ g ∧ t.locked = false then { t with good := g, locked := true, holdover := false } else { t with good := g }
    tryArmed s p

/-- The order of the best master clock algorithm: what two Announces carry, field by field (R439; log 165). -/
def rankLe : List Nat → List Nat → Bool
  | [], _ => true
  | _ :: _, [] => false
  | a :: x, b :: y => decide (a < b) || (decide (a = b) && rankLe x y)

/-- The source that a clock follows: the best of those that have announced themselves (R439). -/
def PtpPort.best (x : PtpPort) : Option PtpSource := x.sources.find? fun a => x.sources.all fun b => rankLe a.rank b.rank

/-- The sources change: with another best one, what was measured against the last no longer counts. -/
def PtpPort.setSources (x : PtpPort) (l : List PtpSource) : PtpPort :=
  let y := { x with sources := l }
  if y.best.map (·.id) = x.best.map (·.id) then y else { sources := l, next := x.next, askedAt := x.askedAt }

/-- An Announce: a source whose logSyncInterval lies outside −7 to −4 is not selected (R439). -/
def PtpPort.announce (x : PtpPort) (source : Nat) (rank : List Nat) (logSync : Int) : PtpPort :=
  let rest := x.sources.filter fun a => decide (a.id ≠ source)
  let old := (x.sources.find? fun a => decide (a.id = source)).getD { id := source }
  x.setSources (if -7 ≤ logSync ∧ logSync ≤ -4 then rest ++ [{ old with rank := rank }] else rest)

/-- The offset that a Sync shows, once the mean path delay is known; the clock is then steered by it (log 165). -/
def ptpMeasure (s : State) (p : Nat) : State :=
  let x := (jobOf s p).tick.ptp
  match x.gap, x.path with
  | some g, some d =>
    let off := g - d
    measureOffset (modTick s p fun t =>
      { t with shift := t.shift - off
               ptp := { x with gap := some d, asked := x.asked.map fun a => (a.1, ((a.2 : Int) - off).toNat) } }) p off 16
  | _, _ => s

/-- A message of a partition's domain on its tick port (R319, R439). Arrivals are stamped in its tick time. -/
def ptpTake (s : State) (p source : Nat) (m : PtpMsg) : State :=
  let j := jobOf s p
  let x := j.tick.ptp
  let put (y : PtpPort) : State := modTick s p fun t => { t with ptp := y }
  let mine := decide (x.best.map (·.id) = some source)
  match m with
  | .announce rank logSync => put (x.announce source rank logSync)
  | .sync seq origin corr twoStep =>
    let t2 := j.tickOf s.now
    if !mine then s
    else if twoStep then put { x with seq := seq, arrived := t2, corr := corr, waits := true }
    else ptpMeasure (put { x with seq := seq, arrived := t2, waits := false, gap := some ((t2 : Int) - origin - corr) }) p
  | .followUp seq origin corr =>
    if mine && x.waits && decide (x.seq = seq) then
      ptpMeasure (put { x with waits := false, gap := some ((x.arrived : Int) - origin - x.corr - corr) }) p
    else s
  | .delayResp seq received corr logMin =>
    match x.asked, x.gap with
    | some (n, t3), some g =>
      if mine && decide (n = seq) then
        put { x with asked := none, path := some ((g + ((received : Int) - corr - t3)) / 2)
                     sources := x.sources.map fun a => if a.id = source then { a with logMin := logMin } else a }
      else s
    | _, _ => s
  | .other => s

/-- A PTP message of a domain on a job port of a partition. -/
def execPtpMessage (p : Fin 2) (jport : Fin 4) (domain source : Nat) (m : PtpMsg) (now : Nat) (s : State) : Out :=
  let s := atTime s now
  let s := match physPort s p jport with
    | some n => modPort s n fun x => { x with rxf := x.rxf.add 1 }
    | none => s
  let j := jobOf s p
  if clockRuns j && !j.pps && decide ((jport : Nat) = j.tickPort) && decide (domain = j.ptpDomain) then .next (ptpTake s p source m) else .next s

/-- An edge of PPS_IN for a partition: it marks the whole second whose number ARM supplied, and the partition's tick time
stands there (R319; log 143). -/
def ppsEdge (s : State) (p : Nat) (early : Int) : State :=
  let n := (jobOf s p).tick.second
  measureOffset (modTick s p fun t => { t with second := n + 1, shift := 1000000000 * (n : Int) - s.now }) p early 4

/-- A rising edge of PPS_IN, whose level then holds for `held` ns; one of less than 1 µs is ignored (R522). `early` is its
offset from where it was expected. -/
def execPpsInEdge (early : Int) (held now : Nat) (s : State) : Out :=
  let s := atTime s now
  if held < 1000 then .next s
  else
    let s := { s with start := { s.start with ppsUntil := s.now + held } }
    .next ((List.range 2).foldl (fun s p =>
      let j := jobOf s p
      if clockRuns j && j.pps then ppsEdge s p early else s) s)

/-- No synchronisation message for 20 ms, or a missing PPS edge. -/
def execSyncTimeout (p : Fin 2) (now : Nat) (s : State) : Out :=
  let s := atTime s now
  let j := jobOf s p
  let bound := if j.pps then 1000000050 else 20000000
  if clockRuns j && decide (j.tick.lastSync + bound ≤ now) then
    .next (modTick (loseLock s p) p fun t =>
      { t with ptp := t.ptp.setSources (t.ptp.sources.filter fun a => decide (some a.id ≠ t.ptp.best.map (·.id))) })
  else .next s

def execHoldoverExpiry (p : Fin 2) (now : Nat) (s : State) : Out :=
  let s := atTime s now
  let j := jobOf s p
  if j.tick.holdover && decide (j.tick.lostAt + 20000000 ≤ now) then
    let s := modTick s p fun t => { t with holdover := false }
    .next (if (jobOf s p).state = .running then raiseFault s p 0x3B01 else s)
  else .next s

/-- PPS_OUT rises at each whole second of locked tick time and falls 100 µs later (R321). -/
def execPpsOutEdge (p : Fin 2) (rising : Bool) (now : Nat) (s : State) : Out :=
  let s := atTime s now
  let due := decide ((jobOf s p).tickOf now % 1000000000 = if rising then 0 else 100000)
  .next (if due then modTick s p fun t => { t with ppsOut := rising && t.locked } else s)

/-- Interval of the Delay_Reqs in ns: the source's, limited to 2⁻⁷ s to 1 s (R439). -/
def delayInterval (logMin : Int) : Nat := 1000000000 / 2 ^ (-(clampI (-7) 0 logMin)).toNat

/-- The time receiver sends a Delay_Req on its tick port, in the priority of control frames (R439). -/
def execDelayReqSend (p : Fin 2) (now : Nat) (s : State) : Out :=
  let s := atTime s now
  let j := jobOf s p
  let x := j.tick.ptp
  match x.best, x.gap, physPort s p j.tickPort with
  | some b, some _, some n =>
    let due := match x.askedAt with
      | some t => decide (t + delayInterval b.logMin ≤ now)
      | none => true
    if clockRuns j && !j.pps && due then
      let s := modTick s p fun t =>
        { t with ptp := { x with asked := some (x.next, j.tickOf s.now), next := (x.next + 1) % 65536, askedAt := some s.now } }
      .next (sendLinkFrame s n (.delayReq p x.next j.ptpDomain j.table.pcpCtl (if j.table.encap = 1 then some j.table.dscpCtl else none)))
    else .next s
  | _, _, _ => .next s

/-! ## The Beat (R322 to R327) -/

/-- Length of the Beat and of its maintenance slot in ns (R322). -/
def beatLen (j : Job) : Nat := 1000 * j.beatUs
def slotLen (j : Job) : Nat := max 2000 (20 * j.beatUs)
def deadline (j : Job) : Nat := j.sn + beatLen j - slotLen j

/-- Position the schedule moves to after the present entry, and the entry's count (R339). -/
def schedNext (j : Job) : Nat × List SchedEntry :=
  let e := nth {} j.sched j.pos
  if 0 < e.count then (e.target, setAt j.sched j.pos { e with count := e.count - 1 }) else (j.pos + 1, j.sched)

/-- Does the schedule reach END after this Beat? -/
def lastOf (j : Job) : Bool := decide ((nth {} j.sched (schedNext j).1).typ = 0xFFFF)

/-- Windows at a Beat start (R430). -/
def windowsAtBeat (s : State) (p : Nat) : State :=
  let j := (jobOf s p).j
  (windowsOf s p).foldl (fun s w =>
    let x := windowAt s w
    if !x.declared then s
    else
      let g := BitVec.ofNat 16 (x.g0 + j)
      setWindow s w { x with gen := g, isOpen := if j = 0 then !x.closing else x.isOpen && !x.closing }) s

def execBeatStart (p : Fin 2) (now : Nat) (s : State) : Out :=
  let s := atTime s now
  let j := jobOf s p
  if j.state = .running ∧ j.part = .off ∧ j.lastBeat = false ∧ j.sn ≤ j.tickOf now then
    let s := modJob s p fun j =>
      { j with beat := j.beat + 1, part := .guard, finished := [], lastFinish := 0, doneFrom := [], reported := false
               nextStart := none, lastBeat := lastOf j, slotRecords := false }
    .next (windowsAtBeat s p)
  else .next s

def execBeatRelease (p : Fin 2) (now : Nat) (s : State) : Out :=
  let s := atTime s now
  let j := jobOf s p
  if j.state = .running ∧ j.part = .guard ∧ j.sn + 1000 ≤ j.tickOf now then
    let s := modJob s p fun j => { j with part := .work }
    let s := (diesOf s p).foldl (fun s d => modDie s d fun x => { x with tilePhase := [], guards := arriveGuards x.guards }) s
    .next ((tilesOf s p).foldl (fun s t => modTile s (physTile s t) releaseTile) s)
  else .next s

/-- Windows whose owner stream has executed BEAT STOP close at the next Beat start (R430). -/
def markClosing (s : State) (p t : Nat) : State :=
  let x := tileAt s (physTile s t)
  (windowsOf s p).foldl (fun s w =>
    let y := windowAt s w
    let stop := match (streamOf x y.stream).atBeat with
      | some (3, _) => true
      | _ => false
    if y.declared && decide (y.tile = t) && stop then setWindow s w { y with closing := true } else s) s

/-- All tiles of the partition have finished the Beat. -/
def allFinished (s : State) (p : Nat) : Bool := (tilesOf s p).all fun t => (jobOf s p).finished.contains t

/-- A tile finishes the Beat; past D_n it has missed its deadline (R324, R325, R271). -/
def execTileFinish (t : Fin 256) (busy now : Nat) (s : State) : Out :=
  let s := atTime s now
  let p := partOf s t
  let j := jobOf s p
  let x := tileAt s (physTile s t)
  if j.state = .running ∧ j.part = .work ∧ j.tickOf now ≤ deadline j ∧ x.released = true ∧ finished x = true ∧ x.halted = false then
    let s := markClosing (modTile s (physTile s t) fun x => { x with busy := busy, released := false }) p t
    let s := modJob s p fun j => { j with finished := (t : Nat) :: j.finished, lastFinish := max j.lastFinish (j.tickOf now) }
    if allFinished s p then
      let sl := deadline j - (jobOf s p).lastFinish
      .next (modJob s p fun j => { j with slack := BitVec.ofNat 32 (min j.slack.toNat sl) })
    else .next s
  else .next s

def execBeatDeadline (p : Fin 2) (now : Nat) (s : State) : Out :=
  let s := atTime s now
  let j := jobOf s p
  if j.state = .running ∧ j.part = .work ∧ deadline j ≤ j.tickOf now then
    let late := (tilesOf s p).filter fun t => !j.finished.contains t
    match late with
    | [] => .next s
    | t :: _ =>
      let s := late.foldl (fun s t => modTile s (physTile s t) fun x => recordFault x (lateNamed x)) s
      .next (raiseFault s p 0x3601 { ltile := t, ptile := physTile s t })
  else .next s

/-! ## The maintenance slot (R157 to R160, R326) -/

/-- A ledger record (R157). In the faulted record of a tile that has not finished the Beat, busy is 0: the count comes
with the finish (R324), and R157 gives it no other value (DESIGN CHOICE, log 144). -/
def ledgerRecord (s : State) (t : Nat) (faulted : Bool) : List Byte :=
  let x := tileAt s (physTile s t)
  let l := x.led
  let c (k : Ledc) : List Byte := leBytes 6 k.val.toNat
  let st := b2n l.sat.ovf + 2 * b2n l.trunc.ovf + 4 * b2n l.bound.ovf + 8 * b2n l.outlier.ovf + 16 * b2n l.csat.ovf +
    32 * b2n l.cunder.ovf + 64 * b2n l.abft.ovf + 256 * b2n faulted
  let b := leBytes 6 (jobOf s (partOf s t)).beat.toNat ++ [BitVec.ofNat 8 t, BitVec.ofNat 8 l.maxspread] ++
    c l.sat ++ c l.trunc ++ c l.bound ++ c l.outlier ++ c l.csat ++ c l.cunder ++ c l.abft ++
    leBytes 2 st ++ leBytes 4 l.calib.toNat ++ leBytes 4 x.busy
  b ++ leBytes 4 (crc32c b)

/-- Address of a tile's record for the Beat in progress (R159). -/
def recordAddr (s : State) (p t : Nat) : Nat :=
  let j := jobOf s p
  j.ring.base + j.beat.toNat % max 1 j.ring.depth * (64 * j.ring.nrec) + 64 * (if s.split then t % 128 else t)

/-- One tile writes its record; on a channel that serves nothing more it is lost, and LDG_WERR counts it (R161, R401). -/
def writeRecord (s : State) (p t : Nat) (faulted : Bool) : State :=
  let a := recordAddr s p t
  if deadAt s a then modJob s p fun j => { j with ring := { j.ring with werr := errAdd j.ring.werr 1 } }
  else
    let s := charge s .maint none a 64
    { s with mem := mwrite s.mem a (ledgerRecord s t faulted) }

/-- Every tile writes its record (R160). -/
def writeRecords (s : State) (p : Nat) (faulted : Bool) : State :=
  if (jobOf s p).ring.valid then (tilesOf s p).foldl (fun s t => writeRecord s p t faulted) s else s

/-- Macros that hold state or pages, by physical number. -/
def heldMacros (x : Tile) : List Nat :=
  let ms : List Nat := x.macros.map (·.1)
  let ps : List Nat := x.pages.map (·.1)
  (ms ++ ps.map (· / 8)).eraseDups

/-- The scrubs that remain for the Beat are complete, and the ledger counters restart (R16, R58, R104, R244, R326). -/
def restartTile (x : Tile) : Tile :=
  let x := (heldMacros x).foldl slotScrubMacro x
  { x with
    led := {}, busy := 0, swept := []
    streams := tmap {} x.streams fun y => { y with cEl := {}, cSat := {} } }

/-- The Fen scrub of a slot: every bank's next 256 lines (R258). -/
def scrubFen (s : State) (d : Nat) : State :=
  modFen s d fun f => { f with banks := (List.range 32).foldl (fun b k =>
    tmod {} b k fun x => { x with scrub := (x.scrub + (256 - min 256 x.scrubbed)) % 16384, scrubbed := 0 }) f.banks }

/-- The slot begins at D_n, or at S_(n+1) − M under a release (R322, R329). -/
def execMaintenanceSlotStart (p : Fin 2) (now : Nat) (s : State) : Out :=
  let s := atTime s now
  let j := jobOf s p
  let from_ := match j.nextStart with
    | some n => n - slotLen j
    | none => deadline j
  if j.state = .running ∧ j.part = .work ∧ from_ ≤ j.tickOf now ∧ allFinished s p = true then
    .next (modJob (refill s p) p fun j => { j with part := .slot, slotFrom := s.now })
  else .next s

/-- A channel of the partition that still retrains. -/
def retrainingIn (s : State) (p : Nat) : Bool :=
  (List.range 52).any fun n => let c := chanAt s n; c.retraining && decide (c.part = p) && decide (c.slot ≠ 0xFF)

/-- A channel of the partition in service whose retrain fell due before the slot, by its 10 ms or by its drift, and has not
run in it (R398). -/
def retrainOwed (s : State) (p : Nat) : Bool :=
  (List.range 52).any fun n =>
    let c := chanAt s n
    let due := decide (c.lastRetrain + 10000000 ≤ (jobOf s p).slotFrom) || c.driftAt.any fun t => decide (t ≤ (jobOf s p).slotFrom)
    decide (c.part = p) && decide (c.slot ≠ 0xFF) && decide (c.state = 0 ∨ c.state = 4) && !c.slotRetrained && due

/-- Is some record of the Beat lost, on a channel that serves nothing more? -/
def recordLost (s : State) (p : Nat) : Bool := (tilesOf s p).any fun t => deadAt s (recordAddr s p t)

/-- Every tile has written its record; once all are in memory LDG_HEAD moves (R160). A record waits for its channel's
retrain, and for one that the slot still owes (R400). A record that is lost leaves the head (log 177). -/
def execLedgerHeadUpdate (p : Fin 2) (s : State) : Out :=
  let j := jobOf s p
  if j.state = .running ∧ j.part = .slot ∧ j.slotRecords = false ∧ retrainingIn s p = false ∧ retrainOwed s p = false then
    let lost := recordLost s p
    let s := writeRecords s p false
    .next (modJob s p fun j =>
      { j with ring := if lost then j.ring else { j.ring with head := j.beat, headValid := true }, slotRecords := true })
  else .next s

/-- Are the records of the Beat complete: written, and LDG_HEAD at the Beat (R160, R326)? -/
def recordsDone (j : Job) : Bool := j.slotRecords && (!j.ring.valid || (j.ring.headValid && decide (j.ring.head = j.beat)))

/-- The tile that a fault of the Beat controller names. -/
def someTile (s : State) (p : Nat) : State × Loc :=
  let ts := tilesOf s p
  let t := nth 0 ts (Config.namedTile s.free % max 1 ts.length)
  ({ s with free := s.free + 1 }, { ltile := t, ptile := physTile s t })

/-- The slot ends with its four parts complete, or the job ends with a timing fault; `done` says that the scrubs of the Beat
are (R326). -/
def execMaintenanceSlotEnd (p : Fin 2) (done : Bool) (now : Nat) (s : State) : Out :=
  let s := atTime s now
  let j := jobOf s p
  let next := match j.nextStart with
    | some n => n
    | none => j.sn + beatLen j
  if j.state = .running ∧ j.part = .slot ∧ next ≤ j.tickOf now then
    if !done || !recordsDone j || retrainingIn s p || retrainOwed s p then
      let r := someTile s p
      .next (raiseFault r.1 p 0x3602 r.2)
    else
      let window := beatLen j - 1000 - slotLen j
      let s := (tilesOf s p).foldl (fun s t => modTile s (physTile s t) restartTile) s
      let s := (diesOf s p).foldl scrubFen s
      let s := (diesOf s p).foldl (fun s d => endBeatDie s d window) s
      let s := refill (freshSlot s p) p
      let n := schedNext j
      .next (modJob s p fun j =>
        { j with part := .off, sn := next, j := j.j + 1, pos := n.1, sched := n.2
                 early := if j.nextStart.isSome then j.early.add 1 else j.early, nextStart := none })
  else .next s

/-! ## Elastic Beats (R328 to R330, R438) -/

/-- The member's own tiles are done and every child has reported. -/
def barrierMet (s : State) (p : Nat) : Bool :=
  let j := jobOf s p
  allFinished s p && (childrenOf j.member j.gsize).all fun c => j.doneFrom.contains c

def execElasticDoneReport (p : Fin 2) (s : State) : Out :=
  let j := jobOf s p
  if j.state = .running ∧ j.elastic = true ∧ (j.part = .work ∨ j.part = .slot) ∧ j.member ≠ 0 ∧ j.reported = false ∧ barrierMet s p = true then
    let s := modJob s p fun j => { j with reported := true }
    .next (sendAll s p ((j.member - 1) / 16) 6 (leBytes 4 j.j))
  else .next s

/-- Send a release to every child. -/
def sendRelease (s : State) (p start : Nat) : State :=
  let j := jobOf s p
  (childrenOf j.member j.gsize).foldl (fun s c => sendAll s p c 7 (leBytes 4 j.j ++ leBytes 8 start)) s

def execBarrierComplete (p : Fin 2) (now : Nat) (s : State) : Out :=
  let s := atTime s now
  let j := jobOf s p
  if j.state = .running ∧ j.elastic = true ∧ (j.part = .work ∨ j.part = .slot) ∧ j.member = 0 ∧ j.reported = false ∧ barrierMet s p = true then
    let s' := j.tickOf now + j.leadNs + slotLen j
    let s := modJob s p fun j => { j with reported := true }
    if s' < j.sn + beatLen j ∧ j.part = .work then .next (sendRelease (modJob s p fun j => { j with nextStart := some s' }) p s')
    else .next s
  else .next s

/-! ## The end of a job (R256, R349, R509 to R514) -/

/-- Pages that a job keeps under its handle (R514); the rest of a tile is cleared (R509). -/
def keepsPage (j : Job) (r : Retire) (pm : Nat) (g : Page) : Bool :=
  j.handle.isSome && g.resident && !r.tilePend && !(r.mret.getLsbD pm) &&
    (if j.outcome = 1 then g.retained || g.retainOnKill else g.retainOnKill)

/-- A tile with its on-die state cleared. A page that an earlier job kept stays until the next LOAD_PLAN, even when its
macro has been marked since: R107 and R515 clear it at a plan load and name no earlier time (DESIGN CHOICE, log 137).
Device-scoped counters, statistics, fault registers and retirements stand. -/
def clearTile (j : Job) (x : Tile) : Tile :=
  { err := x.err, stat := x.stat, fault := x.fault, ret := x.ret, free := x.free, singles := x.singles, hour := x.hour, worn := x.worn
    pages := x.pages.filterMap fun e =>
      if e.2.handle.isSome then some e
      else if keepsPage j x.ret (e.1 / 8) e.2 then
        some (e.1, { e.2 with handle := j.handle.map (·.toNat), tenant := j.tenant })
      else none }

/-- Put the memory of an ended job into its states (R511). -/
def releaseMemory (s : State) (p : Nat) : State :=
  let j := jobOf s p
  let s := j.regions.foldl (fun s r =>
    setBytes s r.base r.len (if r.kind = 3 then .free else if j.outcome = 1 then .held else .awaiting)) s
  if j.ring.valid then setBytes s j.ring.base (j.ring.depth * 64 * j.ring.nrec) .held else s

/-- SCRUBBING begins: banks clear, windows close, memory changes hands (R349, R509). -/
def enterScrubbing (s : State) (p : Nat) : State :=
  let s := dropCache (releaseMemory s p) p
  let j := jobOf s p
  let s := j.banks.foldl (fun s e => modBank s e.1 e.2.1 fun b => { b with state := .clearing, release := true }) s
  let s := (windowsOf s p).foldl (fun s w =>
    let x := windowAt s w
    setWindow s w { appl := x.appl, drop := x.drop }) s
  let s := j.counters.foldl (fun s c => modFen s (if s.split then p else c / 256) fun f => { f with wcs := tset {} f.wcs (c % 256) {} }) s
  let s := pfcUpdate (modJob s p fun j => { j with rxHeld := [] }) p
  setJobState (modJob s p fun j => { j with part := .off, sends := [], txFlows := [], rxFlows := [], regions := [], s0 := none }) p .scrubbing

/-- The job's last Beat has ended: its dirty sectors are written back, and it enters DONE and SCRUBBING. The write-backs
wait for the channels (R400); `errs` are the codewords in error they find, and a dirty sector lost ends the job (R258). -/
def execJobDone (p : Fin 2) (errs : List MemErr) (now : Nat) (s : State) : Out :=
  let s := atTime s now
  let j := jobOf s p
  if j.state = .running ∧ j.part = .off ∧ j.lastBeat = true ∧ retrainingIn s p = false then
    let s := accessErrs s p errs
    if (jobOf s p).state = .running then
      let s := leaveRunning (flushAll s p) p
      let s := setJobState (modJob s p fun j => { j with outcome := 1, code := 0 }) p .done
      .next (enterScrubbing s p)
    else .next s
  else .next s

/-- Confirmations of the macros that an ABFT mismatch froze and no fault report named (R100, R105). -/
def frozenConfirms (s : State) (p : Nat) : List ConfirmDue :=
  ((tilesOf s p).flatMap fun t =>
    let pt := physTile s t
    ((tileAt s pt).macros.filter fun e => e.2.frozen).map fun e => ({ tile := pt, pm := e.1, kind := 0 } : ConfirmDue)).filter
      fun c => !((jobOf s p).confirms.contains c)

/-- In-flight work is abandoned; the records of the Beat in progress are written with faulted set (R160, R316), once no
channel retrains (R400). They leave LDG_HEAD and head_valid as they were: R160 moves the head in a maintenance slot (DESIGN
CHOICE, log 145). -/
def execScrubbingStart (p : Fin 2) (now : Nat) (s : State) : Out :=
  let s := atTime s now
  let j := jobOf s p
  let records := decide (j.part ≠ .off) && decide (j.outcome = 2)
  if (j.state = .faulted ∨ j.state = .killed) ∧ (records && retrainingIn s p) = false then
    let s := if records then writeRecords s p true else s
    let due := frozenConfirms s p
    .next (enterScrubbing (modJob s p fun j => { j with confirms := j.confirms ++ due }) p)
  else .next s

/-- Confirmations the tile still owes. -/
def owes (j : Job) (pt : Nat) : Bool := j.confirms.any fun c => decide (c.kind ≤ 2) && decide (c.tile = pt)

def execTileClear (t : Fin 256) (s : State) : Out :=
  let p := partOf s t
  let j := jobOf s p
  let pt := physTile s t
  if j.state = .scrubbing ∧ owes j pt = false then .next (modTile s pt (clearTile j)) else .next s

/-- Every step of SCRUBBING has ended. -/
def scrubbed (s : State) (p : Nat) : Bool :=
  let j := jobOf s p
  j.confirms.isEmpty && (tilesOf s p).all (fun t => let x := tileAt s (physTile s t); decide (x = clearTile j x)) &&
  j.banks.all fun e => decide ((bankAt s e.1 e.2.1).state = .unassigned)

def execScrubbingEnd (p : Fin 2) (s : State) : Out :=
  if (jobOf s p).state = .scrubbing ∧ scrubbed s p = true then
    let s := (tilesOf s p).foldl (fun s t => modTile s (physTile s t) fun x => { x with err := { x.err with updCrc := 0 } }) s
    let s := (windowsOf s p).foldl (fun s w => setWindow s w { windowAt s w with drop := 0 }) s
    let s := modJob s p fun j => { j with nack := 0, ring := { j.ring with werr := 0 }, banks := [], counters := [], handle := none
                                          mPlan := [], ownerSlot := 0xFF, tick := { offset := j.tick.offset }, table := {}, sched := [], phases := []
                                          lastBeat := false, j := 0, pos := 0 }
    .next (setJobState s p .idle)
  else .next s

/-! ## Confirmations (R105, R479) -/

/-- Take one confirmation off a partition's list. -/
def settleConfirm (s : State) (p : Nat) (c : ConfirmDue) : State := modJob s p fun j => { j with confirms := j.confirms.erase c }

/-- Confirmations run in SCRUBBING (R479), and on a partition with no job (R474). -/
abbrev confirming (j : Job) : Prop := j.state = .scrubbing ∨ j.state = .idle

def execConfirmation (t : Fin 256) (c : Confirm) (s : State) : Out :=
  let p := partOf s t
  let j := jobOf s p
  let pt := physTile s t
  match c with
  | .macro_ m page errs sums stuck upset =>
    let due : ConfirmDue := { tile := pt, pm := m, kind := 0 }
    if confirming j ∧ j.confirms.contains due = true then
      let r := confirmMacro (tileAt s pt) m page errs sums stuck upset
      let s := settleConfirm (setTile s pt r.1) p due
      .next (if r.2 then retireMacro s pt m else s)
    else .next s
  | .tileArray differs =>
    let due : ConfirmDue := { tile := pt, kind := 1 }
    if confirming j ∧ (j.confirms.any fun d => decide (d.kind = 1 ∧ d.tile = pt)) = true then
      let s := modJob s p fun j => { j with confirms := j.confirms.filter fun d => decide (¬(d.kind = 1 ∧ d.tile = due.tile)) }
      .next (if differs then retireTile s pt else s)
    else .next s
  | .tileLogic fails =>
    if confirming j ∧ (j.confirms.any fun d => decide (d.kind = 2 ∧ d.tile = pt)) = true then
      let s := modJob s p fun j => { j with confirms := j.confirms.filter fun d => decide (¬(d.kind = 2 ∧ d.tile = pt)) }
      .next (if fails then retireTile s pt else s)
    else .next s
  | .tileSingles => .next (if (tileAt s pt).worn then retireTile s pt else s)
  | .fenLine b differs =>
    let d := dieOf t
    if confirming j ∧ (j.confirms.any fun c => decide (c.kind = 3 ∧ c.pm = 32 * d + b)) = true then
      let s := modJob s p fun j => { j with confirms := j.confirms.filter fun c => decide (¬(c.kind = 3 ∧ c.pm = 32 * d + b)) }
      .next (if differs then beyondReserve s d 0x2701 else s)
    else .next s
  | .dieToDie k restored =>
    if confirming j ∧ (j.confirms.any fun c => decide (c.kind = 4 ∧ c.pm = k)) = true then
      let s := modJob s p fun j => { j with confirms := j.confirms.filter fun c => decide (¬(c.kind = 4 ∧ c.pm = k)) }
      let s := if restored then { s with start := { s.start with d2dTrained := if s.start.d2dTrained.contains k then s.start.d2dTrained else s.start.d2dTrained ++ [(k : Nat)] } } else s
      .next (if restored then s else beyondReserve s (if (k : Nat) < 8 then k / 4 else 2) (0xFC00 + k))
    else .next s

end Sys2Proof.Machine
end

