-- ==== Sys2Proof/Machine/HostMem.lean ====
section
/-!
DEFINITION. The host's accesses to device memory, and those that wait there for a channel that retrains: BAR2 reads and writes
and the data of HOST_DMA commands (R389, R400, R449, R450, R463, R464).
-/
namespace Sys2Proof.Machine

/-- Input payload of a mailbox. -/
def inp (m : Mailbox) (off n : Nat) : Nat := leNat (mread m.payload off n)
def inpB (m : Mailbox) (off n : Nat) : List Byte := mread m.payload off n

/-! ## BAR2 (R389, R449) -/

/-- A BAR2 read of a range is served: an uncorrectable error, or a channel that serves nothing more (log 146), completes it
with Completer Abort. `errs` are the codewords it finds in error. -/
def serveBar2Read (s : State) (a len : Nat) (errs : List MemErr) : State :=
  let s := outsideErrs (chargeRange (touchAwaiting s a len) .host a len) errs
  if uncorrectable errs a len || rangeDead s a len then logAer (answer s 2 []) 2 else answer s 0 (mread s.mem a len)

/-- A BAR2 write is served; a write of part of a sector reads the sector, merges and writes it (R389). -/
def serveBar2Write (s : State) (a : Nat) (bs : List Byte) (errs : List MemErr) : State :=
  let part := decide (a % 32 ≠ 0) || decide (bs.length % 32 ≠ 0)
  let s := if part then outsideErrs s errs else s
  if part && uncorrectable errs (32 * (a / 32)) (bs.length + 64) then s else postRequest s { cls := .host, addr := a, wr := bs }

/-! ## HOST_DMA toward the device (R463, R464) -/

/-- Is the mailbox a HOST_DMA in progress toward the device? -/
def dmaReading (m : Mailbox) : Bool :=
  m.owner && decide (m.opcode = 0x39) && decide (inp m 0 1 = 0) && (match m.cmd with | some c => !c.ended | none => false)

/-- Bytes a command has moved. -/
def movedBy (m : Mailbox) : Nat := (m.cmd.map (·.moved)).getD 0

/-- A HOST_DMA stops at an error; bytes moved is its output. -/
def stopDma (s : State) (k status moved : Nat) : State :=
  modMbx s k fun m => { m with cmd := some { status := status, out := leBytes 8 moved, ended := true, moved := moved } }

/-- Where the next data of a HOST_DMA goes, and the part of what came that it still wants. -/
def fillRange (m : Mailbox) (bs : List Byte) : Nat × List Byte := (inp m 16 8 + movedBy m, bs.take (inp m 24 8 - movedBy m))

/-- Data of a HOST_DMA is written; an end that is no whole sector reads the sector and merges. -/
def serveFill (s : State) (k : Nat) (bs : List Byte) (ecc : Ecc) : State :=
  let m := mbxAt s k
  let moved := movedBy m
  let (a, bs) := fillRange m bs
  let part := decide (bs.length % 32 ≠ 0)
  let errs : List MemErr := [{ addr := a, ecc := ecc }]
  if !dmaReading m then s
  else if rangeDead s a bs.length then stopDma s k 0xD moved
  else
    let s := if part then outsideErrs s errs else s
    if part && uncorrectable errs a bs.length then stopDma s k 0xD moved
    else
      let s := postRequest s { cls := .host, addr := a, wr := bs }
      let now := moved + bs.length
      if inp m 24 8 ≤ now then stopDma s k 0 now else modMbx s k fun m => { m with cmd := m.cmd.map fun c => { c with moved := now } }

/-! ## Waiting (R400, R450) -/

/-- Does a waiting access come ahead of another: BAR2 accesses keep their order, and so does the data of one HOST_DMA? -/
def HostWait.before : HostWait → HostWait → Bool
  | .fill k .., .fill l .. => decide (k = l)
  | .fill .., _ => false
  | _, .fill .. => false
  | _, _ => true

/-- Must an access wait for its channels, or behind an earlier one? -/
def hostHeld (s : State) (w : HostWait) : Bool :=
  (s.host.waits.any fun v => v.before w) ||
  (match w with
   | .read a len _ => rangeRetrains s a len
   | .write a bs _ => rangeRetrains s a bs.length
   | .fill k bs _ => let r := fillRange (mbxAt s k) bs; rangeRetrains s r.1 r.2.length)

/-- The host's access is served, or waits and loses nothing. -/
def hostAccess (s : State) (w : HostWait) : State :=
  if hostHeld s w then { s with host := { s.host with waits := s.host.waits ++ [w] } }
  else match w with
    | .read a len errs => serveBar2Read s a len errs
    | .write a bs errs => serveBar2Write s a bs errs
    | .fill k bs ecc => serveFill s k bs ecc

/-- A channel serves again: what can go on of the host's accesses does, in its order (log 182). -/
def retryHost (s : State) : State := s.host.waits.foldl hostAccess { s with host := { s.host with waits := [] } }

end Sys2Proof.Machine
end

