-- ==== Sys2Proof/Machine/FenMem.lean ====
section
/-!
DEFINITION. The Fen's ports, near-memory adds, cache traffic, scrubber and bank handover, and LPDDR5X requests,
retrains, patrol and clearing (R176 to R178, R252 to R259, R390 to R401, R511, R512).
-/
namespace Sys2Proof.Machine

/-! ## Bank ports (R252, R253, R257, R258) -/

def fenRank : FenMaster → Nat
  | .mem => 0 | .d2d => 1 | .mesh => 2

/-- Add a refused cycle to a master's conflict counter. -/
def countConflict (f : Fen) : FenMaster → Fen
  | .mem => { f with confMem := f.confMem.add 1 }
  | .d2d => { f with confD2d := f.confD2d.add 1 }
  | .mesh => { f with confMesh := f.confMesh.add 1 }

/-- End the request's instruction, or the Causeway write behind it, with a fault. -/
def failRequest (s : State) (r : FenReq) (code : Nat) (l : Loc := {}) : State :=
  match r.tile with
  | some (pt, tag) => modTile s pt fun x => failFlight x tag code
  | none => raiseFault s (partOfDie s r.part) code l

/-- A request comes over the path that its tile's die gives it (R24), for its tile's partition. -/
def fenPath (s : State) (d : Nat) (r : FenReq) : Bool :=
  match r.tile with
  | some (pt, _) => decide (r.master = if pt / 256 = d then .mesh else .d2d) && decide (r.part = partOfDie s (pt / 256))
  | none => true

/-- A bank port serves one request made by its scratchpad address. The memory side's fills and write-backs are
commands of their own. -/
def servePort (s : State) (d b : Nat) (r : FenReq) : State :=
  if r.master = .mem then s
  else if scratchReady s r.part d b then
    let a := fenBank * b + r.off % fenBank
    if r.wr.isEmpty then
      let s := r.errs.foldl (fun s e => bankErr s d { addr := fenBase + fenDie * d + 8 * (a / 8 + e.word), ecc := e.ecc }) s
      if 0 < eccDoubles (r.errs.map (·.ecc)) then s else modFen s d fun f => { f with out := mread f.scr a (min 128 r.len) }
    else modFen s d fun f => { f with scr := mwrite f.scr a (r.wr.take 128) }
  else failRequest s r 0x8701

/-- Requests of one cycle at a bank's port: fixed priority, and each loser counts a refused cycle. -/
def execFenRequest (d : Fin 2) (b : Fin 32) (reqs : List FenReq) (s : State) : Out :=
  let reqs := reqs.filter (fenPath s d)
  let best := (List.range 3).filterMap fun k => reqs.find? fun r => decide (fenRank r.master = k)
  match best with
  | [] => .next s
  | w :: _ =>
    let s := (reqs.erase w).foldl (fun s r => modFen s d fun f => countConflict f r.master) s
    .next (servePort s d b w)

/-! ## Near-memory adds (R176 to R178) -/

/-- The sum of two elements rounded once, `none` when an operand or the sum is not finite. -/
def addElement (f : FFmt) (y x : Nat) : Option Nat :=
  if isFinite f y && isFinite f x then
    let r := Dy.round f ((fvalD f y).add (fvalD f x))
    if isFinite f r then some r else none
  else none

/-- The add of one sector, whole. -/
def addSector (bf : Bool) (ys xs : List Byte) : Option (List Byte) :=
  let w := if bf then 2 else 4
  let f := if bf then bf16 else fp32
  (List.range (32 / w)).foldl (fun acc k =>
    match acc, addElement f (fieldAt ys (w * k) w) (fieldAt xs (w * k) w) with
    | some bs, some r => some (bs ++ leBytes w r)
    | _, _ => none) (some [])

/-- The head of a die's adds is done; it waits while its sector must be fetched from a channel that retrains (R400). -/
def execFenNearMemoryAdd (d : Fin 2) (errs : List MemErr) (s : State) : Out :=
  match (fenOf s d).adds with
  | [] => .next s
  | a :: rest =>
    let p := partOfDie s (a.tile / 256)
    if accessWaits s p a.addr 32 true false then .next s
    else
      let s := modFen s d fun f => { f with adds := rest }
      if fenRefuses s p a.addr 32 then .next (modTile s a.tile fun x => failFlight x a.tag 0x8701)
      else
        let s := accessErrs s p errs
        if (tileAt s a.tile).halted then .next s
        else
          let s := tileTouch s p a.tile a.addr 32
          match addSector a.bf16 (tilePeek s p a.addr 32) a.xs with
          | some bs => .next (modTile (tileStore s p a.tile a.addr bs) a.tile fun x => partDone x a.tag)
          | none => .next (modTile s a.tile fun x => failFlight x a.tag 0x5408)

/-! ## Fills and write-backs (R254, R256) -/

/-- A sector that an access of tile `t` misses is fetched. -/
def execFenSectorFill (t : Fin 256) (addr : Nat) (errs : List MemErr) (s : State) : Out :=
  let p := partOf s t
  match placeOf s p addr with
  | .cached d =>
    if sectorValid s addr || waitsAt s addr then .next s
    else
      let s := accessErrs s p errs
      .next (if uncorrectable errs (32 * (addr / 32)) 32 then s else fillSector s p d (some (physTile s t)) addr)
  | _ => .next s

/-- Write one dirty sector back for tile `t`; an eviction also invalidates it. -/
def execFenWriteBack (t : Fin 256) (addr : Nat) (evict : Bool) (errs : List MemErr) (s : State) : Out :=
  let line := addr / 128
  if !sectorValid s addr then .next s
  else
    let lost := sectorDirty s addr && uncorrectable errs (32 * (addr / 32)) 32
    let s := accessErrs s (partOf s t) errs
    let s := if lost then s else writeBackSectors s (some (physTile s t)) line [addr / 32 % 4]
    if evict then
      let s := dropSector s addr
      let l := tget {} s.cache line
      let l := if l.valid = 0 then {} else { l with data := mclear l.data (32 * (addr / 32 % 4)) 32 }
      .next { s with cache := tset {} s.cache line l }
    else .next s

/-! ## The Fen scrubber (R258) -/

/-- The resident line at a scrub position of a cache bank: set by the low bits, way by the rest. -/
def scrubLine (s : State) (d b i : Nat) : Option Nat :=
  let p := (bankAt s d b).part
  let mine := s.cache.filter fun e => decide (e.2.die = d ∧ e.2.part = p) && decide (lineSlot s p d e.1 = some (b, i % 1024))
  (mine[i / 1024]?).map (·.1)

/-- An error the scrubber meets in a cache bank: codeword 0 to 15 of the line, or 16 for its tag and state entry. A
single-bit error counts wherever it lies; a double-bit error in a sector that is not valid loses nothing, and counts nothing. -/
def scrubCached (s : State) (d b : Nat) (line : Option Nat) (e : WordErr) : State :=
  if 16 ≤ e.word then
    match line with
    | some l => tagErr s d b l e.ecc
    | none => (match e.ecc with
      | .clean | .undetected => s
      | .single | .miscorrected => fenCorrected s d
      | .double => fenUncorrectable s d b)
  else
    let a := 128 * line.getD 0 + 8 * e.word
    if line.isSome && sectorValid s a then cacheErr s d { addr := a, ecc := e.ecc }
    else match e.ecc with
      | .single | .miscorrected => fenCorrected s d
      | _ => s

/-- A clean sector that the scrubber has dropped is fetched again; while its channel serves nothing, the next access
fetches it (R400, R401). -/
def refetch (s : State) (p d a : Nat) : State := if sectorValid s a || waitsAt s a then s else fillSector s p d none a

/-- The errors of the line at a scrub position. -/
def scrubErrs (s : State) (d b i : Nat) (errs : List WordErr) : State :=
  let x := bankAt s d b
  if x.state = .ready ∧ x.mode = 2 then
    let line := scrubLine s d b i
    let valid := match line with
      | some l => ((List.range 4).map fun k => 128 * l + 32 * k).filter fun a => sectorValid s a
      | none => []
    valid.foldl (fun s a => refetch s x.part d a) (errs.foldl (fun s e => scrubCached s d b line e) s)
  else
    (errs.filter fun e => decide (e.word < 16)).foldl (fun s e =>
      bankErr s d { addr := fenBase + fenDie * d + fenBank * b + 128 * i + 8 * e.word, ecc := e.ecc }) s

/-- A bank scrubs its next line; `errs` are the codewords it finds in error. -/
def execFenScrub (d : Fin 2) (b : Fin 32) (errs : List WordErr) (s : State) : Out :=
  let i := (bankAt s d b).scrub
  .next (modBank (scrubErrs s d b i errs) d b fun x => { x with scrub := (x.scrub + 1) % 16384, scrubbed := min 256 (x.scrubbed + 1) })

/-! ## Bank handover (R259) -/

/-- May the bank change hands: no job of either partition concerned is LOADED, ARMED or RUNNING? -/
def mayHandOver (s : State) (d b part : Nat) : Bool :=
  let x := bankAt s d b
  !faultable (jobOf s part).state && (decide (x.mode = 0) || !faultable (jobOf s x.part).state)

def execFenBankWrite (d : Fin 2) (b : Fin 32) (mode : Nat) (part : Fin 2) (s : State) : Out :=
  let x := bankAt s d b
  if mayHandOver s d b part && decide (mode ≤ 2) && decide (x.state = .ready ∨ x.state = .unassigned) then
    .next (modBank s d b fun x =>
      { x with state := .draining, mode := mode, part := part, oldMode := x.mode, oldPart := x.part, release := decide (mode = 0) })
  else .next s

/-- In cache mode every dirty sector of the bank is written back; the bank clears, and its tags become invalid (R259). -/
def execFenBankDrained (d : Fin 2) (b : Fin 32) (s : State) : Out :=
  let x := bankAt s d b
  if x.state = .draining then
    let mine (l : CLine) : Bool := decide (x.oldMode = 2 ∧ l.die = d ∧ l.bank = b ∧ l.part = x.oldPart)
    let s := (s.cache.filter fun e => mine e.2).foldl (fun s e => writeBack s none e.1) s
    let s := { s with cache := s.cache.filter fun e => !mine e.2 }
    .next (modBank s d b fun x => { x with state := .clearing, oldMode := 0, oldPart := 0 })
  else .next s

/-- The bank's lines are zero, and it is READY with its new mode and owner, or unassigned. -/
def clearBank (s : State) (d b : Nat) : State :=
  let s := modFen s d fun f => { f with scr := mclear f.scr (fenBank * b) fenBank }
  modBank s d b fun x => if x.release then { scrub := x.scrub } else { x with state := .ready }

def execFenBankCleared (d : Fin 2) (b : Fin 32) (s : State) : Out :=
  if (bankAt s d b).state = .clearing then .next (clearBank s d b) else .next s

/-! ## LPDDR5X requests (R389 to R395, R400) -/

/-- Steps round a ring of `n` places from the one after `last` to `k`. -/
def roundFrom (n last k : Nat) : Nat := (k + n - (last + 1) % n) % n

/-- The unit served next among those that wait at a partition's regulator: a class with tokens at once, else the waiting
classes round-robin (R390); within TILE the tiles round-robin (R391). -/
def nextUnit (s : State) (p : Nat) (q : List MemReq) : Option MemReq :=
  let s := refill s p
  let m := nth {} s.memParts p
  let mine := q.filter fun r => decide (partOfAddr s r.addr = p)
  let ws := (List.range 4).filter fun c => mine.any fun r => decide (classIdx r.cls = c)
  let c? := match ws.find? fun c => decide (256 ≤ nth 0 m.tokens c) with
    | some c => some c
    | none => ws.find? fun c => ws.all fun k => decide (roundFrom 4 m.lastClass c ≤ roundFrom 4 m.lastClass k)
  match c? with
  | none => none
  | some c =>
    let rs := mine.filter fun r => decide (classIdx r.cls = c)
    if c = 0 then rs.find? fun r => rs.all fun x => decide (roundFrom 512 m.lastTile r.tile ≤ roundFrom 512 m.lastTile x.tile)
    else rs.head?

/-- Serve the units that wait at a partition's regulator, one at a time; `fuel` is their number. -/
def serveQueue (p : Nat) : Nat → List MemReq → State → State
  | 0, _, s => s
  | fuel + 1, q, s =>
    match nextUnit s p q with
    | none => s
    | some r => serveQueue p fuel (q.erase r) (postUnit s r)

/-- Requests that wait at the regulators at one time are served unit by unit, or wait at a channel that retrains. -/
def execMemoryRequest (reqs : List MemReq) (now : Nat) (s : State) : Out :=
  let s := atTime s now
  let s := { s with memParts := s.memParts.map fun m => { m with out := [] } }
  let q := (reqs.filter fun r => inLpddr r.addr (max r.len r.wr.length)).flatMap memUnits
  .next (serveQueue 1 q.length q (serveQueue 0 q.length q s))

/-! ## Retrains, patrol and failure (R396 to R401) -/

/-- Does the channel work: serving, marked, or in the Reserve? -/
def works (c : Channel) : Bool := decide (c.state = 0 ∨ c.state = 1 ∨ c.state = 4)

/-- Is the partition's job RUNNING outside its maintenance slot? -/
def midBeat (s : State) (p : Nat) : Bool := let j := jobOf s p; decide (j.state = .running) && decide (j.part ≠ .slot)

/-- A retrain that has fallen due: 10 ms after the channel's last, or at half of the drift monitor's limit. While a job is
RUNNING it starts at the first cycle of the maintenance slot, else at once (R398). -/
def execLpddrRetrain (ch : Fin 52) (halfDrift ok : Bool) (now : Nat) (s : State) : Out :=
  let s := atTime s now
  let s := if halfDrift then modChan s ch fun c => { c with driftAt := some (c.driftAt.getD s.now) } else s
  let c := chanAt s ch
  let j := jobOf s (chanPart s ch)
  let running := decide (j.state = .running)
  let due := c.driftAt.isSome || decide (c.lastRetrain + 10000000 ≤ if running then j.slotFrom else s.now)
  let open_ := !running || (decide (j.part = .slot) && decide (s.now = j.slotFrom) && !c.slotRetrained)
  if !works c || c.retraining || !due || !open_ then .next s
  else if !ok then .next (failChannel s ch)
  else .next (modChan s ch fun c => { c with retraining := true, slotRetrained := running })

def execForcedRetrain (ch : Fin 52) (ok : Bool) (now : Nat) (s : State) : Out :=
  let s := atTime s now
  let c := chanAt s ch
  if !works c || c.retraining then .next s
  else
    let p := chanPart s ch
    let m := nth {} s.memParts p
    let s := { s with memParts := setAt s.memParts p { m with forced := m.forced.add 1 } }
    if !ok || (decide (0 < c.lastRetrain) && decide (now < c.lastRetrain + 1000000)) then .next (failChannel s ch)
    else .next (modChan s ch fun c => { c with retraining := true })

/-- A retrain ends: what waited at the channel is served in order, and the DMAs and the host's accesses that waited go on
(R393, R400). -/
def endRetrain (s : State) (ch : Nat) : State :=
  let c := chanAt s ch
  let s := modChan s ch fun c => { c with retraining := false, lastRetrain := s.now, waiting := [], driftAt := none }
  retryHost (retryDmas (c.waiting.foldl serveUnit s))

/-- Errors that the patrol finds in the sector at `a`. With no job that it could end, an uncorrectable one is a fault that
ends a LOAD_PLAN in progress (R474). -/
def patrolErrs (s : State) (a : Nat) (errs : List MemErr) : State :=
  let p := partOfAddr s a
  let s := outsideErrs s errs
  match chanOf s a with
  | some n => if uncorrectable errs a 32 && !faultable (jobOf s p).state then raiseFault s p (0x2800 + n) else s
  | none => s

/-- The patrol checks the next sector of a channel, of the Reserve too, and corrects it (R396). A sector that no slot
reaches has no device address. -/
def execPatrolScrub (ch : Fin 52) (errs : List WordErr) (link : Bool) (now : Nat) (s : State) : Out :=
  let s := atTime s now
  let c := chanAt s ch
  let p := chanPart s ch
  let running := decide ((jobOf s p).state = .running)
  let bound := if c.slotRetrained then 64 else 256
  if works c = false ∨ c.retraining = true ∨ midBeat s p = true ∨ (running = true ∧ bound ≤ c.patrolled) then .next s
  else
    let ca := c.patrol
    let s := modChan s ch fun c => { c with patrolled := if running then c.patrolled + 1 else 0, patrol := (ca + 32) % 2 ^ 33 }
    let s := linkErr s ch link
    if c.slot = 0xFF then
      .next (errs.foldl (fun s e => memEcc s ch (ca + 8 * (e.word % 4)) none e.ecc) (charge s .maint none (memBase s p) 32))
    else
      let a := addrOf s c.part c.slot ca
      .next (patrolErrs (charge s .maint none a 32) a (errs.map fun e => { addr := a + 8 * (e.word % 4), ecc := e.ecc }))

def execChannelFail (ch : Fin 52) (s : State) : Out := .next (failChannel s ch)

/-- The clearing of a partition's AWAITING bytes ends (R512). -/
def execLpddrClearDone (p : Fin 2) (s : State) : Out :=
  if (partitions s).contains p then .next (clearAwaiting s (memBase s p) (memSize s)) else .next s

end Sys2Proof.Machine
end

