-- ==== Sys2Proof/Machine/Causeway.lean ====
section
/-!
DEFINITION. Causeway: received frames, the transport's flows and SENDs, arming, heartbeats and the ports
(R406 to R441).
-/
namespace Sys2Proof.Machine

/-! ## Ports (R406 to R410, R416) -/

/-- Mark a port failed (R409). -/
def markPort (s : State) (n : Nat) : State := raiseCause (modPort s n fun x => { x with state := 3 }) 10

/-- Training ends; a marked port whose link comes up stays marked (R409). -/
def execLinkUp (port : Fin 5) (mode : Nat) (s : State) : Out :=
  let x := portAt s port
  if (x.state ≤ 1 ∨ (x.state = 3 ∧ x.mode = 0)) ∧ 1 ≤ mode ∧ mode ≤ 4 then
    .next (modPort s port fun x => { x with state := if x.state = 3 then 3 else 2, mode := mode })
  else .next s

def execLinkDown (port : Fin 5) (s : State) : Out :=
  let x := portAt s port
  if x.mode = 0 then .next s
  else
    let s := modPort s port fun x => { x with mode := 0, state := if x.state = 3 then 3 else 0, linkdn := errAdd x.linkdn 1, paused := [], held := [], xoff := [] }
    if x.assigned then
      let st := (jobOf s x.part).state
      let s := if faultable st && decide (x.state ≠ 3) then markPort s port else s
      .next (if st = .running then raiseFault s x.part (0x4B00 + port) else backToLoaded s x.part)
    else .next s

def execPortTrainTimeout (port : Fin 5) (now : Nat) (s : State) : Out :=
  let s := atTime s now
  let x := portAt s port
  if x.state = 1 ∧ x.trainFrom + 500000000 ≤ now then .next (markPort s port) else .next s

def execFecUncorrectable (port : Fin 5) (now : Nat) (s : State) : Out :=
  let s := atTime s now
  let s := modPort s port fun x =>
    { x with fecu := errAdd x.fecu 1, fecTimes := (x.fecTimes.filter fun t => decide (s.now < t + 1000000000)) ++ [s.now] }
  let x := portAt s port
  if 16 < x.fecTimes.length ∧ x.state ≠ 3 then .next (markPort s port) else .next s

/-- Does the port honour PFC for a priority: it serves a job whose member table names it (R416)? -/
def honours (s : State) (n prio : Nat) : Bool :=
  let x := portAt s n
  let t := (jobOf s x.part).table
  x.assigned && decide (0 < t.n) && decide (prio = t.pcpData ∨ prio = t.pcpCtl)

def execPfcFrame (port : Fin 5) (prio : Fin 8) (quanta : Nat) (s : State) : Out :=
  let s := modPort s port fun x => { x with rxf := x.rxf.add 1 }
  if honours s port prio then
    let s := modPort s port fun x => { x with pause := x.pause.add quanta }
    .next (if quanta = 0 then endPause s port prio else modPort s port fun x => { x with paused := addOnce x.paused prio })
  else .next s

def execPfcPauseExpiry (port : Fin 5) (prio : Fin 8) (s : State) : Out := .next (endPause s port prio)

/-! ## Receiving (R415, R419) -/

/-- Is the frame dropped by a receiver of the type? -/
def badFrame (s : State) (port : Nat) (f : Frame) (typ : Nat) : Bool :=
  let x := portAt s port
  let j := jobOf s x.part
  !x.assigned || decide (f.ver ≠ 1) || decide (f.typ ≠ typ) || !f.crcOk || decide (f.jobId ≠ j.id.toNat) || decide (f.dst ≠ j.member) ||
    !faultable j.state

/-- Count a frame that a receiver drops. -/
def dropFrame (s : State) (port : Nat) : State := modPort s port fun x => { x with badf := errAdd x.badf 1 }

/-- A frame arrives: a bad one is dropped and counted, any other is acted on. -/
def receive (s : State) (port : Nat) (f : Frame) (typ now : Nat) (act : State → Nat → State) : State :=
  let s := modPort (atTime s now) port fun x => { x with rxf := x.rxf.add 1, fecc := x.fecc.add f.fec }
  if badFrame s port f typ then dropFrame s port else act s (portAt s port).part

def bodyAt (f : Frame) (off n : Nat) : Nat := fieldAt f.body (off - 20) n

/-- Key of a flow: peer and job port. -/
def flowKey (member k : Nat) : Nat := 4 * member + k

/-! ## Compressed arrivals (R208, R432) -/

/-- Blocks and exponent bytes of one packet of an NM run against its descriptor. -/
def nmOk (f : Frame) : Bool :=
  let d := (f.body.drop 12).take 16
  let pat := fieldAt d 0 1
  let klen := fieldAt d 2 2
  let k0 := fieldAt d 4 2
  let nw := fieldAt d 6 2
  let valid := decide (pat ≤ 2) && decide (1 ≤ klen) && decide (klen ≤ 32768) && decide (k0 + nw ≤ cdiv klen (nmW pat)) &&
    decide (d = [nth 0 d 0, 0] ++ (d.drop 2).take 6 ++ zeros 8)
  let first := decide (f.runOff = 0)
  let headOk := !first || decide (f.payload.take 32 = d ++ zeros 16)
  let body := if first then f.payload.drop 32 else f.payload
  let at_ := if first then 32 else f.runOff
  let i0 := (at_ - 32) / 64
  let nb := min (32 * nw - i0) (body.length / 64)
  let blocks := (List.range nb).all fun i => blockOk pat klen (k0 + (i0 + i) / 32) ((body.drop (64 * i)).take 64) 0
  let exps := (body.drop (64 * nb)).all fun e => decide (e ≠ 0xFF)
  valid && headOk && blocks && exps

/-! ## WRITE (R421, R430, R431, R434) -/

/-- Reason to refuse a WRITE in sequence, 0 for none. -/
def refusal (s : State) (p : Nat) (f : Frame) : Nat :=
  let w := windowAt s (devWindow s p (bodyAt f 20 1))
  if w.isOpen = false ∨ w.declared = false ∨ (s.split = true ∧ 128 ≤ bodyAt f 20 1) then 2
  else if bodyAt f 22 2 ≠ w.gen.toNat then 3
  else if 32 * w.len < 32 * bodyAt f 24 4 + f.payload.length then 4
  else if f.nm = true ∧ nmOk f = false then 5
  else 0

/-- Device address a WRITE names. -/
def writeAddr (s : State) (p : Nat) (f : Frame) : Nat := (windowAt s (devWindow s p (bodyAt f 20 1))).base + 32 * bodyAt f 24 4

/-- Apply a WRITE whole, past every cache; a Fen bank that is not the partition's refuses it (R253, R255). -/
def applyWrite (s : State) (p : Nat) (f : Frame) : State :=
  let dw := devWindow s p (bodyAt f 20 1)
  let w := windowAt s dw
  let a := writeAddr s p f
  if fenRefuses s p a f.payload.length then raiseFault s p 0x8701
  else
    let s := setWindow s dw { w with appl := w.appl.add 1 }
    if isFen a then modFen s (fenDieOf a) fun x => { x with scr := mwrite x.scr (fenOff a) f.payload }
    else
      let s := charge s .cwy none a f.payload.length
      { s with mem := mwrite s.mem a f.payload }

/-- Must an arriving WRITE wait: for a channel it writes, or behind a WRITE of its flow that waits (R400, R421)? -/
def writeWaits (s : State) (p : Nat) (f : Frame) : Bool :=
  let a := writeAddr s p f
  ((jobOf s p).rxHeld.any fun g => decide (flowKey g.src g.jport = flowKey f.src f.jport)) ||
    (decide (refusal s p f = 0) && !isFen a && rangeWaits s a f.payload.length)

/-- Count a refused WRITE; a failed compressed arrival is the receiver's format fault. -/
def countRefusal (s : State) (p : Nat) (f : Frame) (reason : Nat) : State :=
  let dw := devWindow s p (bodyAt f 20 1)
  let w := windowAt s dw
  let s := setWindow s dw { w with drop := errAdd w.drop 1 }
  if reason = 5 then raiseFault s p 0x5A06 else s

def modRx (s : State) (p key : Nat) (g : RxFlow → RxFlow) : State := modJob s p fun j => { j with rxFlows := tmod {} j.rxFlows key g }

/-- The receiver acknowledges a flow: cumulative, to the last packet applied in order (R421). The ACK carries the ece of the
packets it covers, in its header and in its body (R417 to R419). -/
def ackNow (s : State) (p peer jport : Nat) : State :=
  let key := flowKey peer jport
  let r := tget {} (jobOf s p).rxFlows key
  let s := modRx s p key fun r => { r with ackDue := false, ece := false, run := 0 }
  let f := control s p jport peer 2 (leBytes 4 ((r.expected + 2 ^ 24 - 1) % 2 ^ 24) ++ [BitVec.ofNat 8 (b2n r.ece)])
  sendFrame s p jport { f with ece := r.ece }

/-- Has the ACK that is due no room for one more packet: it covers 8, or the first came 1 µs ago (R421)? -/
def ackFull (r : RxFlow) (now : Nat) : Bool := decide (0 < r.run) && (decide (8 ≤ r.run) || decide (r.since + 1000 < now))

/-- A WRITE of a flow: in order, beyond the expected seq, or already applied. -/
def takeWrite (s : State) (p : Nat) (f : Frame) : State :=
  let key := flowKey f.src f.jport
  let r := tget {} (jobOf s p).rxFlows key
  let d := (f.seq + 2 ^ 24 - r.expected) % 2 ^ 24
  let ce := f.ce && decide ((jobOf s p).table.encap = 1)
  if d < 2 ^ 23 ∧ writeWaits s p f = true then pfcUpdate (modJob s p fun j => { j with rxHeld := j.rxHeld ++ [f] }) p
  else if d = 0 then
    match refusal s p f with
    | 0 =>
      let s := if ackFull r s.now then ackNow s p f.src f.jport else s
      let s := modRx s p key fun r =>
        { expected := (r.expected + 1) % 2 ^ 24, nacked := false, ackDue := true, ece := r.ece || ce
          run := r.run + 1, since := if r.run = 0 then s.now else r.since }
      applyWrite s p f
    | reason =>
      let s := sendFrame s p f.jport (control s p f.jport f.src 3 (leBytes 4 f.seq ++ [BitVec.ofNat 8 reason]))
      countRefusal s p f reason
  else if d < 2 ^ 23 then
    if r.nacked then s
    else sendFrame (modRx s p key fun r => { r with nacked := true }) p f.jport (control s p f.jport f.src 3 (leBytes 4 r.expected ++ [1]))
  else modRx s p key fun r => { r with ackDue := true, ece := r.ece || ce }

/-- The WRITEs that wait are taken again, oldest first (R393, R400). -/
def retryWrites (s : State) (p : Nat) : State :=
  pfcUpdate ((jobOf s p).rxHeld.foldl (fun s f => takeWrite s p f) (modJob s p fun j => { j with rxHeld := [] })) p

/-- A retrain ends, and what waited for the channel goes on. -/
def execRetrainEnd (ch : Fin 52) (now : Nat) (s : State) : Out :=
  let s := atTime s now
  if (chanAt s ch).retraining then .next (retryWrites (retryWrites (endRetrain s ch) 0) 1) else .next s

def execWriteFrame (port : Fin 5) (f : Frame) (now : Nat) (s : State) : Out := .next (receive s port f 1 now fun s p => takeWrite s p f)

/-- An ACK that is due leaves. -/
def execAckSend (p : Fin 2) (peer : Nat) (jport : Fin 4) (s : State) : Out :=
  if (tget {} (jobOf s p).rxFlows (flowKey peer jport)).ackDue && faultable (jobOf s p).state then .next (ackNow s p peer jport) else .next s

/-! ## Sending (R420, R422 to R425) -/

def modSend (s : State) (p tile tag : Nat) (g : Send → Send) : State :=
  modJob s p fun j => { j with sends := j.sends.map fun x => if x.tile = tile ∧ x.tag = tag then g x else x }

/-- Take a SEND out of the engine with its packets. -/
def removeSend (s : State) (p tile tag : Nat) : State :=
  modJob s p fun j =>
    { j with sends := j.sends.filter fun x => decide (¬(x.tile = tile ∧ x.tag = tag))
             txFlows := tmap {} j.txFlows fun y =>
               { y with unacked := y.unacked.filter fun q => decide (¬(q.tile = tile ∧ q.tag = tag)) } }

/-- A SEND completes with a fault. -/
def failSend (s : State) (p tile tag code : Nat) : State :=
  startSends (modTile (removeSend s p tile tag) tile fun x => failFlight x tag code) p

/-- Packets of a SEND are acknowledged; with the last, it completes (R423). -/
def ackPacket (s : State) (p tile tag : Nat) : State :=
  let s := modSend s p tile tag fun x => { x with acked := x.acked + 1 }
  if (jobOf s p).sends.any fun x => decide (x.tile = tile ∧ x.tag = tag) && decide (x.acked = x.packets) then
    startSends (modTile (removeSend s p tile tag) tile fun x => partDone x tag) p
  else s

/-- Bytes of a SEND's source: the TSP, or device memory past every cache. -/
def sendData (s : State) (x : Send) (off n : Nat) : List Byte :=
  let o := x.o
  if o.tsrc then mread (tileAt s x.tile).tsp (tbyte o.src + off) n
  else
    let a := 32 * o.src + off
    if isFen a then mread (fenOf s (fenDieOf a)).scr (fenOff a) n else mread s.mem a n

/-- Where the data of packet `i` of a SEND lies: offset and length. -/
def packetCut (x : Send) (i : Nat) : Nat × Nat := nth (0, 0) (sendCuts x.o.nm (32 * (x.o.len + 1))) i

/-- The WRITE frame of packet `i` of a SEND, before its seq (R418 to R420, R432). -/
def sendPacket (s : State) (p : Nat) (x : Send) (i : Nat) : Frame :=
  let j := jobOf s p
  let c := packetCut x i
  { typ := 1, nm := x.o.nm, last := decide (i + 1 = x.packets), jobId := j.id.toNat, src := j.member, jport := i % max 1 j.ports, dst := x.o.peer
    body := [BitVec.ofNat 8 x.o.window, 0] ++ leBytes 2 x.gen ++ leBytes 4 (x.o.woff + c.1 / 32) ++ zeros 4 ++
      (if x.o.nm then sendData s x 0 16 else zeros 16)
    payload := sendData s x c.1 c.2, runOff := if x.o.nm then c.1 else 0 }

/-- Does the read of a SEND's next packet wait for a channel (R400)? -/
def sendWaits (s : State) (x : Send) : Bool :=
  let c := packetCut x x.sent
  let a := 32 * x.o.src + c.1
  !x.o.tsrc && !isFen a && rangeWaits s a c.2

/-- May the tile's started SEND send a packet now: its flow's window has room, its port is not paused, and its data can be
read? -/
def maySend (s : State) (p : Nat) (x : Send) : Bool :=
  let j := jobOf s p
  let k := x.sent % max 1 j.ports
  let fl := tget {} j.txFlows (flowKey x.o.peer k)
  x.started.isSome && decide (x.sent < x.packets) && !sendWaits s x &&
    if x.o.peer = j.member then !writeWaits s p (sendPacket s p x x.sent)
    else decide (fl.unacked.length < fl.window) &&
      match physPort s p k with
      | some n => !((portAt s n).paused.contains j.table.pcpData)
      | none => false

/-- The SEND whose packet is next, round-robin among the tiles. -/
def nextSend (s : State) (p : Nat) : Option Send :=
  let j := jobOf s p
  let can := j.sends.filter fun x => maySend s p x
  let dist (x : Send) : Nat := (x.tile + 512 - (j.sendRr + 1) % 512) % 512
  can.find? fun x => can.all fun y => decide (dist x ≤ dist y)

/-- Charge a packet's read of device memory to CWY, unit by unit of where its data lies (R390). -/
def chargeSend (s : State) (x : Send) (i : Nat) : State :=
  let c := packetCut x i
  let a := 32 * x.o.src + c.1
  if x.o.tsrc || isFen a then s else charge s .cwy none a c.2

/-- A packet that stays in the device is applied under the same checks (R434). -/
def selfPacket (s : State) (p : Nat) (x : Send) (f : Frame) : State :=
  match refusal s p f with
  | 0 => ackPacket (applyWrite s p f) p x.tile x.tag
  | reason => failSend (countRefusal s p f reason) p x.tile x.tag (if reason = 5 then 0x5408 else 0x4A02)

/-- The next packet leaves. Its data is read past every cache; `errs` are the codewords that the read finds in error
(R395). -/
def execPacketSend (p : Fin 2) (errs : List MemErr) (now : Nat) (s : State) : Out :=
  let s := startSends (atTime s now) p
  let j := jobOf s p
  match nextSend s p with
  | none => .next s
  | some x =>
    if j.state ≠ .running then .next s
    else
      let s := errs.foldl (fun s e => if isFen e.addr then bankErr s (fenDieOf e.addr) e else lpddrErr s true e) s
      if (jobOf s p).state ≠ .running then .next s
      else
        let f := sendPacket s p x x.sent
        let s := modSend (chargeSend s x x.sent) p x.tile x.tag fun x => { x with sent := x.sent + 1 }
        let s := modJob s p fun j => { j with sendRr := x.tile }
        if x.o.peer = j.member then .next (startSends (selfPacket s p x f) p)
        else
          let key := flowKey x.o.peer f.jport
          let f := { f with seq := (tget {} j.txFlows key).next }
          let q : Packet := { seq := f.seq, tile := x.tile, tag := x.tag, frame := f, sentAt := s.now }
          let s := modJob s p fun j => { j with txFlows := tmod {} j.txFlows key fun y => { y with next := (y.next + 1) % 2 ^ 24, unacked := y.unacked ++ [q] } }
          .next (startSends (sendFrame s p f.jport f) p)

/-- A window and its tally once each full window of packets in it has raised the window by one, up to 32 (R417). -/
def raiseWindow : Nat → Nat → Nat → Nat × Nat
  | 0, w, g => (w, g)
  | fuel + 1, w, g => if w ≤ g then raiseWindow fuel (min 32 (w + 1)) (g - w) else (w, g)

/-- An ACK adjusts the flow's window (R417). -/
def ackWindow (fl : TxFlow) (n : Nat) (ece : Bool) : TxFlow :=
  if ece then { fl with window := max 4 (fl.window / 2), gained := 0 }
  else let r := raiseWindow (fl.gained + n) fl.window (fl.gained + n); { fl with window := r.1, gained := r.2 }

/-- Packets of a flow up to and including a seq are acknowledged. -/
def takeAck (s : State) (p : Nat) (f : Frame) : State :=
  let key := flowKey f.src f.jport
  let fl := tget {} (jobOf s p).txFlows key
  let seq := bodyAt f 20 4 % 2 ^ 24
  let ece := decide (bodyAt f 24 1 % 2 = 1)
  let done := fl.unacked.filter fun q => decide ((seq + 2 ^ 24 - q.seq) % 2 ^ 24 < 2 ^ 23)
  let s := modJob s p fun j =>
    { j with ece := if ece then j.ece.add 1 else j.ece
             txFlows := tmod {} j.txFlows key fun y =>
               { ackWindow y done.length ece with unacked := y.unacked.filter fun q => !decide ((seq + 2 ^ 24 - q.seq) % 2 ^ 24 < 2 ^ 23) } }
  done.foldl (fun s q => ackPacket s p q.tile q.tag) s

def execAckFrame (port : Fin 5) (f : Frame) (now : Nat) (s : State) : Out := .next (receive s port f 2 now fun s p => takeAck s p f)

/-- A retransmission round of a flow, counted against the SEND of its oldest packet (R424). -/
def retransmit (s : State) (p key : Nat) : State :=
  let fl := tget {} (jobOf s p).txFlows key
  match fl.unacked with
  | [] => s
  | q :: _ =>
    let used := ((jobOf s p).sends.find? fun x => decide (x.tile = q.tile ∧ x.tag = q.tag)).map (·.rounds)
    if 2 ≤ used.getD 0 then failSend s p q.tile q.tag 0x4A01
    else
      let s := modSend s p q.tile q.tag fun x => { x with rounds := x.rounds + 1 }
      let s := modJob s p fun j =>
        { j with retx := j.retx.add 1
                 txFlows := tmod {} j.txFlows key fun y => { y with unacked := y.unacked.map fun q => { q with sentAt := s.now } } }
      fl.unacked.foldl (fun s q => sendFrame s p q.frame.jport q.frame) s

/-- A NACK: SEQ begins a round; any other reason ends the SEND that sent the packet (R425). -/
def takeNack (s : State) (p : Nat) (f : Frame) : State :=
  let key := flowKey f.src f.jport
  let seq := bodyAt f 20 4 % 2 ^ 24
  let reason := bodyAt f 24 1
  if reason = 1 then retransmit s p key
  else
    let s := modJob s p fun j => { j with nack := errAdd j.nack 1 }
    match (tget {} (jobOf s p).txFlows key).unacked.find? fun q => decide (q.seq = seq) with
    | some q =>
      if reason = 5 then failSend s p q.tile q.tag 0x5408
      else if 2 ≤ reason ∧ reason ≤ 4 then failSend s p q.tile q.tag 0x4A02
      else s
    | none => s

def execNackFrame (port : Fin 5) (f : Frame) (now : Nat) (s : State) : Out := .next (receive s port f 3 now fun s p => takeNack s p f)

def execRetransmitTimeout (p : Fin 2) (peer : Nat) (jport : Fin 4) (now : Nat) (s : State) : Out :=
  let s := atTime s now
  let key := flowKey peer jport
  match (tget {} (jobOf s p).txFlows key).unacked with
  | q :: _ => if q.sentAt + 6000 ≤ now ∧ (jobOf s p).state = .running then .next (retransmit s p key) else .next s
  | [] => .next s

def execSendBudgetExpiry (p : Fin 2) (t : Fin 256) (tag : Fin 64) (now : Nat) (s : State) : Out :=
  let s := atTime s now
  let pt := physTile s t
  match (jobOf s p).sends.find? fun x => decide (x.tile = pt ∧ x.tag = (tag : Nat)) with
  | some x =>
    match x.started with
    | some t0 => if t0 + x.budget ≤ now then .next (failSend s p pt tag 0x4A03) else .next s
    | none => .next s
  | none => .next s

/-! ## HELLO and arming (R435) -/

/-- Send HELLO to each member that has not replied. -/
def sendHellos (s : State) (p : Nat) : State :=
  let j := jobOf s p
  let s := j.awaiting.foldl (fun s m => sendAll s p m 4 (leBytes 8 j.planId)) s
  modJob s p fun j => { j with helloAt := s.now }

def takeHello (s : State) (p : Nat) (f : Frame) : State :=
  let j := jobOf s p
  if bodyAt f 20 8 ≠ j.planId then s
  else if bodyAt f 28 1 % 2 = 1 then tryArmed (modJob s p fun j => { j with awaiting := j.awaiting.filter fun m => decide (m ≠ f.src) }) p
  else if j.state = .loaded ∨ j.state = .armed then sendFrame s p f.jport (control s p f.jport f.src 4 (leBytes 8 j.planId ++ [1]))
  else s

def execHelloFrame (port : Fin 5) (f : Frame) (now : Nat) (s : State) : Out := .next (receive s port f 4 now fun s p => takeHello s p f)

def execHelloResend (p : Fin 2) (now : Nat) (s : State) : Out :=
  let s := atTime s now
  let j := jobOf s p
  if j.arming = true ∧ j.helloAt + 1000000 ≤ now then .next (tryArmed (sendHellos s p) p) else .next s

/-- An ARM that has not completed within 10 s fails; the partition stays LOADED. -/
def execArmTimeout (p : Fin 2) (now : Nat) (s : State) : Out :=
  let s := atTime s now
  let j := jobOf s p
  if j.arming = true ∧ j.armFrom + 10000000000 ≤ now then .next (endArm s p 9 [])
  else .next s

/-! ## Heartbeats and notices (R436, R437) -/

def execHeartbeatFrame (port : Fin 5) (f : Frame) (now : Nat) (s : State) : Out :=
  .next (receive s port f 5 now fun s p => modJob s p fun j => { j with heard := tset 0 j.heard (flowKey f.src f.jport) (s.now + 1) })

/-- Is the group's heartbeat running: from ARMED until the job leaves RUNNING? -/
def beating (j : Job) : Bool := decide (j.state = .armed ∨ j.state = .running)

def execHeartbeatSend (p : Fin 2) (now : Nat) (s : State) : Out :=
  let s := atTime s now
  let j := jobOf s p
  if beating j && decide (j.beatSent + 100000 ≤ now) then
    let s := modJob s p fun j => { j with beatSent := s.now }
    .next ((neighbours j).foldl (fun s m => sendAll s p m 5 (leBytes 4 (j.beat.toNat % 2 ^ 32))) s)
  else .next s

/-- Job ports on which a neighbour has been silent for 250 µs. -/
def silentPorts (j : Job) (m now : Nat) : List Nat :=
  (List.range j.ports).filter fun k => decide (tget 0 j.heard (flowKey m k) + 250000 ≤ now + 1)

def execHeartbeatLoss (p : Fin 2) (member : Nat) (now : Nat) (s : State) : Out :=
  let s := atTime s now
  let j := jobOf s p
  let quiet := silentPorts j member now
  if !beating j || !(neighbours j).contains member || quiet.isEmpty then .next s
  else
    let path := decide (quiet.length < j.ports)
    let record (s : State) : State := modJob s p fun j => { j with lost := BitVec.ofNat 32 (2 ^ 31 + 2 ^ 30 * b2n path + member % 2 ^ 14) }
    if j.state = .running then .next (raiseFault (record s) p (if path then 0x4A05 else 0x4A04))
    else if path then .next s
    else .next (backToLoaded (record s) p)

/-- A NOTICE of the job while ARMED or RUNNING (R349): FAULTED or KILLED, recorded and passed on. -/
def takeNotice (s : State) (p : Nat) (f : Frame) : State :=
  if (jobOf s p).state = .loaded then s
  else if bodyAt f 24 1 % 2 = 1 then enterKilled s p (bodyAt f 20 2) (some f.src) else remoteFault s p (bodyAt f 20 2) (bodyAt f 22 2) f.src

def execNoticeFrame (port : Fin 5) (f : Frame) (now : Nat) (s : State) : Out := .next (receive s port f 8 now fun s p => takeNotice s p f)

/-! ## Barrier frames (R329, R438) -/

/-- Does the frame name the job Beat in progress? -/
def beatMatches (j : Job) (f : Frame) : Bool := decide (j.state = .running) && decide (bodyAt f 20 4 = j.j % 2 ^ 32)

def takeDone (s : State) (port p : Nat) (f : Frame) : State :=
  let j := jobOf s p
  if !beatMatches j f then dropFrame s port
  else if j.doneFrom.contains f.src then s
  else modJob s p fun j => { j with doneFrom := j.doneFrom ++ [f.src] }

def execDoneFrame (port : Fin 5) (f : Frame) (now : Nat) (s : State) : Out := .next (receive s port f 6 now fun s p => takeDone s port p f)

/-- The first release of a Beat sets the next Beat's start and is forwarded; a late one ends the job. -/
def takeRelease (s : State) (port p : Nat) (f : Frame) (now : Nat) : State :=
  let j := jobOf s p
  let start := bodyAt f 24 8
  if !beatMatches j f then dropFrame s port
  else if j.nextStart.isSome then s
  else if start < j.tickOf now + slotLen j then
    let r := someTile s p
    raiseFault r.1 p 0x4603 r.2
  else sendRelease (modJob s p fun j => { j with nextStart := some start }) p start

def execReleaseFrame (port : Fin 5) (f : Frame) (now : Nat) (s : State) : Out := .next (receive s port f 7 now fun s p => takeRelease s port p f now)

end Sys2Proof.Machine
end

