-- ==== Sys2Proof/Machine/Regs.lean ====
section
/-!
DEFINITION. The BAR0 register map: what every register reads, and the latches of the RS pairs (R11 to R16,
R543 to R562 and the register tables of each chapter).
-/
namespace Sys2Proof.Machine

/-! ## RS pairs (R13, R546) -/

/-- An RS pair: its words, its latch, and the state once the latch is loaded. -/
structure Pair where
  low : BitVec 32
  high : BitVec 32
  latch : BitVec 32
  after : State

/-- The pair of a statistics counter, with the state its rewrite gives. -/
def statPair (c : Stat) (put : Stat → State) : Pair := { low := c.low, high := c.high, latch := c.latch, after := put c.readLow }

/-- The pair of a 48-bit number with a latch of its own. -/
def wordPair (v : BitVec 48) (latch : BitVec 32) (put : BitVec 32 → State) : Pair :=
  let h := BitVec.ofNat 32 (v.toNat / 2 ^ 32)
  { low := BitVec.ofNat 32 v.toNat, high := h, latch := latch, after := put h }

/-- Partition sets exist for partition 0, and for partition 1 in SPLIT (R548). -/
def setExists (s : State) (p : Nat) : Bool := decide (p = 0) || (s.split && decide (p = 1))

def devPair (s : State) (p x : Nat) : Option Pair :=
  let j := jobOf s p
  if x = 0x10 then some (wordPair j.beat j.beatLatch fun l => modJob s p fun j => { j with beatLatch := l })
  else if x = 0x28 then some (statPair j.early fun c => modJob s p fun j => { j with early := c })
  else none

def memPair (s : State) (p x : Nat) : Option Pair :=
  let m := nth {} s.memParts p
  let put (m : MemPart) : State := { s with memParts := setAt s.memParts p m }
  if x = 0x08 then some (statPair m.forced fun c => put { m with forced := c })
  else if 0x10 ≤ x ∧ x < 0x30 ∧ x % 8 = 0 then
    some (statPair (nth {} m.units ((x - 0x10) / 8)) fun c => put { m with units := setAt m.units ((x - 0x10) / 8) c })
  else none

def portPair (s : State) (n x : Nat) : Option Pair :=
  let c := portAt s n
  if x = 0x10 then some (statPair c.txf fun v => modPort s n fun y => { y with txf := v })
  else if x = 0x18 then some (statPair c.rxf fun v => modPort s n fun y => { y with rxf := v })
  else if x = 0x20 then some (statPair c.fecc fun v => modPort s n fun y => { y with fecc := v })
  else if x = 0x30 then some (statPair c.pause fun v => modPort s n fun y => { y with pause := v })
  else none

def cwyPair (s : State) (q x : Nat) : Option Pair :=
  let j := jobOf s q
  if x = 0x00 then some (statPair j.retx fun v => modJob s q fun j => { j with retx := v })
  else if x = 0x08 then some (statPair j.ece fun v => modJob s q fun j => { j with ece := v })
  else none

def fenPair (s : State) (d x : Nat) : Option Pair :=
  let f := fenOf s d
  if x = 0x90 then some (statPair f.confMem fun v => modFen s d fun f => { f with confMem := v })
  else if x = 0x98 then some (statPair f.confD2d fun v => modFen s d fun f => { f with confD2d := v })
  else if x = 0xA0 then some (statPair f.confMesh fun v => modFen s d fun f => { f with confMesh := v })
  else if x = 0xA8 then some (statPair f.hit fun v => modFen s d fun f => { f with hit := v })
  else if x = 0xB0 then some (statPair f.miss fun v => modFen s d fun f => { f with miss := v })
  else none

def tilePair (s : State) (t x : Nat) : Option Pair :=
  let pt := physTile s t
  let c := (tileAt s pt).stat
  let put (c : TileStat) : State := modTile s pt fun y => { y with stat := c }
  if x = 0x340 then some (statPair c.updXch fun v => put { c with updXch := v })
  else if x = 0x368 then some (statPair c.saSave fun v => put { c with saSave := v })
  else if x = 0x370 then some (statPair c.saStall fun v => put { c with saStall := v })
  else if 0x380 ≤ x ∧ x < 0x3B0 ∧ x % 8 = 0 then
    some (statPair (nth {} c.tspc ((x - 0x380) / 8)) fun v => put { c with tspc := setAt c.tspc ((x - 0x380) / 8) v })
  else if x = 0x440 then some (statPair c.issued fun v => put { c with issued := v })
  else if x = 0x448 then some (statPair c.flagged fun v => put { c with flagged := v })
  else none

/-- The RS pair whose low word lies at an offset of BAR0. -/
def rsPair (s : State) (off : Nat) : Option Pair :=
  if 0x1200 ≤ off ∧ off < 0x1300 then
    let p := (off - 0x1200) / 0x80
    if setExists s p then devPair s p (off % 0x80) else none
  else if 0x100400 ≤ off ∧ off < 0x100480 then
    let p := (off - 0x100400) / 0x40
    if setExists s p then memPair s p (off % 0x40) else none
  else if 0x200000 ≤ off ∧ off < 0x200500 then portPair s ((off - 0x200000) / 0x100) (off % 0x100)
  else if 0x200800 ≤ off ∧ off < 0x200A00 then
    let q := (off - 0x200800) / 0x100
    if setExists s q then cwyPair s q (off % 0x100) else none
  else if 0x300000 ≤ off ∧ off < 0x302000 then
    let w := (off - 0x300000) / 0x20
    if off % 0x20 = 0x10 then some (statPair (windowAt s w).appl fun v => setWindow s w { windowAt s w with appl := v }) else none
  else if 0x400000 ≤ off ∧ off < 0x402000 then fenPair s ((off - 0x400000) / 0x1000) (off % 0x1000)
  else if 0x500000 ≤ off ∧ off < 0x500200 then
    let p := (off - 0x500000) / 0x100
    let r := (jobOf s p).ring
    if setExists s p && decide (off % 0x100 = 0x10) then
      some (wordPair r.head r.latch fun l => modJob s p fun j => { j with ring := { j.ring with latch := l } })
    else none
  else if 0x1000000 ≤ off ∧ off < 0x1400000 then tilePair s ((off - 0x1000000) / 0x4000) (off % 0x4000)
  else none

/-! ## The other registers -/

/-- Concatenate fields, the highest first: (width, value). -/
def fields (fs : List (Nat × Nat)) : Nat := fs.foldl (fun acc f => acc * 2 ^ f.1 + f.2 % 2 ^ f.1) 0

/-- GEO_ (R549, R550). -/
def geoReg (x : Nat) : Nat :=
  if x = 0x00 then fields [(16, 0xC4B2), (8, 2), (4, 0), (4, Config.revision.toNat)]
  else if x = 0x04 then 0x0100
  else if x = 0x08 then Config.serial.toNat % 2 ^ 32
  else if x = 0x0C then Config.serial.toNat / 2 ^ 32
  else if x = 0x10 then 0x01000002
  else if x = 0x14 then 0x04300840
  else if x = 0x18 then 0x01000020
  else if x = 0x20 then 0x1023041A
  else if x = 0x24 then 0x00340180
  else 0

/-- A DEV_ job set (R353, R493). -/
def jobReg (j : Job) (x : Nat) : Nat :=
  if x = 0x00 then fields [(16, j.code.toNat), (4, 0), (4, j.outcome), (5, 0), (3, j.state.code)]
  else if x = 0x04 then j.whereW.toNat
  else if x = 0x08 then j.id.toNat % 2 ^ 32
  else if x = 0x0C then j.id.toNat / 2 ^ 32
  else if x = 0x18 then fields [(1, b2n j.elastic), (1, b2n j.pps), (2, j.tickPort), (4, j.pc), (8, 0), (16, j.beatUs)]
  else if x = 0x1C then fields [(1, b2n j.tick.locked), (1, b2n j.tick.holdover), (14, 0), (16, toField 16 j.tick.offset)]
  else if x = 0x20 then j.slack.toNat
  else if x = 0x40 then
    if j.remote then fields [(1, b2n j.faultValid), (1, 1), (30, 0)]
    else fields [(1, b2n j.faultValid), (1, 0), (8, j.ltile), (9, j.ptile), (6, j.lmacro), (7, j.pmacro)]
  else if x = 0x48 then j.faultBeat.toNat % 2 ^ 32
  else if x = 0x4C then j.faultBeat.toNat / 2 ^ 32
  else 0

/-- Physical tiles of the mesh (R561). -/
def physTiles : List Nat := (List.range 2).flatMap fun d => (List.range 8).flatMap fun r => (List.range 17).map fun c => 256 * d + 32 * r + c

/-- Does a physical tile serve a logical tile? -/
def serving (s : State) (pt : Nat) : Bool := (List.range 256).any fun t => decide (physTile s t = pt)

/-- The free Reserve tiles of a die: column 16, serving nothing and not retired (R481, R486). -/
def freeReserve (s : State) (d : Nat) : List Nat :=
  ((List.range 8).map fun r => 256 * d + 32 * r + 16).filter fun pt => !serving s pt && !(tileAt s pt).ret.tilePend

def linkCfg (s : State) : Nat := fields [(15, 0), (1, b2n s.split), (8, s.host.speed), (8, s.host.width)]

def devReg (s : State) (off : Nat) : Nat :=
  if off = 0x1000 then linkCfg s
  else if 0x1200 ≤ off ∧ off < 0x1300 then
    let p := (off - 0x1200) / 0x80
    if setExists s p then jobReg (jobOf s p) (off % 0x80) else 0
  else if off = 0x1400 then
    fields [(7, 0), (9, s.sec.records.length), (4, if s.start.tpendFull then 15 else (pendingTiles s).length), (4, min 15 s.sec.volatile.length),
            (4, 8 - (freeReserve s 1).length), (4, 8 - (freeReserve s 0).length)]
  else if off = 0x1404 then fields [(4, s.start.cause), (12, 0), (16, s.start.causeCode.toNat)]
  else 0

/-- A mailbox word (R470). -/
def mbxReg (m : Mailbox) (x : Nat) : Nat :=
  if x = 0x00 then fields [(1, b2n m.owner), (7, 0), (8, m.opcode.toNat), (16, m.tag.toNat)]
  else if x = 0x04 then fields [(7, 0), (9, m.lenOut.toNat), (7, 0), (9, m.lenIn.toNat)]
  else if x = 0x08 then m.status.toNat
  else if x = 0x0C then b2n m.part
  else if x = 0x10 then m.seq.toNat
  else if x = 0x14 then m.time.toNat
  else if x = 0x18 then m.drop.toNat
  else if 0x40 ≤ x then leNat (mread m.payload (x - 0x40) 4)
  else 0

def irqReg (s : State) (off : Nat) : Nat :=
  if off = 0x20000 then fields [(1, 1), (20, 0), (11, s.host.irqStatus.toNat)]
  else if off = 0x20004 then s.host.irqMask.toNat
  else if 0x30000 ≤ off ∧ off < 0x30400 then
    let i := (off - 0x30000) / 4
    let w := tget 0 s.host.msix i
    (if i % 4 = 3 then w ^^^ 1 else w).toNat
  else if off = 0x31000 then s.host.pba.toNat % 2 ^ 32
  else if off = 0x31004 then s.host.pba.toNat / 2 ^ 32
  else 0

/-- May a channel serve a partition's Reserve (R384)? -/
def reserveFor (s : State) (p n : Nat) : Bool := if s.split then decide (n % 4 / 2 = p) else true

/-- Free Reserve channels of a partition, and its slots that await a replacement (R402). -/
def freeChannels (s : State) (p : Nat) : List Nat := (List.range 52).filter fun n => decide ((chanAt s n).state = 1) && reserveFor s p n
def pendingChannels (s : State) (p : Nat) : List Nat :=
  (List.range 52).filter fun n => let c := chanAt s n; decide (c.slot ≠ 0xFF) && decide (c.part = p) && decide (c.state = 2 ∨ c.state = 4)

def memReg (s : State) (x : Nat) : Nat :=
  let c := chanAt s (x / 4 % 64)
  if 208 ≤ x % 0x100 ∧ x < 0x400 then 0
  else if x < 0x100 then fields [(3, c.state), (5, 0), (1, c.part), (7, 0), (8, c.slot), (8, 0)]
  else if x < 0x200 then c.ce.toNat
  else if x < 0x300 then c.ue.toNat
  else if x < 0x400 then c.link.toNat
  else if x = 0x400 ∨ x = 0x440 then
    let p := (x - 0x400) / 0x40
    if setExists s p then
      fields [(1, 1), (7, 0), (8, if s.split then 24 else 48), (8, 0), (4, (freeChannels s p).length), (4, (pendingChannels s p).length)]
    else 0
  else 0

def cwyReg (s : State) (x : Nat) : Nat :=
  if x < 0x500 then
    let n := x / 0x100
    let c := portAt s n
    let y := x % 0x100
    if y = 0x00 then fields [(3, c.state), (3, c.mode), (1, b2n c.assigned), (1, if c.assigned then c.part else 0), (6, 0), (2, if c.assigned then c.jport else 0), (16, 0)]
    else if y = 0x08 then (Config.mac n).toNat % 2 ^ 32
    else if y = 0x0C then (Config.mac n).toNat / 2 ^ 32
    else if y = 0x28 then c.fecu.toNat
    else if y = 0x2C then c.badf.toNat
    else if y = 0x38 then c.linkdn.toNat
    else 0
  else if 0x800 ≤ x ∧ x < 0xA00 then
    let q := (x - 0x800) / 0x100
    let y := x % 0x100
    if !setExists s q then 0
    else if y = 0x10 then (jobOf s q).nack.toNat
    else if y = 0x14 then (jobOf s q).lost.toNat
    else 0
  else 0

def sluReg (s : State) (x : Nat) : Nat :=
  let w := windowAt s (x / 0x20)
  let y := x % 0x20
  if 0x2000 ≤ x then 0
  else if y = 0x00 then w.base % 2 ^ 32
  else if y = 0x04 then w.base / 2 ^ 32
  else if y = 0x08 then w.len
  else if y = 0x0C then fields [(1, b2n w.isOpen), (2, 0), (5, w.stream), (8, w.tile), (16, w.gen.toNat)]
  else if y = 0x18 then w.drop.toNat
  else 0

def bankCode : BankState → Nat
  | .unassigned => 0 | .ready => 1 | .draining => 2 | .clearing => 3

def fenReg (s : State) (d y : Nat) : Nat :=
  let f := fenOf s d
  if y < 0x80 then
    let b := bankAt s d (y / 4)
    fields [(3, 0), (3, bankCode b.state), (2, b.mode), (7, 0), (1, b.part), (16, 0)]
  else if y = 0x80 then f.ce.toNat
  else if y = 0x84 then f.ue.toNat
  else if 0x800 ≤ y ∧ y < 0xC00 then (tget {} f.wcs ((y - 0x800) / 4)).val.toNat
  else if 0xC00 ≤ y then (tget {} f.wcs ((y - 0xC00) / 4)).limit.toNat
  else 0

def ldgReg (r : LedgerRing) (y : Nat) : Nat :=
  if y = 0x00 then r.base % 2 ^ 32
  else if y = 0x04 then r.base / 2 ^ 32
  else if y = 0x08 then fields [(1, b2n r.valid), (1, b2n r.headValid), (4, 0), (9, r.nrec), (17, r.depth)]
  else if y = 0x18 then r.werr.toNat
  else 0

/-- TILE_STREAM.state (R318). -/
def streamState (x : Tile) (k : Nat) : Nat :=
  let st := streamOf x k
  if st.stopped then 0
  else if st.atBeat.isSome then 4
  else
    match pendingOf x k with
    | none => 1
    | some q =>
      let blocked := match q.op with
        | .sema 0 sx n => decide (semOf x sx < n)
        | _ => false
      if blocked then 3 else if hazardFree x (pendings x) q then 1 else 2

def tileReg (s : State) (t y : Nat) : Nat :=
  let pt := physTile s t
  let x := tileAt s pt
  let e := x.err
  let used := (x.ret.map.filter fun m => decide (64 ≤ m.2)).length
  if y = 0x000 then fields [(6, 0), (1, b2n x.ret.tilePend), (9, pt), (8, 0), (8, t)]
  else if 0x200 ≤ y ∧ y < 0x280 then fields [(16, (streamOf x ((y - 0x200) / 4)).satThresh.toNat), (16, 0)]
  else if y = 0x300 then e.macroCe.toNat
  else if y = 0x304 then e.macroUe.toNat
  else if y = 0x308 then e.abft.toNat
  else if y = 0x310 then x.ret.mret.toNat % 2 ^ 32
  else if y = 0x314 then x.ret.mret.toNat / 2 ^ 32 % 2 ^ 32
  else if y = 0x318 then x.ret.mret.toNat / 2 ^ 64
  else if y = 0x31C then fields [(12, 0), (4, x.ret.pend.length), (4, 0), (4, used), (4, 0), (4, freeMacros x.ret)]
  else if y = 0x320 then e.acmCe.toNat
  else if y = 0x324 then e.acmUe.toNat
  else if y = 0x348 then e.updCrc.toNat
  else if y = 0x360 then e.spsCe.toNat
  else if y = 0x364 then e.spsUe.toNat
  else if y = 0x3B0 then e.tspCe.toNat
  else if y = 0x3B4 then e.tspUe.toNat
  else if 0x400 ≤ y ∧ y < 0x440 then semOf x ((y - 0x400) / 4)
  else if y = 0x450 then e.istCe.toNat
  else if y = 0x454 then e.istUe.toNat
  else if y = 0x460 then fields [(1, b2n x.fault.valid), (7, 0), (8, x.fault.more.toNat), (16, x.fault.code.toNat)]
  else if y = 0x464 then fields [(3, 0), (5, x.fault.stream.toNat), (6, x.fault.tag.toNat), (1, b2n x.fault.notag), (5, 0), (12, x.fault.index.toNat)]
  else if 0x480 ≤ y ∧ y < 0x500 then
    fields [(3, streamState x ((y - 0x480) / 4)), (17, 0), (12, (streamOf x ((y - 0x480) / 4)).pc.toNat)]
  else 0

/-- AWAITING bytes of a partition (R511). -/
def awaitingBytes (s : State) (p : Nat) : Nat := ((awaitingRuns s (memBase s p) (memSize s)).map (·.2)).foldl (· + ·) 0

/-- Pages a partition keeps (R514). -/
def keptPages (s : State) (p : Nat) : List Page :=
  (tilesOf s p).flatMap fun t => ((tileAt s (physTile s t)).pages.map (·.2)).filter fun g => g.handle.isSome

/-- Slots in a state, as a mask. -/
def slotMask (x : Security) (st : Nat) : Nat := sumTo 4 fun k => if (nth {} x.slots k).state = st then 2 ^ k else 0

def secReg (s : State) (x : Nat) : Nat :=
  let c := s.sec
  if x = 0x00 then
    fields [(2, c.lifecycle), (1, b2n c.debugDis), (1, b2n c.enforce), (4, slotMask c 2), (4, slotMask c 1), (2, 0),
            (1, b2n c.fallback), (1, b2n c.slotB), (8, 0), (8, c.counter)]
  else if x = 0x04 then c.run.version.toNat
  else if x = 0x08 then ((c.staged.map (·.version.toNat)).getD 0)
  else if x = 0x0C then c.journal.toNat
  else if 0x100 ≤ x ∧ x < 0x120 then
    let p := (x - 0x100) / 0x10
    let kept := keptPages s p
    let tenant := ((kept.head?).map (·.tenant)).getD 0
    if !setExists s p then 0
    else if x % 0x10 = 0x0 then
      let n := if c.clearing then awaitingBytes s p else 0
      fields [(1, b2n (decide (0 < n))), (22, 0), (9, cdiv n gib)]
    else if x % 0x10 = 0x4 then fields [(1, b2n !kept.isEmpty), (13, 0), (18, kept.length)]
    else if x % 0x10 = 0x8 then tenant % 2 ^ 32
    else tenant / 2 ^ 32
  else 0

/-- The word at an offset of BAR0 as it stands; high words of RS pairs are their latches. -/
def regWord (s : State) (off : Nat) : BitVec 32 :=
  match rsPair s off, (if 4 ≤ off then rsPair s (off - 4) else none) with
  | some q, _ => q.low
  | none, some q => q.latch
  | none, none =>
    BitVec.ofNat 32 (
      if off < 0x1000 then geoReg off
      else if off < 0x10000 then devReg s off
      else if off < 0x11000 then mbxReg (mbxAt s ((off - 0x10000) / 0x200)) (off % 0x200)
      else if 0x20000 ≤ off ∧ off < 0x40000 then irqReg s off
      else if 0x100000 ≤ off ∧ off < 0x200000 then memReg s (off - 0x100000)
      else if 0x200000 ≤ off ∧ off < 0x300000 then cwyReg s (off - 0x200000)
      else if 0x300000 ≤ off ∧ off < 0x400000 then sluReg s (off - 0x300000)
      else if 0x400000 ≤ off ∧ off < 0x402000 then fenReg s ((off - 0x400000) / 0x1000) (off % 0x1000)
      else if 0x500000 ≤ off ∧ off < 0x500200 then
        (if setExists s ((off - 0x500000) / 0x100) then ldgReg (jobOf s ((off - 0x500000) / 0x100)).ring (off % 0x100) else 0)
      else if 0x1000000 ≤ off ∧ off < 0x1400000 then tileReg s ((off - 0x1000000) / 0x4000) (off % 0x4000)
      else if 0x1800000 ≤ off then secReg s (off - 0x1800000)
      else 0)

/-! ## Reads of BAR0 (R13, R15, R447, R544) -/

/-- Words a BAR0 read returns, and the state with its latches loaded. -/
def bar0Read (s : State) (off : Nat) (wide : Bool) : State × List (BitVec 32) :=
  if inService s = false ∧ 0x1000 ≤ off then (s, if wide then [0, 0] else [0])
  else
    match rsPair s off with
    | some q => (q.after, if wide then [q.low, q.high] else [q.low])
    | none => (s, if wide then [regWord s off, regWord s (off + 4)] else [regWord s off])

/-- A read of BAR0 of some bytes; a read of an RS pair's low word loads its latch. -/
def execRsLowRead (off size : Nat) (s : State) : Out :=
  if !s.host.linkUp then .next s
  else if s.host.d3hot ∨ (size ≠ 4 ∧ size ≠ 8) ∨ off % size ≠ 0 ∨ 2 ^ 25 < off + size then .next (unsupported s)
  else
    let r := bar0Read s off (decide (size = 8))
    .next (answer r.1 0 (r.2.flatMap fun w => leBytes 4 w.toNat))

end Sys2Proof.Machine
end

