-- ==== Sys2Proof/Machine/Mailbox.lean ====
section
/-!
DEFINITION. The mailboxes and the commands the MP runs from them, but LOAD_PLAN (R347, R351, R402, R413, R414,
R448, R453 to R464, R496 to R516).
-/
namespace Sys2Proof.Machine

/-! ## The handshake (R453 to R458) -/

/-- What a host write of a word does to a mailbox that the host owns. -/
def mbxStore (s : State) (k off v now : Nat) : State :=
  if off = 0x00 then
    let hand := decide (2 ^ 31 ≤ v % 2 ^ 32)
    let s := modMbx s k fun m => { m with opcode := BitVec.ofNat 8 (v / 2 ^ 16), tag := BitVec.ofNat 16 v }
    if hand then
      let s := modMbx s k fun m => { m with owner := true, order := s.host.orders, handoff := now, arrival := now, cmd := none }
      { s with host := { s.host with orders := s.host.orders + 1 } }
    else s
  else if off = 0x04 then modMbx s k fun m => { m with lenIn := BitVec.ofNat 9 v }
  else if off = 0x0C then modMbx s k fun m => { m with part := decide (v % 2 = 1) }
  else if 0x40 ≤ off ∧ off < 0x200 then modMbx s k fun m => { m with payload := mwrite m.payload (off - 0x40) (leBytes 4 v) }
  else s

/-- A 32-bit host write to a mailbox: dropped and counted while the MP owns it, ignored before READY (R455). -/
def mailboxWrite (s : State) (k off v now : Nat) : State :=
  if !inService s then s
  else if (mbxAt s k).owner then modMbx s k fun m => { m with drop := errAdd m.drop 1 }
  else mbxStore s k off v now

def execMailboxWrite (k : Fin 8) (off : Nat) (v : BitVec 32) (now : Nat) (s : State) : Out :=
  let s := atTime s now
  if off % 4 = 0 ∧ off < 0x200 ∧ barReach s = true then .next (mailboxWrite s k off v.toNat now) else .next s

/-- A listed command: opcode, input length, reserved input bytes as (offset, length), and its scope: 0 free of
R456, 1 partition, 2 device, 3 partition-scoped but free of R456 (R456, R459, R460). -/
structure CmdRow where
  opcode : Nat
  lenIn : Nat
  rsvd : List (Nat × Nat)
  scope : Nat

def cmdRows : List CmdRow := [
  ⟨0x01, 0, [], 0⟩, ⟨0x02, 0, [], 0⟩, ⟨0x10, 104, [(26, 2), (37, 3)], 1⟩, ⟨0x11, 20, [], 1⟩, ⟨0x12, 8, [], 1⟩, ⟨0x13, 0, [], 3⟩,
  ⟨0x14, 0, [], 3⟩, ⟨0x15, 0, [], 3⟩, ⟨0x18, 0, [], 1⟩, ⟨0x19, 16, [], 1⟩, ⟨0x20, 4, [], 0⟩, ⟨0x21, 56, [], 3⟩, ⟨0x22, 2, [], 0⟩,
  ⟨0x23, 201, [(2, 2), (101, 3)], 2⟩, ⟨0x30, 12, [], 2⟩, ⟨0x31, 0, [], 2⟩, ⟨0x32, 1, [], 2⟩, ⟨0x38, 8, [], 0⟩, ⟨0x39, 32, [(1, 7)], 0⟩]

def rowOf (op : Nat) : Option CmdRow := cmdRows.find? fun r => decide (r.opcode = op)
def scopeOf (m : Mailbox) : Nat := ((rowOf m.opcode.toNat).map (·.scope)).getD 0

/-- Partition a mailbox names. -/
def partNamed (m : Mailbox) : Nat := b2n m.part

/-- Must the command wait for an earlier one of the same partition, or across a device command? A KILL acts at once, and until
it completes what waited, or comes later, waits for it (R456). -/
def mustWait (s : State) (k : Nat) : Bool :=
  let m := mbxAt s k
  let sc := scopeOf m
  (List.range 8).any fun i =>
    let x := mbxAt s i
    let y := scopeOf x
    let kill := decide (x.opcode = 0x13)
    let first := decide (x.order < m.order)
    x.owner && decide (i ≠ k) &&
      ((decide (sc = 1) && ((first && decide (y = 1) || kill && (first || x.cmd.isSome)) && decide (partNamed x = partNamed m) || first && decide (y = 2))) ||
       (decide (sc = 2) && (first && decide (y = 1 ∨ y = 2) || kill && (first || x.cmd.isSome))))

/-- A command's work has ended. -/
def finish (s : State) (k status : Nat) (out : List Byte) : State :=
  modMbx s k fun m => { m with cmd := some { status := status, out := out, ended := true } }

/-- A BAR2 write that arrived earlier still waits for its channel (R450). -/
def hostWaits (s : State) : Bool :=
  (s.host.waits.any fun w => match w with | .write .. => true | _ => false) || s.chans.any fun c => c.waiting.any fun r => decide (r.cls = .host)

/-- The MP takes the command of mailbox `k` if it holds this opcode: first the checks of every command. -/
def take (s : State) (k op : Nat) (run : State → Mailbox → Nat → State) : Out :=
  let m := mbxAt s k
  if !inService s || !m.owner || m.cmd.isSome || decide (m.opcode.toNat ≠ op) then .next s
  else
    match rowOf op with
    | none => .next s
    | some r =>
      if m.lenIn.toNat ≠ r.lenIn then .next (finish s k 2 [])
      else if (r.scope % 2 = 1 ∧ m.part = true ∧ s.split = false) ∨ (r.rsvd.any fun z => decide (inp m z.1 z.2 ≠ 0)) = true then .next (finish s k 3 [])
      else if mustWait s k || hostWaits s then .next s
      else .next (run s m (partNamed m))

/-- Every partition is IDLE. -/
def allIdle (s : State) : Bool := (partitions s).all fun p => decide ((jobOf s p).state = .idle)

/-- Does a device range of a command leave LPDDR5X, or the partition's range (R461)? -/
def outside (a n : Nat) : Bool := decide (memTop < a + n)
def outsidePart (s : State) (p a n : Nat) : Bool := decide (a < memBase s p) || decide (memBase s p + memSize s < a + n)

/-! ## Identity, geometry and state (R460) -/

/-- Byte 21 of IDENTIFY; its bit 0 has two meanings, and is open where they differ. -/
def identify21 (x : Security) : Nat :=
  let en := slotMask x 1
  let b0 := if x.enforce = bit en 0 then x.enforce else Config.identifyBit x.enforce (bit en 0)
  16 * slotMask x 2 + en / 2 * 2 + b2n b0

def identifyOut (s : State) : List Byte :=
  let x := s.sec
  leBytes 8 Config.serial.toNat ++ leBytes 4 x.run.version.toNat ++ leBytes 4 ((x.staged.map (·.version.toNat)).getD 0) ++
    [BitVec.ofNat 8 x.lifecycle, BitVec.ofNat 8 (b2n s.split), BitVec.ofNat 8 s.host.speed, BitVec.ofNat 8 s.host.width,
     BitVec.ofNat 8 x.counter, BitVec.ofNat 8 (identify21 x), 0, 0] ++ leBytes 8 x.readyPwr.toNat

def execIdentify (k : Fin 8) (s : State) : Out := take s k 0x01 fun s _ _ => finish s k 0 (identifyOut s)

/-- Header bytes 48 to 59 of a plan for the geometry (R333). -/
def geometry (dies part tiles channels ports : Nat) : List Byte :=
  leBytes 1 dies ++ leBytes 1 part ++ leBytes 2 tiles ++ leBytes 1 64 ++ leBytes 1 8 ++ leBytes 1 channels ++ leBytes 1 ports ++ leBytes 1 32 ++ [0] ++ leBytes 2 256

def geometryOut (s : State) : List Byte :=
  let half := if s.split then geometry 1 1 128 24 2 else zeros 12
  let macros := sumTo 256 fun t => freeMacros (tileAt s (physTile s t)).ret
  let chans := ((List.range 52).filter fun n => decide ((chanAt s n).state = 1)).length
  let port := decide ((portAt s 4).assigned = false ∧ (portAt s 4).state ≠ 3)
  geometry 2 0 256 48 4 ++ zeros 4 ++ half ++ zeros 4 ++ half ++ zeros 4 ++ leBytes 2 macros ++ leBytes 1 chans ++ leBytes 1 (b2n port) ++
    leBytes 2 s.sec.records.length

def execGetGeometry (k : Fin 8) (s : State) : Out := take s k 0x02 fun s _ _ => finish s k 0 (geometryOut s)

def queryOut (j : Job) : List Byte :=
  leBytes 1 j.state.code ++ leBytes 1 j.outcome ++ leBytes 2 j.code.toNat ++ leBytes 4 j.whereW.toNat ++ leBytes 8 j.id.toNat ++
    leBytes 6 j.beat.toNat ++ leBytes 2 j.orig ++ leBytes 4 j.slack.toNat ++ leBytes 8 j.planId

def execQueryJob (k : Fin 8) (s : State) : Out := take s k 0x14 fun s _ p => finish s k 0 (queryOut (jobOf s p))

def ledgerOut (r : LedgerRing) : List Byte :=
  leBytes 8 r.base ++ leBytes 4 r.depth ++ leBytes 2 r.nrec ++ leBytes 1 (b2n r.valid + 2 * b2n r.headValid) ++ [0] ++ leBytes 6 r.head.toNat

def execReadLedgerPointer (k : Fin 8) (s : State) : Out := take s k 0x15 fun s _ p => finish s k 0 (ledgerOut (jobOf s p).ring)

/-! ## ARM, START, KILL (R351, R413, R414, R435, R459) -/

/-- An entry of the member table for job port `k` of member `m`. -/
def tableMac (tb : List Byte) (m k : Nat) : List Byte := (tb.drop (64 + 128 * m + 24 * k)).take 6
def tableIp (tb : List Byte) (m k : Nat) : List Byte := (tb.drop (72 + 128 * m + 24 * k)).take 16
def allZero (bs : List Byte) : Bool := bs.all fun b => decide (b = 0)

/-- MAC of a physical port in network byte order (R411). -/
def portMac (n : Nat) : List Byte := beBytes 6 (Config.mac n).toNat

/-- R414's refusals of a member table: every address a frame needs is there, and every reserved byte is 0. -/
def tableBad (s : State) (p : Nat) (tb : List Byte) : Bool :=
  let j := jobOf s p
  let encap := fieldAt tb 2 1
  let vlan := fieldAt tb 4 2
  let rsvd := allZero ((tb.drop 3).take 1) && allZero ((tb.drop 12).take 52) && decide (fieldAt tb 6 1 < 8) && decide (fieldAt tb 7 1 < 8) &&
    decide (fieldAt tb 8 1 < 64) && decide (fieldAt tb 9 1 < 64) && decide (vlan < 4096 ∨ vlan = 0xFFFF) && decide (encap ≤ 1)
  let entry (m : Nat) : Bool :=
    allZero ((tb.drop (160 + 128 * m)).take 32) &&
      ((List.range 4).all fun k => allZero ((tb.drop (70 + 128 * m + 24 * k)).take 2)) &&
      (List.range j.ports).all fun k =>
        let ip := tableIp tb m k
        !allZero (tableMac tb m k) && (if encap = 1 then !allZero ip else allZero ip)
  let own := (List.range j.ports).all fun k => match physPort s p k with
    | some n => decide (tableMac tb j.member k = portMac n)
    | none => false
  !(decide (fieldAt tb 0 2 + 1 = j.gsize) && rsvd && decide (fieldAt tb 6 1 ≠ fieldAt tb 7 1) && ((List.range j.gsize).all entry) && own)

/-- The table as the transport engine keeps it. -/
def readTable (j : Job) (tb : List Byte) : MemberTable :=
  { n := j.gsize, encap := fieldAt tb 2 1, vlan := fieldAt tb 4 2, pcpData := fieldAt tb 6 1, pcpCtl := fieldAt tb 7 1
    dscpData := fieldAt tb 8 1, dscpCtl := fieldAt tb 9 1, udpPort := (if fieldAt tb 10 2 = 0 then 47290 else fieldAt tb 10 2)
    addrs := (List.range j.gsize).map fun m =>
      { macs := (List.range j.ports).map fun k => tableMac tb m k, ips := (List.range j.ports).map fun k => tableIp tb m k } }

/-- Members an ARM contacts: barrier-tree neighbours and SEND peers (R435). -/
def contacts (j : Job) : List Nat := (neighbours j ++ j.peers.filter fun m => !(neighbours j).contains m).filter fun m => decide (m ≠ j.member)

def runArm (s : State) (k : Nat) (m : Mailbox) (p : Nat) (errs : List MemErr) : State :=
  let j := jobOf s p
  let a := inp m 0 8
  let n := inp m 8 4
  if j.state ≠ .loaded then finish s k 4 []
  else if a % 64 ≠ 0 ∨ n ≠ 64 + 128 * j.gsize then finish s k 3 []
  else if outside a n || outsidePart s p a n then finish s k 0xC []
  else if rangeRetrains s a n then s
  else
    let r := cmdRead s errs a n
    let s := r.1
    let tb := mread s.mem a n
    if r.2 then finish s k 0xD []
    else if tableBad s p tb then finish s k 3 []
    else
      let s := modMbx s k fun m => { m with cmd := some {} }
      let s := modJob s p fun j =>
        { j with table := readTable j tb, arming := true, armBox := some k, awaiting := contacts j, armFrom := s.now
                 tick := { j.tick with second := if j.pps then inp m 12 8 else j.tick.second } }
      tryArmed (sendHellos s p) p

/-- ARM: the member table is read from device memory, which its channels must serve (R400); `errs` are the codewords the
read finds in error. -/
def execArm (k : Fin 8) (errs : List MemErr) (now : Nat) (s : State) : Out :=
  take (atTime s now) k 0x11 fun s m p => runArm s k m p errs

/-- Is a computed plan power above the present cap, with the other partition's plan (R347)? -/
def overCap (s : State) (p power : Nat) : Bool :=
  let o := jobOf s (1 - p)
  let other := if s.split && faultable o.state then o.power else 0
  decide (1000 * s.bal.cap < power + other)

def runStart (s : State) (k : Nat) (m : Mailbox) (p : Nat) : State :=
  let j := jobOf s p
  let s0 := inp m 0 8
  if j.state ≠ .armed then finish s k 4 []
  else if !j.tick.locked then finish s k 7 []
  else if s0 < j.tickOf m.arrival + 1000000 ∨ j.tickOf m.arrival + 60000000000 < s0 then finish s k 3 []
  else if overCap s p j.power then finish s k 8 []
  else
    let s := modJob s p fun j => { j with s0 := some s0, sn := s0, j := 0, part := .off, nextStart := none, txFlows := [], rxFlows := [], rxHeld := [], sends := [] }
    let s := (diesOf s p).foldl (fun s d => modDie s d fun x => { x with tilePhase := [], stretchBeat := 0 }) s
    finish (setJobState s p .running) k 0 []

def execStart (k : Fin 8) (now : Nat) (s : State) : Out := take (atTime s now) k 0x12 fun s m p => runStart s k m p

/-- Outcome KILL reports (R460). -/
def killOutcome (j : Job) : Nat :=
  if j.state = .idle then 0
  else if j.state = .done ∨ (j.state = .scrubbing ∧ j.outcome = 1) then 1
  else if j.state = .faulted ∨ (j.state = .scrubbing ∧ j.outcome = 2) then 2
  else 3

/-- A LOAD_PLAN in progress is abandoned. -/
def abortLoad (s : State) (p : Nat) : State :=
  modJob (endBox s (jobOf s p).loadBox 10 []) p fun j => { j with loadBox := none }

/-- KILL acts at once, and completes when the partition is IDLE. -/
def runKill (s : State) (k p : Nat) : State :=
  let out := leBytes 1 (killOutcome (jobOf s p))
  let s := abortLoad s p
  let s := enterKilled s p (jobOf s p).member none
  modMbx s k fun m => { m with cmd := some { status := 0, out := out, ended := decide ((jobOf s p).state = .idle) } }

def execKill (k : Fin 8) (now : Nat) (s : State) : Out := take (atTime s now) k 0x13 fun s _ p => runKill s k p

/-! ## Retained pages (R513, R516) -/

def runRetain (s : State) (k p : Nat) : State :=
  let j := jobOf s p
  if !faultable j.state then finish s k 4 []
  else
    match j.handle with
    | some h => finish s k 0 (leBytes 8 h.toNat)
    | none =>
      let h := Config.randomBits s.sec.draws
      let s := { s with sec := { s.sec with draws := s.sec.draws + 1 } }
      finish (modJob s p fun j => { j with handle := some h }) k 0 (leBytes 8 h.toNat)

def execRetain (k : Fin 8) (s : State) : Out := take s k 0x18 fun s _ p => runRetain s k p

/-- Clear the kept pages of a partition that meet a test. -/
def clearKept (s : State) (p : Nat) (which : Page → Bool) : State :=
  (tilesOf s p).foldl (fun s t => modTile s (physTile s t) fun x =>
    { x with pages := x.pages.filter fun e => !(e.2.handle.isSome && which e.2) }) s

def runRelease (s : State) (k : Nat) (m : Mailbox) (p : Nat) : State :=
  let tenant := inp m 0 8
  let h := inp m 8 8
  if (jobOf s p).state ≠ .idle then finish s k 4 []
  else if !((keptPages s p).any fun g => decide (g.tenant = tenant) && decide (g.handle = some h)) then finish s k 0xB []
  else finish (clearKept s p fun g => decide (g.tenant = tenant) && decide (g.handle = some h)) k 0 []

def execReleaseRetained (k : Fin 8) (s : State) : Out := take s k 0x19 fun s m p => runRelease s k m p

/-! ## Certificates, attestation, the journal (R496, R501, R502, R506) -/

def chainOut (s : State) (off : Nat) : List Byte :=
  let c := certChain s.sec
  let bs := (c.drop off).take 432
  leBytes 4 c.length ++ leBytes 4 bs.length ++ zeros 8 ++ bs

def execGetCertChain (k : Fin 8) (s : State) : Out := take s k 0x20 fun s m _ => finish s k 0 (chainOut s (inp m 0 4))

/-- Bytes 0 to 415 of an attestation report. -/
def report (s : State) (p : Nat) (nonce : List Byte) : List Byte :=
  let x := s.sec
  let j := jobOf s p
  let loaded := decide (j.state ≠ .idle)
  leBytes 4 0x54414B52 ++ leBytes 2 1 ++ leBytes 2 512 ++ nonce ++ leBytes 8 Config.serial.toNat ++ leBytes 4 x.run.version.toNat ++
    leBytes 1 x.lifecycle ++ leBytes 1 (b2n s.split + 2 * p + 4 * b2n x.enforce + 8 * b2n x.debugDis + 16 * b2n x.fallback) ++
    leBytes 1 j.state.code ++ leBytes 1 j.ownerSlot ++ leBytes 2 x.counter ++ leBytes 2 x.journal.toNat ++
    leBytes 4 (x.readyPwr.toNat % 2 ^ 32) ++ fwDigest x ++ (if j.mPlan.isEmpty then zeros 48 else j.mPlan) ++ fuseDigest x ++
    sha384 (x.records.flatten ++ (x.volatile.map (·.2)).flatten) ++ leBytes 8 (if loaded then j.id.toNat else 0) ++
    leBytes 8 (if loaded then j.tenant else 0) ++ leBytes 8 (if loaded then j.planId else 0) ++ zeros 120

/-- ATTEST signs its report with the alias key of the boot, and writes it to device memory (R497, R501). -/
def runAttest (s : State) (k : Nat) (m : Mailbox) (p : Nat) : State :=
  let a := inp m 48 8
  if s.sec.lifecycle = 2 then finish s k 4 []
  else if a % 64 ≠ 0 then finish s k 3 []
  else if outside a 512 || outsidePart s p a 512 then finish s k 0xC []
  else if rangeRetrains s a 512 then s
  else if rangeDead s a 512 then finish s k 0xD []
  else
    let r := report s p (inpB m 0 48)
    let sig := ecdsaSign s.sec.aliasKey (signSecret s.sec) (sha384 r)
    let s := touchAwaiting { s with sec := { s.sec with draws := s.sec.draws + 7 } } a 512
    finish (charge { s with mem := mwrite s.mem a ((r ++ sig).take 512) } .maint none a 512) k 0 (leBytes 4 512)

def execAttest (k : Fin 8) (s : State) : Out := take s k 0x21 fun s m p => runAttest s k m p

/-- Entries of the fuse journal from a position (R506). -/
def journalOut (s : State) (first : Nat) : List Byte :=
  let n := s.sec.journal.toNat
  let es := (List.range (min 13 (min n 256 - first))).map fun i => tget [] s.sec.entries (first + i)
  leBytes 2 n ++ leBytes 2 es.length ++ zeros 12 ++ es.flatten

def execFuseJournal (k : Fin 8) (s : State) : Out :=
  take s k 0x22 fun s m _ => if 255 < inp m 0 2 then finish s k 3 [] else finish s k 0 (journalOut s (inp m 0 2))

/-! ## Owner keys (R503, R504) -/

/-- Does the request carry a valid authorisation by an ENROLLED slot? -/
def authorised (s : State) (m : Mailbox) : Bool :=
  let a := inp m 200 1
  let slot := nth {} s.sec.slots a
  let msg := inpB m 0 104 ++ leBytes 8 Config.serial.toNat ++ leBytes 2 s.sec.journal.toNat
  decide (a < 4) && decide (slot.state = 1) && ecdsaVerify slot.key (sha384 msg) (inpB m 104 48) (inpB m 152 48)

def setSlot (s : State) (i : Nat) (x : KeySlot) : State := { s with sec := { s.sec with slots := setAt s.sec.slots i x } }

/-- The checks common to the three operations, then the operation. -/
def ownerKey (s : State) (k : Nat) (op : Nat) (now : Nat) (run : State → Mailbox → Nat → State) : Out :=
  let s := atTime s now
  if inp (mbxAt s k) 0 1 ≠ op ∧ ¬(op = 2 ∧ 2 < inp (mbxAt s k) 0 1) then .next s
  else
    take s k 0x23 fun s m _ =>
      if 2 < inp m 0 1 ∨ 3 < inp m 1 1 then finish s k 3 []
      else if !allIdle s then finish s k 4 []
      else run s m (inp m 1 1)

def execOwnerKeyEnrol (k : Fin 8) (now : Nat) (s : State) : Out :=
  ownerKey s k 0 now fun s m slot =>
    let key := inpB m 4 97
    let virgin := s.sec.slots.all fun x => decide (x.state = 0)
    if !validPoint key then finish s k 3 []
    else if !(s.sec.slots.any fun x => decide (x.state = 0)) then finish s k 0xF []
    else if (nth {} s.sec.slots slot).state ≠ 0 then finish s k 4 []
    else if !(if virgin then decide (inp m 200 1 = 0xFF) else authorised s m) then finish s k 0xB []
    else finish (journalEntry (setSlot s slot { state := 1, key := key }) 1 [BitVec.ofNat 8 slot]) k 0 []

def execOwnerKeyRevoke (k : Fin 8) (now : Nat) (s : State) : Out :=
  ownerKey s k 1 now fun s m slot =>
    let x := nth {} s.sec.slots slot
    let others := (List.range 4).any fun i => decide (i ≠ slot) && decide ((nth {} s.sec.slots i).state = 1)
    if x.state ≠ 1 ∨ (s.sec.enforce = true ∧ others = false) then finish s k 4 []
    else if !authorised s m then finish s k 0xB []
    else finish (journalEntry (setSlot s slot { x with state := 2 }) 2 [BitVec.ofNat 8 slot]) k 0 []

def execOwnerKeySetEnforce (k : Fin 8) (now : Nat) (s : State) : Out :=
  ownerKey s k 2 now fun s m _ =>
    if s.sec.enforce then finish s k 4 []
    else if !authorised s m then finish s k 0xB []
    else finish (journalEntry { s with sec := { s.sec with enforce := true } } 3 []) k 0 []

/-! ## Firmware (R462, R468, R498, R500) -/

/-- A PLDM update is in progress (R468). -/
def updating (s : State) : Bool := decide (s.side.fd ≠ .idle)

/-- FW_STAGE verifies an image and writes it to the inactive slot (R500). -/
def runFwStage (s : State) (k : Nat) (m : Mailbox) (errs : List MemErr) : State :=
  let a := inp m 0 8
  let n := inp m 8 4
  if updating s then finish s k 0x11 []
  else if a % 64 ≠ 0 ∨ 2 ^ 24 < n ∨ n = 0 then finish s k 3 []
  else if outside a n then finish s k 0xC []
  else if rangeRetrains s a n then s
  else
    let c := cmdRead s errs a n
    let s := c.1
    let bs := mread s.mem a n
    let st := verifyImage s.sec bs
    if c.2 then finish s k 0xD []
    else if st ≠ 0 then finish s k st []
    else finish { s with sec := stageImage s.sec bs } k 0 (leBytes 4 (imageOf bs).version.toNat)

def execFwStage (k : Fin 8) (errs : List MemErr) (s : State) : Out := take s k 0x30 fun s m _ => runFwStage s k m errs

/-- FW_ACTIVATE is accepted; the activation begins once its mailbox has returned. -/
def execFwActivate (k : Fin 8) (s : State) : Out :=
  take s k 0x31 fun s _ _ =>
    if updating s then finish s k 0x11 []
    else if !allIdle s || s.sec.staged.isNone then finish s k 4 []
    else finish s k 0 []

/-- The staged slot becomes the active one, READY deasserts and the MP restarts (R462, R500). -/
def beginActivation (s : State) : State :=
  { s with start := { s.start with phase := .activating }, side := { s.side with fd := .idle }
           sec := { openBoot s.sec with activeB := !s.sec.activeB, staged := none, activated := true } }

/-- Steps of the anti-rollback counter up to the running svn, each one fuse write (R500). -/
def advanceCounter : Nat → State → State
  | 0, s => s
  | n + 1, s =>
    if s.sec.counter < s.sec.run.svn then
      advanceCounter n (journalEntry { s with sec := { s.sec with counter := s.sec.counter + 1 } } 4 [BitVec.ofNat 8 (s.sec.counter + 1)])
    else s

/-- READY returns: its counts rise, control is estimate-led (R369), a journal entry that a reset left missing is written, and
the counter advances at the first READY after an activation. -/
def countReady (s : State) : State :=
  let x := s.sec
  let s := mendJournal
    { s with sec := { x with readyEver := x.readyEver + 1, readyPwr := x.readyPwr + 1, readyAt := s.now, activated := false }
             bal := { s.bal with measLed := false, windows := 0 } }
  if x.activated then advanceCounter 128 s else s

/-- Neither slot verifies: the device never becomes READY (R499). -/
def failBoot (s : State) : State := { s with start := { s.start with phase := .bootFailed, faultN := false, squelched := true } }

/-- The MP has restarted on the image of the active slot: a boot, with its checks, its keys and its measurement of the margin
(R379, R462, R497, R498). -/
def execMpRestartReady (now : Nat) (s : State) : Out :=
  let s := atTime s now
  if s.start.phase = .activating then
    match bootFrom s.sec with
    | none => .next (failBoot s)
    | some x =>
      let s := { s with sec := x
                        start := { s.start with phase := .ready, cause := 5, causeCode := 0 }
                        host := { s.host with mbx := s.host.mbx.map fun m => { m with seq := 0 } } }
      .next (raiseCause (countReady (measureMargin (measureMargin s 0 0 0) 1 0 0)) 10)
  else .next s

/-! ## SET_PARTITION (R384, R385, R402, R507) -/

/-- Slot a channel serves before any replacement, 0xFF for the Reserve (R384). -/
def homeSlot (split : Bool) (n : Nat) : Nat := if 48 ≤ n then 0xFF else if split then 2 * (n / 4) + n % 2 else n

/-- The contents of a failed channel are lost: the bytes of its slot read zero from the replacement. -/
def dropSlot (s : State) (p slot : Nat) : State :=
  { s with mem := s.mem.filter fun e => !(decide (partOfAddr s e.1 = p) && decide ((slotOf s e.1).1 = slot)) }

/-- Apply the pending replacements of a partition: lowest-numbered free Reserve channel first (R402). -/
def replaceChannels (s : State) (p : Nat) : State :=
  (pendingChannels s p).foldl (fun s n =>
    match freeChannels s p with
    | r :: _ =>
      let slot := (chanAt s n).slot
      let s := modChan s r fun c => { c with state := 0, part := p, slot := slot }
      dropSlot (modChan s n fun c => { c with state := 3, slot := 0xFF }) p slot
    | [] => s) s

/-- The slot maps of a setting, with the replacements on record applied. A Reserve channel that is marked for replacement
stays marked, and serves no slot of the new map (R385, R397). -/
def rebuildChannels (s : State) : State :=
  let s := { s with chans := (s.chans.zip (List.range 52)).map fun e =>
    let c := e.1
    let lost := deadChan c
    let slot := homeSlot s.split e.2
    { c with part := if s.split && decide (2 ≤ e.2 % 4) then 1 else 0, slot := slot, retraining := false, waiting := []
             state := if c.state = 4 then 4 else if slot = 0xFF then (if lost then 3 else 1) else if lost then 2 else 0 } }
  (partitions s).foldl replaceChannels s

def runSetPartition (s : State) (k : Nat) (m : Mailbox) : State :=
  if 1 < inp m 0 1 then finish s k 3 []
  else if !allIdle s then finish s k 4 []
  else
    let s := (partitions s).foldl (fun s p => clearKept s p fun _ => true) s
    let s := { s with split := decide (inp m 0 1 = 1), segs := [(0, .awaiting)], cache := [], sec := { s.sec with clearing := true }
                      ports := s.ports.map fun x => { x with assigned := false, part := 0, jport := 0 } }
    let s := [0, 1].foldl (fun s d => (List.range 32).foldl (fun s b =>
      modBank s d b fun x => if x.state = .unassigned then x else { x with state := .clearing, release := true }) s) s
    finish (rebuildChannels s) k 0 []

def execSetPartition (k : Fin 8) (s : State) : Out := take s k 0x32 fun s m _ => runSetPartition s k m

/-! ## MAP_BAR2 and HOST_DMA (R448, R463, R464) -/

def bar2Size (s : State) : Nat := 2 ^ s.host.bar2Log * gib

def execMapBar2 (k : Fin 8) (s : State) : Out :=
  take s k 0x38 fun s m _ =>
    let b := inp m 0 8
    if b % bar2Size s ≠ 0 then finish s k 3 []
    else if memTop ≤ b then finish s k 0xC []
    else finish { s with host := { s.host with bar2Base := b } } k 0 []

/-- The field checks of HOST_DMA: a status, 0 for none. -/
def dmaCheck (m : Mailbox) : Nat :=
  let h := inp m 8 8
  let d := inp m 16 8
  let n := inp m 24 8
  if 1 < inp m 0 1 ∨ h % 4 ≠ 0 ∨ d % 32 ≠ 0 ∨ n % 32 ≠ 0 ∨ n < 32 ∨ 2 ^ 32 < n then 3
  else if outside d n then 0xC
  else 0

/-- Toward the device the data follows with the completions of its read requests. -/
def execHostDmaToDevice (k : Fin 8) (s : State) : Out :=
  if inp (mbxAt s k) 0 1 = 1 then .next s
  else
    take s k 0x39 fun s m _ =>
      match dmaCheck m with
      | 0 => modMbx s k fun m => { m with cmd := some {} }
      | st => finish s k st []

/-- Data of a HOST_DMA toward the device arrives: it waits for the channels it is written to (R400). -/
def execHostReadCompletion (k : Fin 8) (bs : List Byte) (cpl : HostCpl) (ecc : Ecc) (s : State) : Out :=
  let m := mbxAt s k
  if !dmaReading m then .next s
  else if cpl ≠ .ok then .next (stopDma (if cpl = .poisoned then logAer s 1 else s) k 0xE (movedBy m))
  else .next (hostAccess s (.fill k bs ecc))

/-- A read request gets no completion in time: the HOST_DMA stops, and the error is logged. -/
def execCompletionTimeout (k : Fin 8) (s : State) : Out :=
  let m := mbxAt s k
  if dmaReading m then .next (stopDma (logAer s 4) k 0xE (movedBy m)) else .next s

/-- Bytes of a range before the first uncorrectable codeword or unserved unit in it, `n` for none. -/
def goodBytes (s : State) (errs : List MemErr) (a n : Nat) : Nat :=
  let bad := (errs.filter fun e => decide (e.ecc = .double) && decide (a ≤ e.addr)).map fun e => 8 * (e.addr / 8) - a
  let dead := ((unitParts a n).filter fun u => deadAt s u.1).map fun u => u.1 - a
  (bad ++ dead).foldl min n

/-- Toward the host: it stops at the first error, of the memory at the codewords `errs`, or of the fabric at `errAt`
(R464). -/
def runDmaToHost (s : State) (k : Nat) (m : Mailbox) (errs : List MemErr) (cpl : HostCpl) (errAt : Nat) : State :=
  match dmaCheck m with
  | 0 =>
    let h := inp m 8 8
    let d := inp m 16 8
    let n := inp m 24 8
    if rangeRetrains s d n then s
    else
      let s := touchAwaiting s d n
      let good := goodBytes s errs d n
      let moved := if cpl = .ok then good else min errAt good
      let s := outsideErrs (chargeRange s .host d moved) (errs.filter fun e => decide (e.addr < d + moved + 8))
      let s := if moved = 0 then s else { s with host := { s.host with hostWrites := s.host.hostWrites ++ [(h, mread s.mem d moved)] } }
      stopDma s k (if moved = n then 0 else if moved = good then 0xD else 0xE) moved
  | st => finish s k st []

def execHostDmaToHost (k : Fin 8) (errs : List MemErr) (cpl : HostCpl) (errAt : Nat) (s : State) : Out :=
  if inp (mbxAt s k) 0 1 = 0 then .next s
  else take s k 0x39 fun s m _ => runDmaToHost s k m errs cpl errAt

/-! ## Completion (R454) -/

/-- Bytes the manual leaves undefined after completion. -/
def openBytes (s : State) (n : Nat) : List Byte := (List.range n).map fun i => Config.freeByte (s.free + i)

/-- Write a completion into a mailbox that the MP owns. -/
def completeBox (s : State) (k status : Nat) (out : List Byte) : State :=
  let rest := 448 - out.length
  let s' := modMbx s k fun m =>
    { m with owner := false, status := BitVec.ofNat 16 status, lenOut := BitVec.ofNat 9 out.length, seq := m.seq + 1
             time := BitVec.ofNat 32 ((s.now - m.handoff) / 1000), cmd := none, payload := mwrite [] 0 (out ++ openBytes s rest) }
  { s' with free := s.free + rest
            host := { s'.host with waits := s'.host.waits.filter fun w => match w with | .fill b .. => decide (b ≠ k) | _ => true } }

/-- Commands that waited behind another start to count their time once they no longer wait (R470). -/
def restartWaits (before after : State) : State :=
  (List.range 8).foldl (fun s i =>
    if (mbxAt s i).owner && mustWait before i && !mustWait after i then modMbx s i fun m => { m with handoff := s.now } else s) after

/-- What mailbox `k` may return with: status and output. -/
def outcomeOf (s : State) (k : Nat) : Option (Nat × List Byte) :=
  let m := mbxAt s k
  if !m.owner then none
  else
    match m.cmd with
    | some c => if c.ended || (decide (m.opcode = 0x13) && decide ((jobOf s (partNamed m)).state = .idle)) then some (c.status, c.out) else none
    | none => if (rowOf m.opcode.toNat).isNone then some (1, []) else none

def execMailboxComplete (k : Fin 8) (now : Nat) (s : State) : Out :=
  let s := atTime s now
  match outcomeOf s k with
  | none => .next s
  | some r =>
    let activate := decide ((mbxAt s k).opcode = 0x31) && decide (r.1 = 0)
    let s' := raiseCause (restartWaits s (completeBox s k r.1 r.2)) k
    .next (if activate then beginActivation s' else s')

end Sys2Proof.Machine
end

