-- ==== Sys2Proof/Machine/Startup.lean ====
section
/-!
DEFINITION. Power, reset and start-up, and the device going down (R263, R376, R483 to R488, R498 to R500,
R505, R525 to R542).
-/
namespace Sys2Proof.Machine

/-! ## Reset (R15, R16, R535) -/

/-- A macro that a volatile entry retired serves again, a Reserve macro for the logical macro that it stood in for (R485). -/
def reviveMacro (r : Retire) (m : Nat) : Retire :=
  let lm := (r.stood.find? fun e => decide (e.1 = m)).map (·.2)
  { r with mret := r.mret &&& ~~~(BitVec.ofNat 72 (2 ^ m)), pend := r.pend.filter fun k => decide (k ≠ m)
           map := (r.map.filter fun e => decide (e.1 ≠ lm.getD m)) ++ (lm.map fun l => (l, m)).toList
           stood := r.stood.filter fun e => decide (e.1 ≠ m) }

/-- A tile that a volatile entry retired serves again (R485). -/
def reviveTile (s : State) (pt : Nat) : State :=
  let was := (tileAt s pt).ret.stoodTile
  let s := modTile s pt fun x => { x with ret := { x.ret with tilePend := false, stoodTile := none } }
  match was with
  | some t => { s with tileMap := tset none s.tileMap t (if homeTile t = pt then none else some pt) }
  | none => s

/-- The part of a volatile entry serves again. -/
def revive (s : State) (e : Nat × List Byte) : State :=
  let n := fieldAt e.2 0 2
  if e.1 = 5 then modTile s n fun x => { x with ret := reviveMacro x.ret (fieldAt e.2 2 1) }
  else if e.1 = 6 then reviveTile s n
  else modChan s (fieldAt e.2 0 1) fun c => { c with state := if homeSlot false (fieldAt e.2 0 1) = 0xFF then 1 else 0 }

/-- Registers and state that PERST_N resets. Fuses, firmware, the Balance cap, enables and history, and the
journal stand; a channel keeps its failure. A retirement that no plan load has applied stands too, so TILE_MRES.pending can
read above its reset column's 0 at READY: R113 counts the retirements that wait, and PERST_N applies none (DESIGN CHOICE,
log 147). -/
def resetUnits (s : State) : State :=
  let s := s.sec.volatile.reverse.foldl revive s
  let b := s.bal
  let dies := b.dies.map fun d => { d with droop := {}, stretch := {} }
  let s := { s with
    tiles := tmap {} s.tiles fun x => { ret := x.ret, free := x.free }
    fens := [{}, {}], cache := [], segs := [(0, .awaiting)], memParts := [{}, {}], waits := [], windows := [], split := false, jobs := [{}, {}]
    chans := s.chans.map fun c => { state := c.state, slot := c.slot, part := c.part }
    ports := s.ports.map fun _ => {}
    bal := { b with energy := {}, dies := dies }
    host := { sent := s.host.sent, hostWrites := s.host.hostWrites, linkUp := false }
    side := { addr := s.side.addr }
    sec := { s.sec with volatile := [], staged := none, clearing := false } }
  rebuildChannels s

/-- A reset begins: READY falls, FAULT_N asserts, the transmitters are squelched, every job ends (R535). A cause
that took the device down stands until the next READY (R488). -/
def assertReset (s : State) (cause : Nat) (next : Phase0) : State :=
  let keep := decide (s.start.phase = .down) && decide (s.start.cause = 3 ∨ s.start.cause = 4)
  let s := resetUnits (endJobs (cutEntry s))
  let st := s.start
  { s with start :=
    { st with phase := next, faultN := false, squelched := true, cause := if keep then st.cause else cause
              causeCode := if keep then st.causeCode else 0, arraysCleared := false, verified := false, d2dTrained := []
              lpddrTrained := [], cwyTrained := [], beyond := [], tpendFull := false } }

/-- The boot ROM starts (R497, R536). -/
def startBoot (s : State) : State := { s with start := { s.start with phase := .starting }, sec := openBoot s.sec }

/-- ADDR is sampled (R526). -/
def sampleAddr (s : State) (addr : Nat) : State :=
  { s with side := { s.side with addr := BitVec.ofNat 7 (0x58 + addr) }, start := { s.start with addrPins := addr } }

/-- Start-up begins: ADDR is sampled and the arrays clear (R526, R536). -/
def beginStart (s : State) (addr : Nat) : State := startBoot (sampleAddr s addr)

/-- PWR_EN and PERST_N ignore a level held for less than 5 µs (R522). -/
def glitch (held : Nat) : Bool := decide (held < 5000)

/-- PERST_N falls, and stays low for `held` ns or longer. -/
def execPerstNAssert (held now : Nat) (s : State) : Out :=
  let s := atTime s now
  if glitch held then .next s
  else
    let s := { s with start := { s.start with perstN := false } }
    .next (if s.start.pg then assertReset s 1 .inReset else s)

def execPerstNDeassert (addr : Fin 8) (held now : Nat) (s : State) : Out :=
  let s := atTime s now
  if glitch held then .next s
  else
    let s := sampleAddr { s with start := { s.start with perstN := true } } addr
    .next (if s.start.pg = true ∧ s.start.phase = .inReset ∧ s.start.internalReset = false then beginStart s addr else s)

/-- A write of DEV_RESET: key 0xA5 resets the device as PERST_N does (R470, R534). -/
def devReset (s : State) (v : Nat) : State :=
  if v % 256 = 0xA5 ∧ barReach s = true then
    let s := assertReset s 2 .inReset
    { s with start := { s.start with internalReset := true } }
  else s

def execDevReset (v : BitVec 32) (now : Nat) (s : State) : Out := .next (devReset (atTime s now) v.toNat)

def execInternalResetRelease (addr : Fin 8) (now : Nat) (s : State) : Out :=
  let s := atTime s now
  if s.start.internalReset then
    let s := { s with start := { s.start with internalReset := false } }
    .next (if s.start.perstN && s.start.pg then beginStart s addr else s)
  else .next s

/-! ## Power (R376, R487, R527 to R534) -/

/-- Every internal rail is off. -/
def railsOff (s : State) : State :=
  let s := cutEntry s
  { s with start := { s.start with pg := false, phase := .unpowered, faultN := false, squelched := true }, host := { s.host with linkUp := false } }

/-- The module takes up a high PWR_EN: the BAL_ registers take their reset values, and the next READY has cause 0. -/
def takePower (s : State) : State :=
  { s with bal := freshBal, sec := { s.sec with readyPwr := 0 }, start := { s.start with cause := 0, causeCode := 0 } }

/-- PWR_EN rises; the input trip's latch clears after 100 ms of PWR_EN low. -/
def execPwrEnRise (held now : Nat) (s : State) : Out :=
  let s := atTime s now
  if glitch held || s.start.pwrEn then .next s
  else
    let tripped := s.start.tripped && decide (now < s.start.pwrFell + 100000000)
    let s := takePower s
    .next { s with start := { s.start with pwrEn := true, tripped := tripped } }

/-- The rails reach regulation; a device whose PERST_N is high starts, one whose PERST_N is low stays in reset. -/
def execPgAssert (now : Nat) (s : State) : Out :=
  let s := atTime s now
  let st := s.start
  if st.pwrEn && st.housekeeping && !st.tripped && st.thermtripN && !st.pg then
    let s := assertReset s 0 .inReset
    let s := { s with start := { s.start with pg := true } }
    .next (if st.perstN && !st.internalReset then startBoot s else s)
  else .next s

def execPwrEnFall (held now : Nat) (s : State) : Out :=
  let s := atTime s now
  if !glitch held && s.start.pwrEn then
    let s := railsOff (assertReset s 0 .unpowered)
    .next { s with start := { s.start with pwrEn := false, pwrFell := now, thermtripN := true, internalReset := false } }
  else .next s

/-- The device goes down and loses its rails. -/
def powerLost (s : State) : State := railsOff (if s.start.pg then deviceDown s 0 0 else s)

/-- The input protection trips and latches off; DEV_BOOT_CAUSE reports PWR_EN at the next READY. -/
def execInputProtectionTrip (_ : InputTrip) (now : Nat) (s : State) : Out :=
  let s := powerLost (atTime s now)
  .next { s with start := { s.start with tripped := true } }

/-- The input returns; a PWR_EN that was ignored below 45 V counts from here (R531). -/
def execHousekeepingStart (now : Nat) (s : State) : Out :=
  let s := atTime s now
  if s.start.housekeeping then .next s
  else
    let s := if s.start.pwrEn then takePower s else s
    .next { s with start := { s.start with housekeeping := true } }

def execHousekeepingStop (now : Nat) (s : State) : Out :=
  let s := powerLost (atTime s now)
  .next { s with start := { s.start with housekeeping := false, thermtripN := true } }

/-- A sensor is at 115 °C, as the rails stand or rise (R376, R534). -/
def execThermtrip (now : Nat) (s : State) : Out :=
  let s := atTime s now
  let st := s.start
  if st.pg || (st.pwrEn && st.housekeeping && !st.tripped && st.thermtripN) then
    let s := powerLost s
    .next { s with start := { s.start with thermtripN := false } }
  else .next s

/-- A compute-die or I/O-die rail fails: PG falls and the device goes down. -/
def execRailFailure (now : Nat) (s : State) : Out :=
  let s := atTime s now
  if s.start.pg then
    let s := deviceDown (cutEntry s) 0 0
    .next { s with start := { s.start with pg := false }, host := { s.host with linkUp := false } }
  else .next s

/-! ## Going down (R487, R488) -/

/-- Skovund or the MP's memory serves only out of reset. -/
def mpRuns (s : State) : Bool := decide (s.start.phase = .ready ∨ s.start.phase = .activating)

def execMpWatchdogExpiry (now : Nat) (s : State) : Out :=
  let s := atTime s now
  .next (if mpRuns s then deviceDown s 3 0xFF01 else s)

def execControlMemoryError (now : Nat) (s : State) : Out :=
  let s := atTime s now
  .next (if mpRuns s then deviceDown s 4 0xFF02 else s)

/-- Partitions that a die-to-die module serves (R484). -/
def modulePartitions (s : State) (k : Nat) : List Nat :=
  if s.split then (if k < 4 then [0] else if k < 8 then [1] else []) else [0]

def execDieToDieLinkLoss (k : Fin 12) (s : State) : Out :=
  let s := { s with start := { s.start with d2dTrained := s.start.d2dTrained.erase (k : Nat) } }
  .next ((modulePartitions s k).foldl (fun s p => raiseFault s p (0xFC00 + k) { pm := k }) s)

/-! ## From reset to READY (R263, R483, R498, R499, R536 to R538) -/

/-- One mismatch of the clearing on wake: counted, and acted on unless the part is already retired. -/
def wakeFind (s : State) : WakeFind → State
  | .macro_ pt m =>
    if (tileAt s pt).ret.mret.getLsbD m || (tileAt s pt).ret.tilePend then s
    else retireMacro (modTile s pt fun x => { x with err := { x.err with macroUe := errAdd x.err.macroUe 1 } }) pt m
  | .tileArray pt arr =>
    if (tileAt s pt).ret.tilePend then s
    else
      retireTile (modTile s pt fun x => { x with err :=
        if arr = 0 then { x.err with tspUe := errAdd x.err.tspUe 1 }
        else if arr = 1 then { x.err with acmUe := errAdd x.err.acmUe 1 }
        else if arr = 2 then { x.err with spsUe := errAdd x.err.spsUe 1 }
        else { x.err with istUe := errAdd x.err.istUe 1 } }) pt
  | .fenBank d _ => beyondReserve (modFen s d fun f => { f with ue := errAdd f.ue 1 }) d 0x2701
  | .counterPort d => beyondReserve (modFen s d fun f => { f with ue := errAdd f.ue 1 }) d 0x2701

/-- Every on-die array is at its cleared state, and read back (R78, R263). -/
def execClearingOnWake (finds : List WakeFind) (s : State) : Out :=
  if s.start.phase = .starting ∧ s.start.arraysCleared = false then
    let s := { s with fens := s.fens.map fun f => { f with banks := [], scr := [], wcs := [] }
                      start := { s.start with arraysCleared := true } }
    .next (finds.foldl wakeFind s)
  else .next s

/-- A slot of the flash holds other bytes than were written to it. -/
def slotReads (x : Security) (i : Nat) : Option (List Byte) → Security
  | none => x
  | some bs => { x with flash := setAt x.flash i bs }

/-- The boot ROM runs the active slot, else the other, else stops without READY (R498, R499); the keys of the boot follow
from the image it runs and the fuses (R497). The operands are what the slots hold where that is no longer what was written. -/
def execSkovundVerify (slotA slotB : Option (List Byte)) (s : State) : Out :=
  if s.start.phase = .starting ∧ s.start.verified = false then
    let x := slotReads (slotReads s.sec 0 slotA) 1 slotB
    match bootFrom x with
    | some x => .next { s with sec := x, start := { s.start with verified := true } }
    | none => .next (failBoot { s with sec := x })
  else .next s

/-- Training of one interface ends during start-up; a port that did not come up stays down (R537). -/
def execInterfaceTrainingDone (x : Training) (s : State) : Out :=
  if s.start.phase ≠ .starting then .next s
  else
    match x with
    | .dieToDie k ok =>
      let s := { s with start := { s.start with d2dTrained := addOnce s.start.d2dTrained k } }
      .next (if ok then s else beyondReserve s (if (k : Nat) < 8 then k / 4 else 2) (0xFC00 + k))
    | .lpddr ch ok =>
      let s := { s with start := { s.start with lpddrTrained := addOnce s.start.lpddrTrained ch } }
      .next (if ok then modChan s ch fun c => { c with lastRetrain := s.now } else failChannel s ch)
    | .causeway port mode =>
      let s := { s with start := { s.start with cwyTrained := addOnce s.start.cwyTrained port } }
      .next (modPort s port fun c => if 1 ≤ mode ∧ mode ≤ 4 then { c with state := 2, mode := mode } else { c with state := 0, mode := 0 })

/-- Every step of R536 has ended. -/
def startEnded (s : State) : Bool :=
  let st := s.start
  s.host.linkUp && decide (st.phase = .starting) && st.arraysCleared && st.verified && decide (st.d2dTrained.length = 12) &&
    decide (st.lpddrTrained.length = 52) && decide (st.cwyTrained.length = 5)

/-- READY asserts: the margin is measured, and BAR0 holds its reset values (R379, R537). -/
def execReadyAssert (now : Nat) (s : State) : Out :=
  let s := atTime s now
  if startEnded s then
    let s := countReady (measureMargin (measureMargin s 0 0 0) 1 0 0)
    .next { s with start := { s.start with phase := .ready, faultN := true, squelched := false }
                   segs := [(0, .awaiting)]
                   host := { s.host with irqStatus := 0, irqMask := 0x7FF, owed := 0, mbx := List.replicate 8 {} } }
  else .next s

/-! ## The test access port (R505, R525) -/

/-- PPS_OUT shows the second edges of each tick source that is locked (R321, log 170). -/
def ppsOut (s : State) : Bool := s.jobs.any fun j => j.tick.ppsOut

/-- The device's own levels of the 3.3 V pins that boundary scan covers, from bit 0 up: PWR_EN, PERST_N, PG, READY, FAULT_N,
PWR_ALERT_N, THERMTRIP_N, SMB_ALERT_N, PPS_IN, PPS_OUT, MOD_PRSNT_N, which a seated module ties low, SMB_SCL and SMB_SDA, which
are high between commands, and ADDR as last sampled. -/
def ownLevels (s : State) : Nat :=
  let st := s.start
  fields [(3, st.addrPins), (2, 3), (1, 0), (1, b2n (ppsOut s)), (1, b2n (decide (s.now < st.ppsUntil))), (1, b2n (smbAlertN s.bal)),
          (1, b2n st.thermtripN), (1, b2n !s.bal.pwrAlert), (1, b2n st.faultN), (1, b2n (inService s)), (1, b2n st.pg), (1, b2n st.perstN),
          (1, b2n st.pwrEn)]

/-- The pins that the module drives: PG, READY, FAULT_N, PWR_ALERT_N, THERMTRIP_N, SMB_ALERT_N, PPS_OUT, SMB_SCL and SMB_SDA. -/
def drivenPins : BitVec 16 := 0x1AFC

/-- Levels of the pins: EXTEST drives the outputs from the scan chain. -/
def pinLevels (s : State) : BitVec 16 :=
  let own := BitVec.ofNat 16 (ownLevels s)
  match s.start.extest with
  | some v => (own &&& ~~~drivenPins) ||| (v &&& drivenPins)
  | none => own

/-- An instruction of the port that is not EXTEST leaves the outputs to the device. -/
def setTdo (s : State) (v : BitVec 32) : State := { s with start := { s.start with tdo := v, extest := none } }

/-- The lifecycle moves on, or debug-disable is set: a fuse write. Entry to RMA zeroises the DIK and the UDS. -/
def moveLifecycle (s : State) (next : Nat) : State :=
  journalEntry { s with sec := { s.sec with lifecycle := next, zeroised := s.sec.zeroised || decide (next = 2) } } 8 [BitVec.ofNat 8 next]

/-- An instruction of the test access port, whose logic TRST_N low holds in reset. Debug-disable leaves IDCODE, BYPASS and
boundary scan; the authorised moves of R505 stand beside them (log 169). -/
def execJtagInstruction (j : Jtag) (s : State) : Out :=
  let x := s.sec
  match j with
  | .trst high => .next { s with start := { s.start with trstN := high, extest := if high then s.start.extest else none } }
  | .idcode =>
    .next (if s.start.trstN then setTdo s (BitVec.ofNat 32 (fields [(4, Config.revision.toNat), (16, 0xC4B2), (12, Config.jtagMaker.toNat)])) else s)
  | .bypass => .next (if s.start.trstN then setTdo s 0 else s)
  | .sample => .next (if s.start.trstN then setTdo s ((pinLevels s).setWidth 32) else s)
  | .extest v => .next (if s.start.trstN then { s with start := { s.start with extest := some v } } else s)
  | .lifecycle next authorised =>
    .next (if s.start.trstN && authorised && decide (next = x.lifecycle + 1) && decide (next ≤ 2) then moveLifecycle s next else s)
  | .debugDisable authorised =>
    .next (if s.start.trstN && authorised && decide (x.lifecycle = 0) && !x.debugDis then
      journalEntry { s with sec := { x with debugDis := true } } 9 [] else s)
  | .other _ => if x.debugDis || !s.start.trstN then .next s else .refused .debugInstruction

end Sys2Proof.Machine
end

