-- ==== Sys2Proof/Machine/HostLink.lean ====
section
/-!
DEFINITION. The PCI Express endpoint: BAR0 writes, BAR2, interrupts, resets of the link and configuration
(R14, R389, R443 to R452, R536, R545, R547, R554).
-/
namespace Sys2Proof.Machine

/-! ## Interrupt registers (R452, R547) -/

/-- A W1C write to IRQ_STATUS. -/
def irqClear (s : State) (v : Nat) : State :=
  let m := ~~~(BitVec.ofNat 11 v)
  { s with host := { s.host with irqStatus := s.host.irqStatus &&& m, owed := s.host.owed &&& m } }

/-- A write to IRQ_MASK: causes whose message is owed signal as their bit is unmasked. -/
def irqMask (s : State) (v : Nat) : State :=
  let m := BitVec.ofNat 11 v
  let due := s.host.owed &&& s.host.irqStatus &&& ~~~m
  let s := { s with host := { s.host with irqMask := m, owed := s.host.owed &&& ~~~due } }
  (List.range 11).foldl (fun s b => if due.getLsbD b then signalVector s b else s) s

def execIrqStatusClear (v : BitVec 32) (s : State) : Out := if inService s && barReach s then .next (irqClear s v.toNat) else .next s
def execIrqMaskWrite (v : BitVec 32) (s : State) : Out := if inService s && barReach s then .next (irqMask s v.toNat) else .next s

/-- A write to an MSI-X table word, of whose vector control bit 0 alone is held (R12, R554); unmasking a vector with its
pending bit set sends its message. -/
def msixWrite (s : State) (v word : Nat) (x : BitVec 32) : State :=
  let y := if word = 3 then (x &&& 1) ^^^ 1 else x
  let s := { s with host := { s.host with msix := tset 0 s.host.msix (4 * v + word) y } }
  sendPending s

def execMsixTableWrite (v : Fin 64) (word : Fin 4) (x : BitVec 32) (s : State) : Out :=
  if inService s && barReach s then .next (msixWrite s v word x) else .next s

/-! ## BAR0 writes (R14, R447, R545) -/

/-- One 32-bit write of BAR0. -/
def bar0Write (s : State) (off : Nat) (v : BitVec 32) : State :=
  if off = 0x1100 then devReset s v.toNat
  else if !inService s then s
  else if 0x10000 ≤ off ∧ off < 0x11000 then mailboxWrite s ((off - 0x10000) / 0x200) (off % 0x200) v.toNat s.now
  else if off = 0x20000 then irqClear s v.toNat
  else if off = 0x20004 then irqMask s v.toNat
  else if 0x30000 ≤ off ∧ off < 0x30400 then msixWrite s ((off - 0x30000) / 16) (off / 4 % 4) v
  else s

/-- A host write of 4 or 8 aligned bytes; 64 bits are two words, the higher offset first. -/
def execRegisterWrite (off size : Nat) (v : BitVec 64) (s : State) : Out :=
  if !s.host.linkUp then .next s
  else if s.host.d3hot ∨ (size ≠ 4 ∧ size ≠ 8) ∨ off % size ≠ 0 ∨ 2 ^ 25 < off + size then .next (unsupported s)
  else if size = 8 then .next (bar0Write (bar0Write s (off + 4) (v.extractLsb' 32 32)) off (v.extractLsb' 0 32))
  else .next (bar0Write s off (v.extractLsb' 0 32))

/-! ## BAR2 (R389, R448, R449) -/

/-- Device address of a BAR2 access, `none` outside LPDDR5X. -/
def bar2Addr (s : State) (x n : Nat) : Option Nat :=
  let a := s.host.bar2Base + x
  if x + n ≤ bar2Size s ∧ a + n ≤ memTop ∧ 0 < n then some a else none

/-- Does device memory serve the host? Not before its training has ended, nor after a boot that failed (log 167). -/
def memServes (s : State) : Bool := decide (s.start.phase = .ready ∨ s.start.phase = .activating ∨ s.start.phase = .down)

/-- A read reaches LPDDR5X, and waits while a channel it reads retrains. -/
def execBar2Read (x len : Nat) (errs : List MemErr) (s : State) : Out :=
  if !s.host.linkUp then .next s
  else
    match (if s.host.d3hot || !memServes s then none else bar2Addr s x len) with
    | none => .next (unsupported s)
    | some a => .next (hostAccess s (.read a len errs))

/-- A posted write, which waits at a channel that retrains. -/
def execBar2Write (x : Nat) (bs : List Byte) (poisoned : Bool) (errs : List MemErr) (s : State) : Out :=
  if !s.host.linkUp then .next s
  else if poisoned then .next (logAer s 1)
  else
    match (if s.host.d3hot || !memServes s then none else bar2Addr s x bs.length) with
    | none => .next (logAer s 0)
    | some a => .next (hostAccess s (.write a bs errs))

/-! ## The link and the function (R444 to R446, R536) -/

/-- Every mailbox the MP owns completes with ABORTED. -/
def abortBoxes (s : State) : State :=
  (List.range 8).foldl (fun s k => if (mbxAt s k).owner then completeBox s k 10 [] else s) s

/-- A function level reset, in every state in which the link is up; the function comes back in D0 with MSI-X off (log 116). -/
def execFlr (now : Nat) (s : State) : Out :=
  let s := atTime s now
  if !s.host.linkUp then .next s
  else
    let s := (partitions s).foldl (fun s p => enterKilled (abortLoad s p) p (jobOf s p).member none) s
    let s := abortBoxes s
    .next { s with host := { s.host with irqStatus := 0, irqMask := 0x7FF, owed := 0, bar2Base := 0, msix := [], pba := 0
                                         d3hot := false, msixEn := false, msixMask := false } }

/-- The function's configuration space, BAR assignments and MSI-X state reset; no job and no mailbox changes. -/
def resetFunction (s : State) (d3hot : Bool) : State :=
  let h := s.host
  { s with host := { h with bar2Log := 6, bar2Base := h.bar2Base / (64 * gib) * (64 * gib), barBase := [0, 0], mps := 128, mrrs := 512
                            cto := 50000, msix := [], pba := 0, d3hot := d3hot, ecrcGen := false, ecrcCheck := false
                            msixEn := false, msixMask := false } }

/-- A hot reset, a link that goes down or an entry to D3hot; the requester of a read that waits has gone with the link. -/
def execHotReset (why : LinkReset) (s : State) : Out :=
  let s := resetFunction s (decide (why = .d3hot))
  .next (if why = .linkDown then
    { s with host := { s.host with linkUp := false, waits := s.host.waits.filter fun w => match w with | .read .. => false | _ => true } }
    else s)

/-- An uncorrectable error inside the endpoint's buffers ends every job. -/
def execHostLinkError (now : Nat) (s : State) : Out :=
  let s := atTime s now
  .next (logAer ((partitions s).foldl (fun s p => raiseFault s p 0x7D01) s) 3)

def execPcieLinkUp (speed width : Nat) (s : State) : Out :=
  if s.start.phase ≠ .unpowered ∧ s.start.phase ≠ .inReset ∧ (speed = 16 ∨ speed = 32 ∨ speed = 64) ∧ (width = 8 ∨ width = 16) then
    .next { s with host := { s.host with linkUp := true, speed := speed, width := width } }
  else .next s

/-- The MSI-X capability after its header: control word, table and Pending Bit Array, both in BAR0 (R443, R554). -/
def msixCapability (h : HostLink) : List Byte :=
  leBytes 2 (fields [(1, b2n h.msixEn), (1, b2n h.msixMask), (3, 0), (11, 63)]) ++ leBytes 4 0x30000 ++ leBytes 4 0x31000

/-- A configuration request: Retry Status before the endpoint is configured. -/
def execConfigurationRequest (r : CfgReq) (s : State) : Out :=
  if s.start.phase = .unpowered ∨ s.start.phase = .inReset then .next s
  else if !s.host.linkUp then .next (answer s 3 [])
  else
    let h := s.host
    match r with
    | .bar2Size n =>
      .next (answer (if n ≤ 6 then { s with host := { h with bar2Log := n, bar2Base := h.bar2Base / (2 ^ n * gib) * (2 ^ n * gib) } } else s) 0 [])
    | .maxPayload n => .next (answer (if n = 128 ∨ n = 256 ∨ n = 512 then { s with host := { h with mps := n } } else s) 0 [])
    | .maxReadReq n =>
      .next (answer (if [128, 256, 512, 1024, 2048, 4096].contains n then { s with host := { h with mrrs := n } } else s) 0 [])
    | .completionTimeout n => .next (answer { s with host := { h with cto := n } } 0 [])
    | .barAssign b base => .next (answer { s with host := { h with barBase := setAt h.barBase b base } } 0 [])
    | .power d3 => .next (answer (if d3 && !h.d3hot then resetFunction s true else { s with host := { h with d3hot := d3 } }) 0 [])
    | .ecrc g c => .next (answer { s with host := { h with ecrcGen := g, ecrcCheck := c } } 0 [])
    | .msix e k => .next (answer (sendPending { s with host := { h with msixEn := e, msixMask := k } }) 0 [])
    | .readMsix => .next (answer s 0 (msixCapability h))

end Sys2Proof.Machine
end

