-- ==== Sys2Proof/Machine/Plan.lean ====
section
/-!
DEFINITION. The Botridric plan image as it lies in device memory: header, segment table, manifest records, stream
table, Beat table and schedule (R333 to R343).
-/
namespace Sys2Proof.Machine

/-! ## The image, its header and its segments (R333, R335) -/

/-- An image in device memory. -/
structure Image where
  mem : Mem := []
  base : Nat := 0
  size : Nat := 0

def Image.at (g : Image) (off n : Nat) : List Byte := mread g.mem (g.base + off) n
def Image.num (g : Image) (off n : Nat) : Nat := leNat (g.at off n)
def Image.all (g : Image) : List Byte := g.at 0 g.size

/-- The fields of the header that later work uses. -/
structure Header where
  imgSize : Nat := 0
  nseg : Nat := 0
  segtab : Nat := 0
  sigOff : Nat := 0
  planId : Nat := 0
  part : Nat := 0
  tiles : Nat := 0
  dies : Nat := 0
  ports : Nat := 0
  mode : Nat := 0
  pc : Nat := 0
  tick : Nat := 0
  tickPort : Nat := 0
  beatUs : Nat := 0
  leadNs : Nat := 0
  /-- Group members N, minus 1. -/
  gsize : Nat := 0
  ptpDomain : Nat := 0
deriving DecidableEq, Repr

def headerOf (g : Image) : Header :=
  { imgSize := g.num 8 8, nseg := g.num 16 4, segtab := g.num 20 4, sigOff := g.num 24 8, planId := g.num 32 8
    dies := g.num 48 1, part := g.num 49 1, tiles := g.num 50 2, ports := g.num 55 1, mode := g.num 60 1, pc := g.num 61 1
    tick := g.num 62 1, tickPort := g.num 63 1, beatUs := g.num 64 4, leadNs := g.num 68 4, gsize := g.num 72 2
    ptpDomain := g.num 74 1 }

/-- Where the segments must end: the signature block, or the end of the image (R343). -/
def Header.limit (h : Header) : Nat := if h.sigOff = 0 then h.imgSize else h.sigOff

/-- An entry of the segment table. -/
structure Seg where
  idx : Nat := 0
  typ : Nat := 0
  index : Nat := 0
  off : Nat := 0
  len : Nat := 0
  crc : Nat := 0
  /-- Bytes 4 to 7 and 28 to 31 together. -/
  resv : Nat := 0
deriving DecidableEq, Repr

def segOf (g : Image) (h : Header) (i : Nat) : Seg :=
  let e := h.segtab + 32 * i
  { idx := i, typ := g.num e 2, index := g.num (e + 2) 2, off := g.num (e + 8) 8, len := g.num (e + 16) 8, crc := g.num (e + 24) 4
    resv := g.num (e + 4) 4 + g.num (e + 28) 4 }

def segsOf (g : Image) (h : Header) : List Seg := (List.range h.nseg).map (segOf g h)

/-- The segment of a type, and of a tile. -/
def findSeg (segs : List Seg) (typ index : Nat) : Option Seg := segs.find? fun x => decide (x.typ = typ) && decide (x.index = index)

/-! ## Manifest records (R337) -/

/-- A record of the manifest. -/
inductive ManRec where
  | tsp (tile base len : Nat)
  | slot (tile slot : Nat) (narrow : Bool)
  | page (tile lm page : Nat) (scratch : Bool) (retain : Nat)
  | bank (die bank mode : Nat)
  | counter (index init limit : Nat)
  | window (w tile stream len base g0 : Nat)
  | ring (depth base : Nat)
  | region (kind base len : Nat)
  | tensor (tile id pat k ncb first : Nat)
  | qtensor (tile base n rows : Nat)
deriving DecidableEq, Repr

/-- Body length of a kind; 0 for a kind that is not listed. -/
def bodyLen (kind : Nat) : Nat :=
  match kind with
  | 0x01 => 12
  | 0x02 => 4
  | 0x03 => 8
  | 0x04 => 4
  | 0x05 => 12
  | 0x06 => 24
  | 0x07 => 16
  | 0x08 => 24
  | 0x09 => 16
  | 0x0A => 16
  | _ => 0

/-- Reserved bytes of a kind's body, as (offset, length). -/
def bodyResv (kind : Nat) : List (Nat × Nat) :=
  match kind with
  | 0x01 => [(1, 3)]
  | 0x02 => [(3, 1)]
  | 0x03 => [(5, 3)]
  | 0x04 => [(3, 1)]
  | 0x05 => [(2, 2)]
  | 0x06 => [(3, 1), (18, 6)]
  | 0x07 => [(4, 4)]
  | 0x08 => [(1, 7)]
  | 0x09 => [(3, 1), (10, 6)]
  | 0x0A => [(1, 3)]
  | _ => []

/-- The record a body spells; `none` for a field outside its listed values. -/
def recOf (kind : Nat) (b : List Byte) : Option ManRec :=
  let f := fieldAt b
  match kind with
  | 0x01 => if f 4 4 % 64 = 0 ∧ f 8 4 % 64 = 0 then some (.tsp (f 0 1) (f 4 4) (f 8 4)) else none
  | 0x02 => if f 1 1 ≤ 31 ∧ f 2 1 ≤ 1 then some (.slot (f 0 1) (f 1 1) (decide (f 2 1 = 1))) else none
  | 0x03 => if f 3 1 ≤ 1 ∧ f 4 1 ≤ 2 then some (.page (f 0 1) (f 1 1) (f 2 1) (decide (f 3 1 = 1)) (f 4 1)) else none
  | 0x04 => if f 2 1 = 1 ∨ f 2 1 = 2 then some (.bank (f 0 1) (f 1 1) (f 2 1)) else none
  | 0x05 => some (.counter (f 0 2) (f 4 4) (f 8 4))
  | 0x06 => some (.window (f 0 1) (f 1 1) (f 2 1) (f 4 4) (f 8 8) (f 16 2))
  | 0x07 => some (.ring (f 0 4) (f 8 8))
  | 0x08 => if f 0 1 ≤ 3 then some (.region (f 0 1) (f 8 8) (f 16 8)) else none
  | 0x09 => if f 1 1 ≤ 31 ∧ f 2 1 ≤ 2 then some (.tensor (f 0 1) (f 1 1) (f 2 1) (f 4 2) (f 6 2) (f 8 2)) else none
  | 0x0A => some (.qtensor (f 0 1) (f 4 4) (f 8 4) (f 12 4))
  | _ => none

/-- Length of a record with its header, padded. -/
def recLen (body : Nat) : Nat := (4 + body + 7) / 8 * 8

/-- The record at the head of a manifest; `none` when it is malformed. -/
def headRec (bs : List Byte) : Option ManRec :=
  let kind := fieldAt bs 0 1
  let n := fieldAt bs 2 2
  let body := (bs.drop 4).take n
  if bodyLen kind = 0 ∨ n ≠ bodyLen kind ∨ fieldAt bs 1 1 ≠ 0 ∨ bs.length < recLen n then none
  else if ((bodyResv kind).any fun r => decide (fieldAt body r.1 r.2 ≠ 0)) || !allZero ((bs.drop (4 + n)).take (recLen n - (4 + n))) then none
  else recOf kind body

/-- The records of a manifest up to the first malformed one, and whether there is one. -/
def manRecs : Nat → List Byte → List ManRec × Bool
  | 0, _ => ([], false)
  | fuel + 1, bs =>
    if bs.isEmpty then ([], false)
    else
      match headRec bs with
      | none => ([], true)
      | some r =>
        let rest := manRecs fuel (bs.drop (recLen (fieldAt bs 2 2)))
        (r :: rest.1, rest.2)

/-- Does the walk over padded records end exactly at the segment's end (R335)? -/
def manFits : Nat → List Byte → Bool
  | 0, bs => bs.isEmpty
  | fuel + 1, bs =>
    if bs.isEmpty then true
    else decide (4 ≤ bs.length) && decide (recLen (fieldAt bs 2 2) ≤ bs.length) && manFits fuel (bs.drop (recLen (fieldAt bs 2 2)))

/-! ## The stream table, Beat table and schedule (R336, R338, R339) -/

/-- A record of the stream table. -/
structure StreamRec where
  first : Nat := 0
  count : Nat := 0
  lc : Nat := 0
  thresh : Nat := 0x0100
deriving DecidableEq, Repr

def streamRecOf (bs : List Byte) (k : Nat) : StreamRec :=
  let o := 16 * k
  { first := fieldAt bs o 2, count := fieldAt bs (o + 2) 2, lc := fieldAt bs (o + 4) 4
    thresh := if bit (fieldAt bs (o + 10) 1) 0 then fieldAt bs (o + 8) 2 else 0x0100 }

/-- The Beat table as stored. -/
def typesOf (bs : List Byte) : Nat := fieldAt bs 0 2
def ntilesOf (bs : List Byte) : Nat := fieldAt bs 2 2
def typeOff (bs : List Byte) (typ : Nat) : Nat := 8 + typ * (8 + 68 * ntilesOf bs)
def chargeOf (bs : List Byte) (typ t : Nat) : Nat := fieldAt bs (typeOff bs typ + 8 + 4 * t) 4
def startOf (bs : List Byte) (typ t k : Nat) : Nat := fieldAt bs (typeOff bs typ + 8 + 4 * ntilesOf bs + 64 * t + 2 * k) 2

def schedOf (bs : List Byte) : List SchedEntry :=
  (List.range (bs.length / 8)).map fun i => { typ := fieldAt bs (8 * i) 2, target := fieldAt bs (8 * i + 2) 2, count := fieldAt bs (8 * i + 4) 4 }

/-- A LOADMAP entry (R342). -/
structure LoadEntry where
  kind : Nat := 0
  tile : Nat := 0
  lm : Nat := 0
  page : Nat := 0
  fmt : Nat := 0
  src : Nat := 0
  base : Nat := 0
  len : Nat := 0
deriving DecidableEq, Repr

def loadEntries (bs : List Byte) : List LoadEntry :=
  (List.range (bs.length / 32)).map fun i =>
    let f (o n : Nat) : Nat := fieldAt bs (32 * i + o) n
    { kind := f 0 1, tile := f 1 1, lm := f 2 1, page := f 3 1, fmt := f 4 1, src := f 8 8, base := f 16 4, len := f 20 4 }

/-- Bytes a LOADMAP entry reads. -/
def LoadEntry.bytes (e : LoadEntry) : Nat := if e.kind = 1 then 1088 else e.len

/-! ## The plan as the checker reads it -/

/-- A plan of an image, with the partition and the device it is loaded on. -/
structure Plan where
  s : State
  p : Nat
  img : Image
  h : Header
  segs : List Seg
  /-- Records of the manifest, and whether a malformed one follows them. -/
  man : List ManRec
  badRec : Bool
  beats : List Byte
  sched : List SchedEntry
  /-- Handles of kept pages that match (R515). -/
  adopted : List (Nat × Nat × Nat)

def segBytes (g : Image) (segs : List Seg) (typ index : Nat) : List Byte :=
  match findSeg segs typ index with
  | some x => g.at x.off x.len
  | none => []

def planOf (s : State) (p : Nat) (g : Image) (adopted : List (Nat × Nat × Nat)) : Plan :=
  let h := headerOf g
  let segs := segsOf g h
  let man := segBytes g segs 2 0
  let r := manRecs man.length man
  { s := s, p := p, img := g, h := h, segs := segs, man := r.1, badRec := r.2, beats := segBytes g segs 3 0
    sched := schedOf (segBytes g segs 4 0), adopted := adopted }

/-- Index of the segment of a type, and of a tile's TILE segment. -/
def Plan.seg (c : Plan) (typ : Nat) : Nat := ((findSeg c.segs typ 0).map (·.idx)).getD 0
def Plan.tileSeg (c : Plan) (t : Nat) : Nat := ((findSeg c.segs 1 t).map (·.idx)).getD 0
def Plan.tileBytes (c : Plan) (t : Nat) : List Byte := segBytes c.img c.segs 1 t

/-- Streams of a tile. -/
def Plan.streams (c : Plan) (t : Nat) : List StreamRec :=
  let bs := c.tileBytes t
  (List.range 32).map (streamRecOf bs)

/-- Regions of the manifest. -/
def Plan.regions (c : Plan) : List Region :=
  c.man.filterMap fun r => match r with
    | .region k b n => some { kind := k, base := b, len := n }
    | _ => none

/-- Device number of a die, and of a tile, of the image (R334). -/
def Plan.die (c : Plan) (d : Nat) : Nat := if c.s.split then c.p else d
def Plan.tile (c : Plan) (t : Nat) : Nat := if c.s.split then 128 * c.p + t % 128 else t

/-- Scratchpad banks of the manifest, as device addresses. -/
def Plan.scratch (c : Plan) : List Nat :=
  c.man.filterMap fun r => match r with
    | .bank d b 1 => some (fenBase + fenDie * c.die d + fenBank * b)
    | _ => none

/-- The ledger ring as (base, bytes). -/
def Plan.ring (c : Plan) : List (Nat × Nat) :=
  c.man.filterMap fun r => match r with
    | .ring d b => some (b, d * (if c.s.split then 8192 else 16384))
    | _ => none

end Sys2Proof.Machine
end

