-- ==== Sys2Proof/Machine/Flow.lean ====
section
/-!
DEFINITION. The control flow of a plan's streams together with its schedule, without data: the run of R346, the
Beats it visits, and what follows from their order (R269, R270, R339, R344, R346, R565).
-/
namespace Sys2Proof.Machine

/-- A rejection: reason code, segment index and entry index (R348). -/
structure Rej where
  code : Nat := 0
  seg : Nat := 0
  entry : Nat := 0
deriving DecidableEq, Repr

/-! ## Programs -/

/-- A word of a stream's program: stream, pc and index in the instruction store. -/
structure PWord where
  st : Nat := 0
  pc : Nat := 0
  idx : Nat := 0
  w : Nat := 0
deriving DecidableEq, Repr

def wordIn (bs : List Byte) (idx : Nat) : Nat := fieldAt bs (istoreOff + 16 * idx) 16

/-- The words of a tile's programs, stream by stream. -/
def Plan.words (c : Plan) (t : Nat) : List PWord :=
  let bs := c.tileBytes t
  (List.range 32).flatMap fun k =>
    let r := streamRecOf bs k
    (List.range (min r.count (4096 - r.first))).map fun i => { st := k, pc := i, idx := r.first + i, w := wordIn bs (r.first + i) }

/-! ## A Beat of the run -/

/-- A stream in the control-flow run. -/
structure RunStream where
  t : Nat := 0
  k : Nat := 0
  r : StreamRec := {}
  /-- `none` once it has stopped. -/
  pc : Option Nat := none
  lc : Nat := 0
  it : Nat := 0
  /-- The BEATs of its program, as (pc, fn, target). -/
  beats : List (Nat × Nat × Nat) := []
deriving DecidableEq, Repr

/-- One Beat of a stream: it runs to its next BEAT. `none` when a release would put the pc at the count (R270). -/
def runBeat (x : RunStream) : Option RunStream :=
  match x.pc with
  | none => some x
  | some pc =>
    match x.beats.find? fun b => decide (pc ≤ b.1) with
    | none => none
    | some (at_, fn, target) =>
      let go (n lc it : Nat) : Option RunStream := if n < x.r.count then some { x with pc := some n, lc := lc, it := it } else none
      match fn with
      | 1 => go target x.lc x.it
      | 2 => if 0 < x.lc then go target (x.lc - 1) (x.it + 1) else go (at_ + 1) 0 x.it
      | 3 => some { x with pc := none }
      | _ => go (at_ + 1) x.lc x.it

/-- Run every stream; `none` when one fails. -/
def runBeats : List RunStream → Option (List RunStream)
  | [] => some []
  | x :: rest =>
    match runBeat x, runBeats rest with
    | some y, some ys => some (y :: ys)
    | _, _ => none

/-- The streams at plan load. -/
def Plan.runStreams (c : Plan) : List RunStream :=
  (List.range c.h.tiles).flatMap fun t =>
    let ws := c.words t
    let rs := c.streams t
    (List.range 32).map fun k =>
      let r := nth {} rs k
      { t := t, k := k, r := r, pc := if r.count = 0 then none else some 0, lc := r.lc
        beats := (ws.filter fun x => decide (x.st = k ∧ wordOpcode x.w = 1)).map fun x => (x.pc, wordFn x.w, fld x.w 20 12) }

/-- Do the streams stand at the start pcs that a Beat type records? -/
def startsAgree (c : Plan) (typ : Nat) (xs : List RunStream) : Bool :=
  xs.all fun x => decide (startOf c.beats typ x.t x.k = x.pc.getD 0xFFFF)

/-- Does a Beat of this stream execute the word at a pc? -/
def RunStream.executes (x : RunStream) (pc : Nat) : Bool :=
  match x.pc with
  | none => false
  | some a => decide (a ≤ pc) && (x.beats.all fun b => decide (b.1 < a ∨ pc ≤ b.1))

/-! ## The run (R346) -/

/-- What a release finds beside the control flow: semaphore values by 16·tile + semaphore, and x2 and x3 by
64·tile + 2·stream, x3 one above (R344). -/
structure RunState where
  sems : Tbl Nat := []
  xs : Tbl Nat := []
deriving DecidableEq, Repr

/-- A Beat of the run: its type, its streams and the states at its release. -/
structure RunBeat where
  typ : Nat
  xs : List RunStream
  sts : List RunState
  /-- In a body that repeats, what a turn adds to the `it` of each stream. -/
  step : List Nat := []
deriving DecidableEq, Repr

/-- The Beat of a body in its turn `r + 1`: the `it` values have moved on. -/
def RunBeat.turn (b : RunBeat) (r : Nat) : RunBeat :=
  { b with xs := if b.step.isEmpty then b.xs else (b.xs.zip b.step).map fun e => { e.1 with it := e.1.it + (r + 1) * e.2 } }

/-- Position of the run: schedule entry, pcs and states; and its counts. -/
abbrev RunPos := Nat × List (Option Nat) × List RunState
def countsOf (counts : List Nat) (xs : List RunStream) : List Nat := counts ++ xs.map (·.lc)

/-- Repetitions of a body that may be skipped: every count that it lowers allows them. -/
def repeats (before now : List Nat) : Nat :=
  minOf ((before.zip now).filterMap fun e => if e.2 < e.1 then some (e.2 / (e.1 - e.2)) else none)

def skipCounts (before now : List Nat) (m : Nat) : List Nat := (before.zip now).map fun e => e.2 - m * (e.1 - e.2)

/-- A position the run has been at: its counts, and how many Beats were logged. -/
structure Seen where
  pos : RunPos
  counts : List Nat
  len : Nat

/-- Turns of a body that no count ends: more than any count of the plan can tell apart. -/
def forever : Nat := 2 ^ 32

/-- The run of R346. It answers the rejection, if one arises, and its log: bodies of Beats with the times each runs.
`visit` carries the states of a release to those of the next. -/
def walkGo (c : Plan) (visit : RunBeat → List RunState) :
    Nat → Nat → List Nat → List RunStream → List RunState → List Seen → List (Nat × List RunBeat) → Option Rej × List (Nat × List RunBeat)
  | 0, _, _, _, _, _, log => (some { code := 0x0704, seg := c.seg 4 }, log)
  | fuel + 1, i, counts, xs, sts, seen, log =>
    let bad : Option Rej := some { code := 0x0703, seg := c.seg 4, entry := i }
    let e := nth {} c.sched i
    if e.typ = 0xFFFF then (none, log)
    else if !startsAgree c e.typ xs then (bad, log)
    else
      match runBeats xs with
      | none => (bad, log)
      | some ys =>
        let b : RunBeat := { typ := e.typ, xs := xs, sts := sts }
        let log := log ++ [(1, [b])]
        let sts := visit b
        let k := nth 0 counts i
        let next := if 0 < k then e.target else i + 1
        let counts := setAt counts i (k - 1)
        if c.sched.length ≤ next then (bad, log)
        else if (nth {} c.sched next).typ = 0xFFFF && ys.any (fun y => y.pc.isSome) then (bad, log)
        else
          let pos : RunPos := (next, ys.map (·.pc), sts)
          let now := countsOf counts ys
          let here : Seen := { pos := pos, counts := now, len := log.length }
          match seen.find? fun x => decide (x.pos = pos) with
          | none => walkGo c visit fuel next counts ys sts (here :: seen) log
          | some x =>
            let seen := here :: seen.filter fun x => decide (x.pos ≠ pos)
            let body := (log.drop x.len).flatMap fun e => (List.range e.1).flatMap fun r => e.2.map fun b => b.turn r
            if (x.counts.zip now).any fun e => decide (e.1 < e.2) then walkGo c visit fuel next counts ys sts seen log
            else if x.counts = now then (none, log ++ [(forever, body)])
            else
              let m := repeats x.counts now
              let v := skipCounts x.counts now m
              let step := ((x.counts.zip now).drop counts.length).map fun e => e.1 - e.2
              let zs := (ys.zip (v.drop counts.length)).map fun e => { e.1 with lc := e.2, it := e.1.it + (e.1.lc - e.2) }
              walkGo c visit fuel next (v.take counts.length) zs sts seen (log ++ [(m, body.map fun b => { b with step := step })])

/-- The whole run, within 2^24 abstract Beat steps (R346). -/
def Plan.walk (c : Plan) (visit : RunBeat → List RunState) (sts : List RunState) : Option Rej × List (Nat × List RunBeat) :=
  walkGo c visit (2 ^ 24) 0 (c.sched.map (·.count)) c.runStreams sts [] []

/-- The run without states. -/
def Plan.flow (c : Plan) : Option Rej × List (Nat × List RunBeat) := c.walk (fun _ => []) []

/-- The Beats of a log in order, each repeated body once and, where it runs on, once more: enough to tell which Beat can
come before which. -/
def Plan.beatsRun (c : Plan) : List RunBeat := c.flow.2.flatMap fun e => if e.1 = 0 then [] else e.2

/-! ## What can run before an instruction (R565) -/

/-- Can the run execute word `y` of a tile before word `x`: in an earlier Beat, or in the same Beat on another stream or
earlier on its own? -/
def beforeGo (t : Nat) (x y : PWord) : Bool → List RunBeat → Bool
  | _, [] => false
  | was, b :: rest =>
    let runs (w : PWord) : Bool := b.xs.any fun s => decide (s.t = t ∧ s.k = w.st) && s.executes w.pc
    (runs x && (was || (runs y && (decide (y.st ≠ x.st) || decide (y.pc < x.pc))))) || beforeGo t x y (was || runs y) rest

def runsBefore (bs : List RunBeat) (t : Nat) (x y : PWord) : Bool := beforeGo t x y false bs

end Sys2Proof.Machine
end

