-- ==== Sys2Proof/Machine/Checker.lean ====
section
/-!
DEFINITION. The plan checker, first part: the image, its signature, the geometry and the manifest, codes 0x0101
to 0x040C (R5, R17, R61, R77, R106, R114, R159, R207 to R209, R255, R259, R260, R335 to R343, R348, R481, R513, R515).
-/
namespace Sys2Proof.Machine

/-- Reject when a test holds. -/
def rejIf (b : Bool) (code seg entry : Nat) : Option Rej := if b then some { code := code, seg := seg, entry := entry } else none

/-- The location word: the entry index field reads 0xF_FFFF above 0xF_FFFE. -/
def Rej.loc (r : Rej) : Nat := r.seg % 4096 * 2 ^ 20 + min r.entry 0xFFFFF

/-- The first rejection of a list of checks. -/
def firstRej (l : List α) (f : α → Option Rej) : Option Rej := l.findSome? f

/-! ## The image (0x0101 to 0x0105) -/

def checkMagic (g : Image) : Option Rej :=
  rejIf (decide (g.num 0 4 ≠ 0x4942504B ∨ g.num 4 1 ≠ 1 ∨ g.num 6 2 ≠ 256)) 0x0101 0 0

/-- Header bounds that 0x0102 covers. -/
def headerFits (g : Image) (h : Header) : Bool :=
  decide (256 ≤ g.size ∧ h.imgSize = g.size ∧ g.size ≤ 2 ^ 30 ∧ 4 ≤ h.nseg ∧ h.nseg ≤ 4096 ∧ h.segtab % 64 = 0 ∧ 256 ≤ h.segtab ∧
    h.segtab + 32 * h.nseg ≤ h.limit ∧ (h.sigOff = 0 ∨ (256 ≤ h.sigOff ∧ h.sigOff + 128 = h.imgSize)))

/-- Is a segment's length the one its layout fixes (R335)? -/
def lenOk (g : Image) (x : Seg) : Bool :=
  match x.typ with
  | 1 => decide (x.len = 119744)
  | 2 => manFits x.len (g.at x.off x.len)
  | 3 => decide (8 ≤ x.len) && decide (x.len = 8 + g.num x.off 2 * (8 + 68 * g.num (x.off + 2) 2))
  | 4 => decide (x.len % 8 = 0)
  | 5 => decide (x.len = 256)
  | 6 => decide (x.len % 16 = 0)
  | 7 => decide (8 ≤ x.len) && decide (x.len = 8 + 65 * g.num (x.off + 2) 2)
  | 8 => decide (x.len % 32 = 0)
  | _ => true

/-- Does a segment meet the header, the segment table or an earlier segment? -/
def segOverlaps (h : Header) (segs : List Seg) (x : Seg) : Bool :=
  overlaps x.off x.len 0 256 || overlaps x.off x.len h.segtab (32 * h.nseg) ||
    (segs.take x.idx).any fun y => overlaps x.off x.len y.off y.len

def checkLayout (g : Image) (h : Header) (segs : List Seg) : Option Rej :=
  (if headerFits g h then none else some { code := 0x0102 }) <|>
  firstRej segs fun x =>
    rejIf (decide (x.off % 64 ≠ 0) || decide (h.limit < x.off + x.len) || !lenOk g x || segOverlaps h segs x) 0x0102 x.idx 0

def checkCrcs (g : Image) (segs : List Seg) : Option Rej :=
  firstRej segs fun x => rejIf (decide (crc32c (g.at x.off x.len) ≠ x.crc)) 0x0103 x.idx 0

/-- Counts of R335: one TILE per index below the header's tiles, one of each other required type, no type twice. -/
def checkCounts (h : Header) (segs : List Seg) : Option Rej :=
  (firstRej segs fun x =>
    let perTile := decide (x.typ = 1 ∨ x.typ = 7)
    let twice := (segs.take x.idx).any fun y => decide (y.typ = x.typ) && (!perTile || decide (y.index = x.index))
    rejIf ((perTile && decide (h.tiles ≤ x.index)) || (decide (1 ≤ x.typ ∧ x.typ ≤ 8) && twice)) 0x0104 x.idx 0) <|>
  rejIf (!((List.range h.tiles).all fun t => (findSeg segs 1 t).isSome) ||
    !([2, 3, 4, 5].all fun ty => segs.any fun x => decide (x.typ = ty))) 0x0104 0 0

/-- Entry of a reserved field that is not 0 in a segment of fixed layout. -/
def reservedEntry (x : Seg) (bs : List Byte) : Option Nat :=
  match x.typ with
  | 1 =>
    match lowest 32 fun k => decide (1 < fieldAt bs (16 * k + 10) 1) || decide (fieldAt bs (16 * k + 11) 5 ≠ 0) with
    | some k => some (4751 + k)
    | none => if allZero ((bs.drop 0x220).take 480) then none else some 0
  | 3 =>
    if fieldAt bs 4 4 ≠ 0 then some 0
    else lowest (typesOf bs) fun k => decide (fieldAt bs (typeOff bs k + 2) 6 ≠ 0)
  | 5 => lowest 16 fun k => decide (fieldAt bs (16 * k + 12) 4 ≠ 0)
  | 7 => if fieldAt bs 4 4 ≠ 0 then some 0 else none
  | 8 => lowest (bs.length / 32) fun k => decide (fieldAt bs (32 * k + 5) 3 ≠ 0 ∨ fieldAt bs (32 * k + 24) 8 ≠ 0)
  | _ => none

def checkReserved (g : Image) (h : Header) (segs : List Seg) : Option Rej :=
  rejIf (decide (g.num 57 1 ≠ 0) || !allZero (g.at 75 181) || (decide (h.sigOff ≠ 0) && (!allZero (g.at (h.sigOff + 1) 15) || !allZero (g.at (h.sigOff + 112) 16)))) 0x0105 0 0 <|>
  firstRej segs fun x =>
    rejIf (decide (x.typ = 0 ∨ 8 < x.typ ∨ x.resv ≠ 0) || (decide (x.index ≠ 0) && decide (x.typ ≠ 1 ∧ x.typ ≠ 7))) 0x0105 x.idx 0 <|>
    (reservedEntry x (g.at x.off x.len)).map fun e => { code := 0x0105, seg := x.idx, entry := e }

/-! ## The signature (0x0201 to 0x0203) (R343, R503) -/

/-- Key slot an image names, 0xFF for an unsigned one. -/
def keySlotOf (g : Image) (h : Header) : Nat := if h.sigOff = 0 then 0xFF else g.num h.sigOff 1

def checkSignature (x : Security) (g : Image) (h : Header) : Option Rej :=
  if h.sigOff = 0 then rejIf x.enforce 0x0201 0 0
  else
    let k := keySlotOf g h
    let slot := nth {} x.slots k
    if 3 < k ∨ slot.state ≠ 1 then some { code := 0x0202 }
    else rejIf (!ecdsaVerify slot.key (sha384 (g.at 0 h.sigOff)) (g.at (h.sigOff + 16) 48) (g.at (h.sigOff + 64) 48)) 0x0203 0 0

/-! ## Geometry and spares (0x0301 to 0x0306) -/

/-- Replacement of the pending tiles of a partition, in tile order: (logical, Reserve tile), and those left over
(R481): the Reserve tile of the same row, else of the nearest row, the lower winning a tie. -/
def rowDistance (a b : Nat) : Nat := if a ≤ b then b - a else a - b
def nearestReserve (free : List Nat) (row : Nat) : Option Nat :=
  (List.range 8).findSome? fun d => free.find? fun r => decide (rowDistance (r / 32 % 8) row = d)

def replaceGo (s : State) : List Nat → List Nat → List (Nat × Nat) × List Nat
  | [], _ => ([], [])
  | t :: rest, used =>
    let free := (freeReserve s (dieOf t)).filter fun r => !used.contains r
    match nearestReserve free (physTile s t / 32 % 8) with
    | some r => let x := replaceGo s rest (r :: used); ((t, r) :: x.1, x.2)
    | none => let x := replaceGo s rest used; (x.1, t :: x.2)

def tileReplacements (s : State) (p : Nat) : List (Nat × Nat) × List Nat :=
  replaceGo s ((pendingTiles s).filter fun t => decide (partOf s t = p)) []

/-- The physical tile that will serve a logical tile. -/
def servingAfter (s : State) (p t : Nat) : Nat :=
  match (tileReplacements s p).1.find? fun e => decide (e.1 = t) with
  | some e => e.2
  | none => physTile s t

/-- The physical port of a job port at the first plan load (R408). -/
def homePort (s : State) (p k : Nat) : Nat := if s.split then 2 * p + k else k

/-- May a partition use the Reserve port (R409)? -/
def reservePortFree (s : State) (p : Nat) : Bool := let x := portAt s 4; decide (x.state ≠ 3) && (!x.assigned || decide (x.part = p))

/-- Job ports of a plan and the physical port of each (R409). -/
def portPlan (s : State) (p ports : Nat) : List (Nat × Nat) :=
  let marked := (List.range ports).filter fun k => decide ((portAt s (homePort s p k)).state = 3)
  (List.range ports).filterMap fun k =>
    if !marked.contains k then some (k, homePort s p k)
    else if reservePortFree s p && decide (marked.head? = some k) then some (k, 4) else none

/-- Rate of the slowest of those ports as the plan load finds it, in bytes per ns (R406, R426). -/
def planRate (s : State) (p ports : Nat) : Nat :=
  (portPlan s p ports).foldl (fun r e => min r (if (portAt s e.2).mode ≤ 2 then 100 else 50)) 100

def checkGeometry (c : Plan) : Option Rej :=
  let h := c.h
  let want := if h.part = 0 then geometry 2 0 256 48 4 else if h.part = 1 then geometry 1 1 128 24 2 else []
  rejIf (decide ((c.img.at 48 12) ≠ want)) 0x0301 0 0 <|>
  rejIf (decide (h.part ≠ b2n c.s.split)) 0x0302 0 0 <|>
  (firstRej (List.range h.tiles) fun t =>
    let r := (tileAt c.s (servingAfter c.s c.p (c.tile t))).ret
    rejIf (decide (freeMacros r < r.pend.length)) 0x0303 (c.tileSeg t) 0) <|>
  (match (tileReplacements c.s c.p).2.head? with
   | some t => some { code := 0x0304, seg := c.tileSeg (if c.s.split then t % 128 else t) }
   | none => none) <|>
  rejIf (decide ((freeChannels c.s c.p).length < (pendingChannels c.s c.p).length)) 0x0305 0 0 <|>
  rejIf (decide ((portPlan c.s c.p h.ports).length < h.ports)) 0x0306 0 0

/-! ## A tile of the plan, for the operand forms of its instructions -/

/-- Pages that a PGWR of a tile writes in W4. -/
def w4Written (plan : Mem) (x : PWord) : List Nat :=
  match decodeTile x.w with
  | some (_, .pgwr o) => if o.w4 then (readGroup plan o.grp).mem.map fun m => pageKey m.lm o.page else []
  | _ => []

/-- Pages of a tile that can hold W4 at a word: a LOADMAP entry writes them so, the load may adopt them, or the run can
execute a W4 PGWR of them before the word (R565). -/
def Plan.mayW4 (c : Plan) (run : List RunBeat) (t : Nat) (plan : Mem) (x : PWord) : List Nat :=
  let ws := ((c.words t).filter fun y => runsBefore run t x y).flatMap (w4Written plan)
  let ls := (loadEntries (segBytes c.img c.segs 8 0)).filterMap fun e => if e.kind = 1 ∧ e.tile = t ∧ e.fmt = 1 then some (pageKey e.lm e.page) else none
  let ad := c.adopted.filterMap fun a => if a.1 = t then some (pageKey a.2.1 a.2.2) else none
  ws ++ ls ++ ad

/-- Declared pages of a tile: (key, scratch). -/
def Plan.pagesOf (c : Plan) (t : Nat) : List (Nat × Bool) :=
  c.man.filterMap fun r => match r with
    | .page u lm pg sc _ => if u = t then some (pageKey lm pg, sc) else none
    | _ => none

/-- Tensors of a tile. -/
def Plan.tensorsOf (c : Plan) (t : Nat) : List SpTensor :=
  c.man.filterMap fun r => match r with
    | .tensor u id pat k ncb first => if u = t then some { id := id, pat := pat, k := k, ncb := ncb, base := first } else none
    | _ => none

/-- Slots of a tile: 1 wide, 2 narrow. -/
def Plan.slotsOf (c : Plan) (t : Nat) : Tbl Nat :=
  c.man.foldl (fun tb r => match r with
    | .slot u n narrow => if u = t then tset 0 tb n (if narrow then 2 else 1) else tb
    | _ => tb) []

/-- The plan tables of a tile as its stores hold them. -/
def Plan.tables (c : Plan) (t : Nat) : Mem := mwrite [] istoreOff ((c.tileBytes t).drop istoreOff)

/-- A tile as the plan declares it, with some pages in W4 and the others in W8, as cleared (R78). -/
def Plan.view (c : Plan) (t : Nat) (w4 : List Nat) : Tile :=
  let ps := c.pagesOf t
  let pages : Tbl Page := (List.range 512).filterMap fun k =>
    let g : Page := { w4 := w4.contains k, resident := ps.contains (k, false) }
    if g = {} then none else some (k, g)
  { plan := c.tables t, slots := c.slotsOf t, tensors := c.tensorsOf t, pages := pages }

/-- The tile at a word, under the formats its pages can hold there: none in W4, and every one that can hold it. What the
checks measure grows with each page's width, so these two stand for every mixture (R565). -/
def Plan.views (c : Plan) (run : List RunBeat) (t : Nat) (x : PWord) : List Tile :=
  ([[], c.mayW4 run t (c.tables t) x].eraseDups).map (c.view t)

/-! ## The manifest (0x0401 to 0x040C) -/

/-- The first record that fails a test, which also sees the records before it. -/
def recFails (c : Plan) (code : Nat) (bad : List ManRec → ManRec → Bool) : Option Rej :=
  (lowest c.man.length fun i => match c.man[i]? with
    | some r => bad (c.man.take i) r
    | none => false).map fun i => { code := code, seg := c.seg 2, entry := i }

/-- The first instruction of the plan for which a test answers an entry index, under some format of its pages. -/
def wordFails (c : Plan) (code : Nat) (bad : Nat → Tile → PWord → Option Nat) : Option Rej :=
  let run := c.beatsRun
  firstRej (List.range c.h.tiles) fun t =>
    firstRej (c.words t) fun x =>
      firstRej (c.views run t x) fun v => (bad t v x).map fun e => { code := code, seg := c.tileSeg t, entry := e }

def checkRecords (c : Plan) : Option Rej := rejIf c.badRec 0x0401 (c.seg 2) c.man.length

def checkTsp (c : Plan) : Option Rej :=
  recFails c 0x0402 fun before r => match r with
    | .tsp t b n => decide (c.h.tiles ≤ t ∨ b % 64 ≠ 0 ∨ n % 64 ≠ 0 ∨ 0xC0000 < b + n) ||
        before.any fun q => match q with
          | .tsp u b' n' => decide (u = t) && overlaps b n b' n'
          | _ => false
    | _ => false

/-- Is an accumulator tile declared (R114)? -/
def accDeclared (v : Tile) (a : Nat) : Bool := slotKind v a = 2 || (slotKind v a = 1 && decide (a % 2 = 0))

/-- Accumulator tiles an instruction names, but those of a pass past offset 7, which 0x0506 reports. -/
def accNamed (v : Tile) (i : TileInstr) : List Nat :=
  let pass (tr : Bool) (o : PassOp) : List Nat := ((passOffsets v tr o).filter fun k => decide (k ≤ 7)).map fun k => o.tile + k * tileStep v o.tile
  match i with
  | .cpass o => pass false o
  | .tpass o => pass true o
  | i => (accClaims v i).filterMap fun x => match x.res with
    | .acc a => some a
    | _ => none

def checkAcc (c : Plan) : Option Rej :=
  recFails c 0x0403 (fun before r => match r with
    | .slot t n _ => decide (c.h.tiles ≤ t ∨ 31 < n) ||
        before.any fun q => match q with
          | .slot u n' _ => decide (u = t ∧ n' = n)
          | _ => false
    | _ => false) <|>
  wordFails c 0x0403 fun _ v x => match decodeTile x.w with
    | some (_, i) => if (accNamed v i).all (accDeclared v) then none else some x.idx
    | none => none

def checkPages (c : Plan) : Option Rej :=
  recFails c 0x0404 (fun before r => match r with
    | .page t lm pg sc rt => decide (c.h.tiles ≤ t ∨ 63 < lm ∨ 7 < pg) || (sc && decide (rt ≠ 0)) ||
        before.any fun q => match q with
          | .page u lm' pg' _ _ => decide (u = t ∧ lm' = lm ∧ pg' = pg)
          | _ => false
    | _ => false) <|>
  rejIf (!(c.adopted.all fun a => (c.pagesOf a.1).contains (pageKey a.2.1 a.2.2, false))) 0x0404 (c.seg 2) 0 <|>
  wordFails c 0x0404 fun t v x => match decodeTile x.w with
    | some (_, .upd o) =>
      if (updPages v o 0 0).any (fun u => (c.pagesOf t).contains (pageKey u.lm u.page, true)) then some x.idx else none
    | _ => none

def checkBanks (c : Plan) : Option Rej :=
  recFails c 0x0405 fun before r => match r with
    | .bank d b _ => decide (c.h.dies ≤ d ∨ 31 < b) || decide ((bankAt c.s (c.die d) b).state ≠ .unassigned) ||
        before.any fun q => match q with
          | .bank d' b' _ => decide (d' = d ∧ b' = b)
          | _ => false
    | _ => false

def checkCounters (c : Plan) : Option Rej :=
  recFails c 0x0406 fun before r => match r with
    | .counter i v l => decide (c.h.dies ≤ i / 256 ∨ l < v ∨ l = 0xFFFFFFFF) ||
        before.any fun q => match q with
          | .counter i' _ _ => decide (i' = i)
          | _ => false
    | _ => false

/-- May a window lie at a range: inside one uncached region, or inside one scratchpad bank of the plan (R429)? -/
def windowPlace (c : Plan) (a n : Nat) : Bool :=
  (c.regions.any fun r => decide (r.kind = 2 ∧ r.base ≤ a ∧ a + n ≤ r.base + r.len)) ||
  c.scratch.any fun b => decide (b ≤ a ∧ a + n ≤ b + fenBank)

def checkWindows (c : Plan) : Option Rej :=
  recFails c 0x0407 fun before r => match r with
    | .window w t st n b _ =>
      decide ((c.s.split = true ∧ 127 < w) ∨ c.h.tiles ≤ t ∨ 31 < st ∨ n = 0 ∨ 2 ^ 24 < n ∨ b % 32 ≠ 0) || !windowPlace c b (32 * n) ||
        before.any fun q => match q with
          | .window w' _ _ _ _ _ => decide (w' = w)
          | _ => false
    | _ => false

/-- Does a range meet a cached region? -/
def meetsCached (c : Plan) (a n : Nat) : Bool := c.regions.any fun r => decide (r.kind ≤ 1) && overlaps a n r.base r.len

def checkRing (c : Plan) : Option Rej :=
  rejIf c.ring.isEmpty 0x0408 (c.seg 2) 0 <|>
  recFails c 0x0408 fun before r => match r with
    | .ring d b =>
      let n := d * (if c.s.split then 8192 else 16384)
      decide (d < 2 ∨ 65536 < d ∨ b % 16384 ≠ 0) || outsidePart c.s c.p b n || meetsCached c b n ||
        before.any fun q => match q with
          | .ring _ _ => true
          | _ => false
    | _ => false

def checkRegions (c : Plan) : Option Rej :=
  recFails c 0x0409 fun before r => match r with
    | .region k b n => outsidePart c.s c.p b n || (c.s.split && decide (k = 1)) ||
        before.any fun q => match q with
          | .region _ b' n' => overlaps b n b' n'
          | _ => false
    | _ => false

/-- Blocks a tensor occupies. -/
def tensorBlocks (x : SpTensor) : Nat := 32 * spNw x * x.ncb

def checkTensors (c : Plan) : Option Rej :=
  recFails c 0x040A fun before r => match r with
    | .tensor t id pat k ncb first =>
      let x : SpTensor := { id := id, pat := pat, k := k, ncb := ncb, base := first }
      decide (c.h.tiles ≤ t ∨ 31 < id ∨ k = 0 ∨ 32768 < k ∨ 4096 < first + tensorBlocks x) ||
        before.any fun q => match q with
          | .tensor u id' pat' k' ncb' first' =>
            let y : SpTensor := { id := id', pat := pat', k := k', ncb := ncb', base := first' }
            decide (u = t) && (decide (id' = id) || overlaps first (tensorBlocks x) first' (tensorBlocks y))
          | _ => false
    | _ => false

/-- A block of the image against the tensor that holds it (R208); one outside every tensor has no pattern to meet. -/
def imageBlockOk (ts : List SpTensor) (b : Nat) (blk : List Byte) (e : Nat) : Bool :=
  match ts.find? fun x => decide (x.base ≤ b ∧ b < x.base + tensorBlocks x) with
  | some x => blockOk x.pat x.k ((b - x.base) / 32 % spNw x) blk e
  | none => false

def checkBlocks (c : Plan) : Option Rej :=
  firstRej c.segs fun x =>
    if x.typ ≠ 7 then none
    else
      let bs := c.img.at x.off x.len
      let first := fieldAt bs 0 2
      let n := fieldAt bs 2 2
      (lowest n fun i => !imageBlockOk (c.tensorsOf x.index) (first + i) ((bs.drop (8 + 64 * i)).take 64) (fieldAt bs (8 + 64 * n + i) 1)).map
        fun i => { code := 0x040B, seg := x.idx, entry := i }

/-- A run of bytes inside the union of some spans: each turn moves on to the end of a span that holds its start. -/
def coveredGo (spans : List (Nat × Nat)) : Nat → Nat → Nat → Bool
  | 0, a, stop => decide (stop ≤ a)
  | fuel + 1, a, stop =>
    if stop ≤ a then true
    else
      match spans.find? fun r => decide (r.1 ≤ a ∧ a < r.1 + r.2) with
      | some r => coveredGo spans fuel (r.1 + r.2) stop
      | none => false

def covered (spans : List (Nat × Nat)) (a n : Nat) : Bool := coveredGo spans (spans.length + 1) a (a + n)

/-- TSP regions of a tile. -/
def Plan.tspOf (c : Plan) (t : Nat) : List (Nat × Nat) :=
  c.man.filterMap fun r => match r with
    | .tsp u b n => if u = t then some (b, n) else none
    | _ => none

def checkLoadmap (c : Plan) : Option Rej :=
  let es := loadEntries (segBytes c.img c.segs 8 0)
  (lowest es.length fun i =>
    let e := nth {} es i
    let srcOk := decide (e.src % 64 = 0) && covered (c.regions.map fun r => (r.base, r.len)) e.src e.bytes
    let dstOk := if e.kind = 1 then decide (e.fmt ≤ 1) && (c.pagesOf e.tile).any (fun g => decide (e.lm < 64 ∧ e.page < 8 ∧ g.1 = pageKey e.lm e.page))
                 else decide (e.kind = 2) && covered (c.tspOf e.tile) e.base e.len
    !(srcOk && dstOk)).map fun i => { code := 0x040C, seg := c.seg 8, entry := i }

def checkManifest (c : Plan) : Option Rej :=
  checkRecords c <|> checkTsp c <|> checkAcc c <|> checkPages c <|> checkBanks c <|> checkCounters c <|> checkWindows c <|>
    checkRing c <|> checkRegions c <|> checkTensors c <|> checkBlocks c <|> checkLoadmap c

end Sys2Proof.Machine
end

