-- ==== Sys2Proof/Machine/Programs.lean ====
section
/-!
DEFINITION. The plan checker, second part: stream programs, instruction words, plan tables and operands, codes
0x0501 to 0x0609 (R50, R61, R117, R146, R163, R169, R173, R192, R197, R227, R232, R245 to R250, R255, R260, R268,
R270, R272 to R300, R348, R565).
-/
namespace Sys2Proof.Machine

/-! ## Stream programs (0x0501, 0x0502) -/

def checkPrograms (c : Plan) : Option Rej :=
  firstRej (List.range c.h.tiles) fun t =>
    let rs := c.streams t
    (lowest 32 fun k =>
      let r := nth {} rs k
      decide (0 < r.count) && (decide (4096 < r.first + r.count) || (rs.take k).any fun q => overlaps r.first r.count q.first q.count)).map
        fun k => { code := 0x0501, seg := c.tileSeg t, entry := 4751 + k }

/-- BEAT's fn and target against the stream's count, and a final word that ends the program (R270). -/
def beatBad (r : StreamRec) (x : PWord) : Bool :=
  let isBeat := decide (wordOpcode x.w = 1)
  let fn := wordFn x.w
  (isBeat && (decide (3 < fn) || (decide (fn = 1 ∨ fn = 2) && decide (r.count ≤ fld x.w 20 12)))) ||
    (decide (x.pc + 1 = r.count) && (!isBeat || decide (fn = 0)))

def checkBeats (c : Plan) : Option Rej :=
  wordFails c 0x0502 fun t _ x => if beatBad (streamRecOf (c.tileBytes t) x.st) x then some x.idx else none

/-! ## Words (0x0503, 0x0504) -/

/-- The opcodes of R273. -/
def listedOpcode (o : Nat) : Bool :=
  [0x00, 0x01, 0x02, 0x03, 0x04, 0x08, 0x10, 0x11, 0x12, 0x13, 0x14, 0x18, 0x19, 0x1A, 0x20, 0x21, 0x22, 0x28, 0x30, 0x31].contains o

/-- Fields outside limits that no later code names (R276, R278, R280, R284, R289, R432). A field that R278 marks for another
function is ignored (DESIGN CHOICE, log 163). -/
def fieldBad : TileInstr → Bool
  | .wcnt fn _ inc _ => decide ((fn = 1) ≠ (0 < inc))
  | .dma fn o => decide (fn = 3) && decide (2 ^ 14 ≤ o.dev)
  | .send o => (o.tsrc && decide (2 ^ 14 ≤ o.src)) || (o.nm && decide (o.len = 0 ∨ 32 * o.len % 2080 ≠ 0))
  | .pgwr o => decide (o.istep < 16) || (o.keepExp && decide (o.exp ≠ taddrNull))
  | .pgrd o => decide (o.istep < 17)
  | .qstat o => o.a4 || decide (o.dst ≠ 0 ∨ o.desc ≠ 0 ∨ o.dnext ≠ 0 ∨ o.strip ≠ 0)
  | _ => false

def wordBad (w : Nat) : Bool :=
  match decodeTile w with
  | none => true
  | some (h, i) => reservedBits w || decide (h.pred = 3) || fieldBad i

/-! ## Plan tables (0x0505 to 0x0508) -/

/-- Bytes of n elements of a pattern. -/
def Pattern.span (p : Pattern) (n : Nat) : Nat := (n * p.ebits + 7) / 8

/-- Pattern limits of R245 to R250 and R296 for a COPY, or for a pass with A4 or A8 inputs. -/
def patternBad (bs : List Byte) (copy : Bool) (a4 : Bool) : Bool :=
  let p := patternOf bs
  let n := p.span (if p.transpose then p.h else p.w)
  decide (bits (fieldAt bs 0 4) 31 22 ≠ 0 ∨ 2 < bits (fieldAt bs 0 4) 21 20 ∨ 1 < fieldAt bs 27 1 ∨ 4 < p.esize ∨ 2 < p.pad) ||
  decide (4096 < p.h ∨ 65536 < p.span p.w ∨ (p.transpose = true ∧ (32 < p.h ∨ 32 < p.w))) ||
  decide (p.r0 < -65535 ∨ 65535 < p.r0 ∨ p.c0 < -65535 ∨ 65535 < p.c0 ∨ p.pitch % 64 ≠ 0 ∨ p.pitch < p.span p.cols) ||
  (if copy then decide (p.pad = 2) || !((decide (n ≤ p.pd) && decide (p.pd % 8 = 0)) || (decide (n < 8) && decide (p.pd = n)))
   else decide (p.esize ≠ if a4 then 0 else 1))

/-- Do the bytes a COPY reads meet those it writes (R247)? -/
def copyOverlaps (v : Tile) (i : TileInstr) : Bool :=
  match operandsOf v i with
  | [a, b] => a.runs.any fun x => b.runs.any fun y => overlaps x.1 x.2 y.1 y.2
  | _ => false

/-- Pattern that an instruction names, when it is outside its limits. -/
def patternFault (v : Tile) (i : TileInstr) : Option Nat :=
  let rec_ (k : Nat) : List Byte := mread v.plan (patOff + 32 * k) 32
  match i with
  | .cpass o => if patternBad (rec_ o.pat) false o.a4 then some o.pat else none
  | .tpass o => if patternBad (rec_ o.pat) false o.a4 then some o.pat else none
  | .xmov o => if patternBad (rec_ o.pat) true false || copyOverlaps v i then some o.pat else none
  | _ => none

/-- Macro group of an instruction. -/
def groupNamed : TileInstr → Option Nat
  | .cpass o => some o.grp
  | .tpass o => some o.grp
  | .pgwr o => some o.grp
  | .pgrd o => some o.grp
  | .upd o => some o.grp
  | _ => none

/-- A group against R297 and R298. -/
def groupBad (bs : List Byte) : Bool :=
  let n := fieldAt bs 0 1
  let g := groupOf bs
  let inRange (x : Int) : Bool := decide (0 ≤ x) && decide (x ≤ 2047)
  decide (n = 0 ∨ 64 < n ∨ fieldAt bs 1 1 ≠ 0 ∨ fieldAt bs 14 2 ≠ 0) || !(g.outl.all fun x => decide (x ≤ 14 ∨ x = 0xFF)) ||
  ((List.range n).any fun k => decide (63 < fieldAt bs (16 + 8 * k) 1 ∨ fieldAt bs (21 + 8 * k) 3 ≠ 0)) || !allZero (bs.drop (16 + 8 * n)) ||
  decide ((g.mem.map (·.lm)).eraseDups.length ≠ n) ||
  !(g.mem.all fun m => (List.range 8).all fun p => inRange ((m.rb : Int) + p * g.prb) && inRange ((m.cb : Int) + p * g.pcb))

/-- Group that an instruction names, when it breaks its rules or needs a tile offset above 7. -/
def groupFault (v : Tile) (i : TileInstr) : Option Nat :=
  match groupNamed i with
  | none => none
  | some k =>
    let far := match i with
      | .cpass o => (passOffsets v false o).any fun x => decide (7 < x)
      | .tpass o => (passOffsets v true o).any fun x => decide (7 < x)
      | _ => false
    if groupBad (mread v.plan (grpOff + 528 * k) 528) || far then some k else none

/-- An outlier list whose used entries do not come first (R299). -/
def outlierBad (v : Tile) (k : Nat) : Bool :=
  let xs := (List.range 32).map fun i => leNat (mread v.plan (outlOff + 64 * k + 2 * i) 2)
  (xs.zip (xs.drop 1)).any fun e => decide (e.1 = 0xFFFF ∧ e.2 ≠ 0xFFFF)

def outlierFault (v : Tile) (i : TileInstr) : Option Nat :=
  let named := match i with
    | .qstat o => [o.ol]
    | .qconv _ o => [o.ol]
    | i => match groupNamed i with
      | some k => (readGroup v.plan k).outl
      | none => []
  named.find? fun k => decide (k ≤ 14) && outlierBad v k

/-- A UPD descriptor against R197 and R300. -/
def udescBad (bs : List Byte) : Bool :=
  let bf := bit (fieldAt bs 28 1) 0
  decide (fieldAt bs 0 8 % 128 ≠ 0 ∨ fieldAt bs 8 8 % (if bf then 64 else 128) ≠ 0 ∨ 2 ^ 18 ≤ fieldAt bs 16 4 ∨ 2 ^ 14 ≤ fieldAt bs 20 2 ∨
    2 ^ 12 ≤ fieldAt bs 22 2 ∨ 2 ^ 14 ≤ fieldAt bs 24 2 ∨ 2 ^ 12 ≤ fieldAt bs 26 2 ∨ 1 < fieldAt bs 28 1 ∨ fieldAt bs 29 3 ≠ 0)

def udescFault (v : Tile) (i : TileInstr) : Option Nat :=
  match i with
  | .upd o => if udescBad (mread v.plan (updOff + 32 * o.udesc) 32) then some o.udesc else none
  | _ => none

/-! ## Placement (0x0601) -/

/-- May an operand lie in a chain half: XMOV's data, and the results of DRAIN, QCONV and VOP (R248, R250)? -/
def chainAllowed (i : TileInstr) (k : Nat) (o : Operand) : Bool :=
  match i with
  | .cpass _ => decide (k = 0)
  | .tpass _ => decide (k = 0)
  | .xmov _ => true
  | .drain _ => decide (k = 2)
  | .qconv .. => decide (k = 2)
  | .vop .. => o.wr
  | _ => false

/-- Does a run lie inside one chain half? It may start past the half's first byte (R248, R274; DESIGN CHOICE, log 161). -/
def inChain (a n : Nat) : Bool := decide (0xC0000 ≤ a ∧ a + n ≤ 0xC4000) && decide ((a - 0xC0000) / 0x2000 = (a + n - 1 - 0xC0000) / 0x2000)

def runPlaced (tsp : List (Nat × Nat)) (chain : Bool) (r : Nat × Nat) : Bool := decide (r.2 = 0) || covered tsp r.1 r.2 || (chain && inChain r.1 r.2)

/-- Does all that a pattern reads lie in the space its base names (R250, R296)? -/
def inSpace (bs : List Byte) (o : Operand) : Bool :=
  let sp := patSpace (fieldAt bs 0 4)
  o.runs.all fun r => decide (r.2 = 0) || (decide (sp.1 ≤ r.1) && decide (r.1 + r.2 ≤ sp.1 + sp.2))

/-- The source of a COPY or of a pass in its pattern's space. -/
def sourceInSpace (v : Tile) (i : TileInstr) : Bool :=
  let rec_ (k : Nat) : List Byte := mread v.plan (patOff + 32 * k) 32
  let first (k : Nat) : Bool := match operandsOf v i with
    | o :: _ => inSpace (rec_ k) o
    | [] => true
  match i with
  | .cpass o => first o.pat
  | .tpass o => first o.pat
  | .xmov o => first o.pat
  | _ => true

/-- Every TSP operand inside the tile's regions or an allowed chain half. -/
def operandsPlaced (c : Plan) (t : Nat) (v : Tile) (i : TileInstr) : Bool :=
  let os := operandsOf v i
  (List.range os.length).all fun k => match os[k]? with
    | some o => o.runs.all (runPlaced (c.tspOf t) (chainAllowed i k o))
    | none => true

/-- LPDDR5X that tiles may name, with the ledger ring; and the scratchpad banks. -/
def Plan.lpddr (c : Plan) : List (Nat × Nat) := (c.regions.filter fun r => decide (r.kind ≠ 3)).map fun r => (r.base, r.len)
def Plan.banksOn (c : Plan) (d : Nat) : List (Nat × Nat) :=
  (c.scratch.filter fun b => decide ((b - fenBase) / fenDie = d)).map fun b => (b, fenBank)
def Plan.granted (c : Plan) : List (Nat × Nat) := c.lpddr ++ c.ring ++ c.banksOn 0 ++ c.banksOn 1

/-- Pages an instruction names. -/
def pagesNamed (v : Tile) (i : TileInstr) : List Nat :=
  (pageClaims v i).filterMap fun x => match x.res with
    | .page k => some k
    | _ => none

/-- Blocks of an UPD. -/
def updBlocks (v : Tile) (o : UpdOp) : Nat := ((updPages v o 0 0).map fun u => (pageOf v u.pm u.page).ncols).foldl (· + ·) 0

/-- Is a sparse tensor that an instruction names declared? -/
def tensorDeclared (v : Tile) (i : TileInstr) : Bool :=
  let has (id : Nat) : Bool := v.tensors.any fun x => decide (x.id = id)
  match i with
  | .spmacSw _ o => has o.tensor
  | .prune _ o => has o.tensor
  | .store _ o => has o.tensor
  | _ => true

/-- The device side of an instruction inside what the plan owns, as far as it is fixed before the run (R275, R281). -/
def devicePlaced (c : Plan) (t : Nat) (v : Tile) (i : TileInstr) : Bool :=
  match i with
  | .dma 3 o => decide (o.dtile < c.h.tiles) && covered (c.tspOf o.dtile) (tbyte o.dev) (32 * (o.len + 1))
  | .dma _ o => decide (o.xsel ≠ 0) || covered c.granted (32 * o.dev) (32 * (o.len + 1))
  | .send o => o.tsrc || covered c.lpddr (32 * o.src) (32 * (o.len + 1))
  | .upd o =>
    let d := readUDesc v.plan o.udesc
    let n := updBlocks v o
    covered (c.lpddr ++ c.banksOn 0 ++ c.banksOn 1) d.state (128 * n) &&
      covered (c.lpddr ++ c.banksOn (dieOf (c.tile t))) d.grad ((if d.bf16 then 64 else 128) * n)
  | _ => true

def placed (c : Plan) (t : Nat) (v : Tile) (i : TileInstr) : Bool :=
  tensorDeclared v i && sourceInSpace v i && operandsPlaced c t v i && ((pagesNamed v i).all fun k => (c.pagesOf t).any fun g => decide (g.1 = k)) && devicePlaced c t v i

/-! ## Operands of each engine (0x0602 to 0x0609) -/

/-- Rows of a CARRIED destination inside one Quantised tensor record (R50). -/
def inQuantised (c : Plan) (t : Nat) (o : QuantOp) : Bool :=
  let n := 32 * (o.n32 + 1)
  let l := rowLen (if o.a4 then 7 else 6) n
  let a := tbyte o.dst
  c.man.any fun r => match r with
    | .qtensor u b n' rows => decide (u = t ∧ n' = n ∧ b ≤ a ∧ (a - b) % l = 0 ∧ (a - b) / l + o.r + 1 ≤ rows)
    | _ => false

def quantBad (c : Plan) (t : Nat) (i : TileInstr) : Bool :=
  match i with
  | .qstat o => decide (2 < o.ifmt)
  | .qconv carried o => decide (2 < o.ifmt) || decide ((o.ol = 15) ≠ (o.strip = taddrNull)) || (carried && !inQuantised c t o)
  | _ => false

/-- Results routed to a narrow tile, or past the last row (R117, R283). -/
def routeBad (v : Tile) (i : TileInstr) : Bool :=
  let narrow := (accNamed v i).any fun a => decide (slotKind v a = 2)
  match i with
  | .cpass o => (!o.a4 && narrow) || decide (31 < o.row0 + o.h)
  | .tpass o => (!o.a4 && narrow) || decide (31 < o.row0 + o.h)
  | .spmacSw .. => narrow
  | .spmacSa _ => narrow
  | .vop .outl _ => narrow
  | _ => false

def drainBad (i : TileInstr) : Bool :=
  match i with
  | .drain o =>
    let rq := decide (o.ofmt = 6 ∨ o.ofmt = 7)
    let opt := drainOpt o
    decide (o.ofmt = 5 ∨ 31 < o.row0 + o.h ∨ 3 < o.c8 + o.w8) || (rq && opt) || decide ((o.recd = taddrNull) ≠ (rq = false ∧ opt = false))
  | _ => false

/-- Formats of a VOP (R163, R173): CP64 only where the operation reads or produces it, A8 and A4 never (log 75). -/
def vopFormats (k : Vop) (o : VopOp) : Bool :=
  let f (x : Nat) : Bool := decide (x ≤ 4)
  match k with
  | .twosum => f o.afmt && decide (o.ofmt = 5)
  | .cpadd => decide (o.afmt = 5) && decide (o.ofmt = 5)
  | .rcsum => f o.afmt && decide (o.ofmt = 5)
  | .deq => f o.afmt && (f o.ofmt || decide (o.ofmt = 5))
  | .imgadd => (f o.afmt || decide (o.afmt = 5)) && (f o.ofmt || decide (o.ofmt = 5))
  | _ => f o.afmt && f o.ofmt

def columnReduction : Vop → Bool
  | .csum => true
  | .cmax => true
  | _ => false

def rowReduction : Vop → Bool
  | .rsum => true
  | .rmax => true
  | .rmin => true
  | .rmaxabs => true
  | .rcsum => true
  | _ => false

/-- Does a result overlap an input without coinciding with it (R173)? -/
def partialOverlap (os : List Operand) : Bool :=
  os.any fun a => a.wr && os.any fun b => !b.wr && a.runs.any fun x => b.runs.any fun y => overlaps x.1 x.2 y.1 y.2 && decide (x ≠ y)

def vectorBad (v : Tile) (i : TileInstr) : Bool :=
  match i with
  | .vop k o =>
    let h := vRows o
    let w := vCols o
    !vopFormats k o || partialOverlap (operandsOf v i) ||
      (match k with
       | .iadd | .deq | .imgadd => false
       | .outl => decide (32 < w)
       | _ => if columnReduction k then decide (4096 < w) else if rowReduction k then decide (65536 < w) else decide (65536 < h * w))
  | _ => false

/-- Columns, or row blocks, that a page holds. -/
def colsOf (v : Tile) (key cb : Nat) : List Nat := if (tget {} v.pages key).w4 then [cb, cb + 1] else [cb]

/-- Pages of the tile that a group maps, as (key, row block, column block). -/
def mappedPages (v : Tile) : List (Nat × Nat × Nat) :=
  (List.range 64).flatMap fun k =>
    let g := readGroup v.plan k
    (List.range 8).flatMap fun p => g.mem.map fun m => (pageKey m.lm p, g.rbp m p, g.cbp m p)

/-- UPD coverage: every resident page that holds a touched channel, or in tied mode a touched row block (R192). -/
def updCovers (v : Tile) (o : UpdOp) : Bool :=
  let us := updPages v o 0 0
  let keys := us.map fun u => pageKey u.lm u.page
  let cs := us.flatMap fun u => colsOf v (pageKey u.lm u.page) u.cb
  let rs := us.map fun u => u.rb
  (mappedPages v).all fun e =>
    keys.contains e.1 || !(tget {} v.pages e.1).resident ||
      (!((colsOf v e.1 e.2.2).any fun x => cs.contains x) && !(o.tied && rs.contains e.2.1))

def updBad (v : Tile) (i : TileInstr) : Bool :=
  match i with
  | .upd o => decide (o.pmask = 0) || !updCovers v o || (o.tied && decide ((readUDesc v.plan o.udesc).treft = taddrNull))
  | _ => false

/-- Windows and blocks of SPMAC and PRUNE inside their tensor (R227, R232). -/
def sparseBad (v : Tile) (i : TileInstr) : Bool :=
  match i with
  | .spmacSw tr o =>
    let x := tensorOf v o.tensor
    decide (x.ncb ≤ o.cb ∨ spNw x < o.k0 + o.nw + 1) || (tr && decide (256 < (o.nw + 1) * nmW x.pat))
  | .prune _ o =>
    let x := tensorOf v o.tensor
    decide (x.ncb ≤ o.cb ∨ spNw x < o.k0 + o.nw + 1) || (o.table && decide (o.k0 ≠ 0 ∨ o.nw + 1 ≠ spNw x))
  | .store _ o =>
    let x := tensorOf v o.tensor
    decide (o.blk < x.base ∨ x.base + tensorBlocks x < o.blk + o.nb + 1)
  | _ => false

/-- A counter the manifest does not declare, or on another die (R260). -/
def counterBad (c : Plan) (i : TileInstr) : Bool :=
  match i with
  | .wcnt _ k _ _ => decide (c.h.dies ≤ k / 256) || !(c.man.any fun r => match r with
      | .counter n _ _ => decide (n = k)
      | _ => false)
  | _ => false

/-- ADD to an uncached region, judged at x = 0; SEND outside the group or to an undeclared window (R255, R281). -/
def targetBad (c : Plan) (i : TileInstr) : Bool :=
  match i with
  | .dma 2 o =>
    let a := 32 * o.dev
    let n := 32 * (o.len + 1)
    (c.regions.any fun r => decide (r.kind = 2) && overlaps a n r.base r.len) || c.ring.any fun r => overlaps a n r.1 r.2
  | .send o => decide (c.h.gsize < o.peer) || !(c.man.any fun r => match r with
      | .window w _ _ _ _ _ => decide (w = o.window)
      | _ => false)
  | _ => false

/-! ## The instruction checks in table order -/

/-- A check over decoded instructions; the entry is the instruction word. -/
def instrFails (c : Plan) (code : Nat) (bad : Nat → Tile → TileInstr → Bool) : Option Rej :=
  wordFails c code fun t v x => match decodeTile x.w with
    | some (_, i) => if bad t v i then some x.idx else none
    | none => none

/-- A check over the plan tables an instruction names; the entry is the record. -/
def tableFails (c : Plan) (code first : Nat) (bad : Tile → TileInstr → Option Nat) : Option Rej :=
  wordFails c code fun _ v x => match decodeTile x.w with
    | some (_, i) => (bad v i).map fun k => first + k
    | none => none

def checkInstrs (c : Plan) : Option Rej :=
  checkPrograms c <|> checkBeats c <|>
  wordFails c 0x0503 (fun _ _ x => if listedOpcode (wordOpcode x.w) then none else some x.idx) <|>
  wordFails c 0x0504 (fun _ _ x => if wordBad x.w then some x.idx else none) <|>
  tableFails c 0x0505 4096 patternFault <|> tableFails c 0x0506 4608 groupFault <|> tableFails c 0x0507 4672 outlierFault <|>
  tableFails c 0x0508 4687 udescFault <|>
  instrFails c 0x0601 (fun t v i => !placed c t v i) <|> instrFails c 0x0602 (fun t _ i => quantBad c t i) <|>
  instrFails c 0x0603 (fun _ v i => routeBad v i) <|> instrFails c 0x0604 (fun _ _ i => drainBad i) <|>
  instrFails c 0x0605 (fun _ v i => vectorBad v i) <|> instrFails c 0x0606 (fun _ v i => updBad v i) <|>
  instrFails c 0x0607 (fun _ v i => sparseBad v i) <|> instrFails c 0x0608 (fun _ _ i => counterBad c i) <|>
  instrFails c 0x0609 (fun _ _ i => targetBad c i)

end Sys2Proof.Machine
end

