-- ==== Sys2Proof/Machine/Schedule.lean ====
section
/-!
DEFINITION. The plan checker's schedule of a Beat type: every tile's streams under the issue, unit, lane and scoreboard
rules, each operation at its charged cost, cycle by cycle (R52, R85 to R97, R120, R166, R195, R196, R211, R214, R222, R229,
R238 to R243, R249, R262, R279, R301 to R312, R344, R365, R392, R426, R427).
-/
namespace Sys2Proof.Machine

/-! ## What a Beat executes (R270, R272, R278, R344) -/

/-- An instruction that a Beat executes, with what the registers fix: whether it is skipped, and a DMA's address. -/
structure RunInstr where
  x : PWord
  h : Hdr
  op : TileInstr
  skip : Bool
  addr : Nat := 0
deriving DecidableEq, Repr

/-- The words a Beat executes on a stream. -/
def Plan.beatWords (c : Plan) (s : RunStream) : List PWord := (c.words s.t).filter fun x => decide (x.st = s.k) && s.executes x.pc

/-- Values a WCNT can return: what the counter can hold, and EXHAUSTED where an ADD may pass the limit (R260, R261). -/
def wcntValues (c : Plan) (fn counter inc : Nat) : List Nat :=
  match c.man.findSome? fun r => match r with
    | .counter i v l => if i = counter then some (v, l) else none
    | _ => none with
  | none => [0]
  | some (v, l) => if fn = 2 then [v] else if fn = 1 then 0xFFFFFFFF :: List.range (l + 1 - inc) else List.range (l + 1)

/-- The results of the WCNTs of some words, in every combination. -/
def choicesOf (c : Plan) : List PWord → List (List Nat)
  | [] => [[]]
  | x :: rest =>
    match decodeTile x.w with
    | some (_, .wcnt fn k inc _) => (wcntValues c fn k inc).flatMap fun v => (choicesOf c rest).map fun l => v :: l
    | _ => choicesOf c rest

/-- Run the words of a stream with its registers and the results of its WCNTs: the instructions, and x2 and x3 after. -/
def runWords (it : Nat) : List PWord → Nat → Nat → List Nat → List RunInstr × Nat × Nat × List Nat
  | [], x2, x3, ch => ([], x2, x3, ch)
  | x :: rest, x2, x3, ch =>
    match decodeTile x.w with
    | none => runWords it rest x2 x3 ch
    | some (h, op) =>
      let skip := (decide (h.pred = 1) && decide (x2 = 0xFFFFFFFF)) || (decide (h.pred = 2) && decide (x3 = 0xFFFFFFFF))
      match op with
      | .wcnt _ _ _ d3 =>
        let v := ch.headD 0
        let r := runWords it rest (if skip || d3 then x2 else v) (if skip || !d3 then x3 else v) ch.tail
        ({ x := x, h := h, op := op, skip := skip } :: r.1, r.2)
      | .dma _ o =>
        let i := if o.xsel = 1 then it else if o.xsel = 2 then x2 else if o.xsel = 3 then x3 else 0
        let r := runWords it rest x2 x3 ch
        ({ x := x, h := h, op := op, skip := skip, addr := (32 * o.dev + 32 * o.stride * i) % 2 ^ 64 } :: r.1, r.2)
      | _ =>
        let r := runWords it rest x2 x3 ch
        ({ x := x, h := h, op := op, skip := skip } :: r.1, r.2)

/-- A stream's instructions in a Beat. -/
structure StreamRun where
  t : Nat
  k : Nat
  is : List RunInstr
deriving DecidableEq, Repr

/-- Run every stream of a Beat: the instructions, and the registers left. -/
def runStreamsGo (c : Plan) : List RunStream → Tbl Nat → List Nat → List StreamRun × Tbl Nat
  | [], xs, _ => ([], xs)
  | s :: rest, xs, ch =>
    let k := 64 * s.t + 2 * s.k
    let r := runWords s.it (c.beatWords s) (tget 0 xs k) (tget 0 xs (k + 1)) ch
    let q := runStreamsGo c rest (tset 0 (tset 0 xs k r.2.1) (k + 1) r.2.2.1) r.2.2.2
    ({ t := s.t, k := s.k, is := r.1 } :: q.1, q.2)

/-! ## Can every WAIT be met (R310, R312)? -/

/-- What an instruction does to a semaphore, by 16·tile + semaphore. -/
inductive SemEv where
  | wait (key n : Nat) (take : Bool)
  | add (key n : Nat)
  | set (key n : Nat)
deriving DecidableEq, Repr

def semEvents (t : Nat) (r : RunInstr) : List SemEv :=
  (match r.op with
   | .sema 0 s n => [.wait (16 * t + s) n (!r.skip)]
   | .sema 1 s n => if r.skip then [] else [.add (16 * t + s) n]
   | .sema 2 s n => if r.skip then [] else [.set (16 * t + s) n]
   | .dma 3 o => if o.rsig && !r.skip then [.add (16 * o.dtile + o.rsem) 1] else []
   | _ => []) ++ (if r.h.sig then [.add (16 * t + r.h.sem) 1] else [])

/-- One event, if the semaphores allow it. -/
def semStep (sems : Tbl Nat) : SemEv → Option (Tbl Nat)
  | .wait k n take => if n ≤ tget 0 sems k then some (if take then tset 0 sems k (tget 0 sems k - n) else sems) else none
  | .add k n => some (if tget 0 sems k + n ≤ 0xFFFF then tset 0 sems k (tget 0 sems k + n) else sems)
  | .set k n => some (tset 0 sems k n)

/-- Does some order of the streams run all of their events? -/
def canMeet : Nat → List (List SemEv) → Tbl Nat → Bool
  | 0, ss, _ => ss.all (·.isEmpty)
  | fuel + 1, ss, sems =>
    ss.all (·.isEmpty) || (List.range ss.length).any fun k =>
      match nth [] ss k with
      | [] => false
      | e :: rest =>
        match semStep sems e with
        | some sems => canMeet fuel (setAt ss k rest) sems
        | none => false

def waitsMetIn (rs : List StreamRun) (sems : Tbl Nat) : Bool :=
  let ss := rs.map fun r => r.is.flatMap (semEvents r.t)
  canMeet ((ss.map (·.length)).foldl (· + ·) 0) ss sems

/-! ## Users of memory and of Fen banks (R196, R392) -/

/-- Device ranges that a word can name: (address, bytes), and whether an index can move it. -/
def deviceRanges (v : Tile) (i : TileInstr) : List (Nat × Nat × Bool) :=
  match i with
  | .dma fn o => if fn = 3 then [] else [(32 * o.dev, 32 * (o.len + 1), decide (o.xsel ≠ 0 ∧ o.stride ≠ 0))]
  | .upd o =>
    let d := readUDesc v.plan o.udesc
    let n := updBlocks v o
    [(d.state, 128 * n, false), (d.grad, (if d.bf16 then 64 else 128) * n, false)]
  | _ => []

/-- Fen banks that a range touches, numbered over both dies; it lies in scratchpad. -/
def banksIn (a n : Nat) : List Nat :=
  if isFen a then (List.range ((a + n - 1 - fenBase) / fenBank - (a - fenBase) / fenBank + 1)).map fun k => (a - fenBase) / fenBank + k else []

/-- Decoded words of a Beat on a tile. -/
def Plan.tileOps (c : Plan) (b : RunBeat) (t : Nat) : List (PWord × TileInstr) :=
  (b.xs.filter fun s => decide (s.t = t)).flatMap fun s => (c.beatWords s).filterMap fun x => (decodeTile x.w).map fun d => (x, d.2)

/-- n_mem of a Beat: tiles with an access that can lie in LPDDR5X (R392). -/
def memUsers (c : Plan) (b : RunBeat) (view : Nat → PWord → Tile) : Nat :=
  max 1 ((List.range c.h.tiles).filter fun t => (c.tileOps b t).any fun e =>
    (deviceRanges (view t e.1) e.2).any fun r => r.2.2 || !isFen r.1).length

/-- n_fen of some banks: tiles with a UPD or DMA that names one of them (R196). A DMA whose address an index moves names
the banks of its base range (DESIGN CHOICE, log 157). -/
def fenUsers (c : Plan) (b : RunBeat) (view : Nat → PWord → Tile) (banks : List Nat) : Nat :=
  ((List.range c.h.tiles).filter fun t => (c.tileOps b t).any fun e =>
    (deviceRanges (view t e.1) e.2).any fun r => (banksIn r.1 r.2.1).any fun k => banks.contains k).length

/-- WCNTs that tiles other than `t` may issue to the counter port of a die (R262). -/
def otherWcnts (c : Plan) (b : RunBeat) (t d : Nat) : Nat :=
  (((List.range c.h.tiles).filter fun u => decide (u ≠ t)).map fun u => ((c.tileOps b u).filter fun e => match e.2 with
    | .wcnt _ k _ _ => decide (k / 256 = d)
    | _ => false).length).foldl (· + ·) 0

/-- Tiles whose words hold a SEND (R426). -/
def sendUsers (c : Plan) (b : RunBeat) : Nat :=
  max 1 ((List.range c.h.tiles).filter fun t => (c.tileOps b t).any fun e => match e.2 with
    | .send _ => true
    | _ => false).length

/-! ## Charged costs -/

/-- ACLK of the plan's point in MHz: cycles in a microsecond. -/
def Plan.mhz (c : Plan) : Nat := 1050 - 35 * c.h.pc

/-- Guaranteed rate of the TILE class in bytes per µs (R390). -/
def tileRate (split : Bool) : Nat := if split then 280000 else 560000

/-- Cycles of the tile's memory allowance that some bytes take (R392). -/
def memCycles (c : Plan) (users bytes : Nat) : Nat := cdiv (bytes * users * c.mhz) (tileRate c.s.split)

/-- Bytes charged to a DMA: every unit whole, a cached access as a miss, and what it writes into a cached region as a
write-back (R392). -/
def dmaBytes (c : Plan) (fn a n : Nat) : Nat :=
  if isFen a then 0
  else
    let u := 256 * ((a + n - 1) / 256 - a / 256 + 1)
    if fn = 2 ∧ meetsCached c a n = true then 2 * u else u

/-- Latency after the last request (R279). -/
def dmaLatency (c : Plan) (t fn a : Nat) (o : DmaOp) : Nat :=
  if fn = 3 then (if dieOf (c.tile o.dtile) = dieOf (c.tile t) then 128 else 256)
  else if fn = 4 ∨ !isFen a then c.mhz
  else if fenDieOf a = dieOf (c.tile t) then 128 else 256

/-- Budget of a SEND in cycles (R426, R427). -/
def sendCycles (c : Plan) (users : Nat) (o : SendOp) : Nat :=
  let wire := max 1 (c.h.ports * planRate c.s c.p c.h.ports)
  let r := if o.tsrc then wire else min wire (if c.s.split then 50 else 100)
  let b := 32 * (o.len + 1)
  cdiv ((cdiv (b * users) r + 2 * cdiv (min b 131072 * users) r + 18000) * c.mhz) 1000

/-- Element cycles of a VOP, and its cycles after the last (R166, R171, R172). The BF16 rate is charged only where every
format is BF16 (DESIGN CHOICE, log 151). -/
def vopCycles (v : Vop) (o : VopOp) : Nat × Nat :=
  let h := vRows o
  let w := vCols o
  let n := h * w
  let rate := if o.afmt = 1 ∧ o.ofmt = 1 then 128 else 64
  match v with
  | .add | .sub | .mul | .min | .max | .fma => (cdiv n rate, 4)
  | .abs | .neg | .cvt => (cdiv n rate, 2)
  | .twosum => (cdiv n 32, 6)
  | .cpadd => (cdiv n 16, 10)
  | .exp | .log | .rcp | .rsqrt => (cdiv n 32, 14)
  | .rsum | .rmax | .rmin | .rmaxabs => (cdiv n 64, 24)
  | .rcsum => (cdiv n 16, 36)
  | .csum | .cmax => (h * cdiv w 64, 4)
  | .emax8 | .emin8 => (cdiv n 128, 2)
  | .iadd | .deq => (40, 0)
  | .imgadd => (72, 0)
  | .outl => (cdiv (h * (o.o + 1) * w) 64, 20)

/-- Cycles of a UPD before its pages, over them, and after the last (R196). `users` are n_mem, and n_fen of its banks. -/
def updCycles (c : Plan) (v : Tile) (o : UpdOp) (nmem nfen : Nat) : Nat × Nat × Nat :=
  let us := updPages v o 0 0
  let p4 := (us.filter fun u => (pageOf v u.pm u.page).w4).length
  let p8 := us.length - p4
  let g := max 1 (readGroup v.plan o.grp).nmem
  let d := readUDesc v.plan o.udesc
  let n := updBlocks v o
  let glen := if d.bf16 then 64 else 128
  let engine := p8 * max 16 (cdiv 42 g) + p4 * max 32 (cdiv 74 g)
  let bytes := n * (256 + (if o.clearGrad then 2 * glen else glen))
  let banks := (banksIn d.state (128 * n) ++ banksIn d.grad (glen * n)).eraseDups
  let mem := if isFen d.state && isFen d.grad then max (cdiv bytes 64) (cdiv (bytes * nfen) (128 * max 1 banks.length))
             else memCycles c nmem bytes
  (cdiv (4 * c.mhz) 5, max engine mem, 26 + (if 0 < p4 then 16 else 0))

/-- How the charged schedule spends an instruction. -/
inductive SWork where
  /-- It completes at issue. -/
  | atIssue
  /-- A NOP of this delay. -/
  | hold (delay : Nat)
  /-- It completes this many cycles after issue. -/
  | fixed (n : Nat)
  /-- A unit takes it in issue order: `n` engine cycles that begin `lead` cycles after issue at the earliest, and `tail`
  cycles after the last. `alone` says that the unit starts the next one only when it has completed, and `mem` that its
  engine cycles use the tile's memory allowance. -/
  | engine (unit : Eu) (lead n tail : Nat) (alone mem : Bool)
  /-- COPY: it completes this many cycles after its last source line is fetched (R249). -/
  | copy (tail : Nat)
  /-- Passes: the macros, the page, plane cycles of a pass, passes, and capacity units of a result register. -/
  | pass (mem : List Nat) (page planes vecs cost : Nat)
  /-- PGWR or PGRD of one page of each macro. -/
  | pages (write : Bool) (mem : List Nat) (page : Nat)
  /-- UPD: cycles before, over and after its pages, and the pages: (macro, page, in W4). -/
  | update (pre body tail : Nat) (mem : Bool) (pages : List (Nat × Nat × Bool))
deriving DecidableEq, Repr

/-- Lines that the output of a COPY's last block occupies (R249). -/
def lastBlockLines (v : Tile) (o : CopyOp) : Nat :=
  let p := readPattern v.plan o.pat
  let j0 := (p.w - 1) / 32 * 32
  let i0 := (p.h - 1) / 32 * 32
  (((List.range (p.w - j0)).flatMap fun k => runLines (tbyte o.dst + (j0 + k) * p.pd + i0 * p.ebits / 8, ((p.h - i0) * p.ebits + 7) / 8)).eraseDups).length

/-- What a Beat fixes for the costs of its instructions. -/
structure BeatCosts where
  nmem : Nat
  nsend : Nat
  nfen : List Nat → Nat
  wcnts : Nat → Nat → Nat

def beatCosts (c : Plan) (b : RunBeat) (view : Nat → PWord → Tile) : BeatCosts :=
  { nmem := memUsers c b view, nsend := sendUsers c b, nfen := fenUsers c b view, wcnts := otherWcnts c b }

/-- The charged cost of an instruction (R344). -/
def workOf (c : Plan) (q : BeatCosts) (v : Tile) (t : Nat) (r : RunInstr) : SWork :=
  let members (g : Nat) : List Nat := (readGroup v.plan g).mem.map (·.lm)
  let units (a : Nat) : Nat := if slotKind v a = 2 then 1 else 2
  match r.op with
  | .nop d => .hold d
  | .beat .. => .atIssue
  | .sema .. => .atIssue
  | .hint .. => .atIssue
  | .wcnt _ k _ _ => .fixed ((if c.die (k / 256) = dieOf (c.tile t) then 64 else 96) + q.wcnts t (k / 256))
  | .dma fn o =>
    let n := 32 * (o.len + 1)
    let m := if fn = 3 then 0 else memCycles c q.nmem (dmaBytes c fn r.addr n)
    .engine (.dma o.ch) 1 (max (if fn = 4 then 1 else cdiv n 64) m) (dmaLatency c t fn r.addr o) false (decide (0 < m))
  | .send o => .engine .send 1 (sendCycles c q.nsend o) 0 true false
  | .cpass o => .pass (members o.grp) o.page (if o.a4 then 4 else 8) (o.h + 1) (units o.tile)
  | .tpass o => .pass (members o.grp) o.page (if o.a4 then 8 else 16) (o.h + 1) (units o.tile)
  | .pgwr o => .pages true (members o.grp) o.page
  | .pgrd o => .pages false (members o.grp) o.page
  | .upd o =>
    let d := readUDesc v.plan o.udesc
    let n := updBlocks v o
    let x := updCycles c v o q.nmem (q.nfen (banksIn d.state (128 * n) ++ banksIn d.grad ((if d.bf16 then 64 else 128) * n)))
    .update x.1 x.2.1 x.2.2 (!(isFen d.state && isFen d.grad)) ((updPages v o 0 0).map fun u => (u.lm, u.page, (pageOf v u.pm u.page).w4))
  | .acmrd o => .engine .drain 1 (if slotKind v o.tile = 2 ∧ o.widen = false then 17 else 33) 4 false false
  | .acmwr o => .engine .drain 1 (if slotKind v o.tile = 2 then 17 else 33) 4 false false
  | .drain o => .engine .drain 2 (cdiv ((o.h + 1) * (8 * (o.w8 + 1))) 32) (if drainOpt o then 9 else 5) false false
  | .qstat o => .engine .quant 1 ((o.r + 1) * (o.n32 + 1)) 8 false false
  | .qconv carried o => .engine .quant 13 ((if carried then 2 else 1) * ((o.r + 1) * (o.n32 + 1))) 6 false false
  | .xmov o => .copy (if (readPattern v.plan o.pat).transpose then 4 + lastBlockLines v o else 6)
  | .vop k o => .engine .vec 1 (max 1 (vopCycles k o).1) (vopCycles k o).2 false false
  | .spmacSw tr o => .engine .sparse 2 ((if tr then 2 else 1) * ((o.h + 1) * (o.nw + 1))) 5 true false
  | .spmacSa o => .engine .sparse 1 ((o.h + 1) * (o.k32 + 1)) 20 true false
  | .prune _ o => .engine .sparse 1 (cdiv (32 * (o.nw + 1) * nmW (tensorOf v o.tensor).pat) 64) 12 true false
  | .store _ o => .engine .sparse 1 (cdiv (o.nb + 1) 4) 6 true false

/-! ## The schedule's state -/

/-- An instruction of the schedule. -/
structure SItem where
  k : Nat
  r : RunInstr
  claims : List Claim
  units : List Eu
  /-- Read streams with all their lines, and how many of each must be fetched before issue. -/
  reads : List (List LaneReq)
  firsts : List Nat
  writes : List LaneReq
  work : SWork
deriving DecidableEq, Repr

/-- Lines of a chain half, numbered on from the TSP's: XMOV reads them at one a cycle, outside the lanes (R248). -/
def chainLines (o : Operand) : List Nat :=
  if o.wr then []
  else (o.runs.flatMap fun r => if r.1 < 0xC0000 ∨ r.2 = 0 then []
    else (List.range ((r.1 + r.2 - 1) / 256 - r.1 / 256 + 1)).map fun k => r.1 / 256 + k).eraseDups

/-- The instruction as the schedule sees it; a skipped one reads nothing and completes at issue (R315). A chain half is no
TSP read stream: nothing of it is fetched before issue. -/
def itemOf (c : Plan) (q : BeatCosts) (v : Tile) (t k : Nat) (r : RunInstr) : SItem :=
  let os := operandsOf v r.op
  let lines (o : Operand) : List LaneReq := (operandLines o ++ chainLines o).map fun l => { master := o.master, line := l }
  let reads := if r.skip then [] else (os.filter fun o => o.fetch && !o.wr).map lines
  let first (ls : List LaneReq) : Nat := (ls.filter fun l => decide (l.line < 3072)).length
  let exps : Bool := match r.op with
    | .pgwr _ => true
    | _ => false
  { k := k, r := r, claims := claimsOf v k r.h r.op, units := unitsOf v r.op
    reads := reads, firsts := reads.zipIdx.map fun e => if exps && decide (e.2 = 1) then first e.1 else min 8 (first e.1)
    writes := if r.skip then [] else (os.filter (·.wr)).flatMap lines
    work := if r.skip then .atIssue else workOf c q v t r }

/-- An instruction in flight. -/
structure SFlight where
  i : SItem
  /-- Order of entry, and the cycle of issue. -/
  entry : Nat
  issue : Nat
  /-- Lines fetched of each read stream, and lines entered in the write buffer. -/
  got : List Nat
  /-- Cycle of its latest fetch. -/
  lastGot : Nat := 0
  put : Nat := 0
  /-- Cycle in which its unit took it. -/
  act : Option Nat := none
  /-- Engine cycles spent, passes latched or pages started; result registers that the path has not taken. -/
  done : Nat := 0
  left : Nat := 0
  /-- Cycle of its completion, once fixed. -/
  fin : Option Nat := none
deriving DecidableEq, Repr

/-- A stream: its instructions from the pending one on, the cycle in which that one enters, and its lines fetched. -/
structure SStream where
  k : Nat
  is : List SItem
  enter : Nat := 0
  got : List Nat := []
  lastGot : Nat := 0
deriving DecidableEq, Repr

/-- A macro: when its trees may run the planes of a new pass, the pass on them (entry, last plane cycle), results that wait
(entry, cycle from which they are eligible), and when its page port is free. -/
structure SMac where
  free : Option Nat := some 0
  run : Option (Nat × Nat) := none
  regs : List (Nat × Nat) := []
  port : Nat := 0
deriving DecidableEq, Repr

/-- A page operation: its instruction's entry, the macro and page, whether it writes, the cycle from which it may start, the
cycles it holds the port, and its start. -/
structure SJob where
  entry : Nat
  lm : Nat
  page : Nat
  write : Bool
  earliest : Nat
  hold : Nat
  start : Option Nat := none
deriving DecidableEq, Repr

structure STile where
  t : Nat
  streams : List SStream
  flights : List SFlight := []
  macs : Tbl SMac := []
  jobs : List SJob := []
  wbuf : List LaneReq := []
  rr : Nat := 0
  /-- The latest completion so far. -/
  last : Nat := 0
deriving DecidableEq, Repr

/-- The ramp limiter of a die (R363, R365): the slice, its predecessor's activity with ballast, what each tile did in that
slice and in this one, and the sums that the type's power takes. -/
structure SRamp where
  slice : Nat := 0
  level : Nat := 0
  allow : Nat := 0
  did : Tbl Nat := []
  now : Tbl Nat := []
  /-- What each tile has issued on its engines in this slice. -/
  issued : Tbl Nat := []
  sum : Nat := 0
  slices : Nat := 0
deriving DecidableEq, Repr

structure Sched where
  cyc : Nat := 0
  tiles : List STile
  sems : Tbl Nat := []
  ramps : List SRamp := []
deriving DecidableEq, Repr

/-! ## Issue (R301 to R303, R308, R365) -/

/-- Order of entry: by cycle, then ascending stream (R301). -/
def SStream.entry (s : SStream) : Nat := 32 * s.enter + s.k

/-- The pending instruction of a stream, once it has entered. -/
def SStream.pend (s : SStream) (cyc : Nat) : Option SItem := if s.enter ≤ cyc then s.is.head? else none

/-- Does no claim of an earlier instruction hold the pending one back (R308)? -/
def sHazardFree (x : STile) (cyc : Nat) (s : SStream) (i : SItem) : Bool :=
  (x.flights.all fun f => decide (s.entry ≤ f.entry) || f.i.claims.all fun a => i.claims.all fun b => !(holds true a b)) &&
  x.streams.all fun q => match q.pend cyc with
    | none => true
    | some j => decide (s.entry ≤ q.entry) || j.claims.all fun a => i.claims.all fun b => !(holds false a b)

def takesTag (w : SWork) : Bool := match w with
  | .atIssue => false
  | .hold _ => false
  | _ => true

def sReady (x : STile) (sems : Tbl Nat) (cyc : Nat) (s : SStream) (i : SItem) : Bool :=
  let beat : Bool := match i.r.op with
    | .beat .. => true
    | _ => false
  sHazardFree x cyc s i &&
  (!(i.r.h.fence || beat) || !(x.flights.any fun f => decide (f.i.k = s.k))) &&
  (match i.r.op with | .sema 0 k n => decide (n ≤ tget 0 sems (16 * x.t + k)) | _ => true) &&
  ((i.firsts.zip (s.got ++ List.replicate i.firsts.length 0)).all fun e => decide (e.1 ≤ e.2)) &&
  (!takesTag i.work || decide ((x.flights.filter fun f => takesTag f.i.work).length < 64)) &&
  i.units.all fun u => decide ((x.flights.filter fun f => f.i.units.contains u).length < unitLimit u)

/-- Does a macro of the schedule have passes to run: on its trees, or still to latch; and its port a page operation? -/
def sPlanesBusy (x : STile) (m : Nat) : Bool :=
  (tget {} x.macs m).run.isSome || x.flights.any fun f => match f.i.work with
    | .pass ms _ _ vecs _ => ms.contains m && decide (f.done < vecs)
    | _ => false
def sPortBusy (x : STile) (cyc m : Nat) : Bool :=
  x.jobs.any fun j => decide (j.lm = m) && (match j.start with
    | some s => decide (cyc ≤ s + j.hold)
    | none => true)

/-- Macros that a pass or page instruction of the schedule works on. -/
def workMacros : SWork → List Nat
  | .pass ms .. => ms
  | .pages _ ms _ => ms
  | _ => []

/-- Activity that an issue adds to a slice of `n` cycles. -/
def sCost (x : STile) (d n cyc : Nat) (i : SItem) : Nat :=
  if i.r.skip then 0
  else issueCost d n (fun _ => workMacros i.work) (fun m => !sPlanesBusy x m) (fun m => !sPortBusy x cyc m) i.r.op

/-- Activity that a tile's macros spend in a slice with what they have taken on. -/
def sLoad (x : STile) (d n cyc : Nat) : Nat :=
  let ms := (x.flights.flatMap fun f => workMacros f.i.work).eraseDups
  n * ((ms.filter (sPlanesBusy x)).length * Config.weight d .plane +
       ((x.jobs.map (·.lm)).eraseDups.filter (sPortBusy x cyc)).length * Config.weight d .page)

/-- Would the issue lift the die above its slice limit (R363, R365)? -/
def sRampOpen (x : STile) (g : SRamp) (d n cyc : Nat) (i : SItem) : Bool :=
  decide (sCost x d n cyc i = 0) ||
    decide (tget 0 g.issued x.t + sLoad x d n cyc + sCost x d n cyc i ≤ tget 0 g.did x.t + g.allow)

/-- The stream that issues, with its instruction: the lowest ready one at or above the pointer, or the lowest. -/
def sPick (x : STile) (sems : Tbl Nat) (cyc : Nat) : Option (SStream × SItem) :=
  let rs := x.streams.filterMap fun s => match s.pend cyc with
    | some i => if sReady x sems cyc s i then some (s, i) else none
    | none => none
  match rs.find? fun e => decide (x.rr ≤ e.1.k) with
  | some e => some e
  | none => rs.head?

/-- Semaphore changes of an issue: SEMA's own, and the signal of what completes at issue. -/
def sIssueSems (sems : Tbl Nat) (t : Nat) (i : SItem) : Tbl Nat :=
  let es := (semEvents t i.r).filter fun e => match e with
    | .add .. => decide (i.work = .atIssue)
    | _ => true
  es.foldl (fun s e => (semStep s e).getD s) sems

/-- The slice counts what issued on an engine; macros count cycle by cycle. -/
def addIssue (g : SRamp) (t n : Nat) (op : TileInstr) : SRamp :=
  if n = 0 ∨ onMacros op = true then g
  else { g with now := tset 0 g.now t (tget 0 g.now t + n), issued := tset 0 g.issued t (tget 0 g.issued t + n) }

def addAct (g : SRamp) (t n : Nat) : SRamp := if n = 0 then g else { g with now := tset 0 g.now t (tget 0 g.now t + n) }

/-- The issue cycle of a tile. -/
def sIssue (x : STile) (sems : Tbl Nat) (g : SRamp) (d n cyc : Nat) : STile × Tbl Nat × SRamp :=
  match sPick x sems cyc with
  | none => (x, sems, g)
  | some (s, i) =>
    if !sRampOpen x g d n cyc i then (x, sems, g)
    else
      let cost := sCost x d n cyc i
      let wait := match i.work with
        | .hold n => n + 1
        | _ => 0
      let x : STile := { x with rr := (s.k + 1) % 32, streams := x.streams.map fun q => if q.k = s.k then { q with is := q.is.tail, enter := cyc + 1 + wait, got := [] } else q }
      let x : STile := match i.work with
        | .atIssue => { x with last := max x.last cyc }
        | .hold n => { x with flights := x.flights ++ [{ i := i, entry := s.entry, issue := cyc, got := [], fin := some (cyc + 1 + n) }] }
        | .fixed n => { x with flights := x.flights ++ [{ i := i, entry := s.entry, issue := cyc, got := [], fin := some (cyc + n) }] }
        | .pages w ms page =>
          { x with flights := x.flights ++ [{ i := i, entry := s.entry, issue := cyc, got := s.got }]
                   jobs := x.jobs ++ ms.zipIdx.map fun e => { entry := s.entry, lm := e.1, page := page, write := w, earliest := cyc + 4 * e.2, hold := if w then 20 else 17 } }
        | _ => { x with flights := x.flights ++ [{ i := i, entry := s.entry, issue := cyc, got := s.got, lastGot := s.lastGot }] }
      (x, sIssueSems sems x.t i, addIssue g x.t cost i.r.op)

/-! ## Lanes (R238 to R241, R306) -/

/-- Lines of a stream of `n` that `done` of `total` engine cycles need. -/
def linesFor (n done total : Nat) : Nat := cdiv (n * done) (max 1 total)

/-- Engine cycles, passes or pages that an instruction spends its lines over; none where they are taken as they come. -/
def spanOf : SWork → Option Nat
  | .engine _ _ n _ _ _ => some n
  | .pages _ ms _ => some ms.length
  | _ => none

/-- How many lines of a stream may have been fetched: those before issue, then 8 beyond those used. -/
def fetchLimit (w : SWork) (done n : Nat) : Nat :=
  match spanOf w with
  | some total => min n (linesFor n done total + 8)
  | none => n

/-- The next line that each read stream wants, with the stream's place. -/
def wants (i : SItem) (entry : Nat) (got limits : List Nat) : List (Nat × LaneReq) :=
  i.reads.zipIdx.filterMap fun e =>
    let n := nth 0 got e.2
    if n < nth 0 limits e.2 then (e.1[n]?).map fun q => (e.2, { q with entry := entry }) else none

/-- Everything the tile's fetch units want in a cycle: (entry, stream of lines, request); a master fetches for the four of its
instructions that entered first (R306). -/
def fetchWants (x : STile) (cyc : Nat) : List (Nat × Nat × LaneReq) :=
  let ps := x.streams.flatMap fun s => match s.pend cyc with
    | some i => if !i.r.skip && sHazardFree x cyc s i then (wants i s.entry s.got i.firsts).map fun e => (s.entry, e) else []
    | none => []
  let fs := x.flights.flatMap fun f =>
    (wants f.i f.entry f.got (f.i.reads.map fun l => fetchLimit f.i.work f.done l.length)).map fun e => (f.entry, e)
  let all := ps ++ fs
  all.filter fun e => decide (((all.filter fun q => decide (q.2.2.master = e.2.2.master ∧ q.1 < e.1)).map (·.1)).eraseDups.length < 4)

/-- One more line of a stream has been fetched. -/
def bump (got : List Nat) (k : Nat) : List Nat := setAt (got ++ List.replicate (k + 1 - got.length) 0) k (nth 0 got k + 1)

def fetched (x : STile) (cyc entry k : Nat) : STile :=
  { x with streams := x.streams.map fun s => if s.is.isEmpty = false ∧ s.entry = entry then { s with got := bump s.got k, lastGot := cyc } else s
           flights := x.flights.map fun f => if f.entry = entry then { f with got := bump f.got k, lastGot := cyc } else f }

/-- A cycle of the eight read lanes, and of the chain buffer's own port. -/
def sFetch (x : STile) (cyc : Nat) : STile :=
  let x := (List.range 8).foldl (fun x lane =>
    let ws := (fetchWants x cyc).filter fun e => decide (e.2.2.line < 3072)
    match (serve readLane lane (laneGroup cyc lane) (ws.map (·.2.2))).1 with
    | none => x
    | some w => match ws.find? fun e => decide (e.2.2 = w) with
      | some e => fetched x cyc e.1 e.2.1
      | none => x) x
  match ((fetchWants x cyc).filter fun e => decide (3072 ≤ e.2.2.line)).mergeSort fun a b => decide (a.1 ≤ b.1) with
  | e :: _ => fetched x cyc e.1 e.2.1
  | [] => x

/-- A cycle of the eight write lanes. -/
def sDrainLines (x : STile) (cyc : Nat) : STile :=
  (List.range 8).foldl (fun x lane => match (serve writeLane lane (laneGroup cyc lane) x.wbuf).1 with
    | some w => { x with wbuf := x.wbuf.erase w }
    | none => x) x

/-- Room for `n` more lines of a master in its write buffer of 16 (R241). -/
def buffered (x : STile) (m : Master) : Nat := (x.wbuf.filter fun q => decide (q.master = m)).length
def roomFor (x : STile) (m : Master) (n : Nat) : Bool := decide (buffered x m + n ≤ 16) || decide (buffered x m = 0)

/-- Lines of a flight's results up to `upto` enter the write buffer, if there is room. -/
def putLines (x : STile) (f : SFlight) (upto : Nat) : Option (STile × SFlight) :=
  let ls := (f.i.writes.take upto).drop f.put
  match ls with
  | [] => some (x, f)
  | q :: _ => if roomFor x q.master ls.length then some ({ x with wbuf := x.wbuf ++ ls }, { f with put := upto }) else none

/-! ## Engines (R174, R200, R249, R279, R305) -/

def setFlight (x : STile) (f : SFlight) : STile := { x with flights := x.flights.map fun g => if g.entry = f.entry then f else g }

/-- Are the lines fetched that the next engine cycle of `total` needs? -/
def linesHere (f : SFlight) (total : Nat) : Bool :=
  f.i.reads.zipIdx.all fun e => decide (linesFor e.1.length (f.done + 1) total ≤ nth 0 f.got e.2)

/-- A cycle of one unit: the first of its instructions with engine cycles left spends one, if it may. The flag says that the
tile's memory allowance has been used in this cycle. -/
def engineCycle (x : STile) (u : Eu) (cyc : Nat) (memUsed : Bool) : STile × Bool :=
  let mine := x.flights.filterMap fun f => match f.i.work with
    | .engine v lead n tail alone mem => if v = u then some (f, lead, n, tail, alone, mem) else none
    | _ => none
  match mine.find? fun e => decide (e.1.done < e.2.2.1) with
  | none => (x, memUsed)
  | some (f, lead, n, tail, alone, mem) =>
    if alone && !(mine.head?.any fun e => decide (e.1.entry = f.entry)) then (x, memUsed)
    else
      let f := { f with act := some (f.act.getD (max f.issue (cyc - 1))) }
      let from_ := (if alone then f.act.getD cyc else f.issue) + lead
      if cyc < from_ ∨ (mem && memUsed) ∨ linesHere f n = false then (setFlight x f, memUsed)
      else
        match putLines x f (f.i.writes.length * (f.done + 1) / n) with
        | none => (setFlight x f, memUsed)
        | some (x, f) =>
          (setFlight x { f with done := f.done + 1, fin := if f.done + 1 = n then some (cyc + tail) else none }, memUsed || mem)

/-- A cycle of XMOV's COPYs: output lines leave as source lines come, and the last fetch fixes the completion. -/
def copyCycle (x : STile) (cyc : Nat) : STile :=
  x.flights.foldl (fun x f => match f.i.work with
    | .copy tail =>
      let all := (f.i.reads.map (·.length)).foldl (· + ·) 0
      let got := f.got.foldl (· + ·) 0
      let f := if all ≤ got ∧ f.act = none then { f with act := some (if all = 0 then f.issue else f.lastGot) } else f
      let upto := min (f.put + (16 - buffered x .xmov)) (if all ≤ got then f.i.writes.length else f.i.writes.length * got / all)
      let r := (putLines x f (max f.put upto)).getD (x, f)
      let g := r.2
      let fin := match g.act with
        | some a => if g.put = f.i.writes.length ∧ a + tail ≤ cyc then some cyc else none
        | none => none
      setFlight r.1 { g with fin := fin }
    | _ => x) x

/-- Pages of an update: the engine starts the next one 16 cycles after a W8 page and 32 after a W4 page, and later in
proportion where its body is longer (R195, R196; DESIGN CHOICE, log 151). -/
def updJobs (f : SFlight) (at_ pre body : Nat) (pages : List (Nat × Nat × Bool)) : List SJob :=
  let pitch (e : Nat × Nat × Bool) : Nat := if e.2.2 then 32 else 16
  let sum (es : List (Nat × Nat × Bool)) : Nat := (es.map pitch).foldl (· + ·) 0
  pages.zipIdx.map fun e =>
    { entry := f.entry, lm := e.1.1, page := e.1.2.1, write := true
      earliest := at_ + pre + body * sum (pages.take e.2) / max 1 (sum pages), hold := if e.1.2.2 then 73 else 41 }

/-- A cycle of the update engine: one UPD at a time. -/
def updateCycle (x : STile) (cyc : Nat) (memUsed : Bool) : STile × Bool :=
  match x.flights.find? fun f => match f.i.work with
    | .update .. => true
    | _ => false with
  | none => (x, memUsed)
  | some f =>
    match f.i.work with
    | .update pre body tail mem pages =>
      match f.act with
      | none =>
        if cyc ≤ f.issue then (x, memUsed)
        else (setFlight { x with jobs := x.jobs ++ updJobs f (cyc - 1) pre body pages } { f with act := some (cyc - 1), done := 1 }, memUsed || mem)
      | some a =>
        let total := pre + body
        if f.done < total then
          if mem && memUsed then (x, memUsed) else (setFlight x { f with done := f.done + 1 }, memUsed || mem)
        else
          let js := x.jobs.filter fun j => decide (j.entry = f.entry)
          match putLines x f f.i.writes.length with
          | none => (x, memUsed)
          | some (x, f) =>
            if js.all (·.start.isSome) then
              let ends := js.foldl (fun m j => max m (j.start.getD 0 + j.hold + 1)) (a + total + tail)
              (setFlight x { f with fin := some (max cyc ends) }, memUsed)
            else (setFlight x f, memUsed)
    | _ => (x, memUsed)

/-! ## Macros, the accumulation path and page ports (R85 to R97, R120, R195, R243) -/

def macAt (x : STile) (m : Nat) : SMac := tget {} x.macs m
def setMac (x : STile) (m : Nat) (y : SMac) : STile := { x with macs := tset {} x.macs m y }

/-- Capacity units of a result register of an instruction. -/
def pathCost (x : STile) (entry : Nat) : Nat :=
  match x.flights.find? fun f => decide (f.entry = entry) with
  | some f => match f.i.work with
    | .pass _ _ _ _ c => c
    | _ => 0
  | none => 0

/-- The path takes waiting registers oldest first, then lowest macro, while units remain (R120). -/
def takeRegs (cyc : Nat) : List (Nat × Nat × Nat) → Nat → STile → STile
  | [], _, x => x
  | (_, m, entry) :: rest, units, x =>
    let c := pathCost x entry
    if units < c then x
    else
      let y := macAt x m
      let x := setMac x m { y with regs := match y.regs.find? fun r => decide (r.1 = entry) with
                                    | some r => y.regs.erase r
                                    | none => y.regs }
      let x := { x with flights := x.flights.map fun f =>
        if f.entry = entry then
          let all : Bool := match f.i.work with
            | .pass _ _ _ n _ => decide (f.done = n)
            | _ => false
          { f with left := f.left - 1, fin := if all && decide (f.left = 1) then some (cyc + 4) else none }
        else f }
      takeRegs cyc rest (units - c) x

def pathCycle (x : STile) (cyc : Nat) : STile :=
  let ws := x.macs.flatMap fun e => (e.2.regs.filter fun r => decide (r.2 ≤ cyc)).map fun r => (r.2, e.1, r.1)
  takeRegs cyc (ws.mergeSort fun a b => decide (a.1 < b.1) || (decide (a.1 = b.1) && decide (a.2.1 ≤ b.2.1))) 16 x

/-- Passes whose planes have ended move to a free output register (R86, R87). -/
def moveResults (x : STile) (cyc : Nat) : STile :=
  { x with macs := x.macs.map fun e => match e.2.run with
      | some (entry, last) =>
        if last ≤ cyc ∧ e.2.regs.length < 2 then (e.1, { e.2 with run := none, free := some (cyc + 1), regs := e.2.regs ++ [(entry, cyc + 2)] }) else e
      | none => e }

/-- Is a page free of earlier writes, for a pass that would latch in this cycle (R96, R97)? -/
def pageClear (x : STile) (f : SFlight) (m page cyc : Nat) : Bool :=
  x.jobs.all fun j => !(j.write && decide (j.lm = m ∧ j.page = page ∧ j.entry < f.entry)) || (match j.start with
    | some s => decide (s + j.hold < cyc)
    | none => false)

/-- The macros latch their next passes, in issue order; the members of a group together (R85, R89, R283). -/
def latchPasses (x : STile) (cyc : Nat) : STile :=
  (x.flights.foldl (fun (a : STile × List Nat) f => match f.i.work with
    | .pass ms page planes vecs _ =>
      if vecs ≤ f.done then a
      else
        let (x, busy) := a
        let ok := decide (f.issue < cyc) && ms.all (fun m => !busy.contains m && ((macAt x m).free.any fun n => decide (n ≤ cyc + 1)) && pageClear x f m page cyc) &&
          linesHere f vecs
        let x := if ok then
            let x := ms.foldl (fun x m => setMac x m { macAt x m with free := none, run := some (f.entry, cyc + planes) }) x
            setFlight x { f with done := f.done + 1, left := f.left + ms.length }
          else x
        (x, busy ++ ms)
    | _ => a) (x, [])).1

/-- Is an earlier pass on the page still in flight on the macro (R96)? -/
def passInFlight (x : STile) (entry m page : Nat) : Bool :=
  x.flights.any fun f => match f.i.work with
    | .pass ms p _ vecs _ =>
      decide (f.entry < entry) && ms.contains m && decide (p = page) &&
        (decide (f.done < vecs) || ((macAt x m).run.any fun r => decide (r.1 = f.entry)) || (macAt x m).regs.any fun r => decide (r.1 = f.entry))
    | _ => false

/-- Lines of the images that the next page of a PGWR needs, and those that a PGRD writes. -/
def pageLines (x : STile) (j : SJob) : Option STile :=
  match x.flights.find? fun f => decide (f.entry = j.entry) with
  | none => some x
  | some f => match f.i.work with
    | .pages true ms _ => if linesHere f ms.length then some (setFlight x { f with done := f.done + 1 }) else none
    | .pages false ms _ => (putLines x f (f.i.writes.length * (f.done + 1) / max 1 ms.length)).map fun r => setFlight r.1 { r.2 with done := f.done + 1 }
    | _ => some x

/-- The page ports start what they may, in issue order; a write that waits for a pass on its page holds back its own page
alone (R96, R97). -/
def portCycle (x : STile) (cyc : Nat) : STile :=
  (x.jobs.foldl (fun (a : STile × List Nat × List (Nat × Nat)) j =>
    let (x, ports, pages) := a
    if j.start.isSome ∨ ports.contains j.lm ∨ pages.contains (j.lm, j.page) then a
    else if j.write && passInFlight x j.entry j.lm j.page then (x, ports, (j.lm, j.page) :: pages)
    else if cyc < j.earliest ∨ cyc < (macAt x j.lm).port then (x, j.lm :: ports, pages)
    else
      match pageLines x j with
      | none => (x, j.lm :: ports, pages)
      | some x =>
        let x := setMac x j.lm { macAt x j.lm with port := cyc + j.hold }
        ({ x with jobs := x.jobs.map fun q => if q = j then { q with start := some cyc } else q }, j.lm :: ports, pages)) (x, [], [])).1

/-- A PGWR or PGRD whose pages have all started completes with the last (R92, R94, R243). -/
def pagesCycle (x : STile) : STile :=
  { x with flights := x.flights.map fun f => match f.i.work with
      | .pages .. =>
        let js := x.jobs.filter fun j => decide (j.entry = f.entry)
        if js.all (·.start.isSome) then { f with fin := some (js.foldl (fun m j => max m (j.start.getD 0 + j.hold)) (f.issue + 1)) } else f
      | _ => f }

/-! ## The cycle -/

/-- Plane and page-port cycles of a tile, weighted (R363). -/
def macroActivity (x : STile) (d cyc : Nat) : Nat :=
  (x.macs.filter fun e => e.2.run.any fun r => decide (cyc ≤ r.2)).length * Config.weight d .plane +
    (x.jobs.filter fun j => j.start.any fun s => decide (s < cyc ∧ cyc ≤ s + j.hold)).length * Config.weight d .page

/-- Units that run engine cycles. -/
def engineUnits : List Eu := [.quant, .drain, .vec, .sparse, .dma 0, .dma 1, .send]

/-- Everything a tile does after its issue in a cycle. -/
def tileCycle (x : STile) (cyc : Nat) : STile :=
  let x := sDrainLines (sFetch x cyc) cyc
  let x := latchPasses (moveResults (pathCycle x cyc) cyc) cyc
  let u := updateCycle (portCycle x cyc) cyc false
  let x := (engineUnits.foldl (fun (a : STile × Bool) e => engineCycle a.1 e cyc a.2) u).1
  pagesCycle (copyCycle x cyc)

/-- Instructions whose completion has come: they leave, and their signals add (R308, R310). -/
def sComplete (x : STile) (sems : Tbl Nat) (cyc : Nat) : STile × Tbl Nat :=
  let out := x.flights.filter fun f => f.fin.any fun n => decide (n ≤ cyc)
  if out.isEmpty then (x, sems)
  else
    let es := out.flatMap fun f => (semEvents x.t f.i.r).filter fun e => match e with
      | .add .. => true
      | _ => false
    ({ x with flights := x.flights.filter fun f => !(f.fin.any fun n => decide (n ≤ cyc))
              jobs := x.jobs.filter fun j => !(out.any fun f => decide (f.entry = j.entry)) || j.start.any fun s => decide (cyc ≤ s + j.hold)
              last := max x.last cyc },
     es.foldl (fun s e => (semStep s e).getD s) sems)

def sDone (x : STile) : Bool := x.flights.isEmpty && x.streams.all fun s => s.is.isEmpty

/-- Slice of a cycle: 100 ns at the plan's point. -/
def sliceOf (c : Plan) (cyc : Nat) : Nat := 10 * cyc / c.mhz

/-- A new slice of the limiter: ballast holds the fall, and the rise is shared (R363). -/
def rampNext (g : SRamp) (tiles slice : Nat) : SRamp :=
  if slice = g.slice then g
  else
    let total := (g.now.map (·.2)).foldl (· + ·) 0
    let a := max (g.level - 100000) (min (g.level + 100000) (min 8000000 total))
    { slice := slice, level := a, allow := (a + 100000 - total) / max 1 tiles, did := g.now, now := [], issued := [], sum := g.sum + a, slices := g.slices + 1 }

/-- One cycle of the whole Beat. -/
def schedCycle (c : Plan) (s : Sched) : Sched :=
  let ramps := s.ramps.map fun g => rampNext g 128 (sliceOf c s.cyc)
  let r := s.tiles.foldl (fun (a : List STile × Tbl Nat × List SRamp) x =>
    let d := if c.s.split then 0 else x.t / 128
    let g := addAct (nth {} a.2.2 d) x.t (macroActivity x (c.die d) s.cyc)
    let i := sIssue x a.2.1 g (c.die d) (c.mhz / 10) s.cyc
    (a.1 ++ [tileCycle i.1 s.cyc], i.2.1, setAt a.2.2 d i.2.2)) ([], s.sems, ramps)
  let q := r.1.foldl (fun (a : List STile × Tbl Nat) x =>
    let y := sComplete x a.2 s.cyc
    (a.1 ++ [y.1], y.2)) ([], r.2.1)
  { cyc := s.cyc + 1, tiles := q.1, sems := q.2, ramps := r.2.2 }

/-- Cycles until every tile is done, or `fuel` of them. -/
def schedGo (c : Plan) : Nat → Sched → Sched
  | 0, s => s
  | fuel + 1, s => if s.tiles.all sDone then s else schedGo c fuel (schedCycle c s)

/-! ## W of every Beat type (R344) -/

/-- A tile at a word, with every page that can hold W4 in W4: what R565 charges. -/
def Plan.charged (c : Plan) (run : List RunBeat) (t : Nat) (x : PWord) : Tile := c.view t (c.mayW4 run t (c.tables t) x)

/-- Declared powers of a phase (R340). -/
def Plan.phase (c : Plan) (k : Nat) : Nat × Nat × Nat :=
  let bs := segBytes c.img c.segs 5 0
  (fieldAt bs (16 * k) 4, fieldAt bs (16 * k + 4) 4, fieldAt bs (16 * k + 8) 4)

/-- Activity of phase 0 on a die of the image, from which each Beat starts (R364, R365). -/
def startLevel (c : Plan) (d : Nat) : Nat :=
  let p := c.phase 0
  phase0Level (c.die d) c.h.pc c.h.pc (if d = 1 then p.2.1 else p.1)

/-- The Beat as it is released. The slot wheel of R242 then stands at cycle 0 (DESIGN CHOICE, log 160). -/
def schedStart (c : Plan) (run : List RunBeat) (b : RunBeat) (rs : List StreamRun) (sems : Tbl Nat) : Sched :=
  let q := beatCosts c b (c.charged run)
  { sems := sems
    ramps := (List.range c.h.dies).map fun d => let l := startLevel c d; { level := l, allow := (l + 100000) / 128 }
    tiles := (List.range c.h.tiles).map fun t =>
      { t := t, streams := (rs.filter fun r => decide (r.t = t ∧ r.is ≠ [])).map fun r =>
          { k := r.k, is := r.is.map fun i => itemOf c q (c.charged run t i.x) t r.k i } } }

/-- How a Beat ends in one state and with one set of WCNT results: the schedule, and the state it leaves. -/
structure BeatEnd where
  b : RunBeat
  met : Bool
  s : Sched
  left : RunState

/-- Cycles the checker follows a Beat of a type: past its window and every charge it is late all the same. -/
def schedLimit (c : Plan) (typ : Nat) : Nat :=
  (List.range c.h.tiles).foldl (fun m t => max m (chargeOf c.beats typ t)) (c.h.beatUs * c.mhz) + 1

def beatEnd (c : Plan) (run : List RunBeat) (b : RunBeat) (st : RunState) (ch : List Nat) : BeatEnd :=
  let r := runStreamsGo c b.xs st.xs ch
  let s := schedGo c (schedLimit c b.typ) (schedStart c run b r.1 st.sems)
  { b := b, met := waitsMetIn r.1 st.sems, s := s, left := { sems := s.sems, xs := r.2 } }

/-- A Beat's ends over every state and every result. -/
def beatEnds (c : Plan) (run : List RunBeat) (b : RunBeat) : List BeatEnd :=
  b.sts.flatMap fun st => (choicesOf c (b.xs.flatMap c.beatWords)).map fun ch => beatEnd c run b st ch

/-- Semaphores as plan load sets them (R310). -/
def Plan.startSems (c : Plan) : Tbl Nat :=
  (List.range c.h.tiles).foldl (fun s t => (List.range 16).foldl (fun s k => tset 0 s (16 * t + k) (fieldAt (c.tileBytes t) (0x200 + 2 * k) 2)) s) []

/-- Does an instruction of the Beat take its device address from `it` (R278)? -/
def addressMoves (c : Plan) (b : RunBeat) : Bool :=
  b.xs.any fun s => (c.beatWords s).any fun x => match decodeTile x.w with
    | some (_, .dma _ o) => decide (o.xsel = 1 ∧ o.stride ≠ 0)
    | _ => false

/-- The Beats that stand for a Beat of a body that runs `m` times: each turn whose `it` values differ where one of them
counts, else the one. -/
def turnsOf (c : Plan) (m : Nat) (b : RunBeat) : List RunBeat :=
  if (b.step.all fun n => decide (n = 0)) || !addressMoves c b then [b] else (List.range m).map b.turn

/-- Ends of every Beat type, over every state in which the schedule can release it. -/
def Plan.ends (c : Plan) : List (Nat × BeatEnd) :=
  let run := c.beatsRun
  let log := (c.walk (fun b => ((beatEnds c run b).map (·.left)).eraseDups) [{ sems := c.startSems }]).2
  (log.flatMap fun e => e.2.flatMap (turnsOf c e.1)).flatMap fun b => (beatEnds c run b).map fun e => (b.typ, e)

/-- W of a tile in one end: its last completion, or a cycle past every bound where it does not end. -/
def finishIn (c : Plan) (typ t : Nat) (e : BeatEnd) : Nat :=
  match e.s.tiles.find? fun x => decide (x.t = t) with
  | some x => if sDone x then x.last else schedLimit c typ
  | none => 0

/-- W of a tile for a Beat type: the latest of its finishes (R344). -/
def worstFinish (c : Plan) (es : List (Nat × BeatEnd)) (typ t : Nat) : Nat :=
  maxL ((es.filter fun e => decide (e.1 = typ)).map fun e => finishIn c typ t e.2)

end Sys2Proof.Machine
end

