-- ==== Sys2Proof/Machine/Bounds.lean ====
section
/-!
DEFINITION. The plan checker on a plan's numeric bounds: the partials that its programs can enter between two opens of
an accumulator tile, and the CP64 chains that read its images (R116, R128, R147 to R150, R341).
-/
namespace Sys2Proof.Machine

/-! ## Partials between two opens (R128, R129, R341) -/

/-- How an instruction enters an accumulator tile: whether it opens it, and the partials that one entry takes. -/
def entersTile (v : Tile) (a : Nat) (i : TileInstr) : Option (Bool × Nat) :=
  let pass (tr : Bool) (o : PassOp) : Option (Bool × Nat) :=
    let n := ((passOffsets v tr o).filter fun k => decide (o.tile + k * tileStep v o.tile = a)).length
    if n = 0 then none else some (o.ovw, n)
  match i with
  | .cpass o => pass false o
  | .tpass o => pass true o
  | .spmacSw tr o =>
    let n := if tr then (o.nw + 1) * nmW (tensorOf v o.tensor).pat / 32 else 1
    if (List.range n).any (fun k => decide (o.tile + 2 * k = a)) then some (o.ovw, if tr then 1 else o.nw + 1) else none
  | .spmacSa o => if o.tile = a then some (o.ovw, o.k32 + 1) else none
  | .vop .outl o => if o.tile = a then some (false, 1) else none
  | .acmwr o => if o.tile = a then some (true, 0) else none
  | _ => none

/-- An instruction of a Beat that enters the tile: stream, pc, whether it opens, partials. -/
structure Enter where
  st : Nat
  pc : Nat
  opens : Bool
  n : Nat
deriving DecidableEq, Repr

def entersOf (c : Plan) (run : List RunBeat) (b : RunBeat) (t a : Nat) : List Enter :=
  (c.tileOps b t).filterMap fun e =>
    (entersTile (c.charged run t e.1) a e.2).map fun x => { st := e.1.st, pc := e.1.pc, opens := x.1, n := x.2 }

def sumAdds (es : List Enter) : Nat := ((es.filter fun e => !e.opens).map (·.n)).foldl (· + ·) 0

/-- Partials that can follow an opening in its Beat: its own, and every add of another stream or later in its own. -/
def afterOpen (es : List Enter) (o : Enter) : Nat := o.n + sumAdds (es.filter fun e => decide (e.st ≠ o.st ∨ o.pc < e.pc))

/-- A Beat: the partials since the last open, and the most so far. -/
def enterBeat (es : List Enter) (a : Nat × Nat) : Nat × Nat :=
  let os := (es.filter (·.opens)).map (afterOpen es)
  let n := if os.isEmpty then a.1 + sumAdds es else maxL os
  (n, max a.2 (max (a.1 + sumAdds es) (maxL os)))

/-- A body of Beats that runs some times: where it opens the tile its second turn stands for the rest, else each turn adds
as many. -/
def enterBody (c : Plan) (run : List RunBeat) (t a m : Nat) (body : List RunBeat) (x : Nat × Nat) : Nat × Nat :=
  let turn (x : Nat × Nat) : Nat × Nat := body.foldl (fun x b => enterBeat (entersOf c run b t a) x) x
  if m = 0 then x
  else
    let y := turn x
    if body.any fun b => (entersOf c run b t a).any (·.opens) then turn y
    else let n := x.1 + m * (y.1 - x.1); (n, max y.2 n)

/-- The largest number of partials an entry of an accumulator tile takes between two opens (R341). -/
def partialsPerOpen (c : Plan) (t a : Nat) : Nat :=
  let run := c.beatsRun
  (c.flow.2.foldl (fun x e => enterBody c run t a e.1 e.2 x) (0, 0)).2

/-! ## CP64 chains (R147 to R150, R341) -/

/-- An image that an accumulator tile's contents have gone into: where it lies (the TSP of a tile as tile + 1, device memory
as 0), whether it is a CP64 image, the accumulator tiles as (tile, accumulator tile), and its count. -/
structure Img where
  space : Nat
  addr : Nat
  len : Nat
  cp64 : Bool
  of_ : List (Nat × Nat)
  count : Nat
deriving DecidableEq, Repr

/-- The images of a plan as its run goes on, and the longest chain of each accumulator tile. -/
structure Chains where
  imgs : List Img := []
  chain : List ((Nat × Nat) × Nat) := []
deriving DecidableEq, Repr

/-- Images that a range meets. -/
def imgsIn (x : Chains) (space a n : Nat) : List Img := x.imgs.filter fun i => decide (i.space = space) && overlaps i.addr i.len a n

/-- What is left of an image that a range is written over. -/
def cutImg (a n : Nat) (i : Img) : List Img :=
  (if i.addr < a then [{ i with len := min i.len (a - i.addr) }] else []) ++
    if a + n < i.addr + i.len then [{ i with addr := max i.addr (a + n), len := i.addr + i.len - max i.addr (a + n) }] else []

/-- A range is written, with the images that then lie in it. -/
def putImgs (x : Chains) (space a n : Nat) (is : List Img) : Chains :=
  { x with imgs := is ++ x.imgs.flatMap fun j => if j.space = space ∧ overlaps j.addr j.len a n = true then cutImg a n j else [j] }

def putImg (x : Chains) (i : Img) : Chains := putImgs x i.space i.addr i.len [i]

def noteChain (x : Chains) (ts : List (Nat × Nat)) (n : Nat) : Chains :=
  { x with chain := ts.foldl (fun l t => if l.any (fun e => decide (e.1 = t)) then l.map fun e => if e.1 = t then (t, max e.2 n) else e else (t, n) :: l) x.chain }

/-- What of an image lies in a range, as it lies after the range has moved. -/
def imgPart (a n s1 b : Nat) (i : Img) : Img :=
  let lo := max a i.addr
  { i with space := s1, addr := b + (lo - a), len := min (a + n) (i.addr + i.len) - lo }

/-- The images in a range move to another place with it. -/
def moveImgs (x : Chains) (s0 a n s1 b : Nat) : Chains := putImgs x s1 b n ((imgsIn x s0 a n).map (imgPart a n s1 b))

/-- The bytes from the first of some runs to the end of the last. -/
def hull (rs : List (Nat × Nat)) : Nat × Nat := let lo := minOf (rs.map (·.1)); (lo, maxL (rs.map fun r => r.1 + r.2) - lo)

/-- Images that a COPY reads: wherever they lie in its source, each can lie in all of its destination (R247). -/
def copyImgs (v : Tile) (sp : Nat) (x : Chains) (i : TileInstr) : Chains :=
  match operandsOf v i with
  | [a, b] =>
    let d := hull b.runs
    let is := x.imgs.filter fun j => decide (j.space = sp) && a.runs.any fun r => overlaps j.addr j.len r.1 r.2
    putImgs x sp d.1 d.2 (is.map fun j => { j with addr := d.1, len := d.2 })
  | _ => x

/-- Does an index register move a DMA's device address (R278)? -/
def indexed (o : DmaOp) : Bool := decide (o.xsel ≠ 0 ∧ o.stride ≠ 0)

/-- What an instruction does to the images (R137, R147 to R150, R247, R279). A DMA that an index register moves reaches what
lies anywhere in device memory, and leaves what it stores anywhere. -/
def chainInstr (v : Tile) (t : Nat) (x : Chains) (i : TileInstr) : Chains :=
  let sp := t + 1
  let tiles (a n : Nat) : List (Nat × Nat) := ((imgsIn x sp a n).flatMap (·.of_)).eraseDups
  let count (a n : Nat) : Nat := ((imgsIn x sp a n).map (·.count)).foldl max 0
  match i with
  | .acmrd o => putImg x { space := sp, addr := tbyte o.img, len := imageLen (decide (slotKind v o.tile = 2) && !o.widen), cp64 := false, of_ := [(t, o.tile)], count := 0 }
  | .vop .iadd o => putImg x { space := sp, addr := tbyte o.d, len := 8448, cp64 := false, of_ := (tiles (tbyte o.a) 8448 ++ tiles (tbyte o.b) 8448).eraseDups, count := 0 }
  | .vop .deq o =>
    let ts := tiles (tbyte o.a) 8448
    putImg (noteChain x ts 1) { space := sp, addr := tbyte o.d, len := 8256, cp64 := true, of_ := ts, count := 1 }
  | .vop .imgadd o =>
    let ts := (tiles (tbyte o.a) 8256 ++ tiles (tbyte o.b) 8256).eraseDups
    let n := min 0xFFFFFFFF (max 1 (count (tbyte o.a) 8256) + max 1 (count (tbyte o.b) 8256))
    putImg (noteChain x ts n) { space := sp, addr := tbyte o.d, len := 8256, cp64 := true, of_ := ts, count := n }
  | .vop .rcsum o => noteChain x (tiles (tbyte o.a) (dstLen o.afmt (vRows o) (vCols o))) (vCols o)
  | .xmov _ => copyImgs v sp x i
  | .dma fn o =>
    let n := 32 * (o.len + 1)
    let at_ := tbyte o.taddr
    if fn = 0 then
      if indexed o then putImgs x sp at_ n ((x.imgs.filter fun j => decide (j.space = 0)).map fun j => { j with space := sp, addr := at_, len := n })
      else moveImgs x 0 (32 * o.dev) n sp at_
    else if fn = 1 then
      if indexed o then { x with imgs := (imgsIn x sp at_ n).map (fun j => { j with space := 0, addr := 0, len := 2 ^ 64 }) ++ x.imgs }
      else moveImgs x sp at_ n 0 (32 * o.dev)
    else if fn = 3 then moveImgs x sp at_ n (o.dtile + 1) (tbyte o.dev)
    else x
  | _ => x

/-- An instruction of a Beat: its tile, its word and what it says. -/
abbrev ChainOp := Nat × PWord × TileInstr

/-- The Beat's instructions, stream by stream. -/
def chainQueues (c : Plan) (b : RunBeat) : List (List ChainOp) :=
  b.xs.map fun s => (c.beatWords s).filterMap fun w => (decodeTile w.w).map fun d => (s.t, w, d.2)

/-- Does an instruction read an image that another one still makes: in the TSP of one tile, or across DMAs? -/
def feeds (c : Plan) (run : List RunBeat) (y x : ChainOp) : Bool :=
  let one (z : ChainOp) : Tile := c.charged run z.1 z.2.1
  let rs := (operandsOf (one x) x.2.2).flatMap fun o => if o.wr then [] else o.runs
  let ws := (operandsOf (one y) y.2.2).flatMap fun o => if o.wr then o.runs else []
  let meets (as bs : List (Nat × Nat)) : Bool := as.any fun p => bs.any fun q => overlaps p.1 p.2 q.1 q.2
  (decide (y.1 = x.1) && meets ws rs) ||
    match y.2.2, x.2.2 with
    | .dma 1 o, .dma 0 q => indexed o || indexed q || overlaps (32 * o.dev) (32 * (o.len + 1)) (32 * q.dev) (32 * (q.len + 1))
    | .dma 3 o, _ => decide (o.dtile = x.1) && meets [(tbyte o.dev, 32 * (o.len + 1))] rs
    | _, _ => false

/-- An order of the Beat in which an instruction waits for what other streams still make of its sources, as far as one of
the streams can go on so; `fuel` is the number of instructions. -/
def makersFirst (c : Plan) (run : List RunBeat) : Nat → List (List ChainOp) → List ChainOp
  | 0, _ => []
  | fuel + 1, qs =>
    let free (k : Nat) : Bool := match nth [] qs k with
      | [] => false
      | x :: _ => (List.range qs.length).all fun j => decide (j = k) || (nth [] qs j).all fun y => !feeds c run y x
    let k? := match lowest qs.length free with
      | some k => some k
      | none => lowest qs.length fun k => !(nth [] qs k).isEmpty
    match k? with
    | none => []
    | some k => match nth [] qs k with
      | [] => []
      | x :: rest => x :: makersFirst c run fuel (setAt qs k rest)

def chainRun (c : Plan) (run : List RunBeat) (ops : List ChainOp) (x : Chains) : Chains :=
  ops.foldl (fun x e => chainInstr (c.charged run e.1 e.2.1) e.1 x e.2.2) x

/-- A Beat: its streams one after another, and with each image made before it is read. What either order makes
counts (R341; DESIGN CHOICE, log 178). -/
def chainBeat (c : Plan) (run : List RunBeat) (x : Chains) (b : RunBeat) : Chains :=
  let qs := chainQueues c b
  let y := chainRun c run qs.flatten x
  let z := chainRun c run (makersFirst c run qs.flatten.length qs) x
  let y := z.chain.foldl (fun y e => noteChain y [e.1] e.2) y
  { y with imgs := (y.imgs ++ z.imgs).eraseDups }

/-- A function's turns, as far as they change anything. -/
def turnsOn [DecidableEq α] (f : α → α) : Nat → α → α
  | 0, x => x
  | n + 1, x => if f x = x then x else turnsOn f n (f x)

/-- The chains of the whole run. -/
def Plan.chains (c : Plan) : Chains :=
  let run := c.beatsRun
  c.flow.2.foldl (fun x e => turnsOn (fun x => e.2.foldl (chainBeat c run) x) e.1 x) {}

def chainLength (c : Plan) (t a : Nat) : Nat := ((c.chains.chain.filter fun e => decide (e.1 = (t, a))).map (·.2)).foldl max 0

end Sys2Proof.Machine
end

