-- ==== Sys2Proof/Machine/Agreement.lean ====
section
/-!
DEFINITION. The plan checker, third part: the schedule and the streams together, charges, power and bounds, codes
0x0701 to 0x0902 (R270, R312, R319, R322, R328, R330, R338 to R341, R344 to R348).
-/
namespace Sys2Proof.Machine

/-! ## The header's timing fields (0x0701, 0x0708, 0x0709) -/

/-- Depth of the barrier tree of a group (R328). -/
def depthGo (n : Nat) : Nat → Nat → Nat → Nat
  | 0, d, _ => d
  | fuel + 1, d, total => if n ≤ total then d else depthGo n fuel (d + 1) (total + 16 ^ (d + 1))

def treeDepth (n : Nat) : Nat := depthGo n 8 0 1

def checkTimes (c : Plan) : Option Rej :=
  let h := c.h
  let lead := if h.mode = 0 then decide (h.leadNs = 0) else decide (2000 ≤ h.leadNs ∧ 2000 * treeDepth (h.gsize + 1) ≤ h.leadNs ∧ h.leadNs ≤ 1000000)
  rejIf (decide (h.beatUs < 50 ∨ 50000 < h.beatUs)) 0x0701 0 0 <|>
  rejIf (decide (1 < h.mode ∨ 1 < h.tick ∨ (h.tick = 0 ∧ h.ports ≤ h.tickPort) ∨ 127 < h.ptpDomain) || !lead) 0x0708 0 0 <|>
  rejIf (decide (15 < h.pc)) 0x0709 0 0

/-! ## The Beat table (0x0702) -/

def checkTable (c : Plan) : Option Rej :=
  let n := typesOf c.beats
  rejIf (decide (n = 0 ∨ 1024 < n ∨ c.sched.length = 0 ∨ 4096 < c.sched.length ∨ ntilesOf c.beats ≠ c.h.tiles)) 0x0702 (c.seg 3) 0 <|>
  ((lowest n fun k => decide (fieldAt c.beats (typeOff c.beats k) 2 ≠ k)).map fun k => { code := 0x0702, seg := c.seg 3, entry := k }) <|>
  ((lowest c.sched.length fun i => let e := nth {} c.sched i; decide (e.typ ≠ 0xFFFF ∧ n ≤ e.typ)).map
    fun i => { code := 0x0702, seg := c.seg 4, entry := i })

/-! ## Schedule and streams (0x0703, 0x0704) (R346) -/

def checkAgreement (c : Plan) : Option Rej := c.flow.1

/-! ## Waits and charges (0x0707, 0x0705, 0x0706) -/

/-- C of R344 at a worst finish: with the droop allowance, and the memory-stall allowance of 2 µs. -/
def chargeNeed (c : Plan) (w : Nat) : Nat := cdiv (101 * w) 100 + 2 * c.mhz

/-- Does C fit the work window, in fiftieths of a microsecond (R345)? -/
def fitsWindow (c : Plan) (n : Nat) : Bool :=
  decide (50 * n ≤ (50 * c.h.beatUs - 50 - max 100 c.h.beatUs) * (1050 - 35 * c.h.pc))

def typeFails (c : Plan) (code : Nat) (bad : Nat → Bool) : Option Rej :=
  (lowest (typesOf c.beats) bad).map fun k => { code := code, seg := c.seg 3, entry := k }

/-- `es` are the ends of every Beat type (R344). -/
def checkCharges (c : Plan) (es : List (Nat × BeatEnd)) : Option Rej :=
  let ts := List.range c.h.tiles
  let need (k t : Nat) : Nat := chargeNeed c (worstFinish c es k t)
  typeFails c 0x0707 (fun k => es.any fun e => decide (e.1 = k) && !e.2.met) <|>
  typeFails c 0x0705 (fun k => ts.any fun t => decide (chargeOf c.beats k t < need k t)) <|>
  typeFails c 0x0706 (fun k => ts.any fun t => !fitsWindow c (need k t))

/-! ## Power (0x0801, 0x0802) (R340, R347) -/

/-- Phases that a Beat enters: phase 0, and those of its HINT ENTERs. -/
def phasesEntered (c : Plan) (b : RunBeat) : List Nat :=
  0 :: (List.range c.h.tiles).flatMap fun t => (c.tileOps b t).filterMap fun e => match e.2 with
    | .hint 0 ph => some ph
    | _ => none

/-- Bytes that a Beat moves through LPDDR5X, as charged, and through the ports. -/
def beatBytes (c : Plan) (run : List RunBeat) (b : RunBeat) : Nat × Nat :=
  (List.range c.h.tiles).foldl (fun a t => (c.tileOps b t).foldl (fun a e => match e.2 with
    | .dma fn o => if fn = 3 then a else (a.1 + dmaBytes c fn (32 * o.dev) (32 * (o.len + 1)), a.2)
    | .send o => (a.1, a.2 + 32 * (o.len + 1))
    | .upd o =>
      ((deviceRanges (c.charged run t e.1) (.upd o)).foldl (fun n r => if isFen r.1 then n else n + 2 * r.2.1) a.1, a.2)
    | _ => a) a) (0, 0)

/-- Computed power of an end of a Beat in mW: of each compute die, from its mean activity over the schedule's slices, and of
the I/O die with LPDDR5X, the ports and regulation, of whose static power a SPLIT partition bears half (R347; DESIGN
CHOICE, log 80). -/
def endPower (c : Plan) (run : List RunBeat) (e : BeatEnd) : Nat × Nat × Nat :=
  let die (d : Nat) : Nat :=
    let g := nth {} e.s.ramps d
    Config.staticPower (c.die d) c.h.pc [] + Config.dynPower (c.die d) c.h.pc (g.sum / max 1 g.slices)
  let m := beatBytes c run e.b
  (die 0, if c.s.split then 0 else die 1, Config.ioPower (m.1 / 128) (m.2 / 128) + (if c.s.split then Config.ioStatic / 2 else Config.ioStatic))

/-- The largest computed power of a plan's Beat types. -/
def powerOf (c : Plan) (es : List (Nat × BeatEnd)) : Nat :=
  maxL (es.map fun e => let p := endPower c c.beatsRun e.2; p.1 + p.2.1 + p.2.2)

def Plan.power (c : Plan) : Nat := powerOf c c.ends

def checkPower (c : Plan) (es : List (Nat × BeatEnd)) : Option Rej :=
  let run := c.beatsRun
  let low (k : Nat) : Bool := es.any fun e =>
    let d := c.phase k
    let p := endPower c run e.2
    (phasesEntered c e.2.b).contains k && decide (d.1 < p.1 ∨ d.2.1 < p.2.1 ∨ d.2.2 < p.2.2)
  ((lowest 16 low).map fun k => { code := 0x0801, seg := c.seg 5, entry := k }) <|>
  rejIf (overCap c.s c.p (powerOf c es)) 0x0802 (c.seg 3) 0

/-! ## Bounds (0x0901, 0x0902) (R341) -/

/-- Does some OUTL of a tile's programs enter an accumulator tile? -/
def outlInto (c : Plan) (t a : Nat) : Bool :=
  (c.words t).any fun x => match decodeTile x.w with
    | some (_, .vop .outl o) => decide (o.tile = a)
    | _ => false

/-- The guarantee of an accumulator tile: a partial count above it sets BOUND (R116). -/
def guaranteeOf (c : Plan) (t a : Nat) : Nat := if tget 0 (c.slotsOf t) (a / 2) = 2 then 2 ^ 6 else 2 ^ 24

def boundBroken (c : Plan) (b : List Byte) : Bool :=
  let t := fieldAt b 0 1
  let a := fieldAt b 1 1
  let allowed := fieldAt b 2 1
  let n := partialsPerOpen c t a
  decide (fieldAt b 4 4 < n) || decide (fieldAt b 8 4 < chainLength c t a) || (outlInto c t a && !bit allowed 2) ||
    (decide (guaranteeOf c t a < n) && !bit allowed 3)

/-- A record with a field outside its values, or for a tile or accumulator tile that does not exist. -/
def boundMalformed (c : Plan) (b : List Byte) : Bool := decide (c.h.tiles ≤ fieldAt b 0 1 ∨ 63 < fieldAt b 1 1 ∨ 15 < fieldAt b 2 1 ∨ fieldAt b 3 1 ≠ 0 ∨ fieldAt b 12 4 ≠ 0)

def checkBounds (c : Plan) : Option Rej :=
  let bs := segBytes c.img c.segs 6 0
  let rec_ (i : Nat) : List Byte := (bs.drop (16 * i)).take 16
  let find (code : Nat) (bad : List Byte → Bool) : Option Rej :=
    (lowest (bs.length / 16) fun i => bad (rec_ i)).map fun i => { code := code, seg := c.seg 6, entry := i }
  find 0x0901 (boundBroken c) <|> find 0x0902 (boundMalformed c)

/-! ## Every check in table order (R348) -/

/-- The checks of the image alone, before the rest of it is read. -/
def checkImage (s : State) (g : Image) : Option Rej :=
  let h := headerOf g
  let segs := segsOf g h
  checkMagic g <|> checkLayout g h segs <|> checkCrcs g segs <|> checkCounts h segs <|> checkReserved g h segs <|> checkSignature s.sec g h

def checkPlan (c : Plan) : Option Rej :=
  let es := c.ends
  checkImage c.s c.img <|> checkGeometry c <|> checkManifest c <|> checkInstrs c <|> checkTimes c <|> checkTable c <|> checkAgreement c <|>
    checkCharges c es <|> checkPower c es <|> checkBounds c

end Sys2Proof.Machine
end

