-- ==== Sys2Proof/Machine/LoadPlan.lean ====
section
/-!
DEFINITION. LOAD_PLAN: the wait for cleared memory, the plan checker, kept pages, retirements, and the writes of an
admitted plan (R106, R256, R259, R340, R342, R349, R350, R360, R367, R379, R380, R402, R408, R409, R426, R430, R458 to R461, R481, R484,
R511 to R515).
-/
namespace Sys2Proof.Machine

/-! ## Kept pages (R514, R515) -/

/-- A kept page: logical tile, logical macro and page number, and whether its macro or tile is marked for retirement. -/
structure Kept where
  t : Nat := 0
  lm : Nat := 0
  page : Nat := 0
  g : Page := {}
  lost : Bool := false
deriving DecidableEq, Repr

def keptAt (s : State) (p : Nat) : List Kept :=
  (tilesOf s p).flatMap fun t =>
    let x := tileAt s (physTile s t)
    x.pages.filterMap fun e =>
      if e.2.handle.isNone then none
      else some { t := t, lm := logMacro x.ret (e.1 / 8), page := e.1 % 8, g := e.2, lost := x.ret.tilePend || x.ret.mret.getLsbD (e.1 / 8) }

/-- Does a handle match: its tenant is the command's, and every page kept under it still exists? -/
def handleMatches (ks : List Kept) (tenant h : Nat) : Bool :=
  let mine := ks.filter fun k => decide (k.g.tenant = tenant ∧ k.g.handle = some h)
  !mine.isEmpty && mine.all fun k => !k.lost

/-- Handles a LOAD_PLAN presents. -/
def handlesOf (m : Mailbox) : List Nat := (List.range (min 8 (inp m 36 1))).map fun i => inp m (40 + 8 * i) 8

/-- Handles presented that match, as output byte 10. -/
def matchMask (ks : List Kept) (tenant : Nat) (hs : List Nat) : Nat :=
  sumTo hs.length fun i => if handleMatches ks tenant (nth 0 hs i) then 2 ^ i else 0

def matched (ks : List Kept) (tenant : Nat) (hs : List Nat) (g : Page) : Bool :=
  decide (g.tenant = tenant) && g.handle.any fun h => hs.contains h && handleMatches ks tenant h

/-- Pages of matching handles join the new job; the pages of every other handle are cleared. -/
def adoptPages (s : State) (p tenant : Nat) (hs : List Nat) : State :=
  let ks := keptAt s p
  (tilesOf s p).foldl (fun s t => modTile s (physTile s t) fun x =>
    { x with pages := x.pages.filterMap fun e =>
        if e.2.handle.isNone then some e
        else if matched ks tenant hs e.2 then some (e.1, { e.2 with handle := none, tenant := 0 }) else none }) s

/-! ## Pending retirements (R106, R402, R409, R481) -/

/-- A retired macro's logical number passes to the lowest-numbered unused Reserve macro. A Reserve macro that stands in and
is retired is replaced in its entry of the map, and one that stands in for none leaves the map as it is: in both cases the
Reserve macros that stand in stay as many, and used does not rise, where R113 also says that used rises by the number applied
(DESIGN CHOICE, log 148). -/
def applyMacro (r : Retire) (pm : Nat) : Retire :=
  let lm := logMacro r pm
  let free := (List.range 8).find? fun k => !(r.mret.getLsbD (64 + k)) && !(r.map.any fun e => decide (e.2 = 64 + k))
  match free with
  | some k =>
    if 64 ≤ lm then r
    else { r with map := (r.map.filter fun e => decide (e.1 ≠ lm)) ++ [(lm, 64 + k)]
                  stood := if 64 ≤ pm then r.stood ++ [(pm, lm)] else r.stood }
  | none => r

def applyMacros (r : Retire) : Retire := { r.pend.foldl applyMacro r with pend := [] }

/-- Retirements of tiles, then of the macros of the tiles that serve. -/
def applyRetirements (s : State) (p : Nat) : State :=
  let es := (tileReplacements s p).1
  let s := es.foldl (fun s e => modTile s (physTile s e.1) fun x => { x with ret := { x.ret with stoodTile := some e.1 } }) s
  let s := { s with tileMap := es.foldl (fun m e => tset none m e.1 (some e.2)) s.tileMap }
  (tilesOf s p).foldl (fun s t => modTile s (physTile s t) fun x => { x with ret := applyMacros x.ret }) s

/-- Ports: every port that is not up trains, a marked one too, and each job port takes its physical port (R409). -/
def applyPorts (s : State) (p ports : Nat) : State :=
  let plan := portPlan s p ports
  let own (n : Nat) : Bool := (List.range 4).any fun k => decide (homePort s p k = n ∧ (s.split = false ∨ k < 2))
  { s with ports := (s.ports.zip (List.range 5)).map fun e =>
      let x := e.1
      let n := e.2
      let x := if x.mode = 0 then { x with state := if x.state = 3 then 3 else 1, trainFrom := s.now } else x
      match plan.find? fun q => decide (q.2 = n) with
      | some q => { x with assigned := true, part := p, jport := q.1 }
      | none => if own n then { x with assigned := false } else x }

/-! ## The plan's writes (R350 steps 3 to 5) -/

/-- A page as the manifest marks it. -/
def markPages (x : Tile) (c : Plan) (t : Nat) : Tbl Page :=
  c.man.foldl (fun ps r => match r with
    | .page u lm pg sc rt =>
      if u = t then tmod {} ps (pageKey (physMacro x.ret lm) pg) fun g => { g with resident := !sc, retained := decide (rt = 1), retainOnKill := decide (rt = 2) }
      else ps
    | _ => ps) x.pages

/-- A stream at plan load (R269). -/
def loadStream (r : StreamRec) : Stream :=
  { first := r.first, count := r.count, lc := BitVec.ofNat 32 r.lc, stopped := decide (r.count = 0), satThresh := BitVec.ofNat 16 r.thresh }

/-- Initial semaphore values. -/
def loadSems (bs : List Byte) : Tbl Nat := tblOf 0 ((List.range 16).map fun k => fieldAt bs (0x200 + 2 * k) 2)

/-- Sparse-store bytes and exponent bytes of a SPARSE segment. -/
def loadSparse (bs : List Byte) : Mem × Mem :=
  let first := fieldAt bs 0 2
  let n := fieldAt bs 2 2
  (spsWrite [] (64 * first) ((bs.drop 8).take (64 * n)), mwrite [] first ((bs.drop (8 + 64 * n)).take n))

/-- A tile with the plan's stores, tables, pages, slots and tensors. -/
def loadTile (c : Plan) (t : Nat) (x : Tile) : Tile :=
  let bs := c.tileBytes t
  let sp := segBytes c.img c.segs 7 t
  let sparse : Mem × Mem := if sp.isEmpty then ([], []) else loadSparse sp
  { err := x.err, stat := x.stat, ret := x.ret, free := x.free, singles := x.singles, hour := x.hour, worn := x.worn
    plan := mwrite [] istoreOff (bs.drop istoreOff), slots := c.slotsOf t, tensors := c.tensorsOf t, pages := markPages x c t
    streams := tblOf {} ((c.streams t).map loadStream), sems := loadSems bs, sps := sparse.1, spx := sparse.2 }

def loadTiles (s : State) (c : Plan) : State :=
  (List.range c.h.tiles).foldl (fun s t => modTile s (physTile s (c.tile t)) (loadTile c t)) s

/-- Banks, counters, windows and memory of the manifest. -/
def loadRecord (c : Plan) (s : State) : ManRec → State
  | .bank d b mode =>
    let d := c.die d
    modBank (modFen s d fun f => { f with scr := mclear f.scr (fenBank * b) fenBank }) d b fun x => { x with state := .ready, mode := mode, part := c.p, release := false }
  | .counter i v l => modFen s (c.die (i / 256)) fun f => { f with wcs := tset {} f.wcs (i % 256) { val := BitVec.ofNat 32 v, limit := BitVec.ofNat 32 l, init := BitVec.ofNat 32 v } }
  | .window w t st n b g0 =>
    let k := devWindow s c.p w
    let x := windowAt s k
    setWindow s k { declared := true, part := c.p, base := b, len := n, tile := c.tile t, stream := st, g0 := g0, gen := BitVec.ofNat 16 g0, appl := x.appl, drop := x.drop }
  | .ring d b => setBytes s b (d * (if s.split then 8192 else 16384)) .owned
  | .region _ b n => setBytes s b n .owned
  | _ => s

/-! ## The LOADMAP (R342) -/

/-- Is the content of a page image legal (R35, R37, R93)? -/
def pageImageOk (e : LoadEntry) (bs : List Byte) : Bool :=
  ((bs.take 1024).all fun b => (stageByte (decide (e.fmt = 1)) false b).2) && !((bs.drop 1024).take (if e.fmt = 1 then 64 else 32)).contains 0xFF

/-- The first entry whose content is illegal. -/
def loadmapBad (mem : Mem) (es : List LoadEntry) : Option Nat :=
  lowest es.length fun i => let e := nth {} es i; decide (e.kind = 1) && !pageImageOk e (mread mem e.src 1088)

/-- The reads of the LOADMAP's sources, with the codewords in error that lie in them: the state, and whether one failed
(R395, R458, R472). -/
def readSources (s : State) (errs : List MemErr) (es : List LoadEntry) : State × Bool :=
  es.foldl (fun (a : State × Bool) e =>
    (outsideErrs a.1 (errsIn errs e.src e.bytes), a.2 || uncorrectable errs e.src e.bytes || rangeDead a.1 e.src e.bytes)) (s, false)

/-- Execute an entry. The loader's lines leave through write lane 7, which it shares with scrub write-backs alone, before
the LOAD_PLAN completes (R239). -/
def runEntry (c : Plan) (s : State) (e : LoadEntry) : State :=
  let s := charge s .maint none e.src e.bytes
  let bs := mread s.mem e.src e.bytes
  modTile s (physTile s (c.tile e.tile)) fun x =>
    if e.kind = 1 then
      let pm := physMacro x.ret e.lm
      let g := pageOf x pm e.page
      let g := { g with w4 := decide (e.fmt = 1), codes := mwrite [] 0 (bs.take 1024), guard := guardOf (bs.take 1024)
                        exps := mwrite g.exps 0 ((bs.drop 1024).take (if e.fmt = 1 then 64 else 32)) }
      setPage x pm e.page g.resum
    else { x with tsp := mwrite x.tsp e.base bs }

/-! ## The job (R349, R350, R426, R435) -/

/-- Does a tile's program for a Beat type hold a SEND (R426)? -/
def sendsIn (c : Plan) (typ t : Nat) : Bool :=
  let ws := c.words t
  let isSend (x : PWord) : Bool := decide (wordOpcode x.w = 8 ∧ wordFn x.w = 5)
  ws.any fun x => isSend x && (let st := startOf c.beats typ t x.st
    decide (st ≠ 0xFFFF ∧ st ≤ x.pc) && !(ws.any fun y => decide (y.st = x.st ∧ st ≤ y.pc ∧ y.pc < x.pc ∧ wordOpcode y.w = 1)))

def sendersOf (c : Plan) : List Nat :=
  (List.range (typesOf c.beats)).map fun k => ((List.range c.h.tiles).filter (sendsIn c k)).length

/-- Members that the plan's SENDs name. -/
def peersOf (c : Plan) : List Nat :=
  ((List.range c.h.tiles).flatMap fun t => (c.words t).filterMap fun x => match decodeTile x.w with
    | some (_, .send o) => some o.peer
    | _ => none).eraseDups

/-- The job registers of an admitted plan; the Beat counter and the statistics stand. LDG_HEAD goes back to 0 with
head_valid: R161 gives its value at PERST_N and none for a plan load (DESIGN CHOICE, log 149). The device seed of the load is
the job's own (R187; DESIGN CHOICE, log 35). -/
def loadJob (c : Plan) (m : Mailbox) (j : Job) : Job :=
  let h := c.h
  let ring := (c.man.findSome? fun r => match r with
    | .ring d b => some (d, b)
    | _ => none).getD (0, 0)
  { seed := Config.deviceSeed c.s.bal.loads, rate := planRate c.s c.p h.ports
    state := j.state, outcome := j.outcome, code := j.code, whereW := j.whereW, beat := j.beat, beatLatch := j.beatLatch, early := j.early
    retx := j.retx, ece := j.ece, nack := j.nack, confirms := j.confirms, tick := { offset := j.tick.offset }
    id := BitVec.ofNat 64 (inp m 16 8), tenant := inp m 28 8, planId := h.planId, member := inp m 24 2, gsize := h.gsize + 1
    ownerSlot := keySlotOf c.img h, mPlan := sha384 c.img.all, beatUs := h.beatUs, leadNs := h.leadNs, elastic := decide (h.mode = 1)
    pps := decide (h.tick = 1), tickPort := h.tickPort, ptpDomain := h.ptpDomain, pc := h.pc, ports := h.ports, sched := c.sched
    senders := sendersOf c, peers := peersOf c, regions := c.regions
    banks := c.man.filterMap fun r => match r with
      | .bank d b mode => some (c.die d, b, mode)
      | _ => none
    counters := c.man.filterMap fun r => match r with
      | .counter i _ _ => some i
      | _ => none
    ring := { base := ring.2, depth := ring.1, nrec := if c.s.split then 128 else 256, valid := true, werr := j.ring.werr, latch := j.ring.latch }
    phases := (List.range 16).map c.phase, power := c.power }

/-- Plan load sets the learnt powers of the partition's dies to the declared figures over their tiles, and clears the
guards (R340, R360, R367). -/
def loadPhases (c : Plan) (s : State) : State :=
  (diesOf s c.p).foldl (fun s d =>
    let declared (k : Nat) : Nat := let f := c.phase k; if d = 1 ∧ s.split = false then f.2.1 else f.1
    let n := (dieTiles s d).length
    modDie s d fun x => { x with phases := tblOf {} ((List.range 16).map fun k => { learnt := declared k / n }), tilePhase := [], guards := [], stretchBeat := 0 }) s

/-- Admission: every step of R350 after the checks. -/
def enterPlan (s : State) (c : Plan) (m : Mailbox) : State :=
  let p := c.p
  let s := applyPorts (replaceChannels (applyRetirements (adoptPages s p (inp m 28 8) (handlesOf m)) p) p) p c.h.ports
  let s := c.man.foldl (loadRecord c) (loadTiles s c)
  let s := (loadEntries (segBytes c.img c.segs 8 0)).foldl (runEntry c) s
  setJobState (modJob (loadPhases c s) p (loadJob c m)) p .loaded

/-! ## The command -/

/-- Output of LOAD_PLAN. -/
def loadOut (r : Rej) (fault mask : Nat) : List Byte :=
  leBytes 2 r.code ++ zeros 2 ++ leBytes 4 (if r.code = 0 then 0 else r.loc) ++ leBytes 2 fault ++ leBytes 1 mask ++ [0] ++
    leBytes 4 (if 0xFFFFE < r.entry then r.entry else 0)

/-- The command ends. -/
def endLoad (s : State) (p k status : Nat) (out : List Byte) : State := modJob (finish s k status out) p fun j => { j with loadBox := none }

/-- A rejection changes the registers that report it and nothing else (R350, R353, R458). -/
def rejectLoad (s : State) (p k : Nat) (r : Rej) : State :=
  endLoad (modJob s p fun j => { j with outcome := 4, code := BitVec.ofNat 16 r.code, whereW := BitVec.ofNat 32 r.loc }) p k 5 (loadOut r 0 0)

/-- Margins of the partition's dies are measured at P0 and at the plan's point (R379). -/
def measureLoad (s : State) (p pc : Nat) : State :=
  let n := s.bal.loads + 1
  (diesOf s p).foldl (fun s d => measureMargin s d (pc % 16) n) { s with bal := { s.bal with loads := n } }

/-- Failure beyond the Reserve that affects the partition (R484): its code. -/
def beyondOf (s : State) (p : Nat) : Option Nat :=
  (s.start.beyond.find? fun e => decide (s.split = false ∨ e.1 = p)).map (·.2)

/-- The checker and what follows it; `errs` are the codewords in error that the reads of the LOADMAP's sources find. -/
def checkAndLoad (s : State) (k p : Nat) (m : Mailbox) (g : Image) (errs : List MemErr) : State :=
  let ks := keptAt s p
  let tenant := inp m 28 8
  let hs := handlesOf m
  let adopted := (ks.filter fun x => matched ks tenant hs x.g).map fun x => (if s.split then x.t % 128 else x.t, x.lm, x.page)
  let c := planOf s p g adopted
  match checkPlan c with
  | some r => rejectLoad s p k r
  | none =>
    let es := loadEntries (segBytes c.img c.segs 8 0)
    if (diesOf s p).any (fun d => decide (c.h.pc < (dieAt s d).top)) then endLoad s p k 6 (loadOut {} 0x6E01 0)
    else
      let r := readSources s errs es
      if r.2 then endLoad r.1 p k 0xD []
      else
        match loadmapBad (replaceChannels r.1 p).mem es with
        | some i => rejectLoad r.1 p k { code := 0x0A01, seg := c.seg 8, entry := i }
        | none => endLoad (enterPlan r.1 c m) p k 0 (loadOut {} 0 (matchMask ks tenant hs))

/-- Regions and the ring that an image names, when its manifest can be read. -/
def namedRanges (s : State) (p : Nat) (g : Image) : List (Nat × Nat) :=
  if (checkImage s g).isSome then []
  else
    let c := planOf s p g []
    c.ring ++ c.regions.map fun r => (r.base, r.len)

/-- Sources that an image's LOADMAP names, when its segments can be read. -/
def sourceRanges (s : State) (p : Nat) (g : Image) : List (Nat × Nat) :=
  if (checkImage s g).isSome then []
  else let c := planOf s p g []; (loadEntries (segBytes c.img c.segs 8 0)).map fun e => (e.src, e.bytes)

/-- HELD memory of the partition becomes AWAITING (R511). -/
def releaseHeld (s : State) (p : Nat) : State :=
  (stateRuns s .held (memBase s p) (memSize s)).foldl (fun s r => setBytes s r.1 r.2 .awaiting) s

/-- Go on with a LOAD_PLAN: it waits for the end of SCRUBBING, for the channels of the image and of the LOADMAP's sources
(R400) and for the memory its manifest names (R350, R459). `errs` are the codewords in error that the reads of the image and
of the sources find; a channel that fails under them ends the command (R474). -/
def goLoad (s : State) (k p : Nat) (m : Mailbox) (errs : List MemErr) : State :=
  let a := inp m 0 8
  let n := inp m 8 8
  if (jobOf s p).state = .scrubbing || rangeRetrains s a n then s
  else if (jobOf s p).state ≠ .idle then endLoad s p k 4 []
  else
    let r := cmdRead (releaseHeld s p) (errsIn errs a n) a n
    let s := r.1
    let g : Image := { mem := s.mem, base := a, size := n }
    if (jobOf s p).loadBox ≠ some k then s
    else if r.2 then endLoad s p k 0xD []
    else if 74 ≤ n ∧ g.num 72 2 < inp m 24 2 then endLoad s p k 3 []
    else if (namedRanges s p g).any fun r => !(awaitingRuns s r.1 r.2).isEmpty then s
    else if (sourceRanges s p g).any fun r => rangeRetrains s r.1 r.2 then s
    else
      match beyondOf s p with
      | some code => endLoad s p k 6 (loadOut {} code 0)
      | none => checkAndLoad (measureLoad s p (g.num 61 1)) k p m g errs

/-- The fields of LOAD_PLAN that are checked before the image is read: a status, 0 for none. -/
def loadCheck (s : State) (p : Nat) (m : Mailbox) : Nat :=
  let a := inp m 0 8
  let n := inp m 8 8
  let st := (jobOf s p).state
  if (st ≠ .idle ∧ st ≠ .scrubbing) ∨ s.sec.lifecycle = 2 then 4
  else if inp m 28 8 = 0 ∨ 8 < inp m 36 1 ∨ a % 64 ≠ 0 ∨ n = 0 then 3
  else if outside a n || outsidePart s p a n then 0xC
  else 0

def startLoad (s : State) (k : Nat) (m : Mailbox) (p : Nat) (errs : List MemErr) : State :=
  match loadCheck s p m with
  | 0 =>
    let s := modMbx s k fun m => { m with cmd := some {} }
    goLoad (modJob s p fun j => { j with loadBox := some k }) k p m errs
  | st => finish s k st []

/-- Is mailbox `k` a LOAD_PLAN that waits? -/
def loading (s : State) (k : Nat) : Bool :=
  let m := mbxAt s k
  inService s && m.owner && decide (m.opcode = 0x10) && decide ((jobOf s (partNamed m)).loadBox = some k) &&
    (match m.cmd with | some c => !c.ended | none => false)

def execLoadPlan (k : Fin 8) (errs : List MemErr) (now : Nat) (s : State) : Out :=
  let s := atTime s now
  if loading s k then .next (goLoad s k (partNamed (mbxAt s k)) (mbxAt s k) errs)
  else take s k 0x10 fun s m p => startLoad s k m p errs

end Sys2Proof.Machine
end

