-- ==== Sys2Proof/Machine/Manage.lean ====
section
/-!
DEFINITION. The management sideband: MCTP control, PLDM base, monitoring and firmware update, and the BAL_ space
(R381, R382, R465 to R468, R563). Codes of commands and completions are those of the DMTF specifications (PRESUMED, log 119).
-/
namespace Sys2Proof.Machine

/-- Answer a command: completion code and data. -/
def reply (s : State) (code : Nat) (data : List Byte) : State := { s with side := { s.side with code := code, data := data } }

/-- The sideband, over SMBus or while the link is up over PCIe VDM (log 171), answers from READY until READY deasserts (R465). -/
def served (s : State) (f : State) : Out := if inService s then .next f else .next s

/-! ## MCTP control -/

def execSetEndpointId (eid : Nat) (s : State) : Out :=
  served s (if eid % 256 = 0 ∨ eid % 256 = 0xFF then reply s 2 []
            else reply { s with side := { s.side with eid := eid % 256 } } 0 [0, BitVec.ofNat 8 eid, 0])
def execGetEndpointId (s : State) : Out := served s (reply s 0 [BitVec.ofNat 8 s.side.eid, 0, 0])
def execGetEndpointUuid (s : State) : Out := served s (reply s 0 Config.uuid)
/-- Versions of the base specification and control messages, 1.3, and of PLDM over MCTP; any other type is refused. -/
def execGetMctpVersionSupport (typ : Nat) (s : State) : Out :=
  served s (if typ = 0xFF ∨ typ = 0 then reply s 0 [1, 0xF1, 0xF3, 0xFF, 0]
            else if typ = 1 then reply s 0 (1 :: ((Config.pldmBody 0xFF 4 1) ++ zeros 4).take 4) else reply s 0x80 [])
def execGetMessageTypeSupport (s : State) : Out := served s (reply s 0 [2, 0, 1])
def execMctpUnsupportedCmd (_ : Nat) (s : State) : Out := served s (reply s 5 [])

/-! ## PLDM base -/

def execGetTid (s : State) : Out := served s (reply s 0 [BitVec.ofNat 8 s.side.tid])
def pldmType (typ : Nat) : Bool := decide (typ = 0 ∨ typ = 2 ∨ typ = 5 ∨ typ = 63)
/-- The version of a type and its check sum: 1.2 for type 2 and 1.1 for type 5; the others' are not given. -/
def pldmVersion (typ : Nat) : List Byte :=
  if typ = 2 then [0, 0xFF, 0xF2, 0xF1] else if typ = 5 then [0, 0xFF, 0xF1, 0xF1] else (Config.pldmBody 0 3 typ ++ zeros 4).take 4
def execGetPldmVersion (typ : Nat) (s : State) : Out :=
  served s (if pldmType typ then reply s 0 (leBytes 4 0 ++ [5] ++ pldmVersion typ ++ leBytes 4 (crc32 (pldmVersion typ))) else reply s 0x83 [])
/-- A bit for each of the types 0, 2, 5 and 63. -/
def execGetPldmTypes (s : State) : Out := served s (reply s 0 (leBytes 8 (2 ^ 63 + 2 ^ 5 + 2 ^ 2 + 1)))
/-- The codes of the commands of a type that R466 lists. -/
def pldmCommands (typ : Nat) : List Nat :=
  if typ = 0 then [0x02, 0x03, 0x04, 0x05]
  else if typ = 2 then [0x04, 0x11, 0x21, 0x31, 0x32, 0x50, 0x51]
  else if typ = 5 then [0x01, 0x02, 0x10, 0x13, 0x14, 0x16, 0x17, 0x18, 0x1A, 0x1B, 0x1C, 0x1D]
  else [0x01, 0x02]
/-- The commands of a type, a bit each. -/
def execGetPldmCommands (typ : Nat) (s : State) : Out :=
  served s (if pldmType typ then reply s 0 (leBytes 32 ((pldmCommands typ).foldl (fun n c => n + 2 ^ c) 0)) else reply s 0x83 [])
def execPldmUnsupportedCmd (_ _ : Nat) (s : State) : Out := served s (reply s 5 [])

/-! ## The BAL_ space (R381, R382, R563) -/

/-- The RS pair of a low word, by its platform latch. -/
def balPair (b : Balance) (off : Nat) : Option (Nat × Stat) :=
  let d (k : Nat) : Die := nth {} b.dies k
  if off = 0x018 then some (0, b.energy)
  else if off = 0x050 then some (1, (d 0).droop)
  else if off = 0x058 then some (2, (d 0).stretch)
  else if off = 0x070 then some (3, (d 1).droop)
  else if off = 0x078 then some (4, (d 1).stretch)
  else none

def balDie (x : Die) (y : Nat) : Nat :=
  if y = 0x0 then fields [(4, 0), (4, x.target), (4, x.top), (4, x.current), (16, x.vlogic)]
  else if y = 0x4 then fields [(8, x.failed.length), (8, 0), (16, x.hottest.toNat)]
  else if y = 0x8 then fields [(16, x.changes.toNat), (12, 0), (4, x.steps)]
  else 0

def balMhist (e : MHist) : Nat := fields [(1, b2n e.valid), (1, e.die), (2, 0), (4, e.old), (4, e.new), (20, e.load)]

/-- A word of the BAL_ space that no RS pair holds. -/
def balReg (b : Balance) (off : Nat) : Nat :=
  if off = 0x000 then b.capReq.toNat
  else if off = 0x004 then fields [(6, 0), (10, capTarget b / 1000), (6, 0), (10, b.cap)]
  else if off = 0x008 then fields [(1, b2n b.measLed), (1, b2n b.pwrAlert), (1, b2n b.belowCommit), (1, b2n b.throttle), (4, b.duty), (24, 0)]
  else if off = 0x00C then b.event.toNat
  else if off = 0x010 then b.eventEn.toNat
  else if off = 0x020 then b.meas.toNat
  else if off = 0x024 then b.est.toNat
  else if 0x040 ≤ off ∧ off < 0x080 then balDie (nth {} b.dies ((off - 0x40) / 0x20)) (off % 0x20)
  else if off = 0x080 then fields [(8, b.ioFailed.length), (8, 0), (16, b.ioHottest.toNat)]
  else if 0x100 ≤ off ∧ off < 0x140 then balMhist (nth {} b.mhist ((off - 0x100) / 4))
  else 0

/-- A 32-bit read of the BAL_ space; a low word loads its pair's platform latch. -/
def balRead (s : State) (off : Nat) : State :=
  match balPair s.bal off with
  | some (k, c) => reply { s with side := { s.side with latches := setAt s.side.latches k c.high } } 0 (leBytes 4 c.low.toNat)
  | none =>
    match (if 4 ≤ off then balPair s.bal (off - 4) else none) with
    | some (k, _) => reply s 0 (leBytes 4 (nth 0 s.side.latches k).toNat)
    | none => reply s 0 (leBytes 4 (balReg s.bal off))

/-- Is an offset of the BAL_ space refused? -/
def balBad (off : Nat) : Bool := decide (off % 4 ≠ 0) || decide (0x1000 ≤ off)

def execReadBal (off : Nat) (s : State) : Out := served s (if balBad off then reply s 2 [] else balRead s off)

/-- A 32-bit write under the access codes. -/
def balWrite (s : State) (off v : Nat) : State :=
  if off = 0x000 then setCap s (v % 1024)
  else if off = 0x00C then { s with bal := { s.bal with event := s.bal.event &&& ~~~(BitVec.ofNat 32 v) } }
  else if off = 0x010 then { s with bal := { s.bal with eventEn := BitVec.ofNat 32 (v % 1024) } }
  else s

def execWriteBal (off : Nat) (v : BitVec 32) (now : Nat) (s : State) : Out :=
  let s := atTime s now
  served s (if balBad off then reply s 2 [] else reply (balWrite s off v.toNat) 0 [])

/-! ## PLDM monitoring and control (R467) -/

/-- The repository of R467: six sensors and one effecter, by handles from 1. -/
def pdrs : List Config.Pdr := [
  { kind := .numericSensor, id := 1, unit := "W", perUnit := 10 }, { kind := .numericSensor, id := 2, unit := "J" },
  { kind := .numericSensor, id := 3, unit := "°C", perUnit := 8 }, { kind := .numericSensor, id := 4, unit := "°C", perUnit := 8 },
  { kind := .numericSensor, id := 5, unit := "°C", perUnit := 8 }, { kind := .stateSensor, id := 6, sets := 10 },
  { kind := .numericEffecter, id := 1, unit := "W", range := some (300, 600) }]

/-- A record's bytes. -/
def pdrOf (handle : Nat) : List Byte := match pdrs[handle - 1]? with
  | some r => Config.pdrBytes handle r
  | none => []

/-- Repository available, its two times, the number of records, the bytes of all and of the largest, and a timeout. -/
def execGetPdrRepositoryInfo (s : State) : Out :=
  let sizes := (List.range 7).map fun i => (pdrOf (i + 1)).length
  served s (reply s 0 ([0] ++ (Config.pldmBody 2 0x50 0 ++ zeros 26).take 26 ++ leBytes 4 7 ++ leBytes 4 (sizes.foldl (· + ·) 0) ++
    leBytes 4 (sizes.foldl max 0) ++ (Config.pldmBody 2 0x50 1 ++ [0]).take 1))

/-- A record whole, with the handle of the next; handle 0 asks for the first. -/
def execGetPdr (handle : Nat) (s : State) : Out :=
  let h := max handle 1
  let bs := pdrOf h
  served s (if h ≤ 7 then reply s 0 (leBytes 4 (if h < 7 then h + 1 else 0) ++ leBytes 4 0 ++ [5] ++ leBytes 2 bs.length ++ bs) else reply s 0x82 [])

def execGetSensorReading (sensor : Nat) (s : State) : Out :=
  let b := s.bal
  served s (
    if sensor = 1 then reply s 0 (leBytes 4 b.meas.toNat)
    else if sensor = 2 then reply s 0 (leBytes 8 (b.energy.val.toNat / 1000000))
    else if sensor = 3 then reply s 0 (leBytes 2 (dieAt s 0).hottest.toNat)
    else if sensor = 4 then reply s 0 (leBytes 2 (dieAt s 1).hottest.toNat)
    else if sensor = 5 then reply s 0 (leBytes 2 b.ioHottest.toNat)
    else reply s 0x80 [])

/-- One state set per BAL_EVENT bit. -/
def execGetStateSensorReadings (sensor : Nat) (s : State) : Out :=
  served s (if sensor = 6 then reply s 0 ((List.range 10).map fun k => BitVec.ofNat 8 (b2n (s.bal.event.getLsbD k))) else reply s 0x80 [])

def execSetNumericEffecterValue (effecter value : Nat) (s : State) : Out :=
  served s (if effecter = 1 then reply (setCap s value) 0 [] else reply s 0x80 [])
def execGetNumericEffecterValue (effecter : Nat) (s : State) : Out :=
  served s (if effecter = 1 then reply s 0 (leBytes 4 s.bal.capReq.toNat) else reply s 0x80 [])
def execSetEventReceiver (eid : Nat) (s : State) : Out := served s (reply { s with side := { s.side with receiver := eid % 256 } } 0 [])

/-! ## PLDM firmware update (R468) -/

def setFd (s : State) (f : FdState) : State := { s with side := { s.side with fd := f } }

/-- A command of the update in the state it needs; in any other it is refused and changes nothing. -/
def inFd (s : State) (ok : List FdState) (f : State) : Out :=
  served s (if ok.contains s.side.fd then f else reply s (if s.side.fd = .idle then 0x80 else 0x84) [])

def execQueryDeviceIdentifiers (s : State) : Out := served s (reply s 0 (Config.pldmBody 5 0x01 0))
def execGetFirmwareParameters (s : State) : Out :=
  served s (reply s 0 (leBytes 4 s.sec.run.version.toNat ++ leBytes 4 ((s.sec.staged.map (·.version.toNat)).getD 0) ++ Config.pldmBody 5 0x02 0))

/-- FW_STAGE runs in a mailbox. -/
def stageRuns (s : State) : Bool := s.host.mbx.any fun m => m.owner && decide (m.opcode = 0x30) && m.cmd.isSome

/-- An update begins, with the largest transfer that its agent allows. -/
def execRequestUpdate (maxTransfer : Nat) (s : State) : Out :=
  served s (if stageRuns s then reply s 0x8E []
            else if s.side.fd = .idle then reply { s with side := { s.side with fd := .learn, fdMax := maxTransfer } } 0 [] else reply s 0x81 [])
/-- The one component is Skovund, identifier 0. -/
def execPassComponentTable (component : Nat) (s : State) : Out :=
  inFd s [.learn] (if component = 0 then reply (setFd s .ready) 0 [] else reply s 0x82 [])
/-- The device asks for the next data of the component: RequestFirmwareData, of the largest transfer or what is left. -/
def askData (s : State) : State :=
  let x := s.side
  let off := x.fdImage.length
  if off < x.fdSize then { s with side := { x with asked := x.asked ++ [(off, min x.fdMax (x.fdSize - off))] } } else s

def execUpdateComponent (size : Nat) (s : State) : Out :=
  inFd s [.ready] (if size ≤ 2 ^ 24 then reply (askData { s with side := { s.side with fd := .download, fdSize := size, fdImage := [], asked := [] } }) 0 []
                   else reply s 0x82 [])
/-- Data of the component arrives for the request that is open. -/
def execRequestFirmwareDataResponse (off : Nat) (bs : List Byte) (s : State) : Out :=
  let x := s.side
  if inService s && decide (x.fd = .download) && decide (off = x.fdImage.length) && decide (x.asked.getLast? = some (off, bs.length)) then
    .next (askData { s with side := { x with fdImage := x.fdImage ++ bs } })
  else .next s
def execTransferComplete (ok : Bool) (s : State) : Out :=
  inFd s [.download] (reply (setFd s (if ok && decide (s.side.fdImage.length = s.side.fdSize) then .verify else .ready)) 0 [])
/-- The image is verified as FW_STAGE verifies it; the data is the result, 0 for success. -/
def execVerifyComplete (s : State) : Out :=
  let r := verifyImage s.sec s.side.fdImage
  inFd s [.verify] (reply (setFd s (if r = 0 then .apply else .ready)) 0 [BitVec.ofNat 8 r])
/-- The image is stored in the inactive slot. -/
def execApplyComplete (s : State) : Out :=
  inFd s [.apply] (reply (setFd { s with sec := stageImage s.sec s.side.fdImage } .ready) 0 [0])
/-- Delayed activation runs as FW_ACTIVATE does. -/
def execActivateFirmware (selfContained : Bool) (s : State) : Out :=
  inFd s [.ready] (
    if selfContained then reply s 0x8C []
    else if s.sec.staged.isNone then reply s 0x85 []
    else if !allIdle s then reply s 0x84 []
    else beginActivation (reply s 0 [0, 0]))
def fdCode : FdState → Nat
  | .idle => 0 | .learn => 1 | .ready => 2 | .download => 3 | .verify => 4 | .apply => 5 | .activate => 6
def execGetStatus (s : State) : Out := served s (reply s 0 [BitVec.ofNat 8 (fdCode s.side.fd)])
def execCancelUpdateComponent (s : State) : Out := inFd s [.download, .verify, .apply] (reply { s with side := { s.side with fd := .ready, fdImage := [] } } 0 [])
def execCancelUpdate (s : State) : Out :=
  inFd s [.learn, .ready, .download, .verify, .apply, .activate] (reply { s with side := { s.side with fd := .idle, fdImage := [] } } 0 [])

end Sys2Proof.Machine
end

