-- ==== Sys2Proof/Machine/Dispatch.lean ====
section
/-! DEFINITION. The dispatch: one arm per command, each one direct call of its meaning. -/
namespace Sys2Proof.Machine
open Host

/-- The effect of a command on everything but the queue. -/
def exec (i : Instr) (s : State) : Host.Outcome State Fault Refusal :=
  match i with
  | .nop t st h delay => Sys2Proof.Machine.execNop t st h delay s
  | .beatSeq t st h => Sys2Proof.Machine.execBeatSeq t st h s
  | .beatJump t st h target => Sys2Proof.Machine.execBeatJump t st h target s
  | .beatLoop t st h target => Sys2Proof.Machine.execBeatLoop t st h target s
  | .beatStop t st h => Sys2Proof.Machine.execBeatStop t st h s
  | .semaWait t st h sx n => Sys2Proof.Machine.execSemaWait t st h sx n s
  | .semaSignal t st h sx n => Sys2Proof.Machine.execSemaSignal t st h sx n s
  | .semaSet t st h sx n => Sys2Proof.Machine.execSemaSet t st h sx n s
  | .hintEnter t st h phase => Sys2Proof.Machine.execHintEnter t st h phase s
  | .hintAnnounce t st h phase => Sys2Proof.Machine.execHintAnnounce t st h phase s
  | .wcntRead t st h counter dst3 => Sys2Proof.Machine.execWcntRead t st h counter dst3 s
  | .wcntAdd t st h counter inc dst3 => Sys2Proof.Machine.execWcntAdd t st h counter inc dst3 s
  | .wcntReset t st h counter dst3 => Sys2Proof.Machine.execWcntReset t st h counter dst3 s
  | .workCounterRequest d d2d mesh => Sys2Proof.Machine.execWorkCounterRequest d d2d mesh s
  | .dmaLoad t st h o errs => Sys2Proof.Machine.execDmaLoad t st h o errs s
  | .dmaStore t st h o errs => Sys2Proof.Machine.execDmaStore t st h o errs s
  | .dmaAdd t st h o errs => Sys2Proof.Machine.execDmaAdd t st h o errs s
  | .dmaTt t st h o => Sys2Proof.Machine.execDmaTt t st h o s
  | .dmaFlush t st h o errs => Sys2Proof.Machine.execDmaFlush t st h o errs s
  | .dmaSend t st h o => Sys2Proof.Machine.execDmaSend t st h o s
  | .cpass t st h o errs => Sys2Proof.Machine.execCpass t st h o errs s
  | .tpass t st h o errs => Sys2Proof.Machine.execTpass t st h o errs s
  | .pgwr t st h o => Sys2Proof.Machine.execPgwr t st h o s
  | .pgrd t st h o errs => Sys2Proof.Machine.execPgrd t st h o errs s
  | .upd t st h o => Sys2Proof.Machine.execUpd t st h o s
  | .acmrd t st h o errs => Sys2Proof.Machine.execAcmrd t st h o errs s
  | .acmwr t st h o => Sys2Proof.Machine.execAcmwr t st h o s
  | .drain t st h o errs => Sys2Proof.Machine.execDrain t st h o errs s
  | .qstat t st h o => Sys2Proof.Machine.execQstat t st h o s
  | .qconvPresent t st h o => Sys2Proof.Machine.execQconvPresent t st h o s
  | .qconvCarried t st h o => Sys2Proof.Machine.execQconvCarried t st h o s
  | .copy t st h o errs => Sys2Proof.Machine.execCopy t st h o errs s
  | .spmacSwForward t st h o errs => Sys2Proof.Machine.execSpmacSwForward t st h o errs s
  | .spmacSwTransposed t st h o errs => Sys2Proof.Machine.execSpmacSwTransposed t st h o errs s
  | .spmacSa t st h o => Sys2Proof.Machine.execSpmacSa t st h o s
  | .pruneSelect t st h o => Sys2Proof.Machine.execPruneSelect t st h o s
  | .pruneKeep t st h o errs => Sys2Proof.Machine.execPruneKeep t st h o errs s
  | .pruneLoad t st h o => Sys2Proof.Machine.execPruneLoad t st h o s
  | .pruneRead t st h o errs => Sys2Proof.Machine.execPruneRead t st h o errs s
  | .vopAdd t st h o => Sys2Proof.Machine.execVopAdd t st h o s
  | .vopSub t st h o => Sys2Proof.Machine.execVopSub t st h o s
  | .vopMul t st h o => Sys2Proof.Machine.execVopMul t st h o s
  | .vopFma t st h o => Sys2Proof.Machine.execVopFma t st h o s
  | .vopMin t st h o => Sys2Proof.Machine.execVopMin t st h o s
  | .vopMax t st h o => Sys2Proof.Machine.execVopMax t st h o s
  | .vopAbs t st h o => Sys2Proof.Machine.execVopAbs t st h o s
  | .vopNeg t st h o => Sys2Proof.Machine.execVopNeg t st h o s
  | .vopCvt t st h o => Sys2Proof.Machine.execVopCvt t st h o s
  | .vopTwosum t st h o => Sys2Proof.Machine.execVopTwosum t st h o s
  | .vopCpadd t st h o => Sys2Proof.Machine.execVopCpadd t st h o s
  | .vopExp t st h o => Sys2Proof.Machine.execVopExp t st h o s
  | .vopLog t st h o => Sys2Proof.Machine.execVopLog t st h o s
  | .vopRcp t st h o => Sys2Proof.Machine.execVopRcp t st h o s
  | .vopRsqrt t st h o => Sys2Proof.Machine.execVopRsqrt t st h o s
  | .vopRsum t st h o => Sys2Proof.Machine.execVopRsum t st h o s
  | .vopRmax t st h o => Sys2Proof.Machine.execVopRmax t st h o s
  | .vopRmin t st h o => Sys2Proof.Machine.execVopRmin t st h o s
  | .vopRmaxabs t st h o => Sys2Proof.Machine.execVopRmaxabs t st h o s
  | .vopRcsum t st h o => Sys2Proof.Machine.execVopRcsum t st h o s
  | .vopCsum t st h o => Sys2Proof.Machine.execVopCsum t st h o s
  | .vopCmax t st h o => Sys2Proof.Machine.execVopCmax t st h o s
  | .vopEmax8 t st h o => Sys2Proof.Machine.execVopEmax8 t st h o s
  | .vopEmin8 t st h o => Sys2Proof.Machine.execVopEmin8 t st h o s
  | .vopIadd t st h o => Sys2Proof.Machine.execVopIadd t st h o s
  | .vopDeq t st h o => Sys2Proof.Machine.execVopDeq t st h o s
  | .vopImgadd t st h o => Sys2Proof.Machine.execVopImgadd t st h o s
  | .vopOutl t st h o errs => Sys2Proof.Machine.execVopOutl t st h o errs s
  | .issue t errs reads => Sys2Proof.Machine.execIssue t errs reads s
  | .instructionComplete t tag also => Sys2Proof.Machine.execInstructionComplete t tag also s
  | .tspLineFetch t cycle lane reqs errs => Sys2Proof.Machine.execTspLineFetch t cycle lane reqs errs s
  | .tspWriteLine t cycle lane errs => Sys2Proof.Machine.execTspWriteLine t cycle lane errs s
  | .tspScrubLine t line errs => Sys2Proof.Machine.execTspScrubLine t line errs s
  | .meshArrival t => Sys2Proof.Machine.execMeshArrival t s
  | .passLatch t m => Sys2Proof.Machine.execPassLatch t m s
  | .passResultsMove t m upset => Sys2Proof.Machine.execPassResultsMove t m upset s
  | .abftCheck t m regB => Sys2Proof.Machine.execAbftCheck t m regB s
  | .accumTake t => Sys2Proof.Machine.execAccumTake t s
  | .accumEntryWrite t sparse errs => Sys2Proof.Machine.execAccumEntryWrite t sparse errs s
  | .sparsePortWrite t errs => Sys2Proof.Machine.execSparsePortWrite t errs s
  | .pageWriteStart t m => Sys2Proof.Machine.execPageWriteStart t m s
  | .pageWriteCommit t m => Sys2Proof.Machine.execPageWriteCommit t m s
  | .updPageStart t errs mem => Sys2Proof.Machine.execUpdPageStart t errs mem s
  | .scrubRowRead t m errs sumWrong => Sys2Proof.Machine.execScrubRowRead t m errs sumWrong s
  | .scrubColumnCompare t m sumsWrong => Sys2Proof.Machine.execScrubColumnCompare t m sumsWrong s
  | .scrubWriteBack t m rereadDiffers => Sys2Proof.Machine.execScrubWriteBack t m rereadDiffers s
  | .confirmation t c => Sys2Proof.Machine.execConfirmation t c s
  | .beatStart p now => Sys2Proof.Machine.execBeatStart p now s
  | .beatRelease p now => Sys2Proof.Machine.execBeatRelease p now s
  | .tileFinish t busy now => Sys2Proof.Machine.execTileFinish t busy now s
  | .beatDeadline p now => Sys2Proof.Machine.execBeatDeadline p now s
  | .maintenanceSlotStart p now => Sys2Proof.Machine.execMaintenanceSlotStart p now s
  | .ledgerHeadUpdate p => Sys2Proof.Machine.execLedgerHeadUpdate p s
  | .maintenanceSlotEnd p done now => Sys2Proof.Machine.execMaintenanceSlotEnd p done now s
  | .elasticDoneReport p => Sys2Proof.Machine.execElasticDoneReport p s
  | .barrierComplete p now => Sys2Proof.Machine.execBarrierComplete p now s
  | .writeFrame port f now => Sys2Proof.Machine.execWriteFrame port f now s
  | .ackFrame port f now => Sys2Proof.Machine.execAckFrame port f now s
  | .nackFrame port f now => Sys2Proof.Machine.execNackFrame port f now s
  | .helloFrame port f now => Sys2Proof.Machine.execHelloFrame port f now s
  | .heartbeatFrame port f now => Sys2Proof.Machine.execHeartbeatFrame port f now s
  | .doneFrame port f now => Sys2Proof.Machine.execDoneFrame port f now s
  | .releaseFrame port f now => Sys2Proof.Machine.execReleaseFrame port f now s
  | .noticeFrame port f now => Sys2Proof.Machine.execNoticeFrame port f now s
  | .pfcFrame port prio quanta => Sys2Proof.Machine.execPfcFrame port prio quanta s
  | .packetSend p errs now => Sys2Proof.Machine.execPacketSend p errs now s
  | .retransmitTimeout p peer jport now => Sys2Proof.Machine.execRetransmitTimeout p peer jport now s
  | .sendBudgetExpiry p t tag now => Sys2Proof.Machine.execSendBudgetExpiry p t tag now s
  | .ackSend p peer jport => Sys2Proof.Machine.execAckSend p peer jport s
  | .heartbeatSend p now => Sys2Proof.Machine.execHeartbeatSend p now s
  | .heartbeatLoss p member now => Sys2Proof.Machine.execHeartbeatLoss p member now s
  | .helloResend p now => Sys2Proof.Machine.execHelloResend p now s
  | .armTimeout p now => Sys2Proof.Machine.execArmTimeout p now s
  | .linkUp port mode => Sys2Proof.Machine.execLinkUp port mode s
  | .linkDown port => Sys2Proof.Machine.execLinkDown port s
  | .portTrainTimeout port now => Sys2Proof.Machine.execPortTrainTimeout port now s
  | .fecUncorrectable port now => Sys2Proof.Machine.execFecUncorrectable port now s
  | .ptpMessage p jport domain source m now => Sys2Proof.Machine.execPtpMessage p jport domain source m now s
  | .ppsInEdge early held now => Sys2Proof.Machine.execPpsInEdge early held now s
  | .syncTimeout p now => Sys2Proof.Machine.execSyncTimeout p now s
  | .holdoverExpiry p now => Sys2Proof.Machine.execHoldoverExpiry p now s
  | .ppsOutEdge p rising now => Sys2Proof.Machine.execPpsOutEdge p rising now s
  | .fenRequest d b reqs => Sys2Proof.Machine.execFenRequest d b reqs s
  | .fenNearMemoryAdd d errs => Sys2Proof.Machine.execFenNearMemoryAdd d errs s
  | .fenSectorFill t addr errs => Sys2Proof.Machine.execFenSectorFill t addr errs s
  | .fenWriteBack t addr evict errs => Sys2Proof.Machine.execFenWriteBack t addr evict errs s
  | .fenScrub d b errs => Sys2Proof.Machine.execFenScrub d b errs s
  | .fenBankWrite d b mode part => Sys2Proof.Machine.execFenBankWrite d b mode part s
  | .fenBankDrained d b => Sys2Proof.Machine.execFenBankDrained d b s
  | .fenBankCleared d b => Sys2Proof.Machine.execFenBankCleared d b s
  | .memoryRequest reqs now => Sys2Proof.Machine.execMemoryRequest reqs now s
  | .lpddrRetrain ch halfDrift ok now => Sys2Proof.Machine.execLpddrRetrain ch halfDrift ok now s
  | .forcedRetrain ch ok now => Sys2Proof.Machine.execForcedRetrain ch ok now s
  | .retrainEnd ch now => Sys2Proof.Machine.execRetrainEnd ch now s
  | .patrolScrub ch errs link now => Sys2Proof.Machine.execPatrolScrub ch errs link now s
  | .channelFail ch => Sys2Proof.Machine.execChannelFail ch s
  | .lpddrClearDone p => Sys2Proof.Machine.execLpddrClearDone p s
  | .jobDone p errs now => Sys2Proof.Machine.execJobDone p errs now s
  | .scrubbingStart p now => Sys2Proof.Machine.execScrubbingStart p now s
  | .tileClear t => Sys2Proof.Machine.execTileClear t s
  | .scrubbingEnd p => Sys2Proof.Machine.execScrubbingEnd p s
  | .identify k => Sys2Proof.Machine.execIdentify k s
  | .getGeometry k => Sys2Proof.Machine.execGetGeometry k s
  | .loadPlan k errs now => Sys2Proof.Machine.execLoadPlan k errs now s
  | .arm k errs now => Sys2Proof.Machine.execArm k errs now s
  | .start k now => Sys2Proof.Machine.execStart k now s
  | .kill k now => Sys2Proof.Machine.execKill k now s
  | .queryJob k => Sys2Proof.Machine.execQueryJob k s
  | .readLedgerPointer k => Sys2Proof.Machine.execReadLedgerPointer k s
  | .retain k => Sys2Proof.Machine.execRetain k s
  | .releaseRetained k => Sys2Proof.Machine.execReleaseRetained k s
  | .getCertChain k => Sys2Proof.Machine.execGetCertChain k s
  | .attest k => Sys2Proof.Machine.execAttest k s
  | .fuseJournal k => Sys2Proof.Machine.execFuseJournal k s
  | .ownerKeyEnrol k now => Sys2Proof.Machine.execOwnerKeyEnrol k now s
  | .ownerKeyRevoke k now => Sys2Proof.Machine.execOwnerKeyRevoke k now s
  | .ownerKeySetEnforce k now => Sys2Proof.Machine.execOwnerKeySetEnforce k now s
  | .fwStage k errs => Sys2Proof.Machine.execFwStage k errs s
  | .fwActivate k => Sys2Proof.Machine.execFwActivate k s
  | .mpRestartReady now => Sys2Proof.Machine.execMpRestartReady now s
  | .setPartition k => Sys2Proof.Machine.execSetPartition k s
  | .mapBar2 k => Sys2Proof.Machine.execMapBar2 k s
  | .hostDmaToDevice k => Sys2Proof.Machine.execHostDmaToDevice k s
  | .hostDmaToHost k errs cpl errAt => Sys2Proof.Machine.execHostDmaToHost k errs cpl errAt s
  | .mailboxComplete k now => Sys2Proof.Machine.execMailboxComplete k now s
  | .mailboxWrite k off v now => Sys2Proof.Machine.execMailboxWrite k off v now s
  | .irqStatusClear v => Sys2Proof.Machine.execIrqStatusClear v s
  | .irqMaskWrite v => Sys2Proof.Machine.execIrqMaskWrite v s
  | .devReset v now => Sys2Proof.Machine.execDevReset v now s
  | .rsLowRead off size => Sys2Proof.Machine.execRsLowRead off size s
  | .registerWrite off size v => Sys2Proof.Machine.execRegisterWrite off size v s
  | .bar2Read x len errs => Sys2Proof.Machine.execBar2Read x len errs s
  | .bar2Write x bs poisoned errs => Sys2Proof.Machine.execBar2Write x bs poisoned errs s
  | .flr now => Sys2Proof.Machine.execFlr now s
  | .hotReset why => Sys2Proof.Machine.execHotReset why s
  | .hostLinkError now => Sys2Proof.Machine.execHostLinkError now s
  | .setEndpointId eid => Sys2Proof.Machine.execSetEndpointId eid s
  | .getEndpointId => Sys2Proof.Machine.execGetEndpointId s
  | .getEndpointUuid => Sys2Proof.Machine.execGetEndpointUuid s
  | .getMctpVersionSupport typ => Sys2Proof.Machine.execGetMctpVersionSupport typ s
  | .getMessageTypeSupport => Sys2Proof.Machine.execGetMessageTypeSupport s
  | .mctpUnsupportedCmd cmd => Sys2Proof.Machine.execMctpUnsupportedCmd cmd s
  | .getTid => Sys2Proof.Machine.execGetTid s
  | .getPldmVersion typ => Sys2Proof.Machine.execGetPldmVersion typ s
  | .getPldmTypes => Sys2Proof.Machine.execGetPldmTypes s
  | .getPldmCommands typ => Sys2Proof.Machine.execGetPldmCommands typ s
  | .getPdrRepositoryInfo => Sys2Proof.Machine.execGetPdrRepositoryInfo s
  | .getPdr handle => Sys2Proof.Machine.execGetPdr handle s
  | .getSensorReading sensor => Sys2Proof.Machine.execGetSensorReading sensor s
  | .getStateSensorReadings sensor => Sys2Proof.Machine.execGetStateSensorReadings sensor s
  | .setNumericEffecterValue effecter value => Sys2Proof.Machine.execSetNumericEffecterValue effecter value s
  | .getNumericEffecterValue effecter => Sys2Proof.Machine.execGetNumericEffecterValue effecter s
  | .setEventReceiver eid => Sys2Proof.Machine.execSetEventReceiver eid s
  | .queryDeviceIdentifiers => Sys2Proof.Machine.execQueryDeviceIdentifiers s
  | .getFirmwareParameters => Sys2Proof.Machine.execGetFirmwareParameters s
  | .requestUpdate maxTransfer => Sys2Proof.Machine.execRequestUpdate maxTransfer s
  | .passComponentTable component => Sys2Proof.Machine.execPassComponentTable component s
  | .updateComponent size => Sys2Proof.Machine.execUpdateComponent size s
  | .transferComplete ok => Sys2Proof.Machine.execTransferComplete ok s
  | .verifyComplete => Sys2Proof.Machine.execVerifyComplete s
  | .applyComplete => Sys2Proof.Machine.execApplyComplete s
  | .activateFirmware selfContained => Sys2Proof.Machine.execActivateFirmware selfContained s
  | .getStatus => Sys2Proof.Machine.execGetStatus s
  | .cancelUpdateComponent => Sys2Proof.Machine.execCancelUpdateComponent s
  | .cancelUpdate => Sys2Proof.Machine.execCancelUpdate s
  | .readBal off => Sys2Proof.Machine.execReadBal off s
  | .writeBal off v now => Sys2Proof.Machine.execWriteBal off v now s
  | .pldmUnsupportedCmd typ cmd => Sys2Proof.Machine.execPldmUnsupportedCmd typ cmd s
  | .balCapWrite v now => Sys2Proof.Machine.execBalCapWrite v now s
  | .balEventClear v => Sys2Proof.Machine.execBalEventClear v s
  | .balEventEnWrite v => Sys2Proof.Machine.execBalEventEnWrite v s
  | .balanceStep => Sys2Proof.Machine.execBalanceStep s
  | .rampSlice d work now => Sys2Proof.Machine.execRampSlice d work now s
  | .powerMeasurement meas ioMeas temps0 temps1 tempsIo => Sys2Proof.Machine.execPowerMeasurement meas ioMeas temps0 temps1 tempsIo s
  | .dutyStep now => Sys2Proof.Machine.execDutyStep now s
  | .thermalStep d now => Sys2Proof.Machine.execThermalStep d now s
  | .thermtrip now => Sys2Proof.Machine.execThermtrip now s
  | .droopTrip d det now => Sys2Proof.Machine.execDroopTrip d det now s
  | .droopRecover d now => Sys2Proof.Machine.execDroopRecover d now s
  | .phaseGuardRemove d now => Sys2Proof.Machine.execPhaseGuardRemove d now s
  | .voltageSlewDone d => Sys2Proof.Machine.execVoltageSlewDone d s
  | .pwrEnRise held now => Sys2Proof.Machine.execPwrEnRise held now s
  | .pgAssert now => Sys2Proof.Machine.execPgAssert now s
  | .pwrEnFall held now => Sys2Proof.Machine.execPwrEnFall held now s
  | .perstNAssert held now => Sys2Proof.Machine.execPerstNAssert held now s
  | .perstNDeassert addr held now => Sys2Proof.Machine.execPerstNDeassert addr held now s
  | .inputProtectionTrip why now => Sys2Proof.Machine.execInputProtectionTrip why now s
  | .housekeepingStart now => Sys2Proof.Machine.execHousekeepingStart now s
  | .housekeepingStop now => Sys2Proof.Machine.execHousekeepingStop now s
  | .clearingOnWake finds => Sys2Proof.Machine.execClearingOnWake finds s
  | .skovundVerify slotA slotB => Sys2Proof.Machine.execSkovundVerify slotA slotB s
  | .interfaceTrainingDone x => Sys2Proof.Machine.execInterfaceTrainingDone x s
  | .readyAssert now => Sys2Proof.Machine.execReadyAssert now s
  | .mpWatchdogExpiry now => Sys2Proof.Machine.execMpWatchdogExpiry now s
  | .controlMemoryError now => Sys2Proof.Machine.execControlMemoryError now s
  | .dieToDieLinkLoss k => Sys2Proof.Machine.execDieToDieLinkLoss k s
  | .jtagInstruction j => Sys2Proof.Machine.execJtagInstruction j s
  | .railFailure now => Sys2Proof.Machine.execRailFailure now s
  | .pcieLinkUp speed width => Sys2Proof.Machine.execPcieLinkUp speed width s
  | .configurationRequest r => Sys2Proof.Machine.execConfigurationRequest r s
  | .msixTableWrite v word x => Sys2Proof.Machine.execMsixTableWrite v word x s
  | .pfcPauseExpiry port prio => Sys2Proof.Machine.execPfcPauseExpiry port prio s
  | .hostReadCompletion k bs cpl ecc => Sys2Proof.Machine.execHostReadCompletion k bs cpl ecc s
  | .completionTimeout k => Sys2Proof.Machine.execCompletionTimeout k s
  | .requestFirmwareDataResponse off bs => Sys2Proof.Machine.execRequestFirmwareDataResponse off bs s
  | .delayReqSend p now => Sys2Proof.Machine.execDelayReqSend p now s
  | .internalResetRelease addr now => Sys2Proof.Machine.execInternalResetRelease addr now s

end Sys2Proof.Machine
end

