-- ==== Sys2Proof/Safety.lean ====
section
/-!
DEFINITION. The terms the statements use: shapes that every step keeps, what a command leaves alone, and what an
issued tile instruction is.
-/
namespace Sys2Proof.Machine

/-! ## What every step keeps -/

/-- Each list that stands for a fixed number of units has that many entries: 2 jobs, 2 Fen dies, 52 channels,
2 memory sets, 5 ports, 2 dies of Balance with 16 margin entries, 8 mailboxes, 4 key slots and 5 platform latches. -/
def Shape (s : State) : Prop :=
  s.jobs.length = 2 ∧ s.fens.length = 2 ∧ s.chans.length = 52 ∧ s.memParts.length = 2 ∧ s.ports.length = 5 ∧
    s.bal.dies.length = 2 ∧ s.bal.mhist.length = 16 ∧ s.host.mbx.length = 8 ∧ s.sec.slots.length = 4 ∧ s.side.latches.length = 5

/-- Device memory, both Fen scratchpads, the table of cache lines and the table of byte states are in their canonical
forms. -/
def MemOk (s : State) : Prop :=
  memWf s.mem = true ∧ (∀ d, memWf (fenOf s d).scr = true) ∧ tblWf {} s.cache = true ∧
    s.segs.Pairwise (fun a b => a.1 < b.1) ∧ s.segs.head?.map (·.1) = some 0

/-- No two logical tiles are served by one physical tile, and what replaces a tile stands in mesh column 16 (R481). -/
def TilesApart (s : State) : Prop :=
  (∀ t u, t < 256 → u < 256 → physTile s t = physTile s u → t = u) ∧
    ∀ t, t < 256 → physTile s t ≠ homeTile t → physTile s t % 32 = 16

/-- What is fused stays fused from `s` to `t`: debug-disable and OWNER_ENFORCE are never cleared, the lifecycle and
the anti-rollback counter never fall, a REVOKED slot stays REVOKED with its key, a Reserve record is never taken
back, and the device secrets once zeroised stay so. -/
def FusesKept (s t : State) : Prop :=
  (s.sec.debugDis = true → t.sec.debugDis = true) ∧ (s.sec.enforce = true → t.sec.enforce = true) ∧
    s.sec.lifecycle ≤ t.sec.lifecycle ∧ s.sec.counter ≤ t.sec.counter ∧
    (∀ i, (nth {} s.sec.slots i).state = 2 → nth {} t.sec.slots i = nth {} s.sec.slots i) ∧
    s.sec.records <+: t.sec.records ∧ (s.sec.zeroised = true → t.sec.zeroised = true)

/-- What every command may do to the queue, the time, the shapes, the memories' form, the tiles' places and the fuses. -/
structure StepKeeps (s t : State) : Prop where
  pending : t.pending = s.pending
  now : s.now ≤ t.now
  shape : Shape s → Shape t
  mem : MemOk s → MemOk t
  apart : TilesApart s → TilesApart t
  fuses : FusesKept s t

/-! ## Frames -/

/-- Nothing but one physical tile differs. -/
def OnlyTile (s t : State) (pt : Nat) : Prop :=
  t = { s with tiles := t.tiles } ∧ ∀ k, k ≠ pt → tileAt t k = tileAt s k

/-- Nothing but one partition's job differs. -/
def OnlyJob (s t : State) (p : Nat) : Prop := t = { s with jobs := t.jobs } ∧ jobOf t (1 - p) = jobOf s (1 - p)

/-! ## Tile instructions -/

/-- The tile instruction of a row: logical tile, stream, header, operation, and what its reads of protected arrays
meet. -/
def rowOp : Instr → Option (Fin 256 × Fin 32 × Hdr × TileInstr × ReadErrs)
  | .nop t st h d => some (t, st, h, .nop d, {})
  | .beatSeq t st h => some (t, st, h, .beat 0 0, {})
  | .beatJump t st h g => some (t, st, h, .beat 1 g, {})
  | .beatLoop t st h g => some (t, st, h, .beat 2 g, {})
  | .beatStop t st h => some (t, st, h, .beat 3 0, {})
  | .semaWait t st h k n => some (t, st, h, .sema 0 k n, {})
  | .semaSignal t st h k n => some (t, st, h, .sema 1 k n, {})
  | .semaSet t st h k n => some (t, st, h, .sema 2 k n, {})
  | .hintEnter t st h ph => some (t, st, h, .hint 0 ph, {})
  | .hintAnnounce t st h ph => some (t, st, h, .hint 1 ph, {})
  | .wcntRead t st h c d => some (t, st, h, .wcnt 0 c 0 d, {})
  | .wcntAdd t st h c n d => some (t, st, h, .wcnt 1 c n d, {})
  | .wcntReset t st h c d => some (t, st, h, .wcnt 2 c 0 d, {})
  | .dmaLoad t st h o e => some (t, st, h, .dma 0 o, { mem := e })
  | .dmaStore t st h o e => some (t, st, h, .dma 1 o, { mem := e })
  | .dmaAdd t st h o e => some (t, st, h, .dma 2 o, { mem := e })
  | .dmaTt t st h o => some (t, st, h, .dma 3 o, {})
  | .dmaFlush t st h o e => some (t, st, h, .dma 4 o, { mem := e })
  | .dmaSend t st h o => some (t, st, h, .send o, {})
  | .cpass t st h o e => some (t, st, h, .cpass o, { unit := e })
  | .tpass t st h o e => some (t, st, h, .tpass o, { unit := e })
  | .pgwr t st h o => some (t, st, h, .pgwr o, {})
  | .pgrd t st h o e => some (t, st, h, .pgrd o, { pages := e })
  | .upd t st h o => some (t, st, h, .upd o, {})
  | .acmrd t st h o e => some (t, st, h, .acmrd o, { unit := e })
  | .acmwr t st h o => some (t, st, h, .acmwr o, {})
  | .drain t st h o e => some (t, st, h, .drain o, { unit := e })
  | .qstat t st h o => some (t, st, h, .qstat o, {})
  | .qconvPresent t st h o => some (t, st, h, .qconv false o, {})
  | .qconvCarried t st h o => some (t, st, h, .qconv true o, {})
  | .copy t st h o e => some (t, st, h, .xmov o, { unit := e })
  | .spmacSwForward t st h o e => some (t, st, h, .spmacSw false o, { unit := e })
  | .spmacSwTransposed t st h o e => some (t, st, h, .spmacSw true o, { unit := e })
  | .spmacSa t st h o => some (t, st, h, .spmacSa o, {})
  | .pruneSelect t st h o => some (t, st, h, .prune false o, {})
  | .pruneKeep t st h o e => some (t, st, h, .prune true o, { unit := e })
  | .pruneLoad t st h o => some (t, st, h, .store false o, {})
  | .pruneRead t st h o e => some (t, st, h, .store true o, { unit := e })
  | .vopAdd t st h o => some (t, st, h, .vop .add o, {})
  | .vopSub t st h o => some (t, st, h, .vop .sub o, {})
  | .vopMul t st h o => some (t, st, h, .vop .mul o, {})
  | .vopFma t st h o => some (t, st, h, .vop .fma o, {})
  | .vopMin t st h o => some (t, st, h, .vop .min o, {})
  | .vopMax t st h o => some (t, st, h, .vop .max o, {})
  | .vopAbs t st h o => some (t, st, h, .vop .abs o, {})
  | .vopNeg t st h o => some (t, st, h, .vop .neg o, {})
  | .vopCvt t st h o => some (t, st, h, .vop .cvt o, {})
  | .vopTwosum t st h o => some (t, st, h, .vop .twosum o, {})
  | .vopCpadd t st h o => some (t, st, h, .vop .cpadd o, {})
  | .vopExp t st h o => some (t, st, h, .vop .exp o, {})
  | .vopLog t st h o => some (t, st, h, .vop .log o, {})
  | .vopRcp t st h o => some (t, st, h, .vop .rcp o, {})
  | .vopRsqrt t st h o => some (t, st, h, .vop .rsqrt o, {})
  | .vopRsum t st h o => some (t, st, h, .vop .rsum o, {})
  | .vopRmax t st h o => some (t, st, h, .vop .rmax o, {})
  | .vopRmin t st h o => some (t, st, h, .vop .rmin o, {})
  | .vopRmaxabs t st h o => some (t, st, h, .vop .rmaxabs o, {})
  | .vopRcsum t st h o => some (t, st, h, .vop .rcsum o, {})
  | .vopCsum t st h o => some (t, st, h, .vop .csum o, {})
  | .vopCmax t st h o => some (t, st, h, .vop .cmax o, {})
  | .vopEmax8 t st h o => some (t, st, h, .vop .emax8 o, {})
  | .vopEmin8 t st h o => some (t, st, h, .vop .emin8 o, {})
  | .vopIadd t st h o => some (t, st, h, .vop .iadd o, {})
  | .vopDeq t st h o => some (t, st, h, .vop .deq o, {})
  | .vopImgadd t st h o => some (t, st, h, .vop .imgadd o, {})
  | .vopOutl t st h o e => some (t, st, h, .vop .outl o, { unit := e })
  | _ => none

/-- What a unit that ends its work at issue makes of a tile (stream `k`, tag `tag`). -/
def unitWork (x : Tile) (k tag : Nat) (e : ReadErrs) : TileInstr → Option Work
  | .acmrd o => some (acmrdWork x o e.unit)
  | .acmwr o => some (acmwrWork x o)
  | .drain o => some (drainWork x k o e.unit)
  | .qstat o => some (qstatWork x o)
  | .qconv true o => some (carriedWork x k o)
  | .qconv false o => some (presentWork x o)
  | .xmov o =>
    let r := chainEcc x (readPattern x.plan o.pat) e.unit
    some (if r.2 then { t := r.1, code := 0x2102 } else copyWork r.1 o)
  | .vop v o => some (vopWork v x tag o e.unit)
  | .prune keep o => some (pruneWork x keep o e.unit)
  | .store read o => some (storeWork x read o e.unit)
  | _ => none

/-- Is the unit free to take the instruction at once? The sparse engine runs one instruction at a time (R200). -/
def UnitFree (x : Tile) : TileInstr → Prop
  | .prune .. => x.sparseQ = []
  | .store .. => x.sparseQ = []
  | _ => True

/-- The physical tile that serves a logical tile, as it stands. -/
def tileOf (s : State) (t : Nat) : Tile := tileAt s (physTile s t)

/-- The tile issues, no gate of Balance holds this instruction, and its predicate does not skip it (R315, R316, R327,
R363, R372). -/
def CanRun (s : State) (t st : Nat) (h : Hdr) (op : TileInstr) : Prop :=
  mayIssue (tileOf s t) = true ∧ gateOpen s t op = true ∧ skipped (streamOf (tileOf s t) st) h = false

/-- The instruction may issue, and `tag` is the lowest free tag (R303). -/
def CanIssue (s : State) (t st : Nat) (h : Hdr) (op : TileInstr) (tag : Nat) : Prop :=
  CanRun s t st h op ∧ freeTag (tileOf s t) = some tag

/-- Nothing but one physical tile differs, and what Balance counts of the issue (R363). -/
def IssuedAt (s u : State) (t : Nat) (op : TileInstr) : Prop :=
  u = { s with tiles := u.tiles, bal := (noteIssue s t op).bal } ∧ ∀ k, k ≠ physTile s t → tileAt u k = tileAt s k

/-- Order of entry that an instruction of a stream holds. -/
def orderOf (x : Tile) (st : Nat) : Nat := (streamOf x st).entry.getD x.entries

/-- The tile once the instruction has its tag and its claims. -/
def entered (s : State) (t st : Nat) (h : Hdr) (op : TileInstr) (tag : Nat) : Tile :=
  enterFlight (tileOf s t) st h op (entryClaims (tileOf s t) (orderOf (tileOf s t) st) st h op) tag

/-- What a set signal bit adds to semaphore `k` (R310). -/
def sigAt (h : Hdr) (k : Nat) : Nat := if h.sig = true ∧ h.sem = k then 1 else 0

/-- A byte that a TSP operand of the instruction writes (R288 to R294, R307). -/
def Writes (x : Tile) (op : TileInstr) (a : Nat) : Prop :=
  ∃ o ∈ operandsOf x op, o.wr = true ∧ ∃ r ∈ o.runs, r.1 ≤ a ∧ a < r.1 + r.2

/-- The instruction of a tag has no work outstanding and this outcome. -/
def Ended (x : Tile) (tag code : Nat) (flagged : Bool) : Prop :=
  ∃ f, flightOf x tag = some f ∧ f.left = 0 ∧ f.code = code ∧ f.flagged = flagged

/-- What the counter port answers and leaves for READ (0), ADD (1) and RESET (2), as R261 writes it. -/
def CounterRule (op inc : Nat) (c c' : Counter) (r : BitVec 32) : Prop :=
  (op = 0 → c' = c ∧ r = c.val) ∧
  (op = 2 → c' = { c with val := c.init } ∧ r = c.init) ∧
  (op = 1 → c.val.toNat + inc ≤ c.limit.toNat → c'.val.toNat = c.val.toNat + inc ∧ c'.limit = c.limit ∧
    c'.init = c.init ∧ r = c.val) ∧
  (op = 1 → c.limit.toNat < c.val.toNat + inc → c' = { c with val := c.limit } ∧ r = 0xFFFFFFFF)

/-- The register of a stream that a WCNT writes. -/
def resultReg (x : Tile) (st : Nat) (dst3 : Bool) : BitVec 32 := if dst3 then (streamOf x st).x3 else (streamOf x st).x2

/-! ## Values -/

/-- The rational number that a dyadic number stands for. -/
def Dy.rat (a : Dy) : ℚ := a.m * 2 ^ a.e

/-- The value of a finite encoding as a rational number. -/
def valOf (f : FFmt) (x : Nat) : ℚ := (fvalD f x).rat

/-- `n` is the integer nearest to `v`, ties to even. -/
def NearestInt (v : ℚ) (n : Int) : Prop := |v - n| ≤ 1 / 2 ∧ (|v - n| = 1 / 2 → n % 2 = 0)

/-- `n` is the integer next to `v` toward zero. -/
def TruncInt (v : ℚ) (n : Int) : Prop := |v - n| < 1 ∧ |(n : ℚ)| ≤ |v| ∧ 0 ≤ v * n

/-- `r` encodes the finite value of the format nearest to `v`, ties to the even encoding (R164, R66). -/
def RoundsTo (f : FFmt) (v : ℚ) (r : Nat) : Prop :=
  r < 2 ^ f.width ∧ isFinite f r = true ∧ ∀ y, isFinite f y = true →
    |v - valOf f r| ≤ |v - valOf f y| ∧ (|v - valOf f r| = |v - valOf f y| → valOf f y = valOf f r ∨ r % 2 = 0)

/-- `v` rounds beyond the largest finite value of the format (R66). -/
def Exceeds (f : FFmt) (v : ℚ) : Prop :=
  (2 * f.maxM + 1) * 2 ^ f.maxQ < 2 * |v| ∨ ((2 * f.maxM + 1) * 2 ^ f.maxQ = 2 * |v| ∧ f.maxM % 2 = 1)

/-- The exact result of an elementwise operation (R164). -/
def exactResult (v : Vop) (a b c : ℚ) : ℚ :=
  match v with
  | .add => a + b
  | .sub => a - b
  | .mul => a * b
  | .fma => a * b + c
  | .min => if b < a then b else a
  | .max => if a < b then b else a
  | .abs => |a|
  | .neg => -a
  | _ => a

/-! ## Accumulation -/

/-- What R121 makes of a partial of a column: `frac` fraction bits, reference exponent, block exponent. -/
def Aligned (frac eref eb : Nat) (p : Int) (r : Int × Bool) : Prop :=
  if eref ≤ eb + frac then r = (p * 2 ^ (eb + frac - eref), false)
  else r = (Int.tdiv p (2 ^ (eref - eb - frac)), decide (¬ (2 ^ (eref - eb - frac) : Int) ∣ p))

/-- 32 partials of one row, each aligned. -/
def RowAligned (frac : Nat) (eref eb : Nat → Nat) (ps : List Int) (rs : List (Int × Bool)) : Prop :=
  rs.length = 32 ∧ ∀ c, c < 32 → Aligned frac (eref c) (eb c) (nth 0 ps c) (nth (0, false) rs c)

/-- The largest excess of the reference over the block exponent among the partials that are not 0 (R121). -/
def Spreads (eref eb : Nat → Nat) (ps : List Int) (n : Nat) : Prop :=
  (∀ c, c < 32 → nth 0 ps c ≠ 0 → eref c - eb c ≤ n) ∧ (n = 0 ∨ ∃ c, c < 32 ∧ nth 0 ps c ≠ 0 ∧ n = eref c - eb c)

/-- The entry of column `c` once the aligned partials of one cycle have entered it, and whether it saturates. -/
def entryTakes (a : AccTile) (row : Nat) (pss : List (List (Int × Bool))) (c : Nat) : Int × Bool :=
  satEntry a.width (tget 0 a.ent (32 * row + c) + (pss.map fun ps => (nth (0, false) ps c).1).sum)

/-- Partials of a cycle that lose bits in column `c`. -/
def lostAt (pss : List (List (Int × Bool))) (c : Nat) : Nat := (pss.filter fun ps => (nth (0, false) ps c).2).length

/-- Row `row` of an accumulator tile takes the parts of one cycle: each of its 32 entries becomes the saturated exact sum
and counts the partials and those that lost bits; SAT, TRUNC and BOUND rise where R121 and R129 say; the first partial of
a row records its scale and adds its carried tally (R130); the largest spread is kept; every other row, the reference
exponents, OUTLIER and the format stand. -/
def RowTakes (a b : AccTile) (row : Nat) (pss : List (List (Int × Bool))) (scale carried spread : Nat) : Prop :=
  (∀ c, c < 32 → let k := 32 * row + c
    tget 0 b.ent k = (entryTakes a row pss c).1 ∧ tget 0 b.nparts k = tget 0 a.nparts k + pss.length ∧
    tget 0 b.ntrunc k = tget 0 a.ntrunc k + lostAt pss c) ∧
  (∀ k, k / 32 ≠ row → tget 0 b.ent k = tget 0 a.ent k ∧ tget 0 b.nparts k = tget 0 a.nparts k ∧ tget 0 b.ntrunc k = tget 0 a.ntrunc k) ∧
  b.trunc = (a.trunc || (List.range 32).any fun c => decide (0 < lostAt pss c)) ∧
  b.sat = (a.sat || (List.range 32).any fun c => (entryTakes a row pss c).2) ∧
  b.bound = (a.bound || (List.range 32).any fun c => decide (a.guarantee < tget 0 a.nparts (32 * row + c) + pss.length)) ∧
  tget 0 b.rscale row = scale ∧ (∀ k, k ≠ row → tget 0 b.rscale k = tget 0 a.rscale k) ∧
  b.csat = (if tget 0 a.rscale row = 0 then min 0xFFFF (a.csat + carried) else a.csat) ∧ b.maxspread = max a.maxspread spread ∧
  b.eref = a.eref ∧ b.narrow = a.narrow ∧ b.opened = a.opened ∧ b.gid = a.gid ∧ b.outlier = a.outlier

/-- The ledger counts the updates of a row: each that saturates, and the tile whose BOUND sets (R129, R158). -/
def RowCounts (a b : AccTile) (row : Nat) (pss : List (List (Int × Bool))) (l l' : Ledger) : Prop :=
  l' = l.add { sat := ((List.range 32).filter fun c => (entryTakes a row pss c).2).length, bound := b2n (b.bound && !a.bound) }

/-- The tile as a part finds it: opened anew by the first part of an OVERWRITE (R126, R128). -/
def baseOf (x : Tile) (f : Flight) (tile : Nat) (ovw : Bool) (eref : List Byte) (gid : Nat) : AccTile :=
  if ovw && !(f.openedTiles.contains tile) then openTile (decide (slotKind x tile = 2)) eref gid else tget {} x.acm tile

/-- A part may enter: its tile is open, an OVERWRITE opens with no exponent 0xFF, and the row has no scale yet or this
one (R126, R128, R130). -/
def Enters (f : Flight) (tile row : Nat) (ovw : Bool) (eref : List Byte) (scale : Nat) (base : AccTile) : Prop :=
  base.opened = true ∧ ((ovw && !(f.openedTiles.contains tile)) = true → eref.contains 0xFF = false) ∧
    (tget 0 base.rscale row = 0 ∨ tget 0 base.rscale row = scale)

/-- Nothing that the instruction entered stands in its accumulator tiles (R121, R130): each whose state before the
instructions in flight is remembered is that state with what the others have entered since, and every other tile is as it
was (log 23). -/
def AccUndone (x y : Tile) (f : Flight) : Prop :=
  ∀ k, tget {} y.acm k =
    match (if k ∈ accTiles f.claims then x.accBase.find? fun e => decide (e.1 = k) else none) with
    | some e => x.accLog.foldl (fun a b => replayCycle a (b.filter fun p => decide (p.tag ≠ f.tag) && decide (p.tile = k))) e.2
    | none => tget {} x.acm k

/-- An instruction in flight ended with a format fault; nothing of it stands in its accumulator tiles. -/
def FormatFaults (x y : Tile) (f : Flight) : Prop :=
  AccUndone x y f ∧ ∃ g, flightOf y f.tag = some g ∧ g.code = fmtFault (opcodeOf f.op) ∧ g.left = 0

/-! ## Frames on the Causeway -/

/-- The port carries frames: it is up, or marked and still up, and the transmitters are not squelched. -/
def Carries (s : State) (n : Nat) : Prop :=
  ((portAt s n).state = 2 ∨ ((portAt s n).state = 3 ∧ (portAt s n).mode ≠ 0)) ∧ s.start.squelched = false

/-- Between `s` and `u` this frame went out on the port that serves a job port, where that port carries
frames, under the headers the member table gives it; while its priority is paused it waits at the port (R416). -/
def Sent1 (s u : State) (p k : Nat) (f : Frame) : Prop :=
  ∀ n, physPort s p k = some n →
    if prioOf (jobOf s p) f ∈ (portAt s n).paused then (p, f) ∈ (portAt u n).held
    else Carries s n → { port := n, frame := f, link := encapOf (jobOf u p) n f } ∈ u.sentFrames

/-- Between `s` and `u` a control frame went to a member on every job port that carries frames. -/
def Sent (s u : State) (p dst typ : Nat) (body : List Byte) : Prop :=
  ∀ k, k < (jobOf s p).ports → Sent1 s u p k (control s p k dst typ body)

/-- Every frame sent between `s` and `u` has one of these types. -/
def SentOnly (s u : State) (typs : List Nat) : Prop :=
  s.sentFrames <+: u.sentFrames ∧ ∀ e ∈ u.sentFrames, e ∈ s.sentFrames ∨ e.frame.typ ∈ typs

/-- A retransmission round of a flow whose oldest packet is `q`: the SEND that owns it counts a round and every
unacknowledged packet goes again; a third round ends that SEND with RETRY (R424). -/
def Round (s u : State) (p key : Nat) (q : Packet) : Prop :=
  let j := jobOf s p
  let fl := tget {} j.txFlows key
  let used := ((j.sends.find? fun x => decide (x.tile = q.tile ∧ x.tag = q.tag)).map (·.rounds)).getD 0
  u.mem = s.mem ∧ u.fens = s.fens ∧ u.cache = s.cache ∧ jobOf u (1 - p) = jobOf s (1 - p) ∧
  (used < 2 → (jobOf u p).retx = j.retx.add 1 ∧ (∀ x ∈ fl.unacked, Sent1 s u p x.frame.jport x.frame) ∧ u.tiles = s.tiles ∧
    (tget {} (jobOf u p).txFlows key).unacked.map (·.seq) = fl.unacked.map (·.seq) ∧
    ∀ x ∈ (jobOf u p).sends, ∃ y ∈ j.sends, x = { y with rounds := if y.tile = q.tile ∧ y.tag = q.tag then y.rounds + 1 else y.rounds }) ∧
  (2 ≤ used → tileAt u q.tile = failFlight (tileAt s q.tile) q.tag 0x4A01 ∧ u.sentFrames = s.sentFrames ∧
    (∀ k, k ≠ q.tile → tileAt u k = tileAt s k) ∧ ∀ x ∈ (jobOf u p).sends, ¬ (x.tile = q.tile ∧ x.tag = q.tag))

/-! ## Faults and the end of a job -/

/-- What a fault makes of a tile of its partition: it issues nothing more, and what it had in flight is abandoned, its
destinations undefined (R316). Plan, semaphores, statistics and retirements stand. -/
def Stopped (x y : Tile) : Prop :=
  y = { x with tsp := y.tsp, acm := y.acm, pages := y.pages, macros := y.macros, sps := y.sps, spx := y.spx, streams := y.streams,
               accQ := y.accQ, accBase := y.accBase, accLog := y.accLog, sparseQ := y.sparseQ, updQ := y.updQ, updPub := y.updPub,
               arrivals := y.arrivals, flights := y.flights, fetching := y.fetching, free := y.free, halted := y.halted, fault := y.fault } ∧
  (x = {} ∨ (y.halted = true ∧ ∀ f ∈ y.flights, f.left = 0))

/-- A byte of device memory that an instruction in flight of a partition writes. -/
def DevDest (s : State) (p a : Nat) : Prop :=
  ∃ t ∈ tilesOf s p, ∃ f ∈ (tileOf s t).flights, ∃ r ∈ f.dev, r.1 ≤ a ∧ a < r.1 + r.2

/-- A physical tile that a DMA TT in flight of a partition writes to. -/
def TtDest (s : State) (p k : Nat) : Prop :=
  ∃ t ∈ tilesOf s p, ∃ f ∈ (tileOf s t).flights, ∃ o, f.op = .dma 3 o ∧ ttDest s (physTile s t) o = k

/-- A job of a partition went to FAULTED with a code of its own (R316, R471, R473): the fault is recorded with the Beat
in progress, the partition's tiles stop issue and abandon their work, and the other partition, all memory that no such work
writes, Balance and the fuses stand. -/
def Faulted (s u : State) (p code : Nat) : Prop :=
  (jobOf u p).state = .faulted ∧ (jobOf u p).code = BitVec.ofNat 16 code ∧ (jobOf u p).outcome = 2 ∧
    (jobOf u p).faultValid = true ∧ (jobOf u p).remote = false ∧ (jobOf u p).faultBeat = (jobOf s p).beat ∧
    (jobOf u p).orig = (jobOf s p).member ∧ jobOf u (1 - p) = jobOf s (1 - p) ∧
    u = { s with jobs := u.jobs, tiles := u.tiles, windows := u.windows, ports := u.ports, host := u.host, sentFrames := u.sentFrames,
                 mem := u.mem, fens := u.fens, waits := u.waits, chans := u.chans, memParts := u.memParts, now := u.now, free := u.free } ∧
    (∀ a, ¬ DevDest s p a → mget u.mem a = mget s.mem a) ∧
    (∀ k, (∀ t ∈ tilesOf s p, physTile s t ≠ k) → ¬ TtDest s p k → tileAt u k = tileAt s k) ∧
    ∀ t ∈ tilesOf s p, Stopped (tileOf s t) (tileOf u t)

/-- Every barrier neighbour is told of a fault of this member (R437). -/
def Told (s u : State) (p code : Nat) : Prop :=
  ∀ m ∈ neighbours (jobOf s p), Sent s u p m 8 (leBytes 2 (jobOf s p).member ++ leBytes 2 code ++ [0])

/-- A channel fails (R401): it serves nothing more; a Reserve record names it and vector 10's cause stands, unless its marking
has written the record (R486); the RUNNING job of its partition ends with 0x2900 + n. A LOADED or ARMED job stands; with no
job a LOAD_PLAN in progress ends (R474); either way tiles and memory stand. -/
def ChanFails (s u : State) (n : Nat) : Prop :=
  let c := chanAt s n
  let p := if s.split && decide (2 ≤ n % 4) then 1 else 0
  let rec_ : List Byte := [BitVec.ofNat 8 n, 0, 0, 0, 0, 0, 0, 0]
  (chanAt u n).state = (if c.state = 1 then 3 else 2) ∧ (chanAt u n).retraining = false ∧ (chanAt u n).waiting = [] ∧
    (∀ k, k ≠ n → (chanAt u k).state = (chanAt s k).state) ∧
    (c.state = 4 → u.sec = s.sec) ∧
    (c.state ≠ 4 → u.host.irqStatus.getLsbD 10 = true ∧
      (s.sec.records.length < 256 → u.sec.records = s.sec.records ++ [rec_]) ∧
      (256 ≤ s.sec.records.length → u.sec.volatile = s.sec.volatile ++ [(7, rec_)] ∧ u.sec.records = s.sec.records)) ∧
    ((jobOf s p).state = .running → (jobOf u p).state = .faulted ∧ (jobOf u p).code = BitVec.ofNat 16 (0x2900 + n)) ∧
    ((jobOf s p).state ≠ .running → u.tiles = s.tiles ∧ u.mem = s.mem ∧ u.fens = s.fens ∧ (∀ k, k ≠ n → chanAt u k = chanAt s k) ∧
      jobOf u p = { jobOf s p with loadBox := if faultable (jobOf s p).state then (jobOf s p).loadBox else none } ∧
      jobOf u (1 - p) = jobOf s (1 - p))

/-- A job of a partition enters SCRUBBING (R349, R509, R511): its windows are CLOSED and undeclared, its cache lines are
gone, its banks clear, its counters read 0, its regions of kinds 0 to 2 and its ring take the states given, and a
kind-3 region is FREE. -/
def Scrubs (s u : State) (p : Nat) (kept : ByteState) : Prop :=
  let j := jobOf s p
  let inRegion (r : Region) (a : Nat) : Prop := r.base ≤ a ∧ a < r.base + r.len
  let inRing (a : Nat) : Prop := j.ring.valid = true ∧ j.ring.base ≤ a ∧ a < j.ring.base + j.ring.depth * 64 * j.ring.nrec
  (jobOf u p).state = .scrubbing ∧ (jobOf u p).part = .off ∧ (jobOf u p).regions = [] ∧ (jobOf u p).sends = [] ∧
  (∀ w ∈ windowsOf s p, windowAt u w = { appl := (windowAt s w).appl, drop := (windowAt s w).drop }) ∧
  (∀ w, w ∉ windowsOf s p → windowAt u w = windowAt s w) ∧
  (∀ e ∈ u.cache, e.2.part ≠ p) ∧
  (∀ e ∈ j.banks, e.1 < 2 → (bankAt u e.1 e.2.1).state = .clearing ∧ (bankAt u e.1 e.2.1).release = true) ∧
  (∀ c ∈ j.counters, c < 512 → tget {} (fenOf u (if s.split then p else c / 256)).wcs (c % 256) = {}) ∧
  (∀ r ∈ j.regions, ∀ a, inRegion r a → ¬ inRing a → (∀ q ∈ j.regions, inRegion q a → q = r) →
    byteState u a = if r.kind = 3 then .free else kept) ∧
  (∀ a, inRing a → byteState u a = .held) ∧
  ∀ a, ¬ inRing a → (∀ q ∈ j.regions, ¬ inRegion q a) → byteState u a = byteState s a

/-! ## Mailbox commands -/

/-- The mailbox command of a row: mailbox, opcode, and the time it carries (0 for none). -/
def boxCmd : Instr → Option (Fin 8 × Nat × Nat)
  | .identify k => some (k, 0x01, 0)
  | .getGeometry k => some (k, 0x02, 0)
  | .loadPlan k _ now => some (k, 0x10, now)
  | .arm k _ now => some (k, 0x11, now)
  | .start k now => some (k, 0x12, now)
  | .kill k now => some (k, 0x13, now)
  | .queryJob k => some (k, 0x14, 0)
  | .readLedgerPointer k => some (k, 0x15, 0)
  | .retain k => some (k, 0x18, 0)
  | .releaseRetained k => some (k, 0x19, 0)
  | .getCertChain k => some (k, 0x20, 0)
  | .attest k => some (k, 0x21, 0)
  | .fuseJournal k => some (k, 0x22, 0)
  | .ownerKeyEnrol k now => some (k, 0x23, now)
  | .ownerKeyRevoke k now => some (k, 0x23, now)
  | .ownerKeySetEnforce k now => some (k, 0x23, now)
  | .fwStage k _ => some (k, 0x30, 0)
  | .fwActivate k => some (k, 0x31, 0)
  | .setPartition k => some (k, 0x32, 0)
  | .mapBar2 k => some (k, 0x38, 0)
  | .hostDmaToDevice k => some (k, 0x39, 0)
  | .hostDmaToHost k _ _ _ => some (k, 0x39, 0)
  | _ => none

/-- Does the row's part of its command match the mailbox: the operation of OWNER_KEY, the direction of HOST_DMA? A
value outside its range goes to one row or both, which refuse it. -/
def selects (i : Instr) (m : Mailbox) : Bool :=
  match i with
  | .ownerKeyEnrol _ _ => decide (inp m 0 1 = 0)
  | .ownerKeyRevoke _ _ => decide (inp m 0 1 = 1)
  | .ownerKeySetEnforce _ _ => decide (2 ≤ inp m 0 1)
  | .hostDmaToDevice _ => decide (inp m 0 1 ≠ 1)
  | .hostDmaToHost _ _ _ _ => decide (inp m 0 1 ≠ 0)
  | _ => true

/-- The mailbox holds this command, handed off in service and not yet taken. -/
def Handed (s : State) (k op : Nat) : Prop :=
  inService s = true ∧ (mbxAt s k).owner = true ∧ (mbxAt s k).cmd = none ∧ (mbxAt s k).opcode.toNat = op

/-- The mailbox names partition 1 in WHOLE in a command of a partition, or a reserved input byte is not 0 (R459, R460). -/
def BadFields (s : State) (k : Nat) (r : CmdRow) : Prop :=
  (r.scope % 2 = 1 ∧ (mbxAt s k).part = true ∧ s.split = false) ∨ ∃ z ∈ r.rsvd, inp (mbxAt s k) z.1 z.2 ≠ 0

/-- The command is handed off, its length and its reserved bytes are right, its partition exists, and it waits for no
other and for no BAR2 write (R450, R454, R456, R458, R459). -/
def Taken (s : State) (k op : Nat) : Prop :=
  Handed s k op ∧ ∃ r, rowOf op = some r ∧ (mbxAt s k).lenIn.toNat = r.lenIn ∧ ¬ BadFields s k r ∧ mustWait s k = false ∧ hostWaits s = false

/-- The command of a mailbox has ended with a status and an output; the other mailboxes stand. -/
def BoxEnds (s u : State) (k status : Nat) (out : List Byte) : Prop :=
  (mbxAt u k) = { mbxAt s k with cmd := some { status := status, out := out, ended := true } } ∧ ∀ i, i ≠ k → mbxAt u i = mbxAt s i

/-- The state in which LOAD_PLAN reads and checks its image: the mailbox is taken, HELD memory is AWAITING, what the
image's range awaited is cleared, the read is charged and its errors are counted, and the margins are measured (R350, R379,
R395, R449, R511). -/
def loadView (s : State) (k p : Nat) (errs : List MemErr) : State :=
  let m := mbxAt s k
  let s := modJob (modMbx s k fun m => { m with cmd := some {} }) p fun j => { j with loadBox := some k }
  let a := inp m 0 8
  let n := inp m 8 8
  let s := (cmdRead (releaseHeld s p) (errsIn errs a n) a n).1
  measureLoad s p (({ mem := s.mem, base := a, size := n } : Image).num 61 1)

/-- The plan that the checker sees, with the pages that the presented handles bring back. -/
def loadedPlan (w : State) (k p : Nat) : Plan :=
  let m := mbxAt w k
  let hs := handlesOf m
  let kept := (keptAt w p).filter fun x => matched (keptAt w p) (inp m 28 8) hs x.g
  planOf w p { mem := w.mem, base := inp m 0 8, size := inp m 8 8 } (kept.map fun x => (if w.split then x.t % 128 else x.t, x.lm, x.page))

/-! ## Reset -/

/-- A boot on the image of a slot (R497, R498): what runs, and the keys that follow from it, the fuses and the boot's draws.
The flash and the marks of its slots stand. -/
def Boots (x y : Security) (b : Bool) : Prop :=
  let bs := slotBytes x b
  let body := Config.aliasBody (publicKey y.aliasKey) (sha384 bs) (imageOf bs).svn x.lifecycle
  y.run = imageOf bs ∧ y.slotB = b ∧ y.fallback = decide (b ≠ x.activeB) ∧ y.activeB = x.activeB ∧ y.flash = x.flash ∧ y.staged = x.staged ∧
    y.salt = drawBytes x.draws 4 ∧ y.draws = x.draws + 11 ∧
    y.aliasKey = scalarOf (hkdf384 (hmac384 (udsOf x) (sha384 bs ++ fuseDigest x)) y.salt aliasInfo) ∧
    y.aliasCert = Config.aliasDer body (ecdsaSign (dikOf x) (scalarOf (drawBytes (x.draws + 4) 7)) (sha384 body)) ∧
    y.cdi = [] ∧ y.rootOpen = false

/-- The device goes into reset (R15, R16, R485, R488, R534, R535): every job and every mailbox is gone, the tiles keep
only what is fused of them, the Fen, the windows, the ports and the setting are at their reset values, and all memory
awaits clearing, with no byte of it moved that no instruction in flight was writing where no channel has failed or is
marked; no staged firmware is reported; READY is low, FAULT_N is low and the transmitters are squelched. Fuses, firmware
and the registers of Balance but its statistics stand. Of a fuse write that it meets the journal entry may be missing (R506). -/
def Resets (s u : State) : Prop :=
  u.jobs = [{}, {}] ∧ u.fens = [{}, {}] ∧ u.windows = [] ∧ u.cache = [] ∧ u.split = false ∧ u.segs = [(0, .awaiting)] ∧
    u.memParts = [{}, {}] ∧ u.waits = [] ∧ (∀ n, portAt u n = {}) ∧ u.host.mbx = List.replicate 8 {} ∧ u.host.irqStatus = 0 ∧
    u.host.irqMask = 0x7FF ∧ u.host.linkUp = false ∧ (∀ pt, tileAt u pt = { ret := (tileAt u pt).ret, free := (tileAt u pt).free }) ∧
    u.sec = { s.sec with volatile := [], staged := none, clearing := false, salt := u.sec.salt, aliasKey := u.sec.aliasKey
                         aliasCert := u.sec.aliasCert, cdi := u.sec.cdi, rootOpen := u.sec.rootOpen, journal := u.sec.journal
                         entries := u.sec.entries, fuseAt := none, missing := u.sec.missing } ∧
    (s.sec.fuseAt = none → u.sec.journal = s.sec.journal ∧ u.sec.entries = s.sec.entries ∧ u.sec.missing = s.sec.missing) ∧
    u.bal = { s.bal with energy := {}, dies := u.bal.dies } ∧ inService u = false ∧
    u.start.faultN = false ∧ u.start.squelched = true ∧ u.start.arraysCleared = false ∧ u.start.verified = false ∧ u.sentFrames = s.sentFrames ∧
    ((∀ n, (chanAt s n).state ≤ 1) → ∀ a, ¬ DevDest s 0 a → ¬ DevDest s 1 a → mget u.mem a = mget s.mem a)

/-- The reason DEV_BOOT_CAUSE will give: that of the reset, but one that took the device down stands (R488). -/
def CauseAfter (s : State) (cause : Nat) : Nat :=
  if s.start.phase = .down ∧ (s.start.cause = 3 ∨ s.start.cause = 4) then s.start.cause else cause

end Sys2Proof.Machine
end

