-- ==== Sys2Proof/WellFormed.lean ====
section
/-!
DEFINITION. Well-formed commands: every encoded field of a tile instruction fits the width R272 to R294
give it, and the operands of the events lie in the ranges of their rules.
-/
namespace Sys2Proof

/-- A number fits a field of `w` bits. -/
def fits (w x : Nat) : Bool := decide (x < 2 ^ w)

/-- The header's fields fit; pred 3 is not used (R272). -/
def Hdr.wf (h : Hdr) : Bool := fits 4 h.sem && decide (h.pred ≤ 2)

def DmaOp.wf (o : DmaOp) : Bool :=
  fits 1 o.ch && fits 4 o.rsem && fits 8 o.dtile && fits 14 o.taddr && fits 35 o.dev && fits 16 o.len && fits 2 o.xsel
    && fits 24 o.stride && fits 1 o.afmt

def SendOp.wf (o : SendOp) : Bool :=
  fits 14 o.peer && fits 8 o.window && fits 24 o.woff && fits 35 o.src && fits 16 o.len

def PassOp.wf (o : PassOp) : Bool :=
  fits 6 o.grp && fits 3 o.page && fits 9 o.pat && fits 14 o.desc && fits 6 o.tile && fits 4 o.gid && fits 5 o.row0
    && fits 5 o.h && fits 14 o.eref && fits 12 o.eidx

def PgwrOp.wf (o : PgwrOp) : Bool :=
  fits 6 o.grp && fits 3 o.page && fits 14 o.img && fits 16 o.istep && fits 14 o.exp && fits 16 o.estep

def PgrdOp.wf (o : PgrdOp) : Bool := fits 6 o.grp && fits 3 o.page && fits 14 o.img && fits 16 o.istep

def UpdOp.wf (o : UpdOp) : Bool := fits 6 o.grp && fits 8 o.pmask && fits 6 o.udesc && fits 14 o.hyp

def AcmOp.wf (o : AcmOp) : Bool := fits 6 o.tile && fits 14 o.img

def DrainOp.wf (o : DrainOp) : Bool :=
  fits 6 o.tile && fits 5 o.row0 && fits 5 o.h && fits 2 o.c8 && fits 2 o.w8 && fits 3 o.ofmt && fits 3 o.k
    && fits 14 o.dst && fits 14 o.desc && fits 18 o.cs && fits 14 o.recd && fits 13 o.ib

def QuantOp.wf (o : QuantOp) : Bool :=
  fits 3 o.ifmt && fits 14 o.src && fits 14 o.dst && fits 14 o.recd && fits 14 o.desc && fits 14 o.dnext
    && fits 14 o.strip && fits 11 o.n32 && fits 5 o.r && fits 4 o.ol

def VopOp.wf (o : VopOp) : Bool :=
  fits 3 o.afmt && fits 3 o.ofmt && fits 2 o.bmode && fits 2 o.cmode && fits 14 o.a && fits 14 o.b && fits 14 o.c
    && fits 14 o.d && fits 16 o.w && fits 5 o.h && fits 6 o.tile && fits 4 o.gid && fits 5 o.o

def SwOp.wf (o : SwOp) : Bool :=
  fits 6 o.tile && fits 4 o.gid && fits 5 o.h && fits 14 o.act && fits 14 o.desc && fits 14 o.eref && fits 12 o.eidx
    && fits 5 o.tensor && fits 8 o.cb && fits 9 o.k0 && fits 8 o.nw

def SaOp.wf (o : SaOp) : Bool :=
  fits 6 o.tile && fits 4 o.gid && fits 5 o.h && fits 14 o.act && fits 14 o.desc && fits 14 o.eref && fits 12 o.eidx
    && fits 14 o.wop && fits 11 o.k32

def PruneOp.wf (o : PruneOp) : Bool :=
  fits 5 o.tensor && fits 8 o.cb && fits 9 o.k0 && fits 9 o.nw && fits 14 o.src && fits 14 o.aux && fits 14 o.eref
    && fits 12 o.eidx && fits 14 o.treft

def StoreOp.wf (o : StoreOp) : Bool :=
  fits 5 o.tensor && fits 12 o.blk && fits 12 o.nb && fits 14 o.src && fits 14 o.aux && fits 14 o.eref && fits 12 o.eidx
    && fits 14 o.treft

/-- A tile instruction whose fields fit its encoding and whose fn is listed (R275). -/
def TileInstr.wf : TileInstr → Bool
  | .nop d => fits 16 d
  | .beat fn t => decide (fn ≤ 3) && fits 12 t
  | .sema fn s n => decide (fn ≤ 2) && fits 4 s && fits 16 n
  | .hint fn p => decide (fn ≤ 1) && fits 4 p
  | .wcnt fn c i _ => decide (fn ≤ 2) && fits 9 c && fits 16 i
  | .dma fn o => decide (fn ≤ 4) && o.wf
  | .send o => o.wf
  | .cpass o => o.wf
  | .tpass o => o.wf
  | .pgwr o => o.wf
  | .pgrd o => o.wf
  | .upd o => o.wf
  | .acmrd o => o.wf
  | .acmwr o => o.wf && !o.widen
  | .drain o => o.wf
  | .qstat o => o.wf && !o.sym && !o.rnd && !o.bcast
  | .qconv c o => o.wf && (c || !o.bcast)
  | .xmov o => fits 9 o.pat && fits 14 o.dst
  | .vop _ o => o.wf
  | .spmacSw _ o => o.wf
  | .spmacSa o => o.wf
  | .prune _ o => o.wf
  | .store _ o => o.wf

/-- A received frame whose fields fit their widths (R418). -/
def Frame.wf (f : Frame) : Bool :=
  fits 4 f.ver && fits 4 f.typ && fits 64 f.jobId && fits 14 f.src && fits 2 f.jport && fits 14 f.dst && fits 24 f.seq

/-- A command whose tile instruction fields fit; events carry no encoding to check but a frame's. -/
def Instr.wf : Instr → Bool
  | .nop _ _ h d => h.wf && (TileInstr.nop d).wf
  | .beatJump _ _ h t => h.wf && fits 12 t
  | .beatLoop _ _ h t => h.wf && fits 12 t
  | .semaWait _ _ h s n => h.wf && fits 4 s && fits 16 n
  | .semaSignal _ _ h s n => h.wf && fits 4 s && fits 16 n
  | .semaSet _ _ h s n => h.wf && fits 4 s && fits 16 n
  | .hintEnter _ _ h p => h.wf && fits 4 p
  | .hintAnnounce _ _ h p => h.wf && fits 4 p
  | .wcntRead _ _ h c _ => h.wf && fits 9 c
  | .wcntAdd _ _ h c i _ => h.wf && fits 9 c && fits 16 i && decide (0 < i)
  | .wcntReset _ _ h c _ => h.wf && fits 9 c
  | .dmaLoad _ _ h o _ => h.wf && o.wf
  | .dmaStore _ _ h o _ => h.wf && o.wf
  | .dmaAdd _ _ h o _ => h.wf && o.wf
  | .dmaTt _ _ h o => h.wf && o.wf
  | .dmaFlush _ _ h o _ => h.wf && o.wf
  | .dmaSend _ _ h o => h.wf && o.wf
  | .cpass _ _ h o _ => h.wf && o.wf
  | .tpass _ _ h o _ => h.wf && o.wf
  | .pgwr _ _ h o => h.wf && o.wf
  | .pgrd _ _ h o _ => h.wf && o.wf
  | .upd _ _ h o => h.wf && o.wf
  | .acmrd _ _ h o _ => h.wf && o.wf
  | .acmwr _ _ h o => h.wf && o.wf && !o.widen
  | .drain _ _ h o _ => h.wf && o.wf
  | .qstat _ _ h o => h.wf && o.wf
  | .qconvPresent _ _ h o => h.wf && o.wf && !o.bcast
  | .qconvCarried _ _ h o => h.wf && o.wf
  | .copy _ _ h o _ => h.wf && (TileInstr.xmov o).wf
  | .spmacSwForward _ _ h o _ => h.wf && o.wf
  | .spmacSwTransposed _ _ h o _ => h.wf && o.wf
  | .spmacSa _ _ h o => h.wf && o.wf
  | .pruneSelect _ _ h o => h.wf && o.wf
  | .pruneKeep _ _ h o _ => h.wf && o.wf
  | .pruneLoad _ _ h o => h.wf && o.wf
  | .pruneRead _ _ h o _ => h.wf && o.wf
  | .vopAdd _ _ h o => h.wf && o.wf
  | .vopSub _ _ h o => h.wf && o.wf
  | .vopMul _ _ h o => h.wf && o.wf
  | .vopFma _ _ h o => h.wf && o.wf
  | .vopMin _ _ h o => h.wf && o.wf
  | .vopMax _ _ h o => h.wf && o.wf
  | .vopAbs _ _ h o => h.wf && o.wf
  | .vopNeg _ _ h o => h.wf && o.wf
  | .vopCvt _ _ h o => h.wf && o.wf
  | .vopTwosum _ _ h o => h.wf && o.wf
  | .vopCpadd _ _ h o => h.wf && o.wf
  | .vopExp _ _ h o => h.wf && o.wf
  | .vopLog _ _ h o => h.wf && o.wf
  | .vopRcp _ _ h o => h.wf && o.wf
  | .vopRsqrt _ _ h o => h.wf && o.wf
  | .vopRsum _ _ h o => h.wf && o.wf
  | .vopRmax _ _ h o => h.wf && o.wf
  | .vopRmin _ _ h o => h.wf && o.wf
  | .vopRmaxabs _ _ h o => h.wf && o.wf
  | .vopRcsum _ _ h o => h.wf && o.wf
  | .vopCsum _ _ h o => h.wf && o.wf
  | .vopCmax _ _ h o => h.wf && o.wf
  | .vopEmax8 _ _ h o => h.wf && o.wf
  | .vopEmin8 _ _ h o => h.wf && o.wf
  | .vopIadd _ _ h o => h.wf && o.wf
  | .vopDeq _ _ h o => h.wf && o.wf
  | .vopImgadd _ _ h o => h.wf && o.wf
  | .vopOutl _ _ h o _ => h.wf && o.wf
  | .beatSeq _ _ h => h.wf
  | .beatStop _ _ h => h.wf
  | .writeFrame _ f _ => f.wf
  | .ackFrame _ f _ => f.wf
  | .nackFrame _ f _ => f.wf
  | .helloFrame _ f _ => f.wf
  | .heartbeatFrame _ f _ => f.wf
  | .doneFrame _ f _ => f.wf
  | .releaseFrame _ f _ => f.wf
  | .noticeFrame _ f _ => f.wf
  | .pfcFrame _ _ q => fits 16 q
  | .powerMeasurement _ _ a b c => decide (a.length = 48) && decide (b.length = 48) && decide (c.length = 16)
  | .readBal off => fits 16 off
  | .bar2Write _ bs _ _ => decide (bs.length ≤ 4096)
  | _ => true

end Sys2Proof
end

