-- ==== Sys2Proof/Certificates/Slice0/Obligations.lean ====
section
/-!
DEFINITION. The statements to prove, from the numbered rules of the manual.
-/
open Sys2Proof Sys2Proof.Machine

/-! ## The queue and the whole machine -/

/-- The queue is first in, first out: a step runs the command at the front on the state that holds the queue's rest.
An empty queue leaves the block as it stands (the model's choice, log 1). -/
def Obligations.StepRunsFront : Prop :=
  (∀ (c : Instr) (s : State), step { s with pending := c :: s.pending } = exec c s) ∧
    ∀ s : State, s.pending = [] → step s = .next s

/-- No command touches the queue. That the time never runs back is the model's choice (log 3). -/
def Obligations.ExecKeepsQueueAndTime : Prop :=
  ∀ (c : Instr) (s t : State), exec c s = .next t → t.pending = s.pending ∧ s.now ≤ t.now

/-- Every command answers a next state, but for a test-port instruction the manual does not describe while
debug-disable is clear (R505, R525). That no command faults, and that one whose event cannot arise leaves the block as it is, are
the model's choices (logs 2, 8); what a command does is said by the statements below. -/
def Obligations.ExecAlwaysAnswers : Prop :=
  ∀ (c : Instr) (s : State), (∃ t, exec c s = .next t) ∨
    ((∃ n, c = .jtagInstruction (.other n)) ∧ s.sec.debugDis = false ∧ exec c s = .refused .debugInstruction)

/-- A step keeps the sparse memories in their canonical form: device memory, the Fen scratchpads and the cache list rising
keys and no default, and the table of byte states starts at address 0 and rises. -/
def Obligations.StepKeepsMemoryForm : Prop := ∀ s t : State, MemOk s → step s = .next t → MemOk t

/-- A step keeps the number of jobs, dies, channels, ports, mailboxes and key slots. -/
def Obligations.StepKeepsShape : Prop := ∀ s t : State, Shape s → step s = .next t → Shape t

/-- Every step keeps one physical tile to each logical tile, and every replacement in mesh column 16: plan load gives a
retired tile's index to a free Reserve tile of its die, and no command shares or moves one otherwise (R481, R485). -/
def Obligations.TilesStayApart : Prop := ∀ s t : State, TilesApart s → step s = .next t → TilesApart t

/-- What is fused stays fused (R500, R504, R505): debug-disable and OWNER_ENFORCE are set once, the lifecycle and the
anti-rollback counter never fall, a REVOKED slot keeps its key and its state, Reserve records are only appended, and
zeroised secrets stay so. -/
def Obligations.FusesAreOneWay : Prop := ∀ s t : State, step s = .next t → FusesKept s t

/-! ## Tile instructions: the word, issue, skipping -/

/-- Decoding the word of a well-formed tile instruction gives it back, whatever its operands (R272 to R294). -/
def Obligations.TileWordRoundTrip : Prop :=
  ∀ (h : Hdr) (i : TileInstr), h.wf = true → i.wf = true → decodeTile (encodeTile h i) = some (h, i)

/-- A tile that a fault has stopped, or whose Beat is not released, issues nothing, nor does one that the ramp limiter or
the cut duty holds: each of the 66 instruction rows leaves the whole block as it stands (R316, R327, R363, R372). -/
def Obligations.HaltedTileIssuesNothing : Prop :=
  ∀ (s : State) (i : Instr) (t : Fin 256) (st : Fin 32) (h : Hdr) (op : TileInstr) (e : ReadErrs),
    rowOp i = some (t, st, h, op, e) →
    ((tileOf s t).halted = true ∨ (tileOf s t).released = false ∨ gateOpen s t (gatedOp (tileOf s t) st h op) = false) →
    exec i s = .next s

/-- A skipped instruction completes at issue, moves no data and only signals; a SEMA WAIT still waits for its value
(R302, R310, R315). -/
def Obligations.SkippedInstructionOnlySignals : Prop :=
  ∀ (s : State) (i : Instr) (t : Fin 256) (st : Fin 32) (h : Hdr) (op : TileInstr) (e : ReadErrs),
    rowOp i = some (t, st, h, op, e) → (tileOf s t).halted = false → (tileOf s t).released = true → dutyOpen s t = true →
    skipped (streamOf (tileOf s t) st) h = true → (∀ k n, op = .sema 0 k n → n ≤ semOf (tileOf s t) k) →
    semOf (tileOf s t) h.sem + sigAt h h.sem ≤ 0xFFFF →
    ∃ u, exec i s = .next u ∧ IssuedAt s u t (.nop 0) ∧
      tileOf u t = stampSingles s.now { advance (tileOf s t) st with sems := (tileOf u t).sems } ∧
      ∀ k, semOf (tileOf u t) k = semOf (tileOf s t) k + sigAt h k

/-- A row whose unit ends its work at issue (ACMRD, ACMWR, DRAIN, QSTAT, QCONV, COPY, PRUNE, LOAD, READ and every VOP)
issues: the tile becomes what the unit makes of it, and the instruction holds its tag with the unit's outcome. A PRUNE,
LOAD or READ behind other work of the sparse engine waits there (R200). That results stand at issue is the model's choice (log 41);
what values a unit forms is said below, in UnitValues. -/
def Obligations.UnitRowsRun : Prop :=
  ∀ (s : State) (i : Instr) (t : Fin 256) (st : Fin 32) (h : Hdr) (op : TileInstr) (e : ReadErrs) (tag : Nat) (w : Work),
    rowOp i = some (t, st, h, op, e) → CanIssue s t st h op tag → unitWork (entered s t st h op tag) st tag e op = some w →
    (UnitFree (tileOf s t) op → ∃ u, exec i s = .next u ∧ IssuedAt s u t op ∧ tileOf u t = stampSingles s.now (settle tag w) ∧
      Ended (tileOf u t) tag w.code w.flagged) ∧
    (¬ UnitFree (tileOf s t) op → ∃ u, exec i s = .next u ∧ IssuedAt s u t op ∧
      (tileOf u t).sparseQ = (tileOf s t).sparseQ ++ [{ tag := tag, whole := true, errs := e.unit }] ∧
      (tileOf u t).tsp = (tileOf s t).tsp ∧ (tileOf u t).sps = (tileOf s t).sps ∧
      ∃ f, flightOf (tileOf u t) tag = some f ∧ f.left = 1 ∧ f.code = 0)

/-- The frame of those rows. The unit writes only the TSP bytes of its own operands; it leaves the pages, the macros,
the semaphores, the plan and the engines' queues; the accumulator tiles but for the tile of an ACMWR or an OUTL; the
sparse store but for PRUNE SELECT, KEEP and LOAD. Where a read meets a codeword that its decoder passes on wrong, that
codeword's own array holds undefined bytes (R564). -/
def Obligations.UnitRowsFrame : Prop :=
  ∀ (x : Tile) (st tag : Nat) (op : TileInstr) (e : ReadErrs) (w : Work), unitWork x st tag e op = some w →
    let right := wrongWords e.unit = []
    (∀ a, ¬ Writes x op a → right ∨ a < 0xC0000 → mget w.t.tsp a = mget x.tsp a) ∧
    w.t.pages = x.pages ∧ w.t.macros = x.macros ∧ w.t.sems = x.sems ∧ w.t.plan = x.plan ∧ w.t.flights = x.flights ∧
    w.t.accQ = x.accQ ∧ w.t.sparseQ = x.sparseQ ∧ w.t.updQ = x.updQ ∧ w.t.halted = x.halted ∧ w.t.fault = x.fault ∧
    (∀ k, (∀ o, op = .acmwr o → k ≠ o.tile) → (∀ o, op = .vop .outl o → k ≠ o.tile) →
      (right ∨ ((∀ o, op = .acmrd o → k ≠ o.tile) ∧ ∀ o, op = .drain o → k ≠ o.tile)) → tget {} w.t.acm k = tget {} x.acm k) ∧
    ((∀ k o, op ≠ .prune k o) → (∀ o, op ≠ .store false o) → (right ∨ ∀ o, op ≠ .store true o) → w.t.sps = x.sps ∧ w.t.spx = x.spx)

/-! ## Tile instructions: control -/

/-- SEMA WAIT, SIGNAL and SET issue: each semaphore takes the value of R310, the sig bit's 1 included; the stream
advances and nothing else moves. WAIT below its value waits: the block stands as it was. A SIGNAL whose sum passes
0xFFFF leaves the semaphores and halts the tile with the overflow fault. NOP takes its stream for 1 + delay cycles, and its
sig bit waits for their end. BEAT holds its stream for the release with its fn and target, and signals at once. None of them
takes a tag, and no other stream moves (R270, R276, R303, R310, R311). -/
def Obligations.ControlRows : Prop :=
  ∀ (s : State) (t : Fin 256) (st : Fin 32) (h : Hdr) (sx n : Nat), CanRun s t st h (.nop 0) →
    let x := tileOf s t
    let runs (i : Instr) (v : Nat → Nat) : Prop :=
      v h.sem + sigAt h h.sem ≤ 0xFFFF → ∃ u, exec i s = .next u ∧ IssuedAt s u t (.nop 0) ∧
        tileOf u t = stampSingles s.now { advance x st with sems := (tileOf u t).sems } ∧ ∀ k, semOf (tileOf u t) k = v k + sigAt h k
    let holds (i : Instr) (f : Stream → Stream) (sig : Nat → Nat) : Prop :=
      ∃ u, exec i s = .next u ∧ IssuedAt s u t (.nop 0) ∧
        streamOf (tileOf u t) st = f (streamOf x st) ∧ (∀ k, k ≠ st → streamOf (tileOf u t) k = streamOf x k) ∧
        (tileOf u t).flights = x.flights ∧ (tileOf u t).stat = { x.stat with issued := x.stat.issued.add 1 } ∧
        (tileOf u t).rr = (st + 1) % 32 ∧ ∀ k, semOf (tileOf u t) k = semOf x k + sig k
    let beat (fn g : Nat) (i : Instr) : Prop := semOf x h.sem + sigAt h h.sem ≤ 0xFFFF →
      holds i (fun y => { y with atBeat := some (fn, g), entry := none }) (sigAt h)
    (n ≤ semOf x sx → runs (.semaWait t st h sx n) fun k => semOf x k - if k = sx then n else 0) ∧
    (semOf x sx < n → exec (.semaWait t st h sx n) s = .next s) ∧
    (semOf x sx + n ≤ 0xFFFF → runs (.semaSignal t st h sx n) fun k => semOf x k + if k = sx then n else 0) ∧
    runs (.semaSet t st h sx n) (fun k => if k = sx then n else semOf x k) ∧
    (0xFFFF < semOf x sx + n → ∃ u, exec (.semaSignal t st h sx n) s = .next u ∧ (tileOf u t).halted = true ∧
      (∀ k, semOf (tileOf u t) k = semOf x k) ∧ (x.fault.valid = false → (tileOf u t).fault.code = 0x5502)) ∧
    holds (.nop t st h n) (fun y => { y with pc := y.pc + 1, hold := 1 + n, entry := none
                                             nopSem := if h.sig then some h.sem else none }) (fun _ => 0) ∧
    beat 0 0 (.beatSeq t st h) ∧ beat 1 n (.beatJump t st h n) ∧ beat 2 n (.beatLoop t st h n) ∧ beat 3 0 (.beatStop t st h)

/-- The values that the units form. A scale of R46 is the quotient rounded once, 2^-126 where that is subnormal or zero, and
its zero point the nearest integer to −lo·rcp; a record that is not finite, or a scale that is not positive and normal, gives
none. An element converts by R47: x·rcp rounded once to an integer, moved by z and clamped, with what saturated and what
underflowed. An elementwise operation rounds its exact result once to its format, clamps what exceeds a narrower format and
is flagged, and faults on an operand that is not finite or an FP32 overflow (R164, R165). DRAIN forms
s_r·c_j·2^(e_ref − F)·N and rounds it once; a row without a scale drains as +0; a row whose descriptor does not fit it, or a
channel scale that breaks its rule, ends it with its format fault; it is flagged where its tile or a conversion is (R139 to
R141). ACMRD writes the tile's image, 256·N of a narrow tile that it widens, and is flagged with the tile; ACMWR loads the
image it reads, or ends with its format fault and leaves the tile (R137, R138). IADD adds two images entry by entry,
saturating, with the flags and tallies of R148. -/
def Obligations.UnitValues : Prop :=
  (∀ (a4 sym : Bool) (a b c : Nat),
    let qmax : Nat := if a4 then 15 else 255
    let qs : Nat := if a4 then 7 else 127
    let fix (r : Nat) : Nat := if r % 2 ^ 31 < 0x00800000 then 0x00800000 else r
    let got := deriveScale a4 sym (fval fp32 a) (fval fp32 b) (fval fp32 c)
    let given (s z : Nat) : Option (Nat × Nat) := if posNormal32 s then some (s, z) else none
    (isFinite fp32 a = false ∨ isFinite fp32 b = false ∨ (sym = true ∧ isFinite fp32 c = false) → got = none) ∧
    (isFinite fp32 a = true → isFinite fp32 b = true →
      (sym = true → isFinite fp32 c = true → let m := valOf fp32 c
        let z : Nat := if a4 then 8 else 128
        if m = 0 then got = some (fone, z) else ∃ r, RoundsTo fp32 (m / qs) r ∧ got = given (fix r) z) ∧
      (sym = false → let lo := min (valOf fp32 a) 0
        let hi := max (valOf fp32 b) 0
        if hi = lo then got = some (fone, 0)
        else ∃ r k, RoundsTo fp32 ((hi - lo) / qmax) r ∧
          (posNormal32 (fix r) = true → NearestInt (-lo * valOf fp32 (fdiv fone (fix r))) k) ∧
          got = given (fix r) (clampI 0 qmax k).toNat))) ∧
  (∀ s, posNormal32 s = true → RoundsTo fp32 (1 / valOf fp32 s) (fdiv fone s)) ∧
  (∀ (a4 sym rnd : Bool) (rcp x : Dy) (z : Nat), ∃ k : Int,
    (if rnd then NearestInt (x.rat * rcp.rat) k else TruncInt (x.rat * rcp.rat) k) ∧
      let lo : Int := if sym then 1 else 0
      let hi : Int := if a4 then 15 else 255
      quantElem a4 sym rnd rcp z x = ((clampI lo hi (k + z)).toNat, decide (k + z < lo ∨ hi < k + z),
        decide (x.rat ≠ 0 ∧ clampI lo hi (k + z) = z))) ∧
  (∀ (x : Tile) (v : Vop) (o : VopOp), v ∈ [Vop.add, .sub, .mul, .fma, .min, .max, .abs, .neg, .cvt] → o.ofmt ≤ 4 →
    let w := vopElem v x o
    let n := o.w + 1
    let raw (base mode i j : Nat) : Nat := vecRaw x.tsp base o.afmt mode n i j
    let finite (i j : Nat) : Prop := isFinite (fmtOf o.afmt) (raw o.a 0 i j) = true ∧
      (2 ≤ vopArity v → isFinite (fmtOf o.afmt) (raw o.b o.bmode i j) = true) ∧
      (3 ≤ vopArity v → isFinite (fmtOf o.afmt) (raw o.c o.cmode i j) = true)
    let exact (i j : Nat) : ℚ := exactResult v (valOf (fmtOf o.afmt) (raw o.a 0 i j)) (valOf (fmtOf o.afmt) (raw o.b o.bmode i j))
      (valOf (fmtOf o.afmt) (raw o.c o.cmode i j))
    let good : Prop := ∀ i j, i ≤ o.h → j < n → finite i j ∧ (o.ofmt = 0 → ¬ Exceeds fp32 (exact i j))
    (good → w.code = 0 ∧ (w.flagged = true ↔ ∃ i j, i ≤ o.h ∧ j < n ∧ Exceeds (fmtOf o.ofmt) (exact i j)) ∧
      ∀ i j, i ≤ o.h → j < n → RoundsTo (fmtOf o.ofmt) (exact i j) (rawElem w.t.tsp (tbyte o.d + i * rowLen o.ofmt n) o.ofmt j)) ∧
    (¬ good → w.code = 0x5428)) ∧
  (∀ (rs cs eref frac : Nat) (k : Int), let v := valOf fp32 rs * valOf fp32 cs * 2 ^ ((eref : Int) - 133 - frac) * k
    RoundsTo fp32 v (drainVal rs cs eref frac k).1 ∧ ((drainVal rs cs eref frac k).2 = true ↔ Exceeds fp32 v)) ∧
  (∀ (x : Tile) (st : Nat) (o : DrainOp), o.ofmt ≤ 4 → drainOpt o = false →
    let a := tget {} x.acm o.tile
    let n := 8 * (o.w8 + 1)
    let cs (k : Nat) : Nat := readCs x.tsp (4 * o.cs + 4 * (8 * o.c8 + k))
    let desc (i : Nat) : RowDesc := readDesc x.tsp (tbyte o.desc + 8 * i)
    let fits (i : Nat) : Prop := tget 0 a.rscale (o.row0 + i) = 0 ∨ ((desc i).ok = true ∧ (desc i).scale = tget 0 a.rscale (o.row0 + i))
    let good : Prop := (∀ k, k < n → csOk (cs k) = true) ∧ ∀ i, i ≤ o.h → fits i
    let y (i k : Nat) : Nat × Bool := if tget 0 a.rscale (o.row0 + i) = 0 then (0, false)
      else drainVal (tget 0 a.rscale (o.row0 + i)) (cs k) (mget a.eref (8 * o.c8 + k)).toNat a.frac (tget 0 a.ent (32 * (o.row0 + i) + 8 * o.c8 + k))
    overlaps (tbyte o.desc) (8 * (o.h + 1)) (tbyte o.dst) ((o.h + 1) * rowLen o.ofmt n) = false →
    let w := drainWork x st o []
    (good → w.code = 0 ∧
      (w.flagged = true ↔ a.flagged = true ∨ ∃ i k, i ≤ o.h ∧ k < n ∧ ((y i k).2 = true ∨ (narrowTo o.ofmt (y i k).1).2 = true)) ∧
      ∀ i k, i ≤ o.h → k < n → rawElem w.t.tsp (tbyte o.dst + i * rowLen o.ofmt n) o.ofmt k = (narrowTo o.ofmt (y i k).1).1) ∧
    (¬ good → w.code = 0x541A)) ∧
  (∀ (x : Tile) (o : AcmOp), let a := { tget {} x.acm o.tile with narrow := decide (slotKind x o.tile = 2) }
    let w := acmrdWork x o []
    let wide := a.narrow && o.widen
    let back := imageTile (mread w.t.tsp (tbyte o.img) (imageLen (a.narrow && !o.widen)))
    w.code = 0 ∧ w.flagged = a.flagged ∧ back.narrow = (a.narrow && !o.widen) ∧ back.sat = a.sat ∧ back.trunc = a.trunc ∧
    back.outlier = a.outlier ∧ back.bound = a.bound ∧ (∀ c, c < 32 → mget back.eref c = mget a.eref c) ∧
    (∀ r, r < 32 → tget 0 a.rscale r < 2 ^ 32 → tget 0 back.rscale r = tget 0 a.rscale r) ∧
    ∀ i, i < 1024 → -2 ^ (a.width - 1) ≤ tget 0 a.ent i → tget 0 a.ent i < 2 ^ (a.width - 1) →
      tget 0 back.ent i = if wide then 256 * tget 0 a.ent i else tget 0 a.ent i) ∧
  (∀ (x : Tile) (o : AcmOp), let narrow := decide (slotKind x o.tile = 2)
    let bs := mread x.tsp (tbyte o.img) (imageLen narrow)
    let w := acmwrWork x o
    ((imageTile bs).narrow = narrow ∧ imageOk bs = true → w.code = 0 ∧ tget {} w.t.acm o.tile = imageTile bs ∧ (imageTile bs).opened = true) ∧
    (¬ ((imageTile bs).narrow = narrow ∧ imageOk bs = true) → w.code = 0x5419 ∧ w.t.acm = x.acm)) ∧
  ∀ (x : Tile) (o : VopOp),
    let a := imageTile (mread x.tsp (tbyte o.a) 8448)
    let b := imageTile (mread x.tsp (tbyte o.b) 8448)
    let w := vopIadd x o
    let c := imageTile (mread w.t.tsp (tbyte o.d) 8448)
    let fits : Prop := a.narrow = false ∧ b.narrow = false ∧ (∀ k, k < 32 → mget a.eref k = mget b.eref k) ∧
      ∀ r, r < 32 → tget 0 a.rscale r = tget 0 b.rscale r ∨ tget 0 a.rscale r = 0 ∨ tget 0 b.rscale r = 0
    let sum (i : Nat) : Int × Bool := satEntry 64 (tget 0 a.ent i + tget 0 b.ent i)
    (¬ fits → w.code = 0x5428 ∧ w.t.tsp = x.tsp) ∧
    (fits → w.code = 0 ∧ c.narrow = false ∧ (∀ i, i < 1024 → tget 0 c.ent i = (sum i).1) ∧
      c.sat = (a.sat || b.sat || (List.range 1024).any fun i => (sum i).2) ∧ c.trunc = (a.trunc || b.trunc) ∧ c.outlier = (a.outlier || b.outlier) ∧
      (∀ k, k < 32 → mget c.eref k = mget a.eref k) ∧
      (∀ r, r < 32 → tget 0 c.rscale r = if tget 0 a.rscale r = 0 then tget 0 b.rscale r else tget 0 a.rscale r) ∧
      tget 0 c.nparts 0 = min 0xFFFFFFFF (tget 0 a.nparts 0 + tget 0 b.nparts 0) ∧
      tget 0 c.ntrunc 0 = min 0xFFFFFFFF (tget 0 a.ntrunc 0 + tget 0 b.ntrunc 0) ∧
      c.csat = min 0xFFFF (a.csat + b.csat) ∧ c.maxspread = max a.maxspread b.maxspread ∧
      c.bound = (a.bound || b.bound || decide (2 ^ 24 < tget 0 c.nparts 0)))

/-- HINT ENTER names the tile's phase to Balance at once; HINT ANNOUNCE leaves it, and names that of the next Beat, which
starts in phase 0. Where the tiles of the die would step up by 20 W or more, a guard of 5 mV for each whole 20 W, at most
30 mV, joins those in force; one that is announced waits for its Beat and its phase. VDD_LOGIC's setpoint follows. The
stream advances, and nothing else of the block moves (R276, R277, R360, R361; that a Beat has one guard of a phase at a time
is the model's reading, log 90). -/
def Obligations.HintRowsReachBalance : Prop :=
  ∀ (s : State) (t : Fin 256) (st : Fin 32) (h : Hdr) (ph : Nat), Shape s → CanRun s t st h (.hint 0 ph) →
    semOf (tileOf s t) h.sem + sigAt h h.sem ≤ 0xFFFF →
    let d := dieOf t
    let x := dieAt s d
    let n := ((tilesOf s (partOf s t)).filter fun u => decide (dieOf u = d)).length
    let gs (ahead : Bool) : List Guard :=
      let step := n * (tget {} x.phases ph).learnt - n * (tget {} x.phases (if ahead then 0 else tget 0 x.tilePhase t)).learnt
      x.guards ++ if 20000 ≤ step ∧ (∀ g ∈ x.guards, ¬ (g.phase = ph ∧ g.ahead = ahead)) then
        [{ phase := ph, mv := min 30 (5 * (step / 20000)), ahead := ahead }] else []
    let reaches (i : Instr) (phase : Nat) (guards : List Guard) : Prop :=
      ∃ u, exec i s = .next u ∧ u = { s with tiles := u.tiles, bal := u.bal } ∧
        u.bal = { s.bal with dies := u.bal.dies } ∧ (∀ k, k ≠ d → dieAt u k = dieAt s k) ∧
        tget 0 (dieAt u d).tilePhase t = phase ∧ (∀ k, k ≠ t.val → tget 0 (dieAt u d).tilePhase k = tget 0 x.tilePhase k) ∧
        (dieAt u d).guards = guards ∧ (dieAt u d).vlogic = setpoint u d x.target ∧ (dieAt u d).target = x.target ∧
        (dieAt u d).phases = x.phases ∧ (∀ k, k ≠ physTile s t → tileAt u k = tileAt s k) ∧
        tileOf u t = stampSingles s.now { advance (tileOf s t) st with sems := (tileOf u t).sems }
    reaches (.hintEnter t st h ph) ph ((gs false).map fun g =>
      if g.phase = ph ∧ g.ahead = false ∧ g.entered = none then { g with entered := some s.now } else g) ∧
    reaches (.hintAnnounce t st h ph) (tget 0 x.tilePhase t) (gs true)

/-- WCNT READ, ADD and RESET issue with a request of their counter to its port, one part of work outstanding: no counter
and no register moves. Where that request finds the port idle, WORK_COUNTER_REQUEST serves it: the counter and the
stream's x2 or x3 take what R261 gives, the instruction has no work left, and every other counter and stream keeps its
value (R260 to R262). -/
def Obligations.CounterRowsServe : Prop :=
  ∀ (s : State) (t : Fin 256) (st : Fin 32) (h : Hdr) (c inc tag : Nat) (d3 : Bool) (d : Fin 2), Shape s →
    CanIssue s t st h (.wcnt 0 c 0 d3) tag → d.val = (if s.split then physTile s t / 256 else c / 256 % 2) →
    let f := fenOf s d
    let serves (i : Instr) (op inc : Nat) : Prop :=
      let r : WcReq := { tile := physTile s t, stream := st, op := op, counter := c, inc := inc, dst3 := d3, tag := tag }
      ∃ u, exec i s = .next u ∧ u = { s with tiles := u.tiles, bal := (noteIssue s t (.nop 0)).bal } ∧
        (∀ k, k ≠ physTile s t → tileAt u k = tileAt s k) ∧ resultReg (tileOf u t) st d3 = resultReg (tileOf s t) st d3 ∧
        (∃ g, flightOf (tileOf u t) tag = some g ∧ g.left = 1 ∧ g.code = 0 ∧ counterAsk u (physTile s t) g = some (d.val, r)) ∧
        (f.portQ = [] → ∃ v, exec (.workCounterRequest d [r] [r]) u = .next v ∧ v = { u with tiles := v.tiles, fens := v.fens } ∧
          CounterRule op inc (tget {} f.wcs (c % 256)) (tget {} (fenOf v d).wcs (c % 256)) (resultReg (tileOf v t) st d3) ∧
          (∀ k, k ≠ c % 256 → tget {} (fenOf v d).wcs k = tget {} f.wcs k) ∧ (∀ k, k ≠ d.val → fenOf v k = fenOf s k) ∧
          (∀ k, k ≠ st.val → streamOf (tileOf v t) k = streamOf (tileOf u t) k) ∧ Ended (tileOf v t) tag 0 false ∧
          ∀ k, k ≠ physTile s t → tileAt v k = tileAt s k)
    serves (.wcntRead t st h c d3) 0 0 ∧ serves (.wcntAdd t st h c inc d3) 1 inc ∧ serves (.wcntReset t st h c d3) 2 0

/-- A counter port serves one request a cycle: the oldest that waits, else a die-to-die request before a mesh
request; the rest wait in that order. A tile of the port's die reaches it over the mesh, one of the other die over the
die-to-die path, and only a WCNT in flight that still waits makes a request. The counter and the answer are what R261
writes, and a READ never answers EXHAUSTED (R24, R261, R262). -/
def Obligations.CounterPortServesOne : Prop :=
  ∀ (s : State) (d : Fin 2) (d2d mesh rest : List WcReq) (r : WcReq), Shape s →
    (fenOf s d).portQ ++ (d2d.filter fun q => decide (q.tile / 256 ≠ d.val) && counterLive s d q).eraseDups ++
      (mesh.filter fun q => decide (q.tile / 256 = d.val) && counterLive s d q).eraseDups = r :: rest →
    ∃ u, exec (.workCounterRequest d d2d mesh) s = .next u ∧ (fenOf u d).portQ = rest ∧
      (∃ v, CounterRule r.op r.inc (tget {} (fenOf s d).wcs (r.counter % 256)) (tget {} (fenOf u d).wcs (r.counter % 256)) v ∧
        ((flightOf (tileAt s r.tile) r.tag).isSome → resultReg (tileAt u r.tile) r.stream r.dst3 = v) ∧
        (let c := tget {} (fenOf s d).wcs (r.counter % 256)
         r.op = 0 → c.val.toNat ≤ c.limit.toNat → c.limit.toNat ≤ 0xFFFFFFFE → v ≠ 0xFFFFFFFF)) ∧
      (∀ k, k ≠ r.counter % 256 → tget {} (fenOf u d).wcs k = tget {} (fenOf s d).wcs k) ∧
      (∀ k, k ≠ r.tile → tileAt u k = tileAt s k)

/-! ## Tile instructions: macros, update engine, sparse engine, DMA -/

/-- CPASS and TPASS with row descriptors that meet R33 queue one pass for each row and member at its macro, and hold
their tag until all are done; no data moves at issue. A row descriptor that breaks R33 ends them with their format fault,
an uncorrectable error of the chain half they read with 0x2102 (R33, R79, R251, R283, R298). -/
def Obligations.PassRowsQueue : Prop :=
  ∀ (s : State) (t : Fin 256) (st : Fin 32) (h : Hdr) (o : PassOp) (e : List WordErr) (tag : Nat) (tr : Bool),
    let i : Instr := if tr then .tpass t st h o e else .cpass t st h o e
    let op : TileInstr := if tr then .tpass o else .cpass o
    CanIssue s t st h op tag →
    let x := entered s t st h op tag
    let c := chainEcc x (readPattern x.plan o.pat) e
    let desc (k : Nat) : RowDesc := readDesc c.1.tsp (tbyte o.desc + 8 * k)
    (c.2 = false → (∀ k, k < o.h + 1 → (desc k).ok = true) →
      ∃ u js, passJobs c.1 tr o tag (orderOf (tileOf s t) st) = some js ∧ js.length = (o.h + 1) * (readGroup x.plan o.grp).mem.length ∧
        exec i s = .next u ∧ IssuedAt s u t op ∧
        tileOf u t = stampSingles s.now (modFlight (queuePasses c.1 js) tag (fun f => { f with left := js.length })) ∧
        (tileOf u t).tsp = c.1.tsp ∧ (tileOf u t).acm = (tileOf s t).acm ∧ (tileOf u t).pages = (tileOf s t).pages ∧
        ∃ f, flightOf (tileOf u t) tag = some f ∧ f.left = js.length ∧ f.code = 0) ∧
    (c.2 = false → (∃ k, k < o.h + 1 ∧ (desc k).ok = false) →
      ∃ u, exec i s = .next u ∧ IssuedAt s u t op ∧
        Ended (tileOf u t) tag (if tr then 0x5411 else 0x5410) false ∧ (tileOf u t).acm = (tileOf s t).acm) ∧
    (c.2 = true → ∃ u, exec i s = .next u ∧ IssuedAt s u t op ∧ Ended (tileOf u t) tag 0x2102 false ∧
      (tileOf u t).acm = (tileOf s t).acm ∧ (tileOf u t).macros = (tileOf s t).macros)

/-- PGWR queues a page write for each member at its macro's page port; UPD with a hyperparameter record that meets R183
queues its pages at the update engine and at the page ports, and a record that breaks R183 ends it with its format fault.
No page and no TSP byte moves at issue (R90, R92, R95, R181, R183, R195). -/
def Obligations.PageRowsQueue : Prop :=
  ∀ (s : State) (t : Fin 256) (st : Fin 32) (h : Hdr) (tag : Nat),
    let same (u : State) (op : TileInstr) : Prop :=
      IssuedAt s u t op ∧ (tileOf u t).tsp = (tileOf s t).tsp ∧ (tileOf u t).pages = (tileOf s t).pages ∧
        (tileOf u t).acm = (tileOf s t).acm
    (∀ o : PgwrOp, CanIssue s t st h (.pgwr o) tag → let x := entered s t st h (.pgwr o) tag
      let js := pgwrOps x o tag (orderOf (tileOf s t) st)
      js.length = (readGroup x.plan o.grp).mem.length ∧
      ∃ u, exec (.pgwr t st h o) s = .next u ∧ same u (.pgwr o) ∧
        tileOf u t = stampSingles s.now (modFlight (queuePort x js) tag (fun f => { f with left := js.length })) ∧
        ∃ f, flightOf (tileOf u t) tag = some f ∧ f.left = js.length ∧ f.code = 0) ∧
    (∀ o : UpdOp, CanIssue s t st h (.upd o) tag → let x := entered s t st h (.upd o) tag
      let us := updPages x o tag (orderOf (tileOf s t) st)
      ((hyperOf (mread (tileOf s t).tsp (tbyte o.hyp) 64)).ok = true →
        ∃ u, exec (.upd t st h o) s = .next u ∧ same u (.upd o) ∧ (tileOf u t).updQ = (tileOf s t).updQ ++ us ∧
          (tileOf u t).macros = (queueUpd x us).macros ∧ ∃ f, flightOf (tileOf u t) tag = some f ∧ f.left = us.length ∧ f.code = 0) ∧
      ((hyperOf (mread (tileOf s t).tsp (tbyte o.hyp) 64)).ok = false →
        ∃ u, exec (.upd t st h o) s = .next u ∧ same u (.upd o) ∧ (tileOf u t).updQ = (tileOf s t).updQ ∧
          Ended (tileOf u t) tag 0x5414 false))

/-- PGRD of a group with one member whose macro is in service and whose page port is idle reads the page at once: the codes
and the exponent word stand at img, the page and every other TSP byte are as before, and no work is left; each corrected
codeword is counted. An uncorrectable one reads nothing, is counted, and ends it with 0x2002. Where the page ports of all
members are busy, one read for each member waits there (R94, R96, R101, R284). That the copy stands at once, and what corrected
and uncorrectable reads do, is the model's choice (logs 27, 41, 48). -/
def Obligations.PageReadCopiesThePage : Prop :=
  ∀ (s : State) (t : Fin 256) (st : Fin 32) (h : Hdr) (o : PgrdOp) (e : List PageErr) (tag : Nat),
    CanIssue s t st h (.pgrd o) tag →
    let x := tileOf s t
    let port (m : Member) : Nat := physMacro x.ret m.lm
    let mine := (e.filter fun y => decide (y.member = 0)).map (·.ecc)
    let issues (P : Tile → Prop) : Prop :=
      ∃ u, exec (.pgrd t st h o e) s = .next u ∧ IssuedAt s u t (.pgrd o) ∧ (tileOf u t).pages = x.pages ∧ (tileOf u t).acm = x.acm ∧ P (tileOf u t)
    (∀ m, (readGroup x.plan o.grp).mem = [m] → (macroOf x (port m)).portQ = [] → (macroOf x (port m)).stage = none →
      outOfService x (port m) = false → (∀ y ∈ e, eccWrong y.ecc = false) → issues fun v =>
        v.err.macroCe = errAdd x.err.macroCe (mine.filter fun c => decide (c = .single)).length ∧
        (.double ∉ mine → Ended v tag 0 false ∧
          mread v.tsp (tbyte o.img) 1088 = mread (pageOf x (port m) o.page).codes 0 1024 ++ mread (pageOf x (port m) o.page).exps 0 64 ∧
          ∀ a, a < tbyte o.img ∨ tbyte o.img + 1088 ≤ a → mget v.tsp a = mget x.tsp a) ∧
        (.double ∈ mine → Ended v tag 0x2002 false ∧ v.tsp = x.tsp ∧
          v.err.macroUe = errAdd x.err.macroUe (mine.filter fun c => decide (c = .double)).length)) ∧
    ((∀ m ∈ (readGroup x.plan o.grp).mem, (macroOf x (port m)).stage ≠ none) → issues fun v =>
      v.tsp = x.tsp ∧ v.err = x.err ∧
      (∀ pm, (macroOf v pm).portQ = (macroOf x pm).portQ ++ ((pgrdOps x o tag (orderOf x st) e).filter fun j => decide (j.1 = pm)).map (·.2)) ∧
      ∃ f, flightOf v tag = some f ∧ f.left = (readGroup x.plan o.grp).mem.length ∧ f.code = 0)

/-- The three SPMAC forms with row descriptors that meet R33 queue their exact partials for the sparse port, in the order
of R210 to R222, one outstanding part each; the ACM, the TSP and, where every store codeword reads right, the sparse store
do not move. A descriptor that breaks R33 ends them with their format fault, an uncorrectable store read ends SW with
0x2301 (R33, R201, R203). That a window or chunk that breaks its rule ends the SPMAC only when it is taken is the model's choice
(log 40). -/
def Obligations.SparseMacRowsQueue : Prop :=
  ∀ (s : State) (t : Fin 256) (st : Fin 32) (h : Hdr) (tag : Nat),
    let same (u : State) (op : TileInstr) : Prop :=
      IssuedAt s u t op ∧ (tileOf u t).tsp = (tileOf s t).tsp ∧ (tileOf u t).acm = (tileOf s t).acm
    let queues (i : Instr) (op : TileInstr) (ps : List SparsePart) : Prop :=
      ∃ u, exec i s = .next u ∧ same u op ∧ (tileOf u t).sparseQ = (tileOf s t).sparseQ ++ ps ∧
        ∃ f, flightOf (tileOf u t) tag = some f ∧ f.left = ps.length ∧ f.code = 0
    let ends (i : Instr) (op : TileInstr) (code : Nat) : Prop :=
      ∃ u, exec i s = .next u ∧ same u op ∧ (tileOf u t).sparseQ = (tileOf s t).sparseQ ∧ Ended (tileOf u t) tag code false
    let descs (desc h : Nat) : List RowDesc := (List.range (h + 1)).map fun k => readDesc (tileOf s t).tsp (tbyte desc + 8 * k)
    (∀ (o : SwOp) (tr : Bool) (e : List WordErr), CanIssue s t st h (.spmacSw tr o) tag →
      let y := (spsEcc (entered s t st h (.spmacSw tr o) tag) e).1
      let i : Instr := if tr then .spmacSwTransposed t st h o e else .spmacSwForward t st h o e
      let ds := descs o.desc o.h
      ((∀ d ∈ ds, d.ok = true) → (∀ w ∈ e, w.ecc ≠ .double) →
        queues i (.spmacSw tr o) (if tr then swTransposed y o tag ds else swForward y o tag ds)) ∧
      ((∀ d ∈ ds, d.ok = true) → (∃ w ∈ e, w.ecc = .double) → ends i (.spmacSw tr o) 0x2301) ∧
      ((∃ d ∈ ds, d.ok = false) → ends i (.spmacSw tr o) 0x5430) ∧
      (wrongWords e = [] → ∀ u, exec i s = .next u → (tileOf u t).sps = (tileOf s t).sps ∧ (tileOf u t).spx = (tileOf s t).spx)) ∧
    (∀ o : SaOp, CanIssue s t st h (.spmacSa o) tag →
      let x := entered s t st h (.spmacSa o) tag
      let ds := descs o.desc o.h
      ((∀ d ∈ ds, d.ok = true) → queues (.spmacSa t st h o) (.spmacSa o) (saWork x o tag ds).1) ∧
      ((∃ d ∈ ds, d.ok = false) → ends (.spmacSa t st h o) (.spmacSa o) 0x5430) ∧
      ∀ u, exec (.spmacSa t st h o) s = .next u → (tileOf u t).sps = (tileOf s t).sps ∧ (tileOf u t).spx = (tileOf s t).spx)

/-- DMA LOAD, STORE and FLUSH of a range that is granted and need not wait move their data and end. LOAD brings into the
TSP at taddr the bytes the range holds, and changes no other TSP byte; what STORE takes from the TSP is what a tile then
reads of the range, and no byte outside it moves where it passes by the cache; FLUSH brings every dirty sector of the range
to LPDDR5X and leaves the others dirty. A range that must wait for a channel, or behind a DMA of its DMA channel, waits. A
range outside the job's grant, or a Fen bank that refuses it, ends the row with its access fault, and no byte moves (R253,
R255, R256, R279, R281, R400). That the data moves at issue, or when the wait ends, is the model's choice (logs 41, 48). -/
def Obligations.DmaRowsMove : Prop :=
  ∀ (s : State) (t : Fin 256) (st : Fin 32) (h : Hdr) (o : DmaOp) (tag : Nat), Shape s → CanIssue s t st h (.dma 0 o) tag →
    let x := tileOf s t
    let p := partOf s t
    let n := 32 * (o.len + 1)
    let a := dmaAddr (streamOf x st) o
    let src := mread x.tsp (tbyte o.taddr) n
    let kept (u : State) : Prop := u.jobs = s.jobs ∧ (tileOf u t).acm = x.acm ∧ (tileOf u t).pages = x.pages ∧
      ∀ k, k ≠ physTile s t → tileAt u k = tileAt s k
    (accessFault s p a n = 0 →
      (dmaWaits s t o.ch 0 a n = false → ∃ u, exec (.dmaLoad t st h o []) s = .next u ∧ kept u ∧ Ended (tileOf u t) tag 0 false ∧
        mread (tileOf u t).tsp (tbyte o.taddr) n = tilePeek u p a n ∧
        (∀ k, k < tbyte o.taddr ∨ tbyte o.taddr + n ≤ k → mget (tileOf u t).tsp k = mget x.tsp k) ∧
        ((∀ y ∈ sectorsOf a n, ∀ d, placeOf s p y = .cached d → sectorValid s y = true) →
          tilePeek u p a n = tilePeek s p a n ∧ u.mem = s.mem ∧ u.cache = s.cache)) ∧
      (dmaWaits s t o.ch 1 a n = false → ∃ u, exec (.dmaStore t st h o []) s = .next u ∧ kept u ∧ Ended (tileOf u t) tag 0 false ∧
        (tileOf u t).tsp = x.tsp ∧
        ((∀ y ∈ sectorsOf a n, isFen y = false → waitsAt s y = false) → tilePeek u p a n = src) ∧
        ((∀ y ∈ sectorsOf a n, placeOf s p y = .memory) →
          u.cache = s.cache ∧ mread u.mem a n = src ∧ ∀ k, k < a ∨ a + n ≤ k → mget u.mem k = mget s.mem k) ∧
        ((∀ y ∈ sectorsOf a n, isFen y = true) → u.mem = s.mem ∧ u.cache = s.cache)) ∧
      (dmaWaits s t o.ch 4 a n = false → ∃ u, exec (.dmaFlush t st h o []) s = .next u ∧ kept u ∧ Ended (tileOf u t) tag 0 false ∧
        (tileOf u t).tsp = x.tsp ∧
        (∀ y ∈ sectorsOf a n, sectorDirty s y = true → waitsAt s y = false →
          sectorDirty u y = false ∧ mread u.mem y 32 = mread (tget {} s.cache (y / 128)).data (y % 128) 32) ∧
        ∀ k, 32 * k ∉ sectorsOf a n → sectorDirty u (32 * k) = sectorDirty s (32 * k)) ∧
      (∀ e, dmaWaits s t o.ch 0 a n = true → ∃ u w, exec (.dmaLoad t st h o e) s = .next u ∧ u.waits = s.waits ++ [w] ∧ w.tag = tag ∧
        w.pt = physTile s t ∧ w.fn = 0 ∧ w.addr = a ∧ w.n = n ∧ (tileOf u t).tsp = x.tsp ∧
        ∃ f, flightOf (tileOf u t) tag = some f ∧ f.left = 1 ∧ f.code = 0)) ∧
    (accessFault s p a n ≠ 0 → ∀ e,
      ∀ i ∈ [Instr.dmaLoad t st h o e, Instr.dmaStore t st h o e, Instr.dmaAdd t st h o e, Instr.dmaFlush t st h o e],
        ∃ u, exec i s = .next u ∧ IssuedAt s u t (.dma 0 o) ∧ Ended (tileOf u t) tag (accessFault s p a n) false ∧
          (tileOf u t).tsp = x.tsp)

/-- DMA ADD of a granted range in cached regions or the Fen hands one near-memory add for each 32-byte sector to the bank
ports of the die that holds it, and a range with another sector ends it with 0x8408; DMA TT hands its lines, the last with
the semaphore to add to, to the destination tile; either waits behind a DMA of its channel that waits. DMA SEND enters the transport engine behind the partition's others. The
row's own TSP does not move (R176 to R178, R239, R279, R280, R422). -/
def Obligations.DmaRowsHandOver : Prop :=
  ∀ (s : State) (t : Fin 256) (st : Fin 32) (h : Hdr) (tag : Nat), Shape s →
    let x := tileOf s t
    let p := partOf s t
    (∀ o : DmaOp, CanIssue s t st h (.dma 2 o) tag →
      let n := 32 * (o.len + 1)
      let a := dmaAddr (streamOf x st) o
      let near := (sectorsOf a n).all fun k => isFen k || (homeDie s p k).isSome
      let die (k : Nat) : Nat := if isFen k then fenDieOf k else (homeDie s p k).getD 0
      let adds (d : Nat) : List NearAdd := ((sectorsOf a n).filter fun k => decide (die k = d)).map fun k =>
        { tile := physTile s t, tag := tag, addr := k, bf16 := decide (o.afmt = 1), xs := mread x.tsp (tbyte o.taddr + (k - a)) 32 }
      (accessFault s p a n = 0 → near = true → dmaWaits s t o.ch 2 a n = false →
        ∃ u, exec (.dmaAdd t st h o []) s = .next u ∧ (∀ d, d < 2 → fenOf u d = { fenOf s d with adds := (fenOf s d).adds ++ adds d }) ∧
          (∃ f, flightOf (tileOf u t) tag = some f ∧ f.left = n / 32 ∧ f.code = 0) ∧
          (tileOf u t).tsp = x.tsp ∧ u.mem = s.mem ∧ u.cache = s.cache ∧ u.jobs = s.jobs) ∧
      (accessFault s p a n = 0 → near = false →
        ∃ u, exec (.dmaAdd t st h o []) s = .next u ∧ IssuedAt s u t (.dma 2 o) ∧ Ended (tileOf u t) tag 0x8408 false) ∧
      (let dt := physTile s (if s.split then 128 * p + o.dtile % 128 else o.dtile)
       (dmaWaits s t o.ch 3 a n = true → ∃ u w, exec (.dmaTt t st h o) s = .next u ∧ u.waits = s.waits ++ [w] ∧ w.fn = 3 ∧
         w.tag = tag ∧ w.pt = physTile s t ∧ ∃ f, flightOf (tileOf u t) tag = some f ∧ f.left = 1 ∧ f.code = 0) ∧
       (dmaWaits s t o.ch 3 a n = false → ∃ u, exec (.dmaTt t st h o) s = .next u ∧ u = { s with tiles := u.tiles, bal := u.bal } ∧ (tileOf u t).tsp = x.tsp ∧
         (∃ as, (tileAt u dt).arrivals = (tileAt s dt).arrivals ++ as ∧ as.length = (n + 255) / 256 ∧
           as.flatMap (·.bytes) = mread x.tsp (tbyte o.taddr) n ∧ (tileAt u dt).tsp = (tileAt s dt).tsp ∧
           ∀ k y, as[k]? = some y → y.addr = tbyte (o.dev % 2 ^ 14) + 256 * k ∧ y.rsem = (if o.rsig then some o.rsem else none) ∧
             (y.last = true ↔ k + 1 = as.length)) ∧
         (∃ f, flightOf (tileOf u t) tag = some f ∧ f.left = (n + 255) / 256) ∧
         ∀ k, k ≠ dt → k ≠ physTile s t → tileAt u k = tileAt s k))) ∧
    (∀ o : SendOp, CanIssue s t st h (.send o) tag →
      ∃ u, exec (.dmaSend t st h o) s = .next u ∧ u = { s with tiles := u.tiles, jobs := u.jobs, bal := u.bal } ∧
      (tileOf u t).tsp = x.tsp ∧ (jobOf u p).sends.length = (jobOf s p).sends.length + 1 ∧
      (∃ e, (jobOf u p).sends.getLast? = some e ∧ e.tile = physTile s t ∧ e.tag = tag ∧ e.o = o ∧ e.sent = 0 ∧ e.acked = 0) ∧
      (∃ f, flightOf (tileOf u t) tag = some f ∧ f.left = 1 ∧ f.code = 0) ∧ jobOf u (1 - p) = jobOf s (1 - p))

/-! ## Issue, completion and the TSP lanes -/

/-- The issue unit takes, of the ready pending instructions, the one of the lowest stream at or above its pointer, and
with none there the lowest stream of all. Issue moves the stream past its instruction, counts it, moves the pointer past the
stream and enters the next instruction in the scoreboard with its claims; no other stream moves. A tag taken is the lowest
free one of the 64 (R301 to R303). -/
def Obligations.IssuePicksRoundRobin : Prop :=
  ∀ x : Tile,
    (∀ p : Pending, pick x = some p →
      p ∈ pendings x ∧ ready x (pendings x) p = true ∧
      ∀ q ∈ pendings x, ready x (pendings x) q = true →
        (x.rr ≤ p.st ∧ (x.rr ≤ q.st → p.st ≤ q.st)) ∨ (p.st < x.rr ∧ q.st < x.rr ∧ p.st ≤ q.st)) ∧
    (∀ k : Nat,
      advance x k = { x with streams := (advance x k).streams, stat := { x.stat with issued := x.stat.issued.add 1 },
                             rr := (k + 1) % 32, entries := x.entries + 1 } ∧
      streamOf (advance x k) k =
        { streamOf x k with pc := (streamOf x k).pc + 1, entry := some x.entries, claims := (streamOf (advance x k) k).claims } ∧
      (∀ d, decodeTile (wordAt x { streamOf x k with pc := (streamOf x k).pc + 1 }) = some d →
        (streamOf (advance x k) k).claims = entryClaims
          (setStream { x with stat := { x.stat with issued := x.stat.issued.add 1 }, rr := (k + 1) % 32 } k
            { streamOf x k with pc := (streamOf x k).pc + 1, entry := none }) x.entries k d.1 d.2) ∧
      ∀ j, j ≠ k → streamOf (advance x k) j = streamOf x j) ∧
    ∀ n : Nat, freeTag x = some n → n < 64 ∧ flightOf x n = none ∧ ∀ m, m < n → flightOf x m ≠ none

/-- ISSUE on a released, running tile in an issue cycle of its duty, without NOP holds, issues the picked instruction where
the ramp limiter lets it, corrected errors of its word counted. An uncorrectable error issues nothing, is counted and halts
the tile with 0x2501. With nothing ready, or a gate closed, nothing issues; halted or not released, the block stands. The
control-logic check of the cycle halts the tile with 0xF501 (R295, R303, R316, R327, R363, R372, R477). -/
def Obligations.IssueRowIssues : Prop :=
  ∀ (s : State) (t : Fin 256) (e : List WordErr) (r : ReadErrs), r.done = [] → let x := tileOf s t
    (r.logic = true → x.fault.valid = false →
      ∃ u, exec (.issue t e r) s = .next u ∧ (tileOf u t).halted = true ∧ (tileOf u t).fault.code = 0xF501) ∧
    (r.logic = false → x.halted = true ∨ x.released = false → exec (.issue t e r) s = .next s) ∧
    (r.logic = false → x.halted = false → x.released = true →
      (∀ k, k < 32 → (streamOf x k).hold = 0 ∧ ∀ n, (streamOf x k).entry = some n → n < x.entries) →
      (∀ p, pick x = some p → dutyOpen s t = true → rampOpen s t (gatedOp x p.st p.h p.op) = true →
        ((∀ w ∈ e, w.ecc = .single) →
          let y := stampSingles s.now (noteSingles { x with err := { x.err with istCe := errAdd x.err.istCe e.length } } 4 e.length)
          let c := issueCore (noteIssue (setTile s (physTile s t) y) t (gatedOp x p.st p.h p.op)) t p.st p.h p.op (streamOf x p.st).claims r
          c.2 = [] → ∃ u, exec (.issue t e r) s = .next u ∧ u = { c.1 with tiles := u.tiles, bal := u.bal } ∧
            (∀ k, k ≠ physTile s t → tileAt u k = tileAt c.1 k) ∧
            tileOf u t = { tileOf c.1 t with streams := (tileOf u t).streams } ∧
            ∀ k, streamOf (tileOf u t) k = streamOf (tileOf c.1 t) k) ∧
        ((∃ w ∈ e, w.ecc = .double) → ∃ u, exec (.issue t e r) s = .next u ∧ (tileOf u t).halted = true ∧
          (tileOf u t).err.istUe = errAdd x.err.istUe (e.filter fun w => decide (w.ecc = .double)).length ∧
          (tileOf u t).stat = x.stat ∧ (x.fault.valid = false → (tileOf u t).fault.code = 0x2501))) ∧
      ((∀ p, pick x = some p → dutyOpen s t = false ∨ rampOpen s t (gatedOp x p.st p.h p.op) = false) →
        ∃ u, exec (.issue t e r) s = .next u ∧ u = { s with tiles := u.tiles, bal := u.bal } ∧
          (∀ k, k ≠ physTile s t → tileAt u k = tileAt s k) ∧ tileOf u t = x))

/-- An instruction with no work left, no line left to fetch and no result line that stalls completes. Without a fault its tag
is freed, a flagged one is counted, the cycles that an SA SPMAC is ahead are counted, and a set sig bit adds 1 to its semaphore;
nothing else of the block moves, but for the entries that an UPD rewrites: of each channel for which it changed a block exponent
the entry becomes the largest exponent over that channel's blocks of the UPD, which is then flagged (R192, R193). With a fault
code its tag is freed, the tile halts, the first fault record names its stream, tag and index, and a job that can fault ends
FAULTED with the code. With work left, or no such tag, nothing moves (R222, R241, R310, R313 to R316, R318, R471). That an
instruction's results stand from its issue on, and its completion alone reports them, is the model's choice (logs 2, 41). -/
def Obligations.CompletionFreesTheTag : Prop :=
  ∀ (s : State) (t : Fin 256) (tag : Fin 64), Shape s →
    let x := tileOf s t
    let idle (f : Flight) : Prop := semOf x f.h.sem + sigAt f.h f.h.sem ≤ 0xFFFF ∧ (∀ l ∈ x.fetching, l.entry ≠ f.order) ∧
      ∀ q ∈ x.wstall, q.req.entry = f.order → q.req.master = .mesh ∨ q.req.master = .maint
    let frees (u : State) (f : Flight) : Prop := OnlyTile s u (physTile s t) ∧
      flightOf (tileOf u t) tag = none ∧ (∀ k, k ≠ tag.val → flightOf (tileOf u t) k = flightOf x k) ∧
      (tileOf u t).stat.saSave = x.stat.saSave.add f.save ∧
      (∀ k, semOf (tileOf u t) k = semOf x k + sigAt f.h k) ∧ (tileOf u t).acm = x.acm ∧
      (tileOf u t).pages = x.pages ∧ (tileOf u t).streams = x.streams ∧ (tileOf u t).halted = x.halted
    (∀ f, flightOf x tag = some f → f.left = 0 →
      ((∀ o, f.op ≠ .upd o) → f.code = 0 → idle f → ∃ u, exec (.instructionComplete t tag []) s = .next u ∧ frees u f ∧
        (tileOf u t).tsp = x.tsp ∧ (tileOf u t).stat.flagged = (if f.flagged then x.stat.flagged.add 1 else x.stat.flagged)) ∧
      (∀ o, f.op = .upd o → f.code = 0 → idle f →
        let d := readUDesc x.plan o.udesc
        let mine (tr : Bool) (i : Nat) (q : UpdPub) : Prop := q ∈ x.updPub ∧ q.tag = tag ∧ q.transposed = tr ∧ q.index = i
        let changed (tr : Bool) (i : Nat) : Prop := ∃ q, mine tr i q ∧ q.changed = true
        let entry (tr : Bool) (i : Nat) : Nat := tbyte (if tr then d.treft else d.eref) + i
        ∃ u, exec (.instructionComplete t tag []) s = .next u ∧ frees u f ∧
          ((∃ tr i, changed tr i) → (tileOf u t).stat.flagged = x.stat.flagged.add 1) ∧
          ((∀ tr i, ¬ changed tr i) → (tileOf u t).stat.flagged = x.stat.flagged) ∧
          (∀ a, (∀ tr i, changed tr i → entry tr i ≠ a) → mget (tileOf u t).tsp a = mget x.tsp a) ∧
          ∀ tr i, changed tr i → (∀ tr' i', changed tr' i' → entry tr' i' = entry tr i → tr' = tr ∧ i' = i) →
            ∃ q, mine tr i q ∧ (∀ r, mine tr i r → r.val ≤ q.val) ∧ mget (tileOf u t).tsp (entry tr i) = BitVec.ofNat 8 q.val) ∧
      (0 < f.code → f.code < 0x10000 →
        ∃ u, exec (.instructionComplete t tag []) s = .next u ∧ flightOf (tileOf u t) tag = none ∧
          (tileOf u t).halted = true ∧ (∀ k, semOf (tileOf u t) k = semOf x k) ∧
          (x.fault.valid = false → (tileOf u t).fault =
            { valid := true, code := BitVec.ofNat 16 f.code, stream := BitVec.ofNat 5 f.stream, tag := BitVec.ofNat 6 tag,
              index := BitVec.ofNat 12 f.pc, lm := f.lm, pm := f.pm }) ∧
          (faultable (jobOf s (partOf s t)).state = true →
            (jobOf u (partOf s t)).state = .faulted ∧ (jobOf u (partOf s t)).code = BitVec.ofNat 16 f.code ∧
            (jobOf u (partOf s t)).outcome = 2))) ∧
    ((∀ f, flightOf x tag = some f → 0 < f.left ∨ (f.code = 0 ∧ ∃ l ∈ x.fetching, l.entry = f.order)) →
      ∃ u, exec (.instructionComplete t tag []) s = .next u ∧ OnlyTile s u (physTile s t) ∧ tileOf u t = x)

/-- A read lane's cycle serves, of the lines that fetch units ask for, the winner's: it enters the fetch buffer of a pending
instruction, or goes to the issued one that still waits for it. A write lane's cycle takes one posted line out of its write
buffer, and the first line of its master that stalls takes its place; a scrub marks its line. Each works on the bank group
that its lane reaches in the cycle. Corrected codewords are counted. An uncorrectable one is counted and halts the tile with
0x2101; where the merge of a write meets it, the write is not made and the line's other bytes stay as stored: that this takes
in the line's whole codewords is the model's choice (log 159), as is that results stand in the TSP from issue on (logs 41, 48). No
other TSP byte and no accumulator tile moves (R236, R238 to R244, R251, R306). -/
def Obligations.LaneRowsServeOneLine : Prop :=
  ∀ (s : State) (t : Fin 256) (c : Nat) (l : Fin 8) (rs : List LaneReq) (line : Fin 3072),
    let x := tileOf s t
    let g := laneGroup c l
    let clean (i : Instr) (n : Nat) (P : Tile → Prop) : Prop :=
      ∃ u, exec i s = .next u ∧ OnlyTile s u (physTile s t) ∧ (tileOf u t).tsp = x.tsp ∧ (tileOf u t).acm = x.acm ∧
        (tileOf u t).halted = x.halted ∧ (tileOf u t).err.tspUe = x.err.tspUe ∧
        (tileOf u t).err.tspCe = errAdd x.err.tspCe n ∧ P (tileOf u t)
    let corrected (e : List WordErr) : Prop := ∀ w ∈ e, w.ecc = .single
    let dead (i : Instr) (m : Mem) (bad : Nat → Prop) : Prop :=
      ∃ u, exec i s = .next u ∧ (tileOf u t).halted = true ∧ (tileOf u t).err.tspUe = errAdd x.err.tspUe 1 ∧
        (x.fault.valid = false → (tileOf u t).fault.code = 0x2101) ∧
        (faultable (jobOf s (partOf s t)).state = true → (jobOf u (partOf s t)).state = .faulted ∧ (jobOf u (partOf s t)).code = 0x2101) ∧
        (faultable (jobOf s (partOf s t)).state = false → (tileOf u t).acm = x.acm ∧ ∀ a, ¬ bad a → mget (tileOf u t).tsp a = mget m a)
    let cands := rs.filter (wanted x)
    (∀ w, (serve readLane l g cands).1 = some w →
      w ∈ rs ∧ wanted x w = true ∧ w.line % 8 = g ∧ (readLane w.master).1 = l ∧
      (∀ e, corrected e → clean (.tspLineFetch t c l rs e) e.length fun y =>
        if w ∈ x.fetching then w ∉ y.fetching ∧ (∀ k, k ≠ w → (k ∈ y.fetching ↔ k ∈ x.fetching)) ∧ y.fbuf = x.fbuf
        else y.fbuf = x.fbuf ++ [w] ∧ y.fetching = x.fetching) ∧
      dead (.tspLineFetch t c l rs [{ ecc := .double }]) x.tsp fun _ => False) ∧
    ((serve readLane l g cands).1 = none → ∀ e, ∃ u, exec (.tspLineFetch t c l rs e) s = .next u ∧
      OnlyTile s u (physTile s t) ∧ tileOf u t = stampSingles s.now x) ∧
    (∀ w, (serve writeLane l g (x.wbuf.map (·.req))).1 = some w → ∃ q, x.wbuf.find? (fun p => decide (p.req = w)) = some q ∧
      w.line % 8 = g ∧ (writeLane w.master).1 = l ∧
      (∀ e, corrected e → clean (.tspWriteLine t c l e) (e.filter fun k => q.part.contains k.word).length fun y =>
        y.wbuf = x.wbuf.erase q ++ (x.wstall.find? fun p => decide (p.req.master = w.master)).toList) ∧
      ∀ k, k < 32 → q.part.contains k = true →
        dead (.tspWriteLine t c l [{ word := k, ecc := .double }]) (q.old.foldl (fun m o => mwrite m (256 * w.line + o.1) [o.2]) x.tsp)
          fun a => a / 8 = 32 * w.line + k) ∧
    (∀ e, corrected e → clean (.tspScrubLine t line e) e.length fun y => line.val ∈ y.swept) ∧
    dead (.tspScrubLine t line [{ ecc := .double }]) x.tsp fun _ => False

/-- A line of another tile's DMA TT arrives while the write buffer of the mesh arrivals has room: its bytes stand at its
address and every other byte is as before; the last line adds 1 to the semaphore it names; the sender's instruction has one
line less to wait for. With the buffer full it stalls (R239, R241, R279, R310). -/
def Obligations.MeshArrivalDelivers : Prop :=
  ∀ (s : State) (t : Fin 256) (a : Arrival) (rest : List Arrival), let x := tileOf s t
    x.arrivals = a :: rest →
    (a.srcTile ≠ physTile s t → bufferedOf x .mesh + (arrivalLines x a).length ≤ 16 →
    (∀ k, a.last = true → a.rsem = some k → semOf x k < 0xFFFF) →
    ∃ u, exec (.meshArrival t) s = .next u ∧ u = { s with tiles := u.tiles } ∧ (tileOf u t).arrivals = rest ∧
      mread (tileOf u t).tsp a.addr a.bytes.length = a.bytes ∧
      (∀ k, k < a.addr ∨ a.addr + a.bytes.length ≤ k → mget (tileOf u t).tsp k = mget x.tsp k) ∧
      (∀ k, semOf (tileOf u t) k = semOf x k + if a.last = true ∧ a.rsem = some k then 1 else 0) ∧
      (∀ f, flightOf (tileAt s a.srcTile) a.srcTag = some f →
        flightOf (tileAt u a.srcTile) a.srcTag = some { f with left := f.left - 1 }) ∧
      (∀ k, k ≠ physTile s t → k ≠ a.srcTile → tileAt u k = tileAt s k)) ∧
    (16 < bufferedOf x .mesh + (arrivalLines x a).length → exec (.meshArrival t) s = .next s)

/-! ## The macro: passes, the ABFT check, accumulation -/

/-- Each CPASS result is the exact sum of (q − z)·w over the 32 rows, at most 1,036,320 in magnitude in W8 and 57,120 in
W4, so 24 bits hold it; each TPASS result is the exact sum over the page's columns, at most 114,240 in W4 (R80, R84). -/
def Obligations.PassResultsExact : Prop :=
  ∀ (p : Page) (j : PassJob), (∀ i, nth 0 j.codes i < 256) → j.z < 256 →
    (∀ r c, r < 32 → c < p.ncols → (p.wt r c).natAbs ≤ if p.w4 then 7 else 127) →
    let res := (passResults p.resum j).1
    (j.transposed = false → ∀ c, c < p.ncols → nth 0 res c = sumToI 32 (fun r => (j.code r - (j.z : Int)) * p.wt r c) ∧
      (nth 0 res c).natAbs ≤ (if p.w4 then 57120 else 1036320) ∧ -2 ^ 23 ≤ nth 0 res c ∧ nth 0 res c < 2 ^ 23) ∧
    (j.transposed = true → ∀ r, r < 32 → nth 0 res r = sumToI p.ncols (fun c => (j.code c - (j.z : Int)) * p.wt r c) ∧
      (nth 0 res r).natAbs ≤ (if p.w4 then 114240 else 1036320) ∧ -2 ^ 23 ≤ nth 0 res r ∧ nth 0 res r < 2 ^ 23)

/-- The ABFT check (R98). The sum of all results, 64 of a CPASS on a W4 page and 32 else, is compared with what the
checksum column (CPASS) or the block-sum row (TPASS) forms, exactly, over 27-bit two's-complement values: an undisturbed
pass on a page whose sums are those of its codes meets it, and one disturbed result breaks it unless its error is a multiple of
2^27. Equal values make the register eligible and count one check passed; different ones freeze the macro, stop the tile's
issue at once and end the pass with the compute fault 0x1001 (CPASS) or 0x1002 (TPASS), and its results stay in the output
register (R100). -/
def Obligations.AbftCheckCompares : Prop :=
  (∀ (p : Page) (j : PassJob), (passResults p j).1.length = (if j.transposed = false ∧ p.w4 = true then 64 else 32)) ∧
  (∀ (p : Page) (j : PassJob), ((passResults p.resum j).1).foldl (· + ·) 0 = (passResults p.resum j).2) ∧
  (∀ a b : Int, wrap27 a = wrap27 b ↔ (2 ^ 27 : Int) ∣ a - b) ∧
  (∀ (p : Page) (j : PassJob) (i : Nat) (e : Int), let r := applyUpset (passResults p.resum j) [(i, e)]
    wrap27 (r.1.foldl (· + ·) 0) = wrap27 r.2 ↔ (2 ^ 27 : Int) ∣ e) ∧
  ∀ (s : State) (t : Fin 256) (m : Fin 72) (b : Bool) (o : OutReg) (f : Flight),
    let x := tileOf s t
    let q := macroOf x m
    let reg (y : Tile) : Option OutReg := if b then (macroOf y m).outB else (macroOf y m).outA
    let same (y : Tile) : Prop := y.pages = x.pages ∧ y.acm = x.acm ∧ y.tsp = x.tsp
    reg x = some o → o.eligible = false → q.frozen = false → flightOf x o.job.tag = some f → f.code = 0 →
      (wrap27 (o.res.foldl (· + ·) 0) = wrap27 o.chk → ∃ u, exec (.abftCheck t m b) s = .next u ∧ OnlyTile s u (physTile s t) ∧
        same (tileOf u t) ∧ reg (tileOf u t) = some { o with eligible := true, age := x.ageCtr } ∧
        (tileOf u t).led = x.led.add { abft := 1 } ∧ (tileOf u t).flights = x.flights ∧ (macroOf (tileOf u t) m).frozen = false ∧
        ∀ k, k ≠ m.val → macroOf (tileOf u t) k = macroOf x k) ∧
      (wrap27 (o.res.foldl (· + ·) 0) ≠ wrap27 o.chk →
        ∃ u, exec (.abftCheck t m b) s = .next u ∧ OnlyTile s u (physTile s t) ∧ same (tileOf u t) ∧ reg (tileOf u t) = some o ∧
          (macroOf (tileOf u t) m).frozen = true ∧ (tileOf u t).halted = true ∧
          (∀ k, k ≠ m.val → macroOf (tileOf u t) k = macroOf (dropWork x o.job.tag) k) ∧
          ∃ g, flightOf (tileOf u t) o.job.tag = some g ∧ g.left = 0 ∧ g.pm = m.val ∧ g.code = if o.job.transposed then 0x1002 else 0x1001)

/-- A pass of a macro in service runs through its stages: the head of the queue is latched with its zero-plane mask while
fewer than two are latched and no write is ahead; its results move to output register A, else B, and with both full they
wait. Pages, the ACM, the TSP and the instructions in flight do not move (R79, R85, R86, R106). -/
def Obligations.PassStagesRun : Prop :=
  ∀ (s : State) (t : Fin 256) (m : Fin 72) (up : List (Nat × Int)) (j : PassJob) (rest : List PassJob),
    let x := tileOf s t
    let q := macroOf x m
    let moves (i : Instr) (q' : Macro) (P : Tile → Prop) : Prop :=
      ∃ u, exec i s = .next u ∧ OnlyTile s u (physTile s t) ∧ macroOf (tileOf u t) m = q' ∧
        (∀ k, k ≠ m.val → macroOf (tileOf u t) k = macroOf x k) ∧ (tileOf u t).pages = x.pages ∧
        (tileOf u t).acm = x.acm ∧ (tileOf u t).tsp = x.tsp ∧ P (tileOf u t)
    (q.passQ = j :: rest → outOfService x m = false → q.latched.length < 2 → q.writeAhead j.page j.order = false →
      (j.transposed = true → (pageOf x m j.page).tied = true) →
      moves (.passLatch t m) { q with passQ := rest, latched := q.latched ++
        [{ j with mask := zeroPlaneMask (j.codes.take (if j.transposed then (pageOf x m j.page).ncols else 32)) }] }
        fun y => y.flights = x.flights) ∧
    (q.latched = j :: rest → outOfService x m = false → let r := applyUpset (passResults (pageOf x m j.page) j) up
      (q.outA = none → moves (.passResultsMove t m up)
        { q with latched := rest, outA := some { job := j, res := r.1, chk := r.2 } } fun y => y.flights = x.flights) ∧
      (q.outA ≠ none → q.outB = none → moves (.passResultsMove t m up)
        { q with latched := rest, outB := some { job := j, res := r.1, chk := r.2 } } fun y => y.flights = x.flights) ∧
      (q.outA ≠ none → q.outB ≠ none → exec (.passResultsMove t m up) s = .next (setTile s (physTile s t) (stampSingles s.now x))))

/-- The accumulation path takes one eligible register of a live instruction, frees it and queues its parts, aligned under
R121, with their lost bits and largest spread in the ledger; a block exponent above its reference ends the instruction with
a format fault and none of its partials stand; with none eligible it takes nothing. The oldest queued batch enters its row
under R121, R129 and R130, with the saturations and the BOUND it sets in the ledger: a part of an ADD into an open tile, or
of an OVERWRITE that opens its tile with its own reference exponents. A part whose tile is not open, whose opening table
holds 0xFF or whose row has another scale ends its instruction with a format fault, and none of its partials stand (log 23).
An uncorrectable codeword of the ACM ends it with 0x2201. With nothing at the sparse port a cycle shared with it is the
same cycle, and with nothing on the path it is the port's; where both bring a row the entries take the sum of both (R119,
R120, R126, R128, R203). -/
def Obligations.AccumulationRuns : Prop :=
  ∀ (s : State) (t : Fin 256) (e : List WordErr),
    let x := tileOf s t
    let corrected : Prop := ∀ w ∈ e, w.ecc = .single
    (∀ pm b o f, eligibleRegs x = [(pm, b, o)] → flightOf x o.job.tag = some f → f.code = 0 →
      let j := o.job
      let parts := if 32 < o.res.length then 2 else 1
      let tile (k : Nat) := j.tile + k * j.tstep
      let tab (k : Nat) := jobEref x j.tag j.ovw (tile k) (j.eref + 32 * k)
      let er (k c : Nat) := (nth 0 (tab k) c).toNat
      let eb (k c : Nat) := if j.transposed then (pageOf x pm j.page).eb 0 else (pageOf x pm j.page).eb (32 * k + c)
      ∃ u, exec (.accumTake t) s = .next u ∧ OnlyTile s u (physTile s t) ∧
        (if b then (macroOf (tileOf u t) pm).outB else (macroOf (tileOf u t) pm).outA) = none ∧
        (tileOf u t).tsp = x.tsp ∧ (tileOf u t).pages = x.pages ∧
        ((∀ k, k < parts → ∀ c, c < 32 → eb k c ≤ er k c) →
          (tileOf u t).acm = x.acm ∧ (tileOf u t).flights = x.flights ∧
          ∃ ps, (tileOf u t).accQ = x.accQ ++ [ps] ∧ ps.length = parts ∧
            (∀ k, k < parts → let p : AccPart := nth {} ps k
              p.tag = j.tag ∧ p.tile = tile k ∧ p.row = j.row ∧ p.scale = j.scale ∧ p.carriedSat = j.carriedSat ∧
              p.ovw = j.ovw ∧ p.gid = j.gid ∧ p.eref = tab k ∧ p.last = decide (k + 1 = parts) ∧
              RowAligned (if slotKind x (tile k) = 2 then 8 else 16) (er k) (eb k) ((o.res.drop (32 * k)).take 32) p.parts ∧
              Spreads (er k) (eb k) ((o.res.drop (32 * k)).take 32) p.maxspread) ∧
            (tileOf u t).led = x.led.add { trunc := (ps.map fun p => (p.parts.filter (·.2)).length).sum
                                           maxspread := (ps.map (·.maxspread)).foldl max 0 }) ∧
        ((∃ k, k < parts ∧ ∃ c, c < 32 ∧ er k c < eb k c) → FormatFaults x (tileOf u t) f)) ∧
    (eligibleRegs x = [] → ∃ u, exec (.accumTake t) s = .next u ∧ OnlyTile s u (physTile s t) ∧
      tileOf u t = stampSingles s.now { x with ageCtr := x.ageCtr + 1 }) ∧
    (x.sparseQ = [] → exec (.accumEntryWrite t true e) s = exec (.accumEntryWrite t false e) s) ∧
    (x.accQ = [] → (∀ q ∈ x.sparseQ.head?, q.whole = false) → exec (.accumEntryWrite t true e) s = exec (.sparsePortWrite t []) s) ∧
    (∀ p rest f, x.accQ = [p] :: rest → flightOf x p.tag = some f → f.code = 0 →
      let base := baseOf x f p.tile p.ovw p.eref p.gid
      ∃ u, exec (.accumEntryWrite t false e) s = .next u ∧ OnlyTile s u (physTile s t) ∧ (tileOf u t).tsp = x.tsp ∧
        (corrected → (tileOf u t).err.acmCe = errAdd x.err.acmCe e.length) ∧
        (corrected → Enters f p.tile p.row p.ovw p.eref p.scale base →
          (tileOf u t).accQ = rest ∧
          RowTakes base (tget {} (tileOf u t).acm p.tile) p.row [p.parts] p.scale p.carriedSat p.maxspread ∧
          RowCounts base (tget {} (tileOf u t).acm p.tile) p.row [p.parts] x.led (tileOf u t).led ∧
          (∀ k, k ≠ p.tile → tget {} (tileOf u t).acm k = tget {} x.acm k) ∧
          ∃ g, flightOf (tileOf u t) p.tag = some g ∧ g.code = 0 ∧ g.left = if p.last then f.left - 1 else f.left) ∧
        (corrected → ¬ Enters f p.tile p.row p.ovw p.eref p.scale base → FormatFaults x (tileOf u t) f) ∧
        ((∃ w ∈ e, w.ecc = .double) → wrongWords e = [] →
          (tileOf u t).acm = x.acm ∧
          (tileOf u t).err.acmUe = errAdd x.err.acmUe (e.filter fun w => decide (w.ecc = .double)).length ∧
          ∃ g, flightOf (tileOf u t) p.tag = some g ∧ g.code = 0x2201 ∧ g.left = 0)) ∧
    (∀ p rest f q g, x.accQ = [p] :: rest → flightOf x p.tag = some f → f.code = 0 → x.sparseQ = [q] → q.whole = false →
      q.bad = false → flightOf x q.tag = some g → g.code = 0 → q.tile = p.tile → q.row = p.row → p.ovw = false → q.ovw = false →
      q.scale = p.scale → p.scale ≠ 0 → corrected →
      let a := tget {} x.acm p.tile
      let er (c : Nat) := (mget a.eref c).toNat
      (∀ c, c < 32 → nth 0 q.ebs c ≤ er c) → Enters f p.tile p.row false [] p.scale a →
      ∃ u, exec (.accumEntryWrite t true e) s = .next u ∧ OnlyTile s u (physTile s t) ∧
        ∃ ps n, RowAligned 16 er (fun c => nth 0 q.ebs c) q.ps ps ∧ Spreads er (fun c => nth 0 q.ebs c) q.ps n ∧
          RowTakes a (tget {} (tileOf u t).acm p.tile) p.row [p.parts, ps] p.scale p.carriedSat (max p.maxspread n))

/-- The sparse port aligns the one row it holds to its tile's reference exponents and enters it, one outstanding part
less, with lost bits, spread, saturations and BOUND in the ledger and its chunk's stalls counted. A row whose read broke a
rule ends its SPMAC with the format fault and leaves the accumulator memory as it is (results of earlier windows and chunks
remain); one whose exponent lies above the reference, or that may not enter its tile, ends it so and none of its partials
stand (log 23); an uncorrectable codeword of the tile ends it with 0x2201 and leaves the accumulator memory (R119, R121,
R126, R128 to R130, R203, R213, R217, R219). -/
def Obligations.SparsePortEntersARow : Prop :=
  ∀ (s : State) (t : Fin 256) (q : SparsePart) (f : Flight) (e : List WordErr),
    let x := tileOf s t
    x.sparseQ = [q] → q.whole = false → flightOf x q.tag = some f → f.code = 0 →
      let tab := jobEref x q.tag q.ovw q.tile q.eref
      let er (c : Nat) := (nth 0 tab c).toNat
      let eb (c : Nat) := nth 0 q.ebs c
      let base := baseOf x f q.tile q.ovw tab q.gid
      let aligned : Prop := ∀ c, c < 32 → eb c ≤ er c
      let corrected : Prop := ∀ w ∈ e, w.ecc = .single
      ∃ u, exec (.sparsePortWrite t e) s = .next u ∧ OnlyTile s u (physTile s t) ∧ (tileOf u t).tsp = x.tsp ∧
        (corrected → q.bad = false → aligned → Enters f q.tile q.row q.ovw tab q.scale base →
          (tileOf u t).sparseQ = [] ∧
          (∃ ps n, RowAligned 16 er eb q.ps ps ∧ Spreads er eb q.ps n ∧
            RowTakes base (tget {} (tileOf u t).acm q.tile) q.row [ps] q.scale q.carriedSat n ∧
            RowCounts base (tget {} (tileOf u t).acm q.tile) q.row [ps]
              (x.led.add { trunc := (ps.filter (·.2)).length, maxspread := n }) (tileOf u t).led) ∧
          (tileOf u t).err.acmCe = errAdd x.err.acmCe e.length ∧ (tileOf u t).stat.saStall = x.stat.saStall.add q.stall ∧
          (∀ k, k ≠ q.tile → tget {} (tileOf u t).acm k = tget {} x.acm k) ∧ (tileOf u t).sps = x.sps ∧
          ∃ g, flightOf (tileOf u t) q.tag = some g ∧ g.code = 0 ∧ g.left = f.left - 1) ∧
        (q.bad = true → (tileOf u t).acm = x.acm ∧
          ∃ g, flightOf (tileOf u t) q.tag = some g ∧ g.code = fmtFault (opcodeOf f.op) ∧ g.left = 0) ∧
        (corrected → q.bad = false → ¬ (aligned ∧ Enters f q.tile q.row q.ovw tab q.scale base) → FormatFaults x (tileOf u t) f) ∧
        (q.bad = false → (∃ w ∈ e, w.ecc = .double) → wrongWords e = [] → (tileOf u t).acm = x.acm ∧
          ∃ g, flightOf (tileOf u t) q.tag = some g ∧ g.code = 0x2201 ∧ g.left = 0)

/-! ## Pages and scrubbing -/

/-- A page write is staged: the code bytes as they will be stored, the exponent bytes unless keep_exp, each judged as it
enters. At its commit, while every image of its PGWR that is staged or waits is legal, it becomes the page's codes and format
with their guard check bits, its exponents, and stored sums that are the sums of those codes; with an illegal one it leaves
the page and ends the PGWR with its format fault, and nothing of a PGWR that has failed commits. The ACM and the TSP do not
move (R35, R72, R91 to R93, R95). -/
def Obligations.PageWriteStagesAndCommits : Prop :=
  let legal (x : Tile) (o : PageWrite) : Prop :=
    (∀ b ∈ (mread x.tsp o.img 1024).map (stageByte o.w4 o.centred), b.2 = true) ∧
      (o.keepExp = true ∨ 0xFF ∉ (mread x.tsp o.exp 64).take (if o.w4 then 64 else 32))
  (∀ (x : Tile) (tag : Nat), groupLegal x tag = true ↔ ∀ e ∈ x.macros,
    (∀ o ∈ e.2.portQ, o.tag = tag → o.rd = false → o.upd = false → legal x o) ∧
      ∀ g, e.2.stage = some g → g.op.tag = tag → g.legal = true) ∧
  ∀ (s : State) (t : Fin 256) (m : Fin 72),
    let x := tileOf s t
    let q := macroOf x m
    (∀ o, q.stage = none → outOfService x m = false → nextPort x m = some o → o.upd = false → o.rd = false →
      ∃ u g, exec (.pageWriteStart t m) s = .next u ∧ OnlyTile s u (physTile s t) ∧
        (macroOf (tileOf u t) m).stage = some g ∧ g.op = o ∧
        g.codes = ((mread x.tsp o.img 1024).map (stageByte o.w4 o.centred)).map (·.1) ∧
        g.exps = (if o.keepExp then [] else (mread x.tsp o.exp 64).take (if o.w4 then 64 else 32)) ∧
        (g.legal = true ↔ legal x o) ∧ o ∉ (macroOf (tileOf u t) m).portQ ∧
        (tileOf u t).pages = x.pages ∧ (tileOf u t).tsp = x.tsp ∧ (tileOf u t).acm = x.acm) ∧
    (∀ g f, q.stage = some g → outOfService x m = false → flightOf x g.op.tag = some f → f.code = 0 → (∀ o ∈ q.portQ, o.rd = false) →
      (groupLegal x g.op.tag = true → ∃ u, exec (.pageWriteCommit t m) s = .next u ∧ OnlyTile s u (physTile s t) ∧
        (macroOf (tileOf u t) m).stage = none ∧
        (let p := pageOf (tileOf u t) m g.op.page
         p.w4 = g.op.w4 ∧ mread p.codes 0 g.codes.length = g.codes ∧ p.exps = mwrite (pageOf x m g.op.page).exps 0 g.exps ∧
         p.guard = guardOf g.codes ∧
         (∀ r, r < 32 → tget 0 p.rows r = p.rowSum r) ∧ (∀ c, c < p.ncols → tget 0 p.cols c = p.colSum c) ∧
         p.corner = sumToI 32 p.rowSum) ∧
        (∀ k, k ≠ pageKey m g.op.page → tget {} (tileOf u t).pages k = tget {} x.pages k) ∧
        (∃ y, flightOf (tileOf u t) g.op.tag = some y ∧ y.left = f.left - 1) ∧ (tileOf u t).tsp = x.tsp ∧
        (tileOf u t).acm = x.acm) ∧
      (groupLegal x g.op.tag = false → ∃ u, exec (.pageWriteCommit t m) s = .next u ∧ OnlyTile s u (physTile s t) ∧
        (macroOf (tileOf u t) m).stage = none ∧ (tileOf u t).pages = x.pages ∧
        ∃ y, flightOf (tileOf u t) g.op.tag = some y ∧ y.left = 0 ∧ y.code = fmtFault (opcodeOf f.op))) ∧
    (∀ g, q.stage = some g → outOfService x m = false → deadTag x g.op.tag = true → (∀ o ∈ q.portQ, o.rd = false) →
      ∃ u, exec (.pageWriteCommit t m) s = .next u ∧ OnlyTile s u (physTile s t) ∧
        (macroOf (tileOf u t) m).stage = none ∧ (tileOf u t).pages = x.pages ∧ (tileOf u t).flights = x.flights)

/-- The update engine takes its next page once the page has its port and no channel or earlier DMA of the tile holds its
ranges. With its records and gradients inside the grant and a legal step, the page's new codes are staged, the new records go
to memory, and the page leaves the queue; a step that breaks a rule ends the UPD with its code; an uncorrectable page read is
counted and ends it with 0x2002; a range outside the grant ends it with its access fault; a page that must wait stays.
Neither the ACM nor the TSP moves. With seed 0 the step draws from the seed of its partition's job, which the plan load took
from the device (R96, R184 to R187, R191, R195, R400; which seed that is is the model's choice, log 37). -/
def Obligations.UpdPageRuns : Prop :=
  ∀ (s : State) (t : Fin 256) (u : UpdPage) (rest : List UpdPage) (f : Flight), let x := tileOf s t
    let p := partOf s t
    let pt := physTile s t
    let free : Prop := updReady x u = true ∧ ∀ r ∈ updRanges x, dmaWaits s t 2 0 r.1 r.2 = false
    let granted : Prop := ∀ r ∈ updRanges x, accessFault s p r.1 r.2 = 0
    let v := (updRanges x).foldl (fun s r => tileTouch s p pt r.1 r.2) s
    let r := updResult x u t (jobOf s p).seed.toNat (fun a n => tilePeek v p a n)
    x.updQ = u :: rest → x.halted = false → flightOf x u.tag = some f → f.code = 0 →
    (¬ free → ∀ e m, exec (.updPageStart t e m) s = .next s) ∧
    (free → granted → r.code = 0 → ∃ w g, exec (.updPageStart t [] []) s = .next w ∧
      w = { r.writes.foldl (fun s y => tileStore s p pt y.1 y.2) v with tiles := w.tiles } ∧
      (∀ k, k ≠ pt → tileAt w k = tileAt s k) ∧ (tileOf w t).tsp = x.tsp ∧ (tileOf w t).acm = x.acm ∧ (tileOf w t).pages = x.pages ∧
      (tileOf w t).updQ = rest ∧ (tileOf w t).updPub = x.updPub ++ r.pubs ∧ (macroOf (tileOf w t) u.pm).stage = some g ∧
      g.op.page = u.page ∧ g.op.upd = true ∧ g.legal = true ∧ g.codes = r.codes ∧ g.exps = r.exps) ∧
    (free → granted → 0 < r.code → ∃ w, exec (.updPageStart t [] []) s = .next w ∧ w.mem = v.mem ∧ (tileOf w t).tsp = x.tsp ∧
      (tileOf w t).acm = x.acm ∧ (tileOf w t).pages = x.pages ∧ ∃ y, flightOf (tileOf w t) u.tag = some y ∧ y.code = r.code ∧ y.left = 0) ∧
    (free → granted → ∃ w, exec (.updPageStart t [{ ecc := .double }] []) s = .next w ∧ (tileOf w t).tsp = x.tsp ∧
      (tileOf w t).acm = x.acm ∧ (tileOf w t).pages = x.pages ∧ (tileOf w t).err.macroUe = errAdd x.err.macroUe 1 ∧
      ∃ y, flightOf (tileOf w t) u.tag = some y ∧ y.code = 0x2002 ∧ y.left = 0) ∧
    (free → ¬ granted → ∀ e m, ∃ w, exec (.updPageStart t e m) s = .next w ∧ OnlyTile s w pt ∧ (tileOf w t).tsp = x.tsp ∧
      ∃ y, flightOf (tileOf w t) u.tag = some y ∧ (y.code = 0x8408 ∨ y.code = 0x8701) ∧ y.left = 0)

/-- The scrubber of a macro, while it has the page port, reads one row: it moves on, a corrected codeword or a row checksum
that differs leaves a write-back, an uncorrectable codeword is counted, raises 0x2001 and marks the macro for retirement.
After row 31, with the page's codewords corrected, it compares the column sums: equal sums leave nothing to write, a wrong
one its own write-back. A write-back makes the stored sum it names that of the codes and counts one corrected error; a
reread that differs again counts an uncorrectable one, raises 0x1003 for codes or 0x1004 for sums and marks the macro. The
codes of every page stand (R101 to R104; that the failed correction counts in both, and that the scrubber goes through the
pages from 0 upward, is the model's choice, logs 138 and 139). -/
def Obligations.ScrubberRuns : Prop :=
  ∀ (s : State) (t : Fin 256) (m : Fin 72), Shape s →
    let x := tileOf s t
    let q := macroOf x m
    let sc := q.scrub
    let p := pageOf x m sc.page
    let sum : WriteBack := { page := sc.page, what := .rowSum sc.row }
    let found := if tget 0 p.rows sc.row = p.rowSum sc.row then [] else [sum]
    let marked (y : Tile) : Prop := y.ret.mret.getLsbD m = true ∨ y.ret.tilePend = true
    let moves (i : Instr) (P : Tile → Prop) : Prop :=
      ∃ u, exec i s = .next u ∧ (tileOf u t).tsp = x.tsp ∧ (tileOf u t).acm = x.acm ∧
        (∀ k, (pageOf (tileOf u t) m k).codes = (pageOf x m k).codes) ∧ P (tileOf u t)
    let faults (i : Instr) (code : BitVec 16) (P : Tile → Prop) : Prop :=
      ∃ u, exec i s = .next u ∧ (tileOf u t).err.macroUe = errAdd x.err.macroUe 1 ∧ marked (tileOf u t) ∧ P (tileOf u t) ∧
        (faultable (jobOf s (partOf s t)).state = true → (jobOf u (partOf s t)).state = .faulted ∧ (jobOf u (partOf s t)).code = code)
    (scrubHasPort x m = true → sc.row < 32 →
      moves (.scrubRowRead t m [] false) (fun y => y.err = x.err ∧ (macroOf y m).scrub = { sc with row := sc.row + 1, wb := sc.wb ++ found }) ∧
      moves (.scrubRowRead t m [] true) (fun y => y.err = x.err ∧ (macroOf y m).scrub = { sc with row := sc.row + 1, wb := sc.wb ++ [sum] }) ∧
      (∀ k, k < 4 → moves (.scrubRowRead t m [{ word := k }] false) fun y =>
        (macroOf y m).scrub = { sc with row := sc.row + 1, wb := sc.wb ++ [{ page := sc.page, what := .word sc.row k }] ++ found }) ∧
      faults (.scrubRowRead t m [{ ecc := .double }] false) 0x2001 fun y => (macroOf y m).scrub.bad = true) ∧
    (scrubHasPort x m = true → 32 ≤ sc.row → sc.uncorrected = false →
      (∀ c, c < p.ncols → tget 0 p.cols c = p.colSum c) → p.corner = sumToI 32 p.rowSum →
      moves (.scrubColumnCompare t m []) (fun y => (macroOf y m).scrub.wb = sc.wb ∧ (macroOf y m).scrub.row = 0 ∧
        (macroOf y m).scrub.page = (sc.page + 1) % 8 ∧ sc.page ∈ (macroOf y m).scrub.done) ∧
      (sc.bad = false →
        (∀ c, c < p.ncols → moves (.scrubColumnCompare t m [c]) fun y => (macroOf y m).scrub.wb = sc.wb ++ [{ page := sc.page, what := .colSum c }]) ∧
        moves (.scrubColumnCompare t m [64]) fun y => (macroOf y m).scrub.wb = sc.wb ++ [{ page := sc.page, what := .corner }])) ∧
    (∀ w wb, sc.wb = w :: wb → q.inFlight w.page = false → scrubHasPort x m = true →
      moves (.scrubWriteBack t m false) (fun y => (macroOf y m).scrub.wb = wb ∧
        y.err.macroCe = (if w.counted then x.err.macroCe else errAdd x.err.macroCe 1) ∧ y.err.macroUe = x.err.macroUe ∧
        (let g := pageOf y m w.page
         match w.what with
         | .word _ _ => True
         | .rowSum r => tget 0 g.rows r = g.rowSum r
         | .colSum c => tget 0 g.cols c = g.colSum c
         | .corner => g.corner = sumToI 32 g.rowSum)) ∧
      faults (.scrubWriteBack t m true) (match w.what with | .word _ _ => 0x1003 | _ => 0x1004) fun _ => True)

/-- A confirmation that a job in SCRUBBING, or a partition with no job, owes is settled: it leaves the list. A macro's check
scrubs the page of its failing pass, making stored sums those of the codes, runs the pass again, unfreezes the macro and
counts what it finds and the mismatch that froze it (without a frozen pass it scrubs the page named: the model's choice, log
164); what fails again is retired or taken out of service, and what passes is not. A tile array that has had more than 1,000
single-bit errors within an hour retires its tile (R100 to R102, R105, R106, R474, R479, R480). -/
def Obligations.ConfirmationSettles : Prop :=
  ∀ (s : State) (t : Fin 256), Shape s →
    let p := partOf s t
    let pt := physTile s t
    let x := tileOf s t
    let owed (d : ConfirmDue) : Prop :=
      ((jobOf s p).state = .scrubbing ∨ (jobOf s p).state = .idle) ∧ d ∈ (jobOf s p).confirms ∧ (jobOf s p).confirms.Nodup
    let settles (c : Confirm) (d : ConfirmDue) (P : State → Prop) : Prop :=
      ∃ u, exec (.confirmation t c) s = .next u ∧ d ∉ (jobOf u p).confirms ∧ (jobOf u p).state = (jobOf s p).state ∧ P u
    (∀ (m : Fin 72) (page : Fin 8) (errs : List WordErr) (sums stuck : List Nat) (up : List (Nat × Int)),
      owed { tile := pt, pm := m, kind := 0 } → wrongWords errs = [] →
      let q := macroOf x m
      let job := if q.frozen then failingPass q else none
      let pg := (job.map (·.page)).getD page.val
      settles (.macro_ m page errs sums stuck up) { tile := pt, pm := m, kind := 0 } fun u =>
        let y := tileOf u t
        let reruns : Prop := ∃ j, job = some j ∧
          let r := applyUpset (passResults (pageOf y m j.page) j) up
          wrap27 (r.1.foldl (· + ·) 0) ≠ wrap27 r.2
        let bad : Prop := (∃ w ∈ errs, w.ecc = .double) ∨ stuck ≠ [] ∨ reruns
        (macroOf y m).frozen = false ∧ y.err.abft = (if q.frozen then errAdd x.err.abft 1 else x.err.abft) ∧
        y.err.macroUe = errAdd x.err.macroUe (eccDoubles (errs.map (·.ecc)) + stuck.length) ∧
        (pageOf y m pg).codes = (pageOf x m pg).codes ∧ y.acm = x.acm ∧ y.tsp = x.tsp ∧
        (errs = [] → stuck = [] → sums = [] →
          y.err.macroCe = errAdd x.err.macroCe
            ((pageOf x m pg).wrongRows.length + (pageOf x m pg).wrongCols.length + b2n (pageOf x m pg).wrongCorner) ∧
          (pageOf y m pg).wrongRows = [] ∧ (pageOf y m pg).wrongCols = [] ∧ (pageOf y m pg).wrongCorner = false) ∧
        (¬ bad → y.ret = x.ret ∧ u.sec = s.sec) ∧ (bad → y.ret.mret.getLsbD m = true ∨ y.ret.tilePend = true)) ∧
    (∀ b, owed { tile := pt, kind := 1 } → settles (.tileArray b) { tile := pt, kind := 1 } fun u =>
      (tileOf u t).ret.tilePend = (b || x.ret.tilePend)) ∧
    (∀ b, owed { tile := pt, kind := 2 } → settles (.tileLogic b) { tile := pt, kind := 2 } fun u =>
      (tileOf u t).ret.tilePend = (b || x.ret.tilePend)) ∧
    (∀ (k : Fin 32) (b : Bool), owed { pm := 32 * dieOf t + k, kind := 3 } →
      settles (.fenLine k b) { pm := 32 * dieOf t + k, kind := 3 } fun u =>
        (b = true → (dieOf t, 0x2701) ∈ u.start.beyond) ∧ (b = false → u.start.beyond = s.start.beyond)) ∧
    (∀ (k : Fin 12) (b : Bool), owed { pm := k, kind := 4 } → settles (.dieToDie k b) { pm := k, kind := 4 } fun u =>
      (b = false → (if k.val < 8 then k.val / 4 else 2, 0xFC00 + k.val) ∈ u.start.beyond) ∧
      (b = true → u.start.beyond = s.start.beyond)) ∧
    (∃ u, exec (.confirmation t .tileSingles) s = .next u ∧ (tileOf u t).ret.tilePend = (x.worn || x.ret.tilePend))

/-! ## The Beat and the end of a job -/

/-- In the tick time of its partition, BEAT_START at S_n gives the Beat counter the Beat's number, opens the guard, and gives every declared window of the
partition its generation: OPEN at S_0, CLOSED after its owner's BEAT STOP. BEAT_RELEASE at S_n + 1 µs opens the work
window: every tile starts at stream 0, every stream behind its BEAT goes on as the BEAT's fn says, and every tile is in
phase 0. TILE_FINISH, no later than D_n, takes a finished tile's busy count; the last one takes the smallest slack (R268,
R271, R319, R322 to R324, R360, R361, R430; that a window's BEAT STOP is noted as its tile finishes is the model's choice,
log 55). -/
def Obligations.BeatBeginsAndReleases : Prop :=
  ∀ (s : State) (p : Fin 2) (now : Nat), Shape s → TilesApart s → (jobOf s p).state = .running →
    let j := jobOf s p
    let at_ := j.tickOf now
    (j.part = .off → j.lastBeat = false → j.sn ≤ at_ →
      ∃ u, exec (.beatStart p now) s = .next u ∧ u = { s with jobs := u.jobs, windows := u.windows, now := max s.now now } ∧
        jobOf u (1 - p) = jobOf s (1 - p) ∧
        jobOf u p = { j with beat := j.beat + 1, part := .guard, finished := [], lastFinish := 0, doneFrom := [], reported := false
                             nextStart := none, lastBeat := (jobOf u p).lastBeat, slotRecords := false } ∧
        ((jobOf u p).lastBeat = true ↔ let e := nth {} j.sched j.pos
          (nth {} j.sched (if 0 < e.count then e.target else j.pos + 1)).typ = 0xFFFF) ∧
        ∀ w, windowAt u w =
          if w ∈ windowsOf s p ∧ (windowAt s w).declared = true then
            { windowAt s w with gen := BitVec.ofNat 16 ((windowAt s w).g0 + j.j), isOpen := (decide (j.j = 0) || (windowAt s w).isOpen) && !(windowAt s w).closing }
          else windowAt s w) ∧
    (j.part = .guard → j.sn + 1000 ≤ at_ →
      ∃ u, exec (.beatRelease p now) s = .next u ∧ u = { s with jobs := u.jobs, tiles := u.tiles, bal := u.bal, now := max s.now now } ∧
        jobOf u p = { j with part := .work } ∧ jobOf u (1 - p) = jobOf s (1 - p) ∧ u.bal = { s.bal with dies := u.bal.dies } ∧
        (∀ d, dieAt u d = if d ∈ diesOf s p then { dieAt s d with tilePhase := [], guards := (dieAt s d).guards.map fun g => { g with ahead := false } }
          else dieAt s d) ∧
        (∀ k, (∀ t ∈ tilesOf s p, physTile s t ≠ k) → tileAt u k = tileAt s k) ∧
        ∀ t ∈ tilesOf s p, let x := tileOf s t; let y := tileOf u t
          y = { x with streams := y.streams, rr := 0, released := true, entries := y.entries } ∧
          ∀ k, k < 32 → let a := streamOf x k; let b := streamOf y k
            b.atBeat = none ∧ (b.stopped = true ∨ 0 < b.hold ∨ b.entry.isSome = true) ∧
            (a.atBeat = none → b.pc = a.pc ∧ b.stopped = a.stopped) ∧
            (∀ g, a.atBeat = some (0, g) → b.pc = a.pc + 1) ∧
            (∀ g, a.atBeat = some (1, g) → b.pc = BitVec.ofNat 12 g) ∧
            (∀ g, a.atBeat = some (2, g) → if 0 < a.lc.toNat then b.pc = BitVec.ofNat 12 g ∧ b.lc = a.lc - 1 ∧ b.it = a.it + 1
              else b.pc = a.pc + 1 ∧ b.lc = a.lc ∧ b.it = a.it) ∧
            ∀ g, a.atBeat = some (3, g) → b.stopped = true) ∧
    (∀ (t : Fin 256) (busy : Nat), partOf s t = p → t.val ∈ tilesOf s p → j.part = .work → (tileOf s t).released = true →
      finished (tileOf s t) = true → (tileOf s t).halted = false → at_ ≤ deadline j →
      ∃ u, exec (.tileFinish t busy now) s = .next u ∧
        u = { s with jobs := u.jobs, tiles := u.tiles, windows := u.windows, now := max s.now now } ∧
        tileOf u t = { tileOf s t with busy := busy, released := false } ∧ (∀ k, k ≠ physTile s t → tileAt u k = tileAt s k) ∧
        jobOf u (1 - p) = jobOf s (1 - p) ∧ (jobOf u p).finished = t.val :: j.finished ∧
        (jobOf u p).lastFinish = max j.lastFinish at_ ∧
        ((jobOf u p).slack = if ∀ k ∈ tilesOf s p, k = t.val ∨ k ∈ j.finished then
          BitVec.ofNat 32 (min j.slack.toNat (deadline j - max j.lastFinish at_)) else j.slack) ∧
        ∀ w, let stops : Prop := w ∈ windowsOf s p ∧ (windowAt s w).declared = true ∧ (windowAt s w).tile = t.val ∧
            ∃ g, (streamOf (tileOf s t) (windowAt s w).stream).atBeat = some (3, g)
          (stops → windowAt u w = { windowAt s w with closing := true }) ∧ (¬ stops → windowAt u w = windowAt s w))

/-- BEAT_DEADLINE at D_n ends the job with 0x3601 where a tile has not finished: each late tile halts and names the
lowest stream short of its BEAT, else the earliest issued instruction in flight; with every tile finished it changes nothing
but the time. MAINTENANCE_SLOT_START opens the slot. LEDGER_HEAD_UPDATE, once no channel retrains or owes a retrain, puts one
record per tile into the ring and, with all of them in memory, sets LDG_HEAD to the Beat; a record whose channel serves
nothing more is lost and counted, and no other byte of memory moves. MAINTENANCE_SLOT_END, with the scrubs done, the records
complete and every owed retrain run, completes the sums' comparison, restarts the ledger counters, and gives the next Beat
its start and the schedule its step; else it ends the job with 0x3602 (R104, R157 to R161, R319, R325, R326, R329, R339,
R398, R400, R401; that the compare of the pages left stands at the slot's end is the model's choice, log 140, and that a lost
record is counted and the job goes on to the slot's end, log 146). -/
def Obligations.BeatCloses : Prop :=
  ∀ (s : State) (p : Fin 2) (now : Nat), Shape s → TilesApart s → MemOk s → (jobOf s p).state = .running →
    let j := jobOf s p
    let late := (tilesOf s p).filter fun t => !j.finished.contains t
    let start := j.nextStart.getD (j.sn + beatLen j)
    let complete : Prop := j.slotRecords = true ∧ (j.ring.valid = false ∨ (j.ring.headValid = true ∧ j.ring.head = j.beat))
    let time := max s.now now
    let at_ := j.tickOf now
    (j.part = .work → deadline j ≤ at_ → late = [] → exec (.beatDeadline p now) s = .next { s with now := time }) ∧
    (∀ t r, j.part = .work → deadline j ≤ at_ → late = t :: r →
      ∃ u, exec (.beatDeadline p now) s = .next u ∧ Faulted s u p 0x3601 ∧ Told s u p 0x3601 ∧ (jobOf u p).ltile = t ∧
        ∀ v ∈ late, (tileOf u v).halted = true ∧ ((tileOf s v).fault.valid = false →
          let short := lowest 32 fun k => !(streamOf (tileOf s v) k).stopped && (streamOf (tileOf s v) k).atBeat.isNone
          (tileOf u v).fault.code = 0x3601 ∧ (tileOf u v).fault.valid = true ∧
          (∀ k, short = some k → (tileOf u v).fault.stream = BitVec.ofNat 5 k ∧ (tileOf u v).fault.notag = true) ∧
          ∀ f ∈ (tileOf s v).flights, short = none → (∀ g ∈ (tileOf s v).flights, g = f ∨ f.issued < g.issued) →
            (tileOf u v).fault.stream = BitVec.ofNat 5 f.stream ∧ (tileOf u v).fault.tag = BitVec.ofNat 6 f.tag)) ∧
    (j.part = .work → (match j.nextStart with | some n => n - slotLen j | none => deadline j) ≤ at_ → (∀ t ∈ tilesOf s p, t ∈ j.finished) →
      ∃ u, exec (.maintenanceSlotStart p now) s = .next u ∧ u = { s with jobs := u.jobs, memParts := u.memParts, now := time } ∧
        jobOf u p = { j with part := .slot, slotFrom := time } ∧ jobOf u (1 - p) = jobOf s (1 - p)) ∧
    (j.part = .slot → j.slotRecords = false → retrainingIn s p = false → retrainOwed s p = false → j.ring.valid = true →
      let lost := (tilesOf s p).filter fun t => deadAt s (recordAddr s p t)
      ∃ u, exec (.ledgerHeadUpdate p) s = .next u ∧ u = { s with jobs := u.jobs, mem := u.mem, memParts := u.memParts } ∧
        jobOf u p = { j with ring := if lost = [] then { j.ring with head := j.beat, headValid := true }
                                     else { j.ring with werr := lost.foldl (fun e _ => errAdd e 1) j.ring.werr }
                             slotRecords := true } ∧
        jobOf u (1 - p) = jobOf s (1 - p) ∧
        (∀ a, (∀ t ∈ tilesOf s p, a < recordAddr s p t ∨ recordAddr s p t + 64 ≤ a) → mget u.mem a = mget s.mem a) ∧
        ∀ t ∈ tilesOf s p, t ∉ lost → mread u.mem (recordAddr s p t) 64 = ledgerRecord s t false) ∧
    (j.part = .slot → start ≤ at_ → complete → retrainingIn s p = false → retrainOwed s p = false →
      ∃ u, exec (.maintenanceSlotEnd p true now) s = .next u ∧
        u = { s with jobs := u.jobs, tiles := u.tiles, fens := u.fens, bal := u.bal, chans := u.chans, memParts := u.memParts, now := time } ∧
        jobOf u (1 - p) = jobOf s (1 - p) ∧ (∀ d, fenOf u d = { fenOf s d with banks := (fenOf u d).banks }) ∧
        u.bal = { s.bal with dies := u.bal.dies } ∧
        (∀ n, chanAt u n = if (chanAt s n).part = p.val then { chanAt s n with slotRetrained := false, patrolled := 0 } else chanAt s n) ∧
        (let e := nth {} j.sched j.pos
         jobOf u p = { j with part := .off, sn := start, j := j.j + 1, nextStart := none
                              pos := if 0 < e.count then e.target else j.pos + 1
                              sched := if 0 < e.count then setAt j.sched j.pos { e with count := e.count - 1 } else j.sched
                              early := if j.nextStart.isSome then j.early.add 1 else j.early }) ∧
        ∀ t ∈ tilesOf s p, let x := tileOf s t; let y := tileOf u t
          y.led = {} ∧ y.busy = 0 ∧ y.swept = [] ∧ y.tsp = x.tsp ∧ y.acm = x.acm ∧ (∀ k, streamOf y k = { streamOf x k with cEl := {}, cSat := {} }) ∧
          ∀ (m : Fin 72) (k : Fin 8), let g := pageOf y m k
            g.codes = (pageOf x m k).codes ∧ (outOfService x m = false → (macroOf y m).scrub = {} ∧
              (k.val ∉ (macroOf x m).scrub.done → (∀ r, r < 32 → tget 0 g.rows r = g.rowSum r) ∧
                (∀ c, c < g.ncols → tget 0 g.cols c = g.colSum c) ∧ g.corner = sumToI 32 g.rowSum))) ∧
    (∀ done, j.part = .slot → start ≤ at_ → (done = false ∨ ¬ complete ∨ retrainingIn s p = true ∨ retrainOwed s p = true) →
      ∃ u, exec (.maintenanceSlotEnd p done now) s = .next u ∧ Faulted s u p 0x3602 ∧ (jobOf u p).ltile ∈ tilesOf s p)

/-- ELASTIC_DONE_REPORT: a member whose tiles have finished and whose children have all reported, in the work window or the
slot, sends DONE for the job Beat index to its parent on every job port, once. BARRIER_COMPLETE at the root computes
S' = T_r + λ + M and, in the work window where S' lies before the fixed start of the next Beat, sends RELEASE with S' to each
child and takes S' itself; else it sends nothing and the fixed start stands (R319, R328, R329, R438). -/
def Obligations.BarrierRowsReport : Prop :=
  ∀ (s : State) (p : Fin 2) (now : Nat), Shape s → (jobOf s p).state = .running → (jobOf s p).elastic = true →
    ((jobOf s p).part = .work ∨ (jobOf s p).part = .slot) → (jobOf s p).reported = false →
    (∀ t ∈ tilesOf s p, t ∈ (jobOf s p).finished) →
    (∀ c ∈ childrenOf (jobOf s p).member (jobOf s p).gsize, c ∈ (jobOf s p).doneFrom) →
    let j := jobOf s p
    let start := j.tickOf now + j.leadNs + slotLen j
    ((∀ c, c ∈ childrenOf j.member j.gsize ↔ 16 * j.member + 1 ≤ c ∧ c ≤ 16 * j.member + 16 ∧ c < j.gsize)) ∧
    (j.member ≠ 0 → ∃ u, exec (.elasticDoneReport p) s = .next u ∧ u = { s with jobs := u.jobs, ports := u.ports, sentFrames := u.sentFrames } ∧
      jobOf u p = { j with reported := true } ∧ jobOf u (1 - p) = jobOf s (1 - p) ∧
      Sent s u p ((j.member - 1) / 16) 6 (leBytes 4 j.j) ∧ SentOnly s u [6]) ∧
    (j.member = 0 → j.part = .work → start < j.sn + beatLen j →
      ∃ u, exec (.barrierComplete p now) s = .next u ∧
        u = { s with jobs := u.jobs, ports := u.ports, sentFrames := u.sentFrames, now := max s.now now } ∧
        jobOf u p = { j with reported := true, nextStart := some start } ∧ jobOf u (1 - p) = jobOf s (1 - p) ∧
        (∀ c ∈ childrenOf j.member j.gsize, Sent s u p c 7 (leBytes 4 j.j ++ leBytes 8 start)) ∧ SentOnly s u [7]) ∧
    (j.member = 0 → (j.part = .slot ∨ j.sn + beatLen j ≤ start) →
      exec (.barrierComplete p now) s = .next { setJob s p { j with reported := true } with now := max s.now now })

/-- JOB_DONE after the last Beat, once no channel retrains, writes every dirty sector of the partition back, records DONE with
code 0 and starts SCRUBBING; SCRUBBING_START of a FAULTED or KILLED job drops them, owes the confirmations of its frozen
macros, and after a fault writes the records of the Beat in progress with faulted set. TILE_CLEAR empties a tile but for its
counters, fault registers, retirements and the pages its job keeps under a handle. SCRUBBING_END leaves the partition IDLE (R105, R160, R256, R349, R353, R400, R401, R509, R511,
R514). -/
def Obligations.JobEndsInScrubbing : Prop :=
  ∀ (s : State) (p : Fin 2) (now : Nat), Shape s → TilesApart s → MemOk s →
    let j := jobOf s p
    let dirty (line k : Nat) : Prop := k < 4 ∧ (tget {} s.cache line).part = p.val ∧ (tget {} s.cache line).dirty.getLsbD k = true
    let frame (u : State) : Prop :=
      u = { s with jobs := u.jobs, fens := u.fens, cache := u.cache, mem := u.mem, segs := u.segs, memParts := u.memParts, windows := u.windows,
                   host := u.host, ports := u.ports, sentLink := u.sentLink, chans := u.chans, sec := { s.sec with clearing := u.sec.clearing }, now := max s.now now }
    (j.state = .running → j.part = .off → j.lastBeat = true → retrainingIn s p = false →
      ∃ u, exec (.jobDone p [] now) s = .next u ∧ Scrubs s u p .held ∧ (jobOf u p).outcome = 1 ∧ (jobOf u p).code = 0 ∧
        jobOf u (1 - p) = jobOf s (1 - p) ∧ frame u ∧
        (∀ line k, dirty line k → waitsAt s (128 * line + 32 * k) = false →
          mread u.mem (128 * line + 32 * k) 32 = mread (tget {} s.cache line).data (32 * k) 32) ∧
        (∀ a, ¬ dirty (a / 128) (a / 32 % 4) → mget u.mem a = mget s.mem a)) ∧
    ((j.state = .faulted ∨ j.state = .killed) → (j.part ≠ .off → j.outcome = 2 → retrainingIn s p = false) →
      ∃ u, exec (.scrubbingStart p now) s = .next u ∧
        Scrubs s u p (if j.outcome = 1 then .held else .awaiting) ∧ frame u ∧
        (jobOf u p).outcome = j.outcome ∧ jobOf u (1 - p) = jobOf s (1 - p) ∧ (jobOf u p).confirms = j.confirms ++ frozenConfirms s p ∧
        (j.part ≠ .off → j.outcome = 2 → j.ring.valid = true → ∀ t ∈ tilesOf s p, deadAt s (recordAddr s p t) = false →
          mread u.mem (recordAddr s p t) 64 = ledgerRecord s t true) ∧
        ∀ a, (∀ t ∈ tilesOf s p, a < recordAddr s p t ∨ recordAddr s p t + 64 ≤ a) → mget u.mem a = mget s.mem a) ∧
    (∀ t : Fin 256, partOf s t = p → j.state = .scrubbing → (∀ c ∈ j.confirms, c.kind ≤ 2 → c.tile ≠ physTile s t) →
      let x := tileOf s t
      ∃ u, exec (.tileClear t) s = .next u ∧ OnlyTile s u (physTile s t) ∧
        tileOf u t = { err := x.err, stat := x.stat, fault := x.fault, ret := x.ret, free := x.free, singles := x.singles, hour := x.hour, worn := x.worn,
                        pages := (tileOf u t).pages } ∧
        ∀ k g, (k, g) ∈ (tileOf u t).pages ↔
          ((k, g) ∈ x.pages ∧ g.handle.isSome = true) ∨
          ∃ q h, (k, q) ∈ x.pages ∧ q.handle = none ∧ j.handle = some h ∧ q.resident = true ∧ x.ret.tilePend = false ∧
            x.ret.mret.getLsbD (k / 8) = false ∧ (q.retainOnKill = true ∨ (j.outcome = 1 ∧ q.retained = true)) ∧
            g = { q with handle := some h.toNat, tenant := j.tenant }) ∧
    (j.state = .scrubbing → scrubbed s p = true →
      ∃ u, exec (.scrubbingEnd p) s = .next u ∧ (jobOf u p).state = .idle ∧ (jobOf u p).handle = none ∧ (jobOf u p).mPlan = [] ∧
        (jobOf u p).ownerSlot = 0xFF ∧ (jobOf u p).table = {} ∧ (jobOf u p).outcome = j.outcome ∧ (jobOf u p).code = j.code ∧
        (jobOf u p).beat = j.beat ∧ jobOf u (1 - p) = jobOf s (1 - p) ∧ 
        u = { s with jobs := u.jobs, tiles := u.tiles, windows := u.windows, host := u.host, memParts := u.memParts } ∧
        ∀ t ∈ tilesOf s p, tileOf u t = { tileOf s t with err := { (tileOf s t).err with updCrc := 0 } })

/-! ## The tick source and Causeway -/

/-- A measured offset sets the partition's tick: above 50 ns the lock is lost, holdover starts and an ARMED job returns to
LOADED; within 40 ns the run of good ones grows, and 16 PTP intervals or 4 PPS edges lock the source, which completes an
ARM that waits for nothing else. PTP messages count only on the plan's tick port and in its domain: an Announce lists its
source, unless its logSyncInterval lies outside −7 to −4; a Sync, with its Follow_Up from a two-step source, of the best
source shows an offset once the path delay is known, and moves tick time by it; a Delay_Resp to the Delay_Req sent last gives
that delay. An edge of PPS_IN, high for 1 µs or longer, marks the second it was numbered. SYNC_TIMEOUT loses the lock after
20 ms, or past a second in PPS mode. HOLDOVER_EXPIRY after 20 ms ends a RUNNING job with 0x3B01. PPS_OUT rises at whole
seconds of locked tick time and falls 100 µs later. DELAY_REQ_SEND, at the source's interval, sends a Delay_Req on the tick
port in the control priority (R319, R320, R321, R349, R439, R522; how a PPS edge and a Sync set tick time is the model's
choice, logs 143 and 165). -/
def Obligations.TickSourceRows : Prop :=
  ∀ (s : State) (p : Fin 2) (now : Nat), Shape s →
    let j := jobOf s p
    let t := j.tick
    let x := t.ptp
    let time := max s.now now
    let at_ := j.tickOf time
    let timed (u : State) : Prop := u = { s with jobs := u.jobs, host := u.host, memParts := u.memParts, ports := u.ports, start := u.start, now := time }
    let ppsRuns (q : Job) : Prop := clockRuns q = true ∧ q.pps = true
    let lost (u : State) : Prop := (jobOf u p).tick.locked = false ∧ (jobOf u p).tick.good = 0 ∧
      (t.locked = true → (jobOf u p).tick.holdover = true ∧ (jobOf u p).tick.lostAt = time ∧
        (jobOf u p).state = if j.state = .armed then .loaded else j.state) ∧
      (t.locked = false → (jobOf u p).tick.holdover = t.holdover ∧ (jobOf u p).state = j.state)
    let measured (u : State) (off : Int) (need : Nat) : Prop :=
      let n := if off.natAbs ≤ 40 then t.good + 1 else 0
      let locks := t.locked || decide (need ≤ n)
      (jobOf u p).tick.lastSync = time ∧ (jobOf u p).tick.offset = max (-32767) (min 32767 off) ∧
        (50 < off.natAbs → lost u) ∧
        (off.natAbs ≤ 50 → (jobOf u p).tick.good = n ∧ (jobOf u p).tick.locked = locks ∧
          (jobOf u p).tick.holdover = (t.holdover && (t.locked || !locks)) ∧
          (jobOf u p).state = if j.arming = true ∧ j.awaiting = [] ∧ locks = true ∧ j.state = .loaded then .armed else j.state)
    (∀ (k : Fin 4) (domain source : Nat) (m : PtpMsg),
      let got : State := { (match physPort s p k with
        | some n => modPort s n fun y => { y with rxf := y.rxf.add 1 }
        | none => s) with now := time }
      let mine : Prop := x.best.map (·.id) = some source
      let puts (P : PtpPort → Prop) : Prop := ∃ y, exec (.ptpMessage p k domain source m now) s = .next (setJob got p { j with tick := { t with ptp := y } }) ∧ P y
      let shows (gap : Int) : Prop := match x.path with
        | some d => ∃ u, exec (.ptpMessage p k domain source m now) s = .next u ∧ measured u (gap - d) 16 ∧
            (jobOf u p).tick.shift = t.shift - (gap - d) ∧ jobOf u (1 - p) = jobOf s (1 - p) ∧ timed u ∧ u.ports = got.ports ∧ u.start = s.start
        | none => puts fun y => y.gap = some gap ∧ y.path = none ∧ y.sources = x.sources
      let taken : Prop := clockRuns j = true ∧ j.pps = false ∧ k.val = j.tickPort ∧ domain = j.ptpDomain
      (¬ taken ∨ m = .other → exec (.ptpMessage p k domain source m now) s = .next got) ∧
      (taken → match m with
        | .announce rank log => puts fun y =>
            (-7 ≤ log ∧ log ≤ -4 → ∃ a ∈ y.sources, a.id = source ∧ a.rank = rank) ∧
            (log < -7 ∨ -4 < log → ∀ a ∈ y.sources, a.id ≠ source) ∧
            ∀ b, y.best = some b → b ∈ y.sources ∧ ∀ a ∈ y.sources, rankLe b.rank a.rank = true
        | .sync seq origin corr two => (mine → two = false → shows ((at_ : Int) - origin - corr)) ∧
            (mine → two = true → puts fun y => y = { x with seq := seq, arrived := at_, corr := corr, waits := true }) ∧
            (¬ mine → exec (.ptpMessage p k domain source m now) s = .next got)
        | .followUp seq origin corr => (mine → x.waits = true → x.seq = seq → shows ((x.arrived : Int) - origin - x.corr - corr)) ∧
            (¬ (mine ∧ x.waits = true ∧ x.seq = seq) → exec (.ptpMessage p k domain source m now) s = .next got)
        | .delayResp seq received corr log => ∀ n t3 g, x.asked = some (n, t3) → x.gap = some g →
            (mine → n = seq → puts fun y => y.path = some ((g + ((received : Int) - corr - t3)) / 2) ∧ y.asked = none ∧ y.gap = x.gap ∧
              ∀ a ∈ y.sources, a.id = source → a.logMin = log) ∧
            (¬ (mine ∧ n = seq) → exec (.ptpMessage p k domain source m now) s = .next got)
        | .other => True)) ∧
    (∀ early held, held < 1000 → exec (.ppsInEdge early held now) s = .next { s with now := time }) ∧
    (∀ early held, 1000 ≤ held → ∃ u, exec (.ppsInEdge early held now) s = .next u ∧ timed u ∧ u.ports = s.ports ∧
      u.start = { s.start with ppsUntil := time + held } ∧ (¬ ppsRuns j → jobOf u p = j) ∧
      (ppsRuns j → (jobOf u p).tick.second = t.second + 1 ∧ (jobOf u p).tick.shift = 1000000000 * (t.second : Int) - time ∧ measured u early 4)) ∧
    (clockRuns j = true → t.lastSync + (if j.pps then 1000000050 else 20000000) ≤ now →
      ∃ u, exec (.syncTimeout p now) s = .next u ∧ lost u ∧ jobOf u (1 - p) = jobOf s (1 - p) ∧ timed u ∧ u.start = s.start ∧ u.ports = s.ports) ∧
    (t.holdover = true → t.lostAt + 20000000 ≤ now →
      ∃ u, exec (.holdoverExpiry p now) s = .next u ∧ (jobOf u p).tick.holdover = false ∧
        (j.state = .running → Faulted s u p 0x3B01 ∧ Told s u p 0x3B01) ∧
        (j.state ≠ .running → u = { setJob s p { j with tick := { t with holdover := false } } with now := time })) ∧
    (∀ rising, exec (.ppsOutEdge p rising now) s =
      .next { (if j.tickOf now % 1000000000 = (if rising then 0 else 100000) then setJob s p { j with tick := { t with ppsOut := rising && t.locked } } else s)
        with now := time }) ∧
    (∀ b g n, clockRuns j = true → j.pps = false → x.best = some b → x.gap = some g → physPort s p j.tickPort = some n →
      let due : Prop := ∀ a, x.askedAt = some a → a + delayInterval b.logMin ≤ now
      (due → ∃ u, exec (.delayReqSend p now) s = .next u ∧ u = { s with jobs := u.jobs, ports := u.ports, sentLink := u.sentLink, now := time } ∧
        jobOf u p = { j with tick := { t with ptp := { x with asked := some (x.next, at_), next := (x.next + 1) % 65536, askedAt := some time } } } ∧
        jobOf u (1 - p) = jobOf s (1 - p) ∧
        (Carries s n → u.sentLink = s.sentLink ++ [(n, .delayReq p x.next j.ptpDomain j.table.pcpCtl (if j.table.encap = 1 then some j.table.dscpCtl else none))] ∧
          portAt u n = { portAt s n with txf := (portAt s n).txf.add 1 }) ∧
        (¬ Carries s n → u.sentLink = s.sentLink ∧ u.ports = s.ports) ∧ ∀ m, m ≠ n → portAt u m = portAt s m) ∧
      (¬ due → exec (.delayReqSend p now) s = .next { s with now := time }))

/-- A receiver drops and counts a frame of an unused or another type, of another version, with a failed check, of
another job or for another member, and any frame while the partition is not LOADED, ARMED or RUNNING: nothing but the
port's counters moves, and no frame is sent (R419). -/
def Obligations.FramesDropped : Prop :=
  ∀ (s : State) (n : Fin 5) (f : Frame) (now : Nat), Shape s →
    let x := portAt s n
    let j := jobOf s x.part
    let drops (i : Instr) (typ : Nat) : Prop :=
      (f.ver ≠ 1 ∨ f.typ ≠ typ ∨ f.crcOk = false ∨ f.jobId ≠ j.id.toNat ∨ f.dst ≠ j.member ∨ x.assigned = false ∨
        ¬ (j.state = .loaded ∨ j.state = .armed ∨ j.state = .running)) →
      exec i s = .next { modPort s n (fun x => { x with rxf := x.rxf.add 1, fecc := x.fecc.add f.fec, badf := errAdd x.badf 1 }) with now := max s.now now }
    drops (.writeFrame n f now) 1 ∧ drops (.ackFrame n f now) 2 ∧ drops (.nackFrame n f now) 3 ∧ drops (.helloFrame n f now) 4 ∧
      drops (.heartbeatFrame n f now) 5 ∧ drops (.doneFrame n f now) 6 ∧ drops (.releaseFrame n f now) 7 ∧ drops (.noticeFrame n f now) 8

/-- WRITE (R253, R400, R421, R430, R431, R432): in sequence, the first check that fails refuses it, CLOSED, STALE, RANGE or
FORMAT, with a NACK, one count and nothing written; a WRITE that passes is applied whole at base + 32·woff and no other
byte moves, and the flow expects the next seq; an ACK that has 8 packets to cover, or whose first came 1 µs ago, leaves
before it; a Fen bank that is not the partition's ends the job with 0x8701 (log 103). A WRITE whose channel retrains, or
behind one of its flow that waits, is held as it came, and the port pauses its sender past the threshold (R416; the threshold
is free, log 166). One beyond the sequence draws a single NACK SEQ, one already applied an ACK; neither writes. A Congestion
Experienced mark is kept for the ACK in UDP mode (R417). -/
def Obligations.WriteFrameApplies : Prop :=
  ∀ (s : State) (n : Fin 5) (f : Frame) (now : Nat), Shape s → badFrame s n f 1 = false →
    let p := (portAt s n).part
    let j := jobOf s p
    let key := flowKey f.src f.jport
    let r := tget {} j.rxFlows key
    let d := (f.seq + 2 ^ 24 - r.expected) % 2 ^ 24
    let k := devWindow s p (bodyAt f 20 1)
    let w := windowAt s k
    let a := w.base + 32 * bodyAt f 24 4
    let size := f.payload.length
    let closed : Prop := w.isOpen = false ∨ w.declared = false ∨ (s.split = true ∧ 128 ≤ bodyAt f 20 1)
    let reason (q : Nat) : Prop :=
      (q = 2 ∧ closed) ∨ (q = 3 ∧ ¬ closed ∧ bodyAt f 22 2 ≠ w.gen.toNat) ∨
      (q = 4 ∧ ¬ closed ∧ bodyAt f 22 2 = w.gen.toNat ∧ 32 * w.len < 32 * bodyAt f 24 4 + size) ∨
      (q = 5 ∧ ¬ closed ∧ bodyAt f 22 2 = w.gen.toNat ∧ 32 * bodyAt f 24 4 + size ≤ 32 * w.len ∧ f.nm = true ∧ nmOk f = false)
    let expected (u : State) (e : Nat) : Prop := (tget {} (jobOf u p).rxFlows key).expected = e
    let time := max s.now now
    let ce := f.ce && decide (j.table.encap = 1)
    let full := decide (0 < r.run ∧ (8 ≤ r.run ∨ r.since + 1000 < time))
    let ack : Frame := { control s p f.jport f.src 2 (leBytes 4 ((r.expected + 2 ^ 24 - 1) % 2 ^ 24) ++ [if r.ece then 1 else 0]) with ece := r.ece }
    let wrote (u : State) : Prop :=
      if isFen a then u.mem = s.mem ∧ ∀ e, fenOf u e = if e = (a - fenBase) / fenDie then
          { fenOf s e with scr := mwrite (fenOf s e).scr ((a - fenBase) % fenDie) f.payload } else fenOf s e
      else u.mem = mwrite s.mem a f.payload ∧ u.fens = s.fens
    (d < 2 ^ 23 → writeWaits s p f = true → ∃ u, exec (.writeFrame n f now) s = .next u ∧ jobOf u p = { j with rxHeld := j.rxHeld ++ [f] } ∧
      jobOf u (1 - p) = jobOf s (1 - p) ∧ u = { s with jobs := u.jobs, ports := u.ports, sentLink := u.sentLink, now := time } ∧
      ∀ m, physPort s p f.jport = some m → f.jport < j.ports → Carries s m → j.table.pcpData ∉ (portAt s m).xoff →
        Config.pfcThreshold < (((j.rxHeld ++ [f]).filter fun g => decide (g.jport = f.jport)).map frameLen).sum →
        (m, .pfc j.table.pcpData Config.pfcQuanta) ∈ u.sentLink ∧ j.table.pcpData ∈ (portAt u m).xoff) ∧
    (d = 0 → writeWaits s p f = false → (∀ q, ¬ reason q) → fenRefuses s p a size = false →
      ∃ u, exec (.writeFrame n f now) s = .next u ∧ wrote u ∧
        tget {} (jobOf u p).rxFlows key = { expected := (r.expected + 1) % 2 ^ 24, nacked := false, ackDue := true, ece := (r.ece && !full) || ce
                                            run := (if full then 0 else r.run) + 1, since := if full = true ∨ r.run = 0 then time else r.since } ∧
        (full = true → Sent1 s u p f.jport ack) ∧ (full = false → u.sentFrames = s.sentFrames) ∧ (∀ v, windowAt u v = if v = k then { w with appl := w.appl.add 1 } else windowAt s v) ∧
        u = { s with jobs := u.jobs, fens := u.fens, mem := u.mem, memParts := u.memParts, windows := u.windows, ports := u.ports
                     sentFrames := u.sentFrames, now := time }) ∧
    (d = 0 → writeWaits s p f = false → (∀ q, ¬ reason q) → fenRefuses s p a size = true →
      ∃ u, exec (.writeFrame n f now) s = .next u ∧ Faulted s u p 0x8701) ∧
    (∀ q, d = 0 → writeWaits s p f = false → reason q → ∃ u, exec (.writeFrame n f now) s = .next u ∧
      expected u r.expected ∧ Sent1 s u p f.jport (control s p f.jport f.src 3 (leBytes 4 f.seq ++ [BitVec.ofNat 8 q])) ∧
      (windowAt u k).drop = errAdd w.drop 1 ∧ (windowAt u k).appl = w.appl ∧ (q = 5 → Faulted s u p 0x5A06) ∧
      (q ≠ 5 → u = { s with jobs := u.jobs, windows := u.windows, ports := u.ports, sentFrames := u.sentFrames, now := max s.now now } ∧
        (jobOf u p).state = j.state)) ∧
    (0 < d → d < 2 ^ 23 → writeWaits s p f = false → ∃ u, exec (.writeFrame n f now) s = .next u ∧ expected u r.expected ∧
      (tget {} (jobOf u p).rxFlows key).nacked = true ∧
      (r.nacked = false → Sent1 s u p f.jport (control s p f.jport f.src 3 (leBytes 4 r.expected ++ [1]))) ∧
      (r.nacked = true → u.sentFrames = s.sentFrames) ∧
      u = { s with jobs := u.jobs, ports := u.ports, sentFrames := u.sentFrames, now := max s.now now }) ∧
    (2 ^ 23 ≤ d → ∃ u, exec (.writeFrame n f now) s = .next u ∧
      tget {} (jobOf u p).rxFlows key = { r with ackDue := true, ece := r.ece || ce } ∧
      u = { s with jobs := u.jobs, ports := u.ports, now := max s.now now })

/-- ACK frees the covered packets of its flow and moves the window: halved with ece, never below 4; one packet more for
each window acknowledged without it, never above 32. NACK SEQ sends every unacknowledged packet again and counts a
round; a third round, or CLOSED, STALE, RANGE or FORMAT, ends the SEND with its fault. HELLO draws a reply, or marks its
member as replied. HEARTBEAT restarts the member's watch. DONE and RELEASE act once, in their own Beat. NOTICE takes the
job to FAULTED or KILLED and goes on to every other neighbour (R329, R417, R424, R425, R435 to R438). -/
def Obligations.ControlFramesAct : Prop :=
  ∀ (s : State) (n : Fin 5) (f : Frame) (now : Nat), Shape s →
    let p := (portAt s n).part
    let j := jobOf s p
    let key := flowKey f.src f.jport
    let fl := tget {} j.txFlows key
    let seq := bodyAt f 20 4 % 2 ^ 24
    let covered (q : Packet) : Bool := decide ((seq + 2 ^ 24 - q.seq) % 2 ^ 24 < 2 ^ 23)
    let got := (fl.unacked.filter covered).length
    let reason := bodyAt f 24 1
    let quiet (u : State) : Prop := u.mem = s.mem ∧ u.fens = s.fens ∧ u.cache = s.cache ∧ jobOf u (1 - p) = jobOf s (1 - p)
    let flow (u : State) : TxFlow := tget {} (jobOf u p).txFlows key
    (badFrame s n f 2 = false → ∃ u, exec (.ackFrame n f now) s = .next u ∧ quiet u ∧ u.sentFrames = s.sentFrames ∧
      (∀ q ∈ (flow u).unacked, q ∈ fl.unacked ∧ covered q = false) ∧ (jobOf u p).ece = (if reason % 2 = 1 then j.ece.add 1 else j.ece) ∧
      (reason % 2 = 1 → (flow u).window = max 4 (fl.window / 2)) ∧
      (reason % 2 = 0 → 0 < fl.window → ∃ i, let w (k : Nat) := if k = 0 then fl.window else min 32 (fl.window + k)
        (flow u).window = w i ∧ (flow u).gained < w i ∧ fl.gained + got = (flow u).gained + ((List.range i).map w).sum)) ∧
    (∀ q rest, badFrame s n f 3 = false → reason = 1 → fl.unacked = q :: rest →
      ∃ u, exec (.nackFrame n f now) s = .next u ∧ Round s u p key q) ∧
    (∀ q, badFrame s n f 3 = false → reason ≠ 1 → 2 ≤ reason → reason ≤ 5 → fl.unacked.find? (fun q => decide (q.seq = seq)) = some q →
      ∃ u, exec (.nackFrame n f now) s = .next u ∧ quiet u ∧ (jobOf u p).nack = errAdd j.nack 1 ∧
        tileAt u q.tile = failFlight (tileAt s q.tile) q.tag (if reason = 5 then 0x5408 else 0x4A02) ∧
        (∀ k, k ≠ q.tile → tileAt u k = tileAt s k) ∧ ∀ x ∈ (jobOf u p).sends, ¬ (x.tile = q.tile ∧ x.tag = q.tag)) ∧
    (badFrame s n f 4 = false → bodyAt f 20 8 = j.planId →
      (bodyAt f 28 1 % 2 = 1 → ∃ u, exec (.helloFrame n f now) s = .next u ∧ quiet u ∧ u.tiles = s.tiles ∧ f.src ∉ (jobOf u p).awaiting ∧
        ∀ m ∈ j.awaiting, m ≠ f.src → m ∈ (jobOf u p).awaiting) ∧
      (bodyAt f 28 1 % 2 = 0 → j.state = .loaded ∨ j.state = .armed → ∃ u, exec (.helloFrame n f now) s = .next u ∧ quiet u ∧ u.jobs = s.jobs ∧
        Sent1 s u p f.jport (control s p f.jport f.src 4 (leBytes 8 j.planId ++ [1])))) ∧
    (badFrame s n f 5 = false → ∃ u, exec (.heartbeatFrame n f now) s = .next u ∧
      jobOf u p = { j with heard := tset 0 j.heard key (max s.now now + 1) } ∧ u = { s with jobs := u.jobs, ports := u.ports, now := max s.now now } ∧
      jobOf u (1 - p) = jobOf s (1 - p)) ∧
    (badFrame s n f 6 = false → beatMatches j f = true → ∃ u, exec (.doneFrame n f now) s = .next u ∧
      jobOf u p = { j with doneFrom := if j.doneFrom.contains f.src then j.doneFrom else j.doneFrom ++ [f.src] } ∧
      u = { s with jobs := u.jobs, ports := u.ports, now := max s.now now } ∧ jobOf u (1 - p) = jobOf s (1 - p)) ∧
    (badFrame s n f 7 = false → beatMatches j f = true → j.nextStart = none →
      (j.tickOf now + slotLen j ≤ bodyAt f 24 8 → ∃ u, exec (.releaseFrame n f now) s = .next u ∧ jobOf u p = { j with nextStart := some (bodyAt f 24 8) } ∧
        (∀ c ∈ childrenOf j.member j.gsize, Sent s u p c 7 (leBytes 4 j.j ++ leBytes 8 (bodyAt f 24 8))) ∧
        u = { s with jobs := u.jobs, ports := u.ports, sentFrames := u.sentFrames, now := max s.now now } ∧ jobOf u (1 - p) = jobOf s (1 - p)) ∧
      (bodyAt f 24 8 < j.tickOf now + slotLen j → ∃ u, exec (.releaseFrame n f now) s = .next u ∧ Faulted s u p 0x4603)) ∧
    (badFrame s n f 8 = false → j.state = .armed ∨ j.state = .running → ∃ u, exec (.noticeFrame n f now) s = .next u ∧
      (∀ a, ¬ DevDest s p a → mget u.mem a = mget s.mem a) ∧ u.cache = s.cache ∧ jobOf u (1 - p) = jobOf s (1 - p) ∧
      (jobOf u p).orig = bodyAt f 20 2 ∧
      (reason % 2 = 0 → (jobOf u p).state = .faulted ∧ (jobOf u p).remote = true ∧ (jobOf u p).code = BitVec.ofNat 16 (bodyAt f 22 2)) ∧
      (reason % 2 = 1 → (jobOf u p).state = .killed ∧ (jobOf u p).outcome = 3 ∧ (jobOf u p).code = 0) ∧
      ∀ m ∈ neighbours j, m ≠ f.src → Sent s u p m 8 (leBytes 2 (bodyAt f 20 2) ++ leBytes 2 (if reason % 2 = 1 then 0 else bodyAt f 22 2) ++ [BitVec.ofNat 8 (reason % 2)]))

/-! ## Flows, groups and ports -/

/-- PACKET_SEND takes the next packet of the SEND that is nearest after the last tile served among those whose flow has
room and whose port is not paused: it carries the source's bytes, window, generation and place, goes to job port
i mod P with the flow's next seq, and waits unacknowledged; a packet for the member itself is applied or refused in
place. RETRANSMIT_TIMEOUT after 6 µs is a round. SEND_BUDGET_EXPIRY ends the SEND with SEND_LATE. ACK_SEND names the last
seq applied in order, with the ece seen (R418 to R424, R427, R431, R434). -/
def Obligations.FlowRowsSend : Prop :=
  ∀ (s : State) (p : Fin 2) (now : Nat), Shape s →
    let s1 := startSends { s with now := max s.now now } p
    let j := jobOf s p
    let dist (x : Send) : Nat := (x.tile + 512 - (j.sendRr + 1) % 512) % 512
    (∀ x, nextSend s1 p = some x → j.state = .running →
      let c := nth (0, 0) (sendCuts x.o.nm (32 * (x.o.len + 1))) x.sent
      let f := sendPacket s p x x.sent
      let key := flowKey x.o.peer f.jport
      let fl := tget {} j.txFlows key
      let g : Frame := { f with seq := fl.next }
      let a := (windowAt s (devWindow s p (bodyAt f 20 1))).base + 32 * bodyAt f 24 4
      x ∈ (jobOf s1 p).sends ∧ maySend s1 p x = true ∧ (∀ y ∈ (jobOf s1 p).sends, maySend s1 p y = true → dist x ≤ dist y) ∧
      f.typ = 1 ∧ f.dst = x.o.peer ∧ f.src = j.member ∧ f.jobId = j.id.toNat ∧ f.jport = x.sent % max 1 j.ports ∧
      bodyAt f 20 1 = x.o.window % 256 ∧ bodyAt f 22 2 = x.gen % 65536 ∧ bodyAt f 24 4 = (x.o.woff + c.1 / 32) % 2 ^ 32 ∧
      f.payload = sendData s x c.1 c.2 ∧
      (x.o.peer ≠ j.member → ∃ u, exec (.packetSend p [] now) s = .next u ∧ Sent1 s u p f.jport g ∧ u.mem = s.mem ∧ u.fens = s.fens ∧ u.tiles = s.tiles ∧
        jobOf u (1 - p) = jobOf s (1 - p) ∧ (tget {} (jobOf u p).txFlows key).next = (fl.next + 1) % 2 ^ 24 ∧
        (tget {} (jobOf u p).txFlows key).unacked = fl.unacked ++ [{ seq := fl.next, tile := x.tile, tag := x.tag, frame := g, sentAt := max s.now now }] ∧
        (jobOf u p).sendRr = x.tile) ∧
      (x.o.peer = j.member → refusal s p f = 0 → isFen a = false → fenRefuses s p a f.payload.length = false →
        ∃ u, exec (.packetSend p [] now) s = .next u ∧ u.mem = mwrite s.mem a f.payload ∧ u.sentFrames = s.sentFrames ∧ u.fens = s.fens) ∧
      (x.o.peer = j.member → refusal s p f ≠ 0 → refusal s p f ≠ 5 →
        ∃ u, exec (.packetSend p [] now) s = .next u ∧ u.mem = s.mem ∧ u.fens = s.fens ∧ u.sentFrames = s.sentFrames ∧
          tileAt u x.tile = failFlight (tileAt s x.tile) x.tag 0x4A02)) ∧
    (nextSend s1 p = none → exec (.packetSend p [] now) s = .next s1) ∧
    (∀ (peer : Nat) (k : Fin 4) q rest, (tget {} j.txFlows (flowKey peer k)).unacked = q :: rest → q.sentAt + 6000 ≤ now → j.state = .running →
      ∃ u, exec (.retransmitTimeout p peer k now) s = .next u ∧ Round s u p (flowKey peer k) q) ∧
    (∀ (t : Fin 256) (tag : Fin 64) x t0, j.sends.find? (fun x => decide (x.tile = physTile s t ∧ x.tag = tag.val)) = some x →
      x.started = some t0 → t0 + x.budget ≤ now →
      ∃ u, exec (.sendBudgetExpiry p t tag now) s = .next u ∧ tileOf u t = failFlight (tileOf s t) tag 0x4A03 ∧
        (∀ k, k ≠ physTile s t → tileAt u k = tileAt s k) ∧ u = { s with jobs := u.jobs, tiles := u.tiles, now := max s.now now } ∧
        ∀ x ∈ (jobOf u p).sends, ¬ (x.tile = physTile s t ∧ x.tag = tag.val)) ∧
    ∀ (peer : Nat) (k : Fin 4), let r := tget {} j.rxFlows (flowKey peer k)
      r.ackDue = true → j.state = .loaded ∨ j.state = .armed ∨ j.state = .running →
      ∃ u, exec (.ackSend p peer k) s = .next u ∧ u = { s with jobs := u.jobs, ports := u.ports, sentFrames := u.sentFrames } ∧
        Sent1 s u p k { control s p k peer 2 (leBytes 4 ((r.expected + 2 ^ 24 - 1) % 2 ^ 24) ++ [if r.ece then 1 else 0]) with ece := r.ece } ∧
        tget {} (jobOf u p).rxFlows (flowKey peer k) = { r with ackDue := false, ece := false, run := 0 } ∧
        jobOf u p = { j with rxFlows := (jobOf u p).rxFlows } ∧ jobOf u (1 - p) = jobOf s (1 - p)

/-- From ARMED until it leaves RUNNING a member sends HEARTBEAT to every neighbour; a neighbour silent for 250 µs ends a
RUNNING job with PEER_LOST, or PATH_LOST where some port still hears it, and takes an ARMED one back to LOADED. HELLO
goes again after 1 ms, and an ARM gives up after 10 s. PFC pauses a priority the port honours; as the pause ends the frames that
waited leave. A port that comes up takes its mode; one that goes down, trains too long or counts more than 16 uncorrectable
codewords in a second is marked, and a link lost in RUNNING ends the job (R409, R410, R416, R435, R436; what an ARMED member
does of one silent path is the model's choice, log 105). -/
def Obligations.GroupAndPortRows : Prop :=
  ∀ (s : State) (p : Fin 2) (n : Fin 5) (now : Nat), Shape s →
    let j := jobOf s p
    let x := portAt s n
    let beats : Prop := j.state = .armed ∨ j.state = .running
    let onlyPort (u : State) : Prop := u = { s with ports := u.ports, host := u.host, now := u.now } ∧ ∀ k, k ≠ n.val → portAt u k = portAt s k
    let resumes (u : State) (prio : Nat) : Prop :=
      u = { s with ports := u.ports, sentFrames := u.sentFrames } ∧ (∀ k, k ≠ n.val → portAt u k = portAt s k) ∧
      (∀ k, k ∈ (portAt u n).paused ↔ k ∈ x.paused ∧ k ≠ prio) ∧
      (∀ e, e ∈ (portAt u n).held ↔ e ∈ x.held ∧ prioOf (jobOf s e.1) e.2 ≠ prio) ∧
      ∀ e ∈ x.held, prioOf (jobOf s e.1) e.2 = prio → Carries s n → { port := n.val, frame := e.2, link := encapOf (jobOf s e.1) n e.2 } ∈ u.sentFrames
    (beats → j.beatSent + 100000 ≤ now → ∃ u, exec (.heartbeatSend p now) s = .next u ∧
      (∀ m ∈ neighbours j, Sent s u p m 5 (leBytes 4 (j.beat.toNat % 2 ^ 32))) ∧ jobOf u p = { j with beatSent := max s.now now } ∧
      jobOf u (1 - p) = jobOf s (1 - p) ∧ u = { s with jobs := u.jobs, ports := u.ports, sentFrames := u.sentFrames, now := max s.now now }) ∧
    (∀ m, beats → m ∈ neighbours j → (∃ k, k < j.ports ∧ tget 0 j.heard (flowKey m k) + 250000 ≤ now + 1) →
      let all : Prop := ∀ k, k < j.ports → tget 0 j.heard (flowKey m k) + 250000 ≤ now + 1
      ∃ u, exec (.heartbeatLoss p m now) s = .next u ∧
        (j.state = .running → all → Faulted s u p 0x4A04 ∧ (jobOf u p).lost = BitVec.ofNat 32 (2 ^ 31 + m % 2 ^ 14)) ∧
        (j.state = .running → ¬ all → Faulted s u p 0x4A05 ∧ (jobOf u p).lost = BitVec.ofNat 32 (2 ^ 31 + 2 ^ 30 + m % 2 ^ 14)) ∧
        (j.state = .armed → all → (jobOf u p).state = .loaded ∧ (jobOf u p).faultValid = j.faultValid ∧ u.mem = s.mem ∧ u.tiles = s.tiles) ∧
        (j.state = .armed → ¬ all → u = { s with now := max s.now now })) ∧
    (j.arming = true → j.helloAt + 1000000 ≤ now → j.awaiting ≠ [] → ∃ u, exec (.helloResend p now) s = .next u ∧
      (∀ m ∈ j.awaiting, Sent s u p m 4 (leBytes 8 j.planId)) ∧ jobOf u p = { j with helloAt := max s.now now } ∧
      u = { s with jobs := u.jobs, ports := u.ports, sentFrames := u.sentFrames, now := max s.now now }) ∧
    (j.arming = true → j.armFrom + 10000000000 ≤ now → ∃ u, exec (.armTimeout p now) s = .next u ∧
      jobOf u p = { j with arming := false, awaiting := [], armBox := none } ∧ u = { s with jobs := u.jobs, host := u.host, now := max s.now now } ∧
      ∀ k c, j.armBox = some k → k < 8 → (mbxAt s k).cmd = some c → c.ended = false →
        (mbxAt u k).cmd = some { c with status := 9, out := [], ended := true }) ∧
    (∀ (prio : Fin 8) (q : Nat), honours s n prio = true → ∃ u, exec (.pfcFrame n prio q) s = .next u ∧ (portAt u n).pause = x.pause.add q ∧
      (q = 0 → resumes u prio) ∧
      (q ≠ 0 → onlyPort u ∧ (portAt u n).held = x.held ∧ ∀ k, k ∈ (portAt u n).paused ↔ k ∈ x.paused ∨ k = prio.val)) ∧
    (∀ (prio : Fin 8) (q : Nat), honours s n prio = false → exec (.pfcFrame n prio q) s = .next (modPort s n fun x => { x with rxf := x.rxf.add 1 })) ∧
    (∀ prio : Fin 8, ∃ u, exec (.pfcPauseExpiry n prio) s = .next u ∧ resumes u prio) ∧
    (∀ mode, x.state ≤ 1 → 1 ≤ mode → mode ≤ 4 → exec (.linkUp n mode) s = .next (modPort s n fun x => { x with state := 2, mode := mode })) ∧
    (∀ mode, x.state = 3 → x.mode = 0 → 1 ≤ mode → mode ≤ 4 → exec (.linkUp n mode) s = .next (modPort s n fun x => { x with mode := mode })) ∧
    (x.mode ≠ 0 → ∃ u, exec (.linkDown n) s = .next u ∧ (portAt u n).mode = 0 ∧ (portAt u n).linkdn = errAdd x.linkdn 1 ∧
      (∀ k, k ≠ n.val → (portAt u k).state = (portAt s k).state) ∧
      (x.assigned = false → (portAt u n).state = (if x.state = 3 then 3 else 0) ∧ onlyPort u) ∧
      (x.assigned = true → faultable (jobOf s x.part).state = true → (portAt u n).state = 3) ∧
      (x.assigned = true → (jobOf s x.part).state = .running → Faulted s u x.part (0x4B00 + n)) ∧
      (x.assigned = true → (jobOf s x.part).state = .armed → (jobOf u x.part).state = .loaded ∧ u.tiles = s.tiles ∧ u.mem = s.mem)) ∧
    (x.state = 1 → x.trainFrom + 500000000 ≤ now → ∃ u, exec (.portTrainTimeout n now) s = .next u ∧ (portAt u n).state = 3 ∧ onlyPort u ∧
      u.host.irqStatus.getLsbD 10 = true) ∧
    (let times := (x.fecTimes.filter fun t => decide (max s.now now < t + 1000000000)) ++ [max s.now now]
     ∃ u, exec (.fecUncorrectable n now) s = .next u ∧ onlyPort u ∧ (portAt u n).fecu = errAdd x.fecu 1 ∧ (portAt u n).fecTimes = times ∧
       (portAt u n).state = if 16 < times.length then 3 else x.state)

/-! ## The Fen and LPDDR5X -/

/-- FEN_REQUEST: requests come over the path of their tile's die; the master of highest priority has the bank port and every
loser counts a refused cycle; the bank serves it only when READY as a scratchpad of its partition, else refuses it with
0x8701, and an uncorrectable read is counted and ends the job. FEN_NEAR_MEMORY_ADD adds a sector whole, rounded once, or
stores nothing and ends its instruction; it waits for its channel. FEN_SECTOR_FILL makes a missing sector valid with
memory's bytes; FEN_WRITE_BACK puts a dirty sector in memory. FEN_SCRUB moves on one line: it counts a corrected error
wherever it lies, fetches a clean sector lost to a double-bit error again, and ends the job of a bank whose scratchpad line,
dirty sector or tag entry is lost. A bank that changes hands drains, in cache mode its own dirty sectors and tags alone, and
clears, which leaves it zero (R24, R176 to R178, R252 to R254, R256 to R259, R393, R400, R474; that the memory side's request
only arbitrates, and which dirty sectors a bank drains, is the model's choice, logs 51 and 53). -/
def Obligations.FenRows : Prop :=
  ∀ (s : State) (d : Fin 2) (b : Fin 32), Shape s → MemOk s →
    let f := fenOf s d
    let x := bankAt s d b
    let only (u : State) : Prop := u = { s with fens := u.fens } ∧ ∀ k, k ≠ d.val → fenOf u k = fenOf s k
    let bank (u : State) (y : Bank) : Prop := ∀ k, bankAt u d k = if k = b.val then y else bankAt s d k
    (∀ (reqs : List FenReq) (w : FenReq), let qs := reqs.filter (fenPath s d)
      qs.find? (fun r => qs.all fun q => decide (fenRank r.master ≤ fenRank q.master)) = some w →
      let lost (m : FenMaster) (c : Stat) : Stat := ((qs.erase w).filter fun r => decide (r.master = m)).foldl (fun c _ => c.add 1) c
      let counted (u : State) : Prop := (fenOf u d).confMem = lost .mem f.confMem ∧ (fenOf u d).confD2d = lost .d2d f.confD2d ∧
        (fenOf u d).confMesh = lost .mesh f.confMesh
      let a := fenBank * b + w.off % fenBank
      let ready : Prop := x.state = .ready ∧ x.mode = 1 ∧ x.part = w.part
      (w.master = .mem → ∃ u, exec (.fenRequest d b reqs) s = .next u ∧ counted u ∧ only u ∧ (fenOf u d).scr = f.scr) ∧
      (w.master ≠ .mem → ready → w.wr ≠ [] → ∃ u, exec (.fenRequest d b reqs) s = .next u ∧ counted u ∧ only u ∧
        (fenOf u d).scr = mwrite f.scr a (w.wr.take 128)) ∧
      (∀ k, w.master ≠ .mem → ready → w.wr = [] → (w.errs = [] ∨ w.errs = [{ word := k }]) →
        ∃ u, exec (.fenRequest d b reqs) s = .next u ∧ counted u ∧ only u ∧
        (fenOf u d).scr = f.scr ∧ (fenOf u d).out = mread f.scr a (min 128 w.len) ∧
        (fenOf u d).ce = if w.errs = [] then f.ce else errAdd f.ce 1) ∧
      (w.master ≠ .mem → ready → w.wr = [] → w.errs = [{ ecc := .double }] → ∃ u, exec (.fenRequest d b reqs) s = .next u ∧ counted u ∧
        (fenOf u d).ue = errAdd f.ue 1 ∧ (fenOf u d).out = f.out ∧
        (faultable (jobOf s w.part).state = true → Faulted s u w.part 0x2701)) ∧
      (w.master ≠ .mem → ¬ ready → ∃ u, exec (.fenRequest d b reqs) s = .next u ∧ counted u ∧ (fenOf u d).out = f.out ∧
        (∀ pt tag, w.tile = some (pt, tag) → tileAt u pt = failFlight (tileAt s pt) tag 0x8701 ∧ (fenOf u d).scr = f.scr ∧
          ∀ k, k ≠ pt → tileAt u k = tileAt s k) ∧
        (w.tile = none → faultable (jobOf s (partOfDie s w.part)).state = true → Faulted s u (partOfDie s w.part) 0x8701))) ∧
    (∀ a rest, f.adds = a :: rest → let p := partOfDie s (a.tile / 256)
      (accessWaits s p a.addr 32 true false = true → ∀ e, exec (.fenNearMemoryAdd d e) s = .next s) ∧
      (accessWaits s p a.addr 32 true false = false → fenRefuses s p a.addr 32 = true →
        ∀ e, ∃ u, exec (.fenNearMemoryAdd d e) s = .next u ∧ (fenOf u d).adds = rest ∧ tileAt u a.tile = failFlight (tileAt s a.tile) a.tag 0x8701 ∧
          u = { s with fens := u.fens, tiles := u.tiles }) ∧
      (a.addr % 32 = 0 → accessWaits s p a.addr 32 true false = false → fenRefuses s p a.addr 32 = false → (tileAt s a.tile).halted = false →
        (∀ bs, addSector a.bf16 (tilePeek s p a.addr 32) a.xs = some bs → ∃ u, exec (.fenNearMemoryAdd d []) s = .next u ∧
          tilePeek u p a.addr 32 = bs ∧ (fenOf u d).adds = rest ∧ tileAt u a.tile = partDone (tileAt s a.tile) a.tag ∧
          (∀ k, k ≠ a.tile → tileAt u k = tileAt s k) ∧ u.jobs = s.jobs ∧
          (isFen a.addr = true → u.mem = s.mem ∧ u.cache = s.cache) ∧
          (placeOf s p a.addr = .memory → u.cache = s.cache ∧ ∀ k, k < a.addr ∨ a.addr + 32 ≤ k → mget u.mem k = mget s.mem k)) ∧
        (addSector a.bf16 (tilePeek s p a.addr 32) a.xs = none → ∃ u, exec (.fenNearMemoryAdd d []) s = .next u ∧
          (∀ k, (fenOf u k).scr = (fenOf s k).scr) ∧ (fenOf u d).adds = rest ∧ tileAt u a.tile = failFlight (tileAt s a.tile) a.tag 0x5408))) ∧
    (∀ (t : Fin 256) a h, let p := partOf s t
      placeOf s p a = .cached h → sectorValid s a = false → waitsAt s a = false →
      (∃ u, exec (.fenSectorFill t a []) s = .next u ∧ sectorValid u a = true ∧ sectorDirty u a = sectorDirty s a ∧
        peekSector u p (32 * (a / 32)) = mread s.mem (32 * (a / 32)) 32 ∧
        (fenOf u h).miss = (fenOf s h).miss.add 1 ∧ u.tiles = s.tiles ∧ u.jobs = s.jobs) ∧
      (∀ n, chanOf s a = some n → faultable (jobOf s (partOfAddr s a)).state = true →
        ((chanAt s n).bad.filter fun y => decide (y = (slotOf s a).2)).length < 2 →
        ∃ u, exec (.fenSectorFill t a [{ addr := a, ecc := .double }]) s = .next u ∧ sectorValid u a = false ∧
          Faulted s u (partOfAddr s a) (0x2800 + n))) ∧
    (∀ (t : Fin 256) a evict, sectorValid s a = true →
      let l := tget {} s.cache (a / 128)
      let k := a / 32 % 4
      let at0 := 32 * (a / 32)
      ∃ u, exec (.fenWriteBack t a evict []) s = .next u ∧ sectorValid u a = !evict ∧ sectorDirty u a = false ∧
        (sectorDirty s a = true → waitsAt s at0 = false → u.mem = mwrite s.mem at0 (mread l.data (32 * k) 32)) ∧
        (∀ n, sectorDirty s a = true → chanOf s at0 = some n → (chanAt s n).retraining = true → u.mem = s.mem ∧
          (chanAt u n).waiting = (chanAt s n).waiting ++ [{ tile := physTile s t, addr := at0, wr := mread l.data (32 * k) 32 }]) ∧
        (sectorDirty s a = false → u.mem = s.mem ∧ u.chans = s.chans) ∧
        (∀ e, e ≠ a / 128 → tget {} u.cache e = tget {} s.cache e) ∧ u.fens = s.fens ∧ u.tiles = s.tiles) ∧
    (let on (u : State) : Prop := (bankAt u d b).scrub = (x.scrub + 1) % 16384
     let cache : Prop := x.state = .ready ∧ x.mode = 2
     let ends (u : State) : Prop := (fenOf u d).ue = errAdd f.ue 1 ∧ (faultable (jobOf s x.part).state = true → Faulted s u x.part 0x2701)
     exec (.fenScrub d b []) s = .next (modBank s d b fun x => { x with scrub := (x.scrub + 1) % 16384, scrubbed := min 256 (x.scrubbed + 1) }) ∧
      (∀ k, cache ∨ k < 16 → ∃ u, exec (.fenScrub d b [{ word := k }]) s = .next u ∧ only u ∧
        (fenOf u d).ce = errAdd f.ce 1 ∧ (fenOf u d).scr = f.scr ∧ on u) ∧
      (∀ k, x.state = .ready → x.mode = 1 → x.scrub < 16384 → k < 16 → ∃ u, exec (.fenScrub d b [{ word := k, ecc := .double }]) s = .next u ∧ ends u) ∧
      (∀ k, cache → 16 ≤ k → ∃ u, exec (.fenScrub d b [{ word := k, ecc := .double }]) s = .next u ∧ ends u) ∧
      ∀ k l, cache → k < 16 → scrubLine s d b x.scrub = some l → sectorValid s (128 * l + 8 * k) = true → (tget {} s.cache l).bank = b.val →
        let a := 128 * l + 32 * (k / 4)
        (sectorDirty s a = true → ∃ u, exec (.fenScrub d b [{ word := k, ecc := .double }]) s = .next u ∧ ends u) ∧
        (sectorDirty s a = false → waitsAt s a = false → ∃ u, exec (.fenScrub d b [{ word := k, ecc := .double }]) s = .next u ∧
          sectorValid u a = true ∧ mread (tget {} u.cache l).data (32 * (k / 4)) 32 = mread s.mem a 32 ∧ mread u.mem a 32 = mread s.mem a 32 ∧
          (fenOf u d).ce = errAdd f.ce 1 ∧ u.jobs = s.jobs ∧ u.tiles = s.tiles)) ∧
    (∀ mode (p : Fin 2), mode ≤ 2 → (x.state = .ready ∨ x.state = .unassigned) → faultable (jobOf s p).state = false →
      (x.mode = 0 ∨ faultable (jobOf s x.part).state = false) → ∃ u, exec (.fenBankWrite d b mode p) s = .next u ∧ only u ∧
        bank u { x with state := .draining, mode := mode, part := p, oldMode := x.mode, oldPart := x.part, release := decide (mode = 0) } ∧
        (fenOf u d).scr = f.scr) ∧
    (∀ mode (p : Fin 2), (faultable (jobOf s p).state = true ∨ (x.mode ≠ 0 ∧ faultable (jobOf s x.part).state = true)) →
      exec (.fenBankWrite d b mode p) s = .next s) ∧
    (x.state = .draining → let mine (l : CLine) : Prop := x.oldMode = 2 ∧ l.die = d.val ∧ l.bank = b.val ∧ l.part = x.oldPart
      ∃ u, exec (.fenBankDrained d b) s = .next u ∧ bank u { x with state := .clearing, oldMode := 0, oldPart := 0 } ∧
      (∀ e ∈ u.cache, ¬ mine e.2) ∧ (∀ e, ¬ mine (tget {} s.cache e) → tget {} u.cache e = tget {} s.cache e) ∧
      (x.oldMode ≠ 2 → u.mem = s.mem ∧ u.cache = s.cache ∧ u.chans = s.chans) ∧
      ∀ line k, k < 4 → mine (tget {} s.cache line) → (tget {} s.cache line).dirty.getLsbD k = true → waitsAt s (128 * line + 32 * k) = false →
        mread u.mem (128 * line + 32 * k) 32 = mread (tget {} s.cache line).data (32 * k) 32) ∧
    (x.state = .clearing → ∃ u, exec (.fenBankCleared d b) s = .next u ∧ only u ∧
      bank u (if x.release then { scrub := x.scrub } else { x with state := .ready }) ∧
      ∀ k, mget (fenOf u d).scr k = if fenBank * b ≤ k ∧ k < fenBank * (b + 1) then 0 else mget f.scr k)

/-- MEMORY_REQUEST serves unit by unit: among what waits, a class with tokens before one without, the classes without tokens
and the tiles within TILE in turn. A unit whose channel retrains waits there; one whose channel works is charged to its
class and served, a write to exactly its bytes, a read answered with them; AWAITING bytes a host reaches are cleared first;
errors are counted on their channel, and an uncorrectable one on a job's read ends the job; more than 1,000 corrected ones
within an hour mark it, with a Reserve record. Retrains fall due after 10 ms or at half the drift limit, forced ones are
counted, the patrol reaches every channel, a failure ends its job, and clearing frees a partition's AWAITING bytes (R390,
R391, R393 to R402, R449, R486, R511, R512; that the hour slides and that the patrol takes sectors in order, of the Reserve
too, is the model's choice, logs 98 and 99, as is what a write of part of a sector does to a lost codeword, log 114). -/
def Obligations.MemoryRows : Prop :=
  ∀ (s : State) (now : Nat) (c : Fin 52), Shape s → MemOk s →
    let x := chanAt s c
    let cp := chanPart s c
    let run : Prop := (jobOf s cp).state = .running
    let time := max s.now now
    let timed : State := { s with now := time }
    let few : Prop := (x.ceTimes.filter fun t => decide (time < t + 3600000000000)).length < 1000
    let marks (u : State) : Prop := (chanAt u c).state = 4 ∧ u.host.irqStatus.getLsbD 10 = true ∧
      (s.sec.records.length < 256 → u.sec.records = s.sec.records ++ [[BitVec.ofNat 8 c, 0, 0, 0, 0, 0, 0, 0]])
    let charged (u : State) (cls : MemClass) (p n : Nat) : Prop :=
      (nth {} u.memParts p).units = setAt (nth {} s.memParts p).units (classIdx cls) ((nth {} (nth {} s.memParts p).units (classIdx cls)).add n)
    (∀ p q r, nextUnit s p q = some r → let m := nth {} (refill s p).memParts p
      let waits (y : MemReq) : Prop := y ∈ q ∧ partOfAddr s y.addr = p
      let has (y : MemReq) : Prop := 256 ≤ nth 0 m.tokens (classIdx y.cls)
      waits r ∧ (∀ y, waits y → has y → has r) ∧
        (¬ has r → ∀ y, waits y → roundFrom 4 m.lastClass (classIdx r.cls) ≤ roundFrom 4 m.lastClass (classIdx y.cls)) ∧
        (r.cls = .tile → ∀ y, waits y → y.cls = .tile → roundFrom 512 m.lastTile r.tile ≤ roundFrom 512 m.lastTile y.tile)) ∧
    (∀ cls tl a wr len link, let n := if wr = [] then len else wr.length
      0 < n → a + max len wr.length ≤ memTop → rangeWaits s a n = false → chanOf s a = some c.val → partOfAddr s (a + n - 1) = partOfAddr s a →
      let i (errs : List MemErr) : Instr := .memoryRequest [{ cls := cls, tile := tl, addr := a, wr := wr, len := len, errs := errs, link := link }] now
      let seen (k : Nat) : Byte := if cls = .host ∧ byteState s k = .awaiting then 0 else mget s.mem k
      let p := partOfAddr s a
      let forJob : Prop := cls = .tile ∨ cls = .cwy ∨ byteState s a = .owned
      let frame (u : State) : Prop := u = { s with mem := u.mem, segs := u.segs, memParts := u.memParts, chans := u.chans
                                                   sec := { s.sec with clearing := u.sec.clearing }, now := time }
      (wr ≠ [] → ∃ u, exec (i []) s = .next u ∧ frame u ∧ charged u cls p (unitsTouched a n) ∧ mread u.mem a n = wr ∧
        (cls ≠ .host → u.segs = s.segs) ∧ (∀ k, a ≤ k → k < a + n → cls = .host → byteState u k ≠ .awaiting) ∧
        (∀ k, k < a ∨ a + n ≤ k → (cls = .host → byteState s k ≠ .awaiting) → mget u.mem k = mget s.mem k)) ∧
      (wr = [] → ∃ u, exec (i []) s = .next u ∧ frame u ∧ charged u cls p (unitsTouched a n) ∧
        (nth {} u.memParts p).out = (List.range n).map (fun k => seen (a + k)) ∧ (cls ≠ .host → u.mem = s.mem ∧ u.segs = s.segs) ∧
        (chanAt u c).ce = x.ce ∧ (chanAt u c).ue = x.ue ∧ (chanAt u c).link = (if link then errAdd x.link 1 else x.link)) ∧
      (wr = [] → ∃ u, exec (i [{ addr := a }]) s = .next u ∧ (few → frame u) ∧ (¬ few → x.state = 0 → marks u) ∧ (nth {} u.memParts p).out = (List.range n).map (fun k => seen (a + k)) ∧
        (chanAt u c).ce = errAdd x.ce 1 ∧ (chanAt u c).ue = x.ue) ∧
      (wr = [] → unitsTouched a n = 1 → (cls = .host → awaitingRuns s a n = []) → (x.bad.filter fun y => decide (y = (slotOf s a).2)).length < 2 →
        ∃ u, exec (i [{ addr := a, ecc := .double }]) s = .next u ∧ (chanAt u c).ue = errAdd x.ue 1 ∧ (nth {} u.memParts p).out = [] ∧
        (forJob → faultable (jobOf s p).state = true → Faulted s u p (0x2800 + c)) ∧ (¬ forJob → frame u))) ∧
    (∀ cls tl a wr len errs link, let n := if wr = [] then len else wr.length
      let r : MemReq := { cls := cls, tile := tl, addr := a, wr := wr, len := len, errs := errs, link := link }
      unitsTouched a n = 1 → a + max len wr.length ≤ memTop → x.retraining = true → chanOf s a = some c.val →
      ∃ u, exec (.memoryRequest [r] now) s = .next u ∧ chanAt u c = { x with waiting := x.waiting ++ memUnits r } ∧
        (∀ k, k ≠ c.val → chanAt u k = chanAt s k) ∧ u = { s with chans := u.chans, memParts := u.memParts, now := time }) ∧
    (∀ half, works x = true → x.retraining = false →
      (half = true ∨ x.driftAt.isSome = true ∨ x.lastRetrain + 10000000 ≤ if (jobOf s cp).state = .running then (jobOf s cp).slotFrom else time) →
      (run → (jobOf s cp).part = .slot ∧ time = (jobOf s cp).slotFrom ∧ x.slotRetrained = false) →
      exec (.lpddrRetrain c half true now) s = .next (modChan timed c fun y => { y with retraining := true, slotRetrained := decide ((jobOf s cp).state = .running)
                                                                                        driftAt := if half then some (y.driftAt.getD time) else y.driftAt }) ∧
      ∃ u, exec (.lpddrRetrain c half false now) s = .next u ∧ ChanFails s u c) ∧
    (∀ half ok, run → ((jobOf s cp).part ≠ .slot ∨ time ≠ (jobOf s cp).slotFrom) → exec (.lpddrRetrain c half ok now) s =
      .next (if half then modChan timed c fun y => { y with driftAt := some (y.driftAt.getD time) } else timed)) ∧
    (works x = true → x.retraining = false →
      let counted (u : State) : Prop := (nth {} u.memParts cp).forced = (nth {} s.memParts cp).forced.add 1
      (x.lastRetrain = 0 ∨ x.lastRetrain + 1000000 ≤ now → ∃ u, exec (.forcedRetrain c true now) s = .next u ∧ counted u ∧
        chanAt u c = { x with retraining := true } ∧ (∀ k, k ≠ c.val → chanAt u k = chanAt s k) ∧
        u = { s with chans := u.chans, memParts := u.memParts, now := time }) ∧
      (0 < x.lastRetrain → now < x.lastRetrain + 1000000 → ∃ u, exec (.forcedRetrain c true now) s = .next u ∧ counted u ∧ ChanFails s u c) ∧
      ∃ u, exec (.forcedRetrain c false now) s = .next u ∧ counted u ∧ ChanFails s u c) ∧
    (x.retraining = true → s.waits = [] → s.host.waits = [] → (∀ p, p < 2 → (jobOf s p).rxHeld = []) → (∀ n, (portAt s n).xoff = []) →
      exec (.retrainEnd c now) s = .next (x.waiting.foldl serveUnit
        (modChan timed c fun y => { y with retraining := false, lastRetrain := time, waiting := [], driftAt := none })) ∧
      ∀ r, x.waiting = [r] → r.wr ≠ [] → r.cls ≠ .host → chanOf s r.addr = some c.val → deadChan x = false →
        ∃ u, exec (.retrainEnd c now) s = .next u ∧ mread u.mem r.addr r.wr.length = r.wr ∧
          ∀ a, a < r.addr ∨ r.addr + r.wr.length ≤ a → mget u.mem a = mget s.mem a) ∧
    (works x = true → x.retraining = false → midBeat s cp = false → (run → x.patrolled < if x.slotRetrained then 64 else 256) →
      let i (e : List WordErr) : Instr := .patrolScrub c e false now
      let a := addrOf s x.part x.slot x.patrol
      let moved (u : State) : Prop := (chanAt u c).patrol = (x.patrol + 32) % 2 ^ 33 ∧
        u = { s with chans := u.chans, memParts := u.memParts, now := time } ∧ ∀ k, k ≠ c.val → chanAt u k = chanAt s k
      (∃ u, exec (.patrolScrub c [] true now) s = .next u ∧ moved u ∧ (chanAt u c).link = errAdd x.link 1) ∧
      (∃ u, exec (i []) s = .next u ∧ moved u ∧ (chanAt u c).ce = x.ce ∧ (chanAt u c).ue = x.ue ∧
        charged u .maint (if x.slot = 0xFF then partOfAddr s (memBase s cp) else partOfAddr s a) 1) ∧
      (x.slot = 0xFF ∨ chanOf s a = some c.val → ∃ u, exec (i [{}]) s = .next u ∧ (few → moved u) ∧ (¬ few → x.state = 0 → marks u) ∧
        (chanAt u c).ce = errAdd x.ce 1) ∧
      (x.slot ≠ 0xFF → chanOf s a = some c.val → byteState s a = .owned → faultable (jobOf s (partOfAddr s a)).state = true →
        (x.bad.filter fun y => decide (y = (slotOf s a).2)).length < 2 →
        ∃ u, exec (i [{ ecc := .double }]) s = .next u ∧ (chanAt u c).ue = errAdd x.ue 1 ∧ Faulted s u (partOfAddr s a) (0x2800 + c))) ∧
    (deadChan x = false → ∃ u, exec (.channelFail c) s = .next u ∧ ChanFails s u c) ∧
    (deadChan x = true → exec (.channelFail c) s = .next s) ∧
    ∀ p : Fin 2, p.val ∈ partitions s → ∃ u, exec (.lpddrClearDone p) s = .next u ∧
      u = { s with mem := u.mem, segs := u.segs, sec := { s.sec with clearing := u.sec.clearing } } ∧
      ∀ a, (memBase s p ≤ a ∧ a < memBase s p + memSize s ∧ byteState s a = .awaiting → byteState u a = .free ∧ mget u.mem a = 0) ∧
        (¬ (memBase s p ≤ a ∧ a < memBase s p + memSize s ∧ byteState s a = .awaiting) → a < memTop → byteState u a = byteState s a ∧ mget u.mem a = mget s.mem a)

/-! ## Mailboxes and their commands -/

/-- A host write reaches a mailbox the host owns: MBX_CTL with owner = 1 hands it off with its opcode and tag, in order of
arrival; the length, the partition and the payload take the word. While the MP owns it the write is dropped and counted,
and before READY nothing is taken. MAILBOX_COMPLETE returns an ended command: owner 0, opcode and tag kept, MBX_SEQ one
more, its status and output, and its IRQ_STATUS bit; an unlisted opcode returns BAD_OPCODE. Every command is first
checked alike: its length, its fields, and whether it waits for another command or a BAR2 write (R450, R452 to R459).
That a write of MBX_CTL with owner = 0 takes the opcode and the tag is the model's choice (log 186), as is that the data that
waits for a returned command is dropped (log 182). -/
def Obligations.MailboxHandshake : Prop :=
  ∀ (s : State) (k : Fin 8), Shape s →
    let m := mbxAt s k
    let others (u : State) : Prop := ∀ i, i ≠ k.val → mbxAt u i = mbxAt s i
    (∀ (off : Nat) (v : BitVec 32) (now : Nat), off % 4 = 0 → off < 0x200 →
      (inService s = false ∨ barReach s = false → exec (.mailboxWrite k off v now) s = .next { s with now := max s.now now }) ∧
      (inService s = true → barReach s = true → m.owner = true →
        exec (.mailboxWrite k off v now) s = .next { modMbx s k (fun m => { m with drop := errAdd m.drop 1 }) with now := max s.now now }) ∧
      (inService s = true → barReach s = true → m.owner = false →
        ∃ u, exec (.mailboxWrite k off v now) s = .next u ∧ others u ∧ u = { s with host := u.host, now := max s.now now } ∧
          u.host = { s.host with mbx := u.host.mbx, orders := u.host.orders } ∧
          (off = 0 → v.getLsbD 31 = true → mbxAt u k = { m with owner := true, opcode := v.extractLsb' 16 8, tag := v.extractLsb' 0 16, order := s.host.orders, handoff := now, arrival := now, cmd := none } ∧ u.host.orders = s.host.orders + 1) ∧
          (off = 0 → v.getLsbD 31 = false → mbxAt u k = { m with opcode := v.extractLsb' 16 8, tag := v.extractLsb' 0 16 }) ∧
          (off = 4 → mbxAt u k = { m with lenIn := v.extractLsb' 0 9 }) ∧ (off = 0xC → mbxAt u k = { m with part := v.getLsbD 0 }) ∧
          (0x40 ≤ off → mbxAt u k = { m with payload := mwrite m.payload (off - 0x40) (leBytes 4 v.toNat) }) ∧
          (off ≠ 0 → off ≠ 4 → off ≠ 0xC → off < 0x40 → u = { s with now := max s.now now }))) ∧
    (∀ (now : Nat) (c : Cmd), m.owner = true → m.cmd = some c → (c.ended = true ∨ (m.opcode = 0x13 ∧ (jobOf s (partNamed m)).state = .idle)) →
      c.out.length ≤ 448 → ∃ u, exec (.mailboxComplete k now) s = .next u ∧
        mbxAt u k = { m with owner := false, status := BitVec.ofNat 16 c.status, lenOut := BitVec.ofNat 9 c.out.length, seq := m.seq + 1, cmd := none, time := BitVec.ofNat 32 ((max s.now now - m.handoff) / 1000), payload := (mbxAt u k).payload } ∧
        mread (mbxAt u k).payload 0 c.out.length = c.out ∧ u.host.irqStatus.getLsbD k = true ∧
        (∀ i, i ≠ k.val → mbxAt u i = { mbxAt s i with handoff := (mbxAt u i).handoff }) ∧
        u = { s with host := u.host, start := u.start, side := u.side, sec := u.sec, free := u.free, now := max s.now now } ∧
        (∀ w, w ∈ u.host.waits ↔ w ∈ s.host.waits ∧ ∀ bs e, w ≠ HostWait.fill k bs e) ∧
        (¬ (m.opcode = 0x31 ∧ c.status = 0) → u.start = s.start ∧ u.side = s.side ∧ u.sec = s.sec) ∧
        (m.opcode = 0x31 → c.status = 0 → u.start = { s.start with phase := .activating } ∧ u.side = { s.side with fd := .idle } ∧
          u.sec = { s.sec with salt := [], aliasKey := 0, aliasCert := [], cdi := [], rootOpen := true, activeB := !s.sec.activeB, staged := none, activated := true })) ∧
    (∀ now : Nat, m.owner = true → m.cmd = none → rowOf m.opcode.toNat = none → ∃ u, exec (.mailboxComplete k now) s = .next u ∧
      (mbxAt u k).status = 1 ∧ (mbxAt u k).owner = false ∧ (mbxAt u k).lenOut = 0 ∧ u.host.irqStatus.getLsbD k = true) ∧
    ∀ (i : Instr) (op now : Nat) (r : CmdRow), boxCmd i = some (k, op, now) → rowOf op = some r → Handed s k op → selects i m = true →
      let s' : State := { s with now := max s.now now }
      (m.lenIn.toNat ≠ r.lenIn → exec i s = .next (finish s' k 2 [])) ∧
      (m.lenIn.toNat = r.lenIn → BadFields s k r → exec i s = .next (finish s' k 3 [])) ∧
      (m.lenIn.toNat = r.lenIn → ¬ BadFields s k r → mustWait s k = true ∨ hostWaits s = true → exec i s = .next s')

/-- The commands that only answer: IDENTIFY, GET_GEOMETRY, QUERY_JOB, READ_LEDGER_POINTER, GET_CERT_CHAIN and FUSE_JOURNAL
change nothing but their mailbox, and give the fields of R460. ATTEST writes its report, with the nonce and its
signature by the alias key of the boot, at the address it is given (R400, R454, R459 to R461, R496, R497, R501, R502,
R506). That it waits for a channel that retrains, and ends with MEM_ERROR at one that serves nothing more, is the model's
reading (logs 107, 146). -/
def Obligations.QueryCommandsAnswer : Prop :=
  ∀ (s : State) (k : Fin 8), Shape s →
    let m := mbxAt s k
    let j := jobOf s (partNamed m)
    let answers (i : Instr) (status : Nat) (out : List Byte) : Prop := exec i s = .next (finish s k status out)
    (Taken s k 0x01 → ∃ out, answers (.identify k) 0 out ∧ out.length = 32 ∧ fieldAt out 0 8 = Config.serial.toNat ∧
      fieldAt out 8 4 = s.sec.run.version.toNat ∧ (s.sec.staged = none → fieldAt out 12 4 = 0) ∧
      (∀ g, s.sec.staged = some g → fieldAt out 12 4 = g.version.toNat) ∧ fieldAt out 16 1 = s.sec.lifecycle % 256 ∧
      fieldAt out 17 1 = (if s.split then 1 else 0) ∧ fieldAt out 18 1 = s.host.speed % 256 ∧ fieldAt out 19 1 = s.host.width % 256 ∧
      fieldAt out 20 1 = s.sec.counter % 256 ∧ fieldAt out 21 1 / 16 = slotMask s.sec 2 ∧ fieldAt out 21 1 % 16 / 2 = slotMask s.sec 1 / 2 ∧
      fieldAt out 22 2 = 0 ∧ fieldAt out 24 8 = s.sec.readyPwr.toNat) ∧
    (Taken s k 0x02 → ∃ out, answers (.getGeometry k) 0 out ∧ out.length = 54 ∧ fieldAt out 0 1 = 2 ∧ fieldAt out 1 1 = 0 ∧ fieldAt out 2 2 = 256 ∧
      (s.split = false → out.drop 16 = zeros 32 ++ out.drop 48) ∧ (s.split = true → fieldAt out 17 1 = 1 ∧ fieldAt out 18 2 = 128 ∧ fieldAt out 33 1 = 1) ∧
      fieldAt out 50 1 = ((List.range 52).filter fun n => decide ((chanAt s n).state = 1)).length ∧ fieldAt out 52 2 = s.sec.records.length % 65536) ∧
    (Taken s k 0x14 → ∃ out, answers (.queryJob k) 0 out ∧ out.length = 36 ∧ fieldAt out 0 1 = j.state.code ∧ fieldAt out 1 1 = j.outcome % 256 ∧
      fieldAt out 2 2 = j.code.toNat ∧ fieldAt out 4 4 = j.whereW.toNat ∧ fieldAt out 8 8 = j.id.toNat ∧ fieldAt out 16 6 = j.beat.toNat ∧
      fieldAt out 22 2 = j.orig % 65536 ∧ fieldAt out 24 4 = j.slack.toNat ∧ fieldAt out 28 8 = j.planId % 2 ^ 64) ∧
    (Taken s k 0x15 → ∃ out, answers (.readLedgerPointer k) 0 out ∧ out.length = 22 ∧ fieldAt out 0 8 = j.ring.base % 2 ^ 64 ∧
      fieldAt out 8 4 = j.ring.depth % 2 ^ 32 ∧ fieldAt out 12 2 = j.ring.nrec % 65536 ∧
      fieldAt out 14 1 = (if j.ring.valid then 1 else 0) + (if j.ring.headValid then 2 else 0) ∧ fieldAt out 16 6 = j.ring.head.toNat) ∧
    (Taken s k 0x20 → ∃ out, answers (.getCertChain k) 0 out ∧ let c := certChain s.sec
      fieldAt out 0 4 = c.length % 2 ^ 32 ∧ fieldAt out 4 4 = (out.drop 16).length ∧ out.drop 16 = (c.drop (inp m 0 4)).take 432) ∧
    (Taken s k 0x22 → 255 < inp m 0 2 → answers (.fuseJournal k) 3 []) ∧
    (Taken s k 0x22 → inp m 0 2 ≤ 255 → ∃ out, answers (.fuseJournal k) 0 out ∧ fieldAt out 0 2 = s.sec.journal.toNat ∧
      let n := min 13 (min s.sec.journal.toNat 256 - inp m 0 2)
      fieldAt out 2 2 = n ∧ out.drop 16 = ((List.range n).map fun i => tget [] s.sec.entries (inp m 0 2 + i)).flatten) ∧
    (Taken s k 0x21 → let a := inp m 48 8
      (s.sec.lifecycle = 2 → answers (.attest k) 4 []) ∧ (s.sec.lifecycle ≠ 2 → a % 64 ≠ 0 → answers (.attest k) 3 []) ∧
      (s.sec.lifecycle ≠ 2 → a % 64 = 0 → (memTop < a + 512 ∨ a < memBase s (partNamed m) ∨ memBase s (partNamed m) + memSize s < a + 512) →
        answers (.attest k) 0xC []) ∧
      (s.sec.lifecycle ≠ 2 → a % 64 = 0 → a + 512 ≤ memTop → memBase s (partNamed m) ≤ a → a + 512 ≤ memBase s (partNamed m) + memSize s → MemOk s →
        let r := report s (partNamed m) (inpB m 0 48)
        let bs := (r ++ ecdsaSign s.sec.aliasKey (signSecret s.sec) (sha384 r)).take 512
        (rangeRetrains s a 512 = true → exec (.attest k) s = .next s) ∧
        (rangeRetrains s a 512 = false → rangeDead s a 512 = true → answers (.attest k) 0xD []) ∧
        r.take 56 = leBytes 4 0x54414B52 ++ leBytes 2 1 ++ leBytes 2 512 ++ mread m.payload 0 48 ∧
        (rangeRetrains s a 512 = false → rangeDead s a 512 = false →
          ∃ u, exec (.attest k) s = .next u ∧ BoxEnds s u k 0 (leBytes 4 512) ∧ mread u.mem a bs.length = bs ∧
          (∀ x, byteState s x ≠ .awaiting → (x < a ∨ a + bs.length ≤ x) → mget u.mem x = mget s.mem x) ∧
          u = { s with host := u.host, mem := u.mem, segs := u.segs, memParts := u.memParts
                       sec := { s.sec with draws := s.sec.draws + 7, clearing := u.sec.clearing } })))

/-- LOAD_PLAN refuses a wrong state, field or range, waits for SCRUBBING and for its channels, reports an uncorrectable read
of its image or the checker's reason and changes nothing of the partition, or admits the plan: the partition is LOADED with the image's
identity and its memory OWNED. ARM takes the member table and sends HELLO to every contact. START gives RUNNING its S_0.
KILL takes a job to KILLED at once. RETAIN gives the job one handle, and RELEASE_RETAINED clears the pages kept under
one (R349 to R353, R400, R413, R414, R435, R456, R459 to R461, R502, R511, R513, R516). The order of the checks, the code of a
refused member table, and what LOAD_PLAN does of AWAITING bytes and of the registers are the model's choices (logs 84, 85, 87,
107, 109). -/
def Obligations.JobCommandsRun : Prop :=
  ∀ (s : State) (k : Fin 8) (now : Nat), Shape s → MemOk s → TilesApart s →
    let m := mbxAt s k
    let p := partNamed m
    let j := jobOf s p
    let time := max s.now now
    let s' : State := { s with now := time }
    let inPart (a n : Nat) : Prop := a + n ≤ memTop ∧ memBase s p ≤ a ∧ a + n ≤ memBase s p + memSize s
    (Taken s k 0x10 → let a := inp m 0 8
      let n := inp m 8 8
      let okFields : Prop := inp m 28 8 ≠ 0 ∧ inp m 36 1 ≤ 8 ∧ a % 64 = 0 ∧ n ≠ 0
      ((j.state ≠ .idle ∧ j.state ≠ .scrubbing) ∨ s.sec.lifecycle = 2 → ∀ e, exec (.loadPlan k e now) s = .next (finish s' k 4 [])) ∧
      ((j.state = .idle ∨ j.state = .scrubbing) → s.sec.lifecycle ≠ 2 → ¬ okFields → ∀ e, exec (.loadPlan k e now) s = .next (finish s' k 3 [])) ∧
      ((j.state = .idle ∨ j.state = .scrubbing) → s.sec.lifecycle ≠ 2 → okFields → ¬ inPart a n → ∀ e, exec (.loadPlan k e now) s = .next (finish s' k 0xC [])) ∧
      ((j.state = .scrubbing ∨ (j.state = .idle ∧ rangeRetrains s a n = true)) → s.sec.lifecycle ≠ 2 → okFields → inPart a n → ∀ e,
        ∃ u, exec (.loadPlan k e now) s = .next u ∧ (mbxAt u k).cmd = some {} ∧ jobOf u p = { j with loadBox := some k } ∧
          u = { s with jobs := u.jobs, host := u.host, now := time }) ∧
      (∀ c, j.state = .idle → s.sec.lifecycle ≠ 2 → okFields → inPart a n → rangeRetrains s a n = false → byteState s a ≠ .owned →
        chanOf s a = some c → ((chanAt s c).bad.filter fun y => decide (y = (slotOf s a).2)).length < 2 →
        ∃ u, exec (.loadPlan k [{ addr := a, ecc := .double }] now) s = .next u ∧ BoxEnds s u k 0xD [] ∧ jobOf u p = { j with loadBox := none } ∧ u.tiles = s.tiles ∧
          (chanAt u c).ue = errAdd (chanAt s c).ue 1) ∧
      (j.state = .idle → s.sec.lifecycle ≠ 2 → okFields → inPart a n → rangeRetrains s a n = false → rangeDead s a n = false →
        let w := loadView s' k p []
        let g : Image := { mem := w.mem, base := a, size := n }
        let c := loadedPlan w k p
        inp m 24 2 ≤ g.num 72 2 → (∀ r ∈ namedRanges w p g, awaitingRuns w r.1 r.2 = []) →
        (∀ r ∈ sourceRanges w p g, rangeRetrains w r.1 r.2 = false) → beyondOf w p = none →
        (∀ r, checkPlan c = some r → ∃ u, exec (.loadPlan k [] now) s = .next u ∧ (mbxAt u k).cmd = some { status := 5, out := loadOut r 0 0, ended := true } ∧
          (jobOf u p).state = .idle ∧ (jobOf u p).outcome = 4 ∧ (jobOf u p).code = BitVec.ofNat 16 r.code ∧ (jobOf u p).whereW = BitVec.ofNat 32 r.loc ∧
          u.tiles = s.tiles ∧ u.fens = s.fens ∧ u.windows = s.windows ∧ u.tileMap = s.tileMap ∧ u.chans = s.chans ∧ jobOf u (1 - p) = jobOf s (1 - p)) ∧
        (checkPlan c = none → (∀ d ∈ diesOf w p, (dieAt w d).top ≤ c.h.pc) →
          (∀ e ∈ loadEntries (segBytes c.img c.segs 8 0), rangeDead w e.src e.bytes = false) → loadmapBad (replaceChannels w p).mem (loadEntries (segBytes c.img c.segs 8 0)) = none →
          ∃ u, exec (.loadPlan k [] now) s = .next u ∧ ((mbxAt u k).cmd.map fun c => (c.status, c.ended)) = some (0, true) ∧ (jobOf u p).state = .loaded ∧
          (jobOf u p).id = BitVec.ofNat 64 (inp m 16 8) ∧ (jobOf u p).member = inp m 24 2 ∧ (jobOf u p).tenant = inp m 28 8 ∧
          (jobOf u p).planId = c.h.planId ∧ (jobOf u p).mPlan = sha384 g.all ∧ (jobOf u p).pc = c.h.pc ∧ (jobOf u p).beatUs = c.h.beatUs ∧
          (jobOf u p).regions = c.regions ∧ (jobOf u p).beat = j.beat ∧ u.host.irqStatus.getLsbD (8 + p) = true ∧ jobOf u (1 - p) = jobOf s (1 - p) ∧
          ∀ r ∈ c.regions, ∀ x, r.base ≤ x → x < r.base + r.len → byteState u x = .owned))) ∧
    (Taken s k 0x11 → let a := inp m 0 8
      let n := inp m 8 4
      let fit : Prop := j.state = .loaded ∧ a % 64 = 0 ∧ n = 64 + 128 * j.gsize ∧ inPart a n ∧ awaitingRuns s a n = []
      (j.state ≠ .loaded → ∀ e, exec (.arm k e now) s = .next (finish s' k 4 [])) ∧
      (fit → rangeRetrains s a n = true → ∀ e, exec (.arm k e now) s = .next s') ∧
      (fit → rangeRetrains s a n = false → rangeDead s a n = true → ∃ u, exec (.arm k [] now) s = .next u ∧ BoxEnds s u k 0xD [] ∧ u.jobs = s.jobs) ∧
      (fit → rangeRetrains s a n = false → rangeDead s a n = false → tableBad s p (mread s.mem a n) = true →
        ∃ u, exec (.arm k [] now) s = .next u ∧ BoxEnds s u k 3 [] ∧ u.jobs = s.jobs) ∧
      (fit → rangeRetrains s a n = false → rangeDead s a n = false → tableBad s p (mread s.mem a n) = false →
        ∃ u, exec (.arm k [] now) s = .next u ∧ (jobOf u p).table = readTable j (mread s.mem a n) ∧ u.mem = s.mem ∧ u.tiles = s.tiles ∧
        (∀ x ∈ contacts j, Sent s u p x 4 (leBytes 8 j.planId)) ∧ (contacts j ≠ [] ∨ j.tick.locked = false → (jobOf u p).state = .loaded ∧
          (jobOf u p).arming = true ∧ (jobOf u p).awaiting = contacts j ∧ (jobOf u p).armFrom = time ∧ (mbxAt u k).cmd = some {}) ∧
        (contacts j = [] → j.tick.locked = true → (jobOf u p).state = .armed))) ∧
    (Taken s k 0x12 → let s0 := inp m 0 8
      let soon : Prop := j.tickOf m.arrival + 1000000 ≤ s0 ∧ s0 ≤ j.tickOf m.arrival + 60000000000
      (j.state ≠ .armed → exec (.start k now) s = .next (finish s' k 4 [])) ∧
      (j.state = .armed → j.tick.locked = false → exec (.start k now) s = .next (finish s' k 7 [])) ∧
      (j.state = .armed → j.tick.locked = true → ¬ soon → exec (.start k now) s = .next (finish s' k 3 [])) ∧
      (j.state = .armed → j.tick.locked = true → soon → overCap s p j.power = true →
        exec (.start k now) s = .next (finish s' k 8 [])) ∧
      (j.state = .armed → j.tick.locked = true → soon → overCap s p j.power = false →
        ∃ u, exec (.start k now) s = .next u ∧ BoxEnds s u k 0 [] ∧ u = { s with jobs := u.jobs, host := u.host, memParts := u.memParts, bal := { s.bal with dies := u.bal.dies }, now := time } ∧
          jobOf u (1 - p) = jobOf s (1 - p) ∧
          jobOf u p = { j with state := .running, s0 := some s0, sn := s0, j := 0, part := .off, nextStart := none, txFlows := [], rxFlows := [], rxHeld := []
                               sends := [] } ∧
          (∀ d, d < 2 → dieAt u d = if d ∈ diesOf s p then { dieAt s d with tilePhase := [], stretchBeat := 0 } else dieAt s d) ∧
          u.host.irqStatus.getLsbD (8 + p) = true)) ∧
    (Taken s k 0x13 → ∃ u, exec (.kill k now) s = .next u ∧ (∀ a, ¬ DevDest s p a → mget u.mem a = mget s.mem a) ∧ jobOf u (1 - p) = jobOf s (1 - p) ∧
      (faultable j.state = true → (jobOf u p).state = .killed ∧ (jobOf u p).outcome = 3 ∧ (jobOf u p).code = 0 ∧ (mbxAt u k).cmd = some { status := 0, out := [3], ended := false } ∧
        ∀ t ∈ tilesOf s p, tileOf s t = {} ∨ (tileOf u t).halted = true) ∧
      (∀ i, j.loadBox = some i → i ≠ k.val → ((mbxAt s i).cmd.map (·.ended)) = some false → (mbxAt u i).cmd.map (fun c => (c.status, c.ended)) = some (10, true)) ∧
      (j.state = .running → ∀ x ∈ neighbours j, Sent s u p x 8 (leBytes 2 j.member ++ [0, 0] ++ [1])) ∧
      (j.state = .idle → (mbxAt u k).cmd = some { status := 0, out := [0], ended := true } ∧ (jobOf u p).state = .idle ∧ u.tiles = s.tiles)) ∧
    (Taken s k 0x18 →
      (faultable j.state = false → exec (.retain k) s = .next (finish s k 4 [])) ∧
      (∀ h, faultable j.state = true → j.handle = some h → exec (.retain k) s = .next (finish s k 0 (leBytes 8 h.toNat))) ∧
      (faultable j.state = true → j.handle = none → ∃ u, exec (.retain k) s = .next u ∧
        BoxEnds s u k 0 (leBytes 8 (Config.randomBits s.sec.draws).toNat) ∧ jobOf u p = { j with handle := some (Config.randomBits s.sec.draws) } ∧
        jobOf u (1 - p) = jobOf s (1 - p) ∧ u = { s with jobs := u.jobs, host := u.host, sec := { s.sec with draws := s.sec.draws + 1 } })) ∧
    (Taken s k 0x19 → let named (g : Page) : Prop := g.tenant = inp m 0 8 ∧ g.handle = some (inp m 8 8)
      (j.state ≠ .idle → exec (.releaseRetained k) s = .next (finish s k 4 [])) ∧
      (j.state = .idle → (∀ t ∈ tilesOf s p, ∀ e ∈ (tileOf s t).pages, ¬ named e.2) → exec (.releaseRetained k) s = .next (finish s k 0xB [])) ∧
      (j.state = .idle → (∃ t ∈ tilesOf s p, ∃ e ∈ (tileOf s t).pages, named e.2) → ∃ u, exec (.releaseRetained k) s = .next u ∧ BoxEnds s u k 0 [] ∧
        u = { s with tiles := u.tiles, host := u.host } ∧ ∀ t ∈ tilesOf s p, tileOf u t = { tileOf s t with pages := (tileOf u t).pages } ∧
          ∀ e, e ∈ (tileOf u t).pages ↔ e ∈ (tileOf s t).pages ∧ ¬ named e.2))

/-! ## The device's commands, the host link, the sideband -/

/-- OWNER_KEY enrols a key in an EMPTY slot, revokes one, or sets OWNER_ENFORCE, each refused as R504 says and each
entered in the journal. FW_STAGE stores an image that verifies; FW_ACTIVATE takes one to the restart, and
MP_RESTART_READY runs it, counts the READY and advances the anti-rollback counter to its svn. SET_PARTITION changes the
setting with every kept page cleared and the slots of R384. MAP_BAR2 moves the window (R384, R448, R459 to R462, R498,
R500, R503 to R507). The model's choices: the order of the checks (log 107), the layout of an image (log 110), and what OWNER_KEY
asks of the partitions and slots (log 111). -/
def Obligations.DeviceCommandsRun : Prop :=
  ∀ (s : State) (k : Fin 8) (now : Nat), Shape s → TilesApart s →
    let m := mbxAt s k
    let x := s.sec
    let s' : State := { s with now := max s.now now }
    let slot := inp m 1 1
    let key := nth {} x.slots slot
    let ends (i : Instr) (st : Nat) : Prop := exec i s = .next (finish s' k st [])
    let ends0 (i : Instr) (st : Nat) : Prop := exec i s = .next (finish s k st [])
    let journal (u : State) (kind : Nat) : Prop := u.sec.journal = x.journal + 1 ∧
      ((tget [] u.sec.entries (x.journal.toNat % 256)).take 3 = leBytes 2 x.journal.toNat ++ [BitVec.ofNat 8 kind]) ∧
      u = { s with host := u.host, sec := { x with slots := u.sec.slots, enforce := u.sec.enforce, journal := u.sec.journal, entries := u.sec.entries, fuseAt := u.sec.fuseAt }, now := max s.now now }
    let ready : Prop := slot ≤ 3 ∧ allIdle s = true
    let virgin : Bool := x.slots.all fun q => decide (q.state = 0)
    (Taken s k 0x23 → inp m 0 1 = 0 →
      (3 < slot → ends (.ownerKeyEnrol k now) 3) ∧ (slot ≤ 3 → allIdle s = false → ends (.ownerKeyEnrol k now) 4) ∧
      (ready → validPoint (inpB m 4 97) = false → ends (.ownerKeyEnrol k now) 3) ∧
      (ready → validPoint (inpB m 4 97) = true → (∀ q ∈ x.slots, q.state ≠ 0) → ends (.ownerKeyEnrol k now) 0xF) ∧
      (ready → validPoint (inpB m 4 97) = true → (∃ q ∈ x.slots, q.state = 0) → key.state ≠ 0 → ends (.ownerKeyEnrol k now) 4) ∧
      (ready → validPoint (inpB m 4 97) = true → key.state = 0 → (if virgin then inp m 200 1 ≠ 0xFF else authorised s m = false) →
        ends (.ownerKeyEnrol k now) 0xB) ∧
      (ready → validPoint (inpB m 4 97) = true → key.state = 0 → (if virgin then inp m 200 1 = 0xFF else authorised s m = true) →
        ∃ u, exec (.ownerKeyEnrol k now) s = .next u ∧ BoxEnds s u k 0 [] ∧ journal u 1 ∧ nth {} u.sec.slots slot = { state := 1, key := inpB m 4 97 } ∧
          (∀ q, q ≠ slot → nth {} u.sec.slots q = nth {} x.slots q) ∧ u.sec.enforce = x.enforce)) ∧
    (Taken s k 0x23 → inp m 0 1 = 1 → ready →
      let others : Prop := ∃ q, q < 4 ∧ q ≠ slot ∧ (nth {} x.slots q).state = 1
      (key.state ≠ 1 ∨ (x.enforce = true ∧ ¬ others) → ends (.ownerKeyRevoke k now) 4) ∧
      (key.state = 1 → (x.enforce = false ∨ others) → authorised s m = false → ends (.ownerKeyRevoke k now) 0xB) ∧
      (key.state = 1 → (x.enforce = false ∨ others) → authorised s m = true → ∃ u, exec (.ownerKeyRevoke k now) s = .next u ∧ BoxEnds s u k 0 [] ∧
        journal u 2 ∧ nth {} u.sec.slots slot = { key with state := 2 } ∧ (∀ q, q ≠ slot → nth {} u.sec.slots q = nth {} x.slots q) ∧ u.sec.enforce = x.enforce)) ∧
    (Taken s k 0x23 → inp m 0 1 = 2 → ready →
      (x.enforce = true → ends (.ownerKeySetEnforce k now) 4) ∧ (x.enforce = false → authorised s m = false → ends (.ownerKeySetEnforce k now) 0xB) ∧
      (x.enforce = false → authorised s m = true → ∃ u, exec (.ownerKeySetEnforce k now) s = .next u ∧ BoxEnds s u k 0 [] ∧ journal u 3 ∧
        u.sec.enforce = true ∧ u.sec.slots = x.slots)) ∧
    (Taken s k 0x30 → let a := inp m 0 8
      let n := inp m 8 4
      let bs := mread s.mem a n
      let fit : Prop := s.side.fd = .idle ∧ a % 64 = 0 ∧ n ≤ 2 ^ 24 ∧ n ≠ 0
      (s.side.fd ≠ .idle → ∀ e, ends0 (.fwStage k e) 0x11) ∧ (s.side.fd = .idle → ¬ fit → ∀ e, ends0 (.fwStage k e) 3) ∧
      (fit → memTop < a + n → ∀ e, ends0 (.fwStage k e) 0xC) ∧
      (fit → a + n ≤ memTop → rangeRetrains s a n = true → ∀ e, exec (.fwStage k e) s = .next s) ∧
      (fit → a + n ≤ memTop → awaitingRuns s a n = [] → rangeRetrains s a n = false → rangeDead s a n = true →
        ∃ u, exec (.fwStage k []) s = .next u ∧ BoxEnds s u k 0xD [] ∧ u = { s with host := u.host, memParts := u.memParts }) ∧
      (fit → a + n ≤ memTop → awaitingRuns s a n = [] → rangeRetrains s a n = false → rangeDead s a n = false →
        let svn := fieldAt bs 8 1
        let good : Prop := 352 ≤ n ∧ fieldAt bs 0 4 = 0x56444B53 ∧ sha384 ((bs.drop 13).take 97) = Config.fwKeyDigest ∧
          ecdsaVerify ((bs.drop 13).take 97) (sha384 (bs.take (n - 96))) ((bs.drop (n - 96)).take 48) (bs.drop (n - 48)) = true
        let g : FwImage := { version := BitVec.ofNat 32 (fieldAt bs 4 4), svn := svn, bytes := bs }
        let st := if 128 < svn then 0xF else if svn < x.counter then 0x10 else 0
        (¬ good → ∃ u, exec (.fwStage k []) s = .next u ∧ BoxEnds s u k 0xB [] ∧ u = { s with host := u.host, memParts := u.memParts }) ∧
        (good → st ≠ 0 → ∃ u, exec (.fwStage k []) s = .next u ∧ BoxEnds s u k st [] ∧ u = { s with host := u.host, memParts := u.memParts }) ∧
        (good → st = 0 → ∃ u, exec (.fwStage k []) s = .next u ∧ BoxEnds s u k 0 (leBytes 4 (fieldAt bs 4 4)) ∧
          u = { s with host := u.host, memParts := u.memParts, sec := { x with staged := some g, flash := setAt x.flash (if x.activeB then 0 else 1) bs } }))) ∧
    (Taken s k 0x31 → ends0 (.fwActivate k) (if s.side.fd ≠ .idle then 0x11 else if allIdle s = false ∨ x.staged = none then 4 else 0)) ∧
    (s.start.phase = .activating → let good (b : Bool) : Prop := verifyImage x (slotBytes x b) = 0
      (¬ good x.activeB → ¬ good (!x.activeB) → exec (.mpRestartReady now) s =
        .next { s with start := { s.start with phase := .bootFailed, faultN := false, squelched := true }, now := max s.now now }) ∧
      ∀ b, good b → b = x.activeB ∨ ¬ good x.activeB → ∃ u, exec (.mpRestartReady now) s = .next u ∧ Boots x u.sec b ∧
      u.bal.measLed = false ∧ (∀ d, d < 2 → (dieAt u d).steps ≤ 10) ∧ u.sec.readyEver = x.readyEver + 1 ∧ u.sec.readyPwr = x.readyPwr + 1 ∧
      u.sec.counter = (if x.activated then max x.counter (min u.sec.run.svn (x.counter + 128)) else x.counter) ∧ u.sec.missing = none ∧
      inService u = true ∧ u.start.cause = 5 ∧ u.host.irqStatus.getLsbD 10 = true ∧
      (∀ i, i < 8 → (mbxAt u i).seq = 0) ∧ u = { s with host := u.host, sec := u.sec, start := u.start, bal := u.bal, side := u.side, free := u.free, now := max s.now now }) ∧
    (Taken s k 0x32 →
      (1 < inp m 0 1 → ends0 (.setPartition k) 3) ∧ (inp m 0 1 ≤ 1 → allIdle s = false → ends0 (.setPartition k) 4) ∧
      (inp m 0 1 ≤ 1 → allIdle s = true → ∃ u, exec (.setPartition k) s = .next u ∧ BoxEnds s u k 0 [] ∧ u.split = decide (inp m 0 1 = 1) ∧
        u.segs = [(0, .awaiting)] ∧ u.sec.clearing = true ∧ u.jobs = s.jobs ∧ u.cache = [] ∧ (∀ n, (portAt u n).assigned = false) ∧
        (∀ p ∈ partitions s, ∀ t ∈ tilesOf s p, ∀ e ∈ (tileOf u t).pages, e.2.handle = none) ∧
        ((∀ n, n < 52 → (chanAt s n).state ≤ 1) → ∀ n, n < 52 → (chanAt u n).state = (if 48 ≤ n then 1 else 0) ∧
          (chanAt u n).part = (if u.split = true ∧ 2 ≤ n % 4 then 1 else 0) ∧
          (chanAt u n).slot = if 48 ≤ n then 0xFF else if u.split then 2 * (n / 4) + n % 2 else n))) ∧
    (Taken s k 0x38 → let b := inp m 0 8
      (b % bar2Size s ≠ 0 → ends0 (.mapBar2 k) 3) ∧ (b % bar2Size s = 0 → memTop ≤ b → ends0 (.mapBar2 k) 0xC) ∧
      (b % bar2Size s = 0 → b < memTop → ∃ u, exec (.mapBar2 k) s = .next u ∧ BoxEnds s u k 0 [] ∧ u = { s with host := { s.host with mbx := u.host.mbx, bar2Base := b } }))

/-- BAR2 and HOST_DMA reach LPDDR5X and nothing else: an address outside it is an Unsupported Request; a read answers
memory's bytes, or Completer Abort on an uncorrectable error; a write stores exactly its bytes, a poisoned one none.
An access waits while its channel retrains, loses nothing, and is served when the channel serves again. HOST_DMA toward the device stores what its completions bring, in order, and ends with the bytes moved, at the first error
with HOST_ERROR; toward the host it writes the bytes of its range there, or those before a MEM_ERROR (R389, R395, R400,
R448 to R450, R459, R461, R463, R464). The model's choices: a channel that serves nothing more answers as a failed read (log
146), a write of part of a lost codeword is dropped (log 114), HOST_DMA to the host is one row (log 113), what waits keeps its order
(log 182), and in which states device memory serves the host (log 167). -/
def Obligations.HostReachesMemory : Prop :=
  ∀ (s : State) (k : Fin 8), Shape s → MemOk s →
    let m := mbxAt s k
    let h := inp m 8 8
    let a0 := inp m 16 8
    let len := inp m 24 8
    let fine : Prop := inp m 0 1 ≤ 1 ∧ h % 4 = 0 ∧ a0 % 32 = 0 ∧ len % 32 = 0 ∧ 32 ≤ len ∧ len ≤ 2 ^ 32
    let served : Prop := s.host.linkUp = true ∧ s.host.d3hot = false ∧ memServes s = true
    let shut : Prop := s.host.linkUp = true ∧ (s.host.d3hot = true ∨ memServes s = false)
    let first : Prop := ∀ v ∈ s.host.waits, ∃ i bs e, v = HostWait.fill i bs e
    let queued (w : HostWait) : State := { s with host := { s.host with waits := s.host.waits ++ [w] } }
    let noFill : Prop := ∀ bs e, HostWait.fill k bs e ∉ s.host.waits
    let at_ (x : Nat) : Nat := s.host.bar2Base + x
    let inside (x n : Nat) : Prop := x + n ≤ bar2Size s ∧ at_ x + n ≤ memTop ∧ 0 < n
    let kept (u : State) (a n : Nat) : Prop := ∀ y, byteState s y ≠ .awaiting → (y < a ∨ a + n ≤ y) → mget u.mem y = mget s.mem y
    let cmd (u : State) (st moved : Nat) : Prop := (mbxAt u k).cmd = some { status := st, out := leBytes 8 moved, ended := true, moved := moved } ∧
      ∀ i, i ≠ k.val → mbxAt u i = mbxAt s i
    let fresh (c y : Nat) : Prop := ((chanAt s c).bad.filter fun z => decide (z = (slotOf s y).2)).length < 2
    let aborts (u : State) : Prop := u.host.cpl = 2 ∧ u.host.readData = [] ∧ u.host.aer = s.host.aer ++ [2]
    let memFrame (u : State) : Prop := u = { s with host := u.host, mem := u.mem, segs := u.segs, memParts := u.memParts, chans := u.chans
                                                    sec := { s.sec with clearing := u.sec.clearing } }
    (∀ x n e, (shut ∨ (served ∧ ¬ inside x n)) → exec (.bar2Read x n e) s = .next (logAer (answer s 1 []) 0)) ∧
    (∀ x n e, served → inside x n → ¬ first ∨ rangeRetrains s (at_ x) n = true → exec (.bar2Read x n e) s = .next (queued (.read (at_ x) n e))) ∧
    (∀ x n, served → inside x n → first → awaitingRuns s (at_ x) n = [] → rangeRetrains s (at_ x) n = false →
      (rangeDead s (at_ x) n = false → ∃ u, exec (.bar2Read x n []) s = .next u ∧ u.host = { s.host with cpl := 0, readData := mread s.mem (at_ x) n } ∧
        u = { s with host := u.host, memParts := u.memParts }) ∧
      (rangeDead s (at_ x) n = true → ∃ u, exec (.bar2Read x n []) s = .next u ∧ aborts u ∧ u.mem = s.mem ∧ u.jobs = s.jobs) ∧
      ∀ c, chanOf s (at_ x) = some c → fresh c (at_ x) → ∃ u, exec (.bar2Read x n [{ addr := at_ x, ecc := .double }]) s = .next u ∧ aborts u ∧
        (chanAt u c).ue = errAdd (chanAt s c).ue 1 ∧
        (byteState s (at_ x) ≠ .owned → u.mem = s.mem ∧ u.jobs = s.jobs) ∧
        (byteState s (at_ x) = .owned → faultable (jobOf s (partOfAddr s (at_ x))).state = true → Faulted s u (partOfAddr s (at_ x)) (0x2800 + c))) ∧
    (∀ x bs e, s.host.linkUp = true → exec (.bar2Write x bs true e) s = .next (logAer s 1)) ∧
    (∀ x bs e, (shut ∨ (served ∧ ¬ inside x bs.length)) → exec (.bar2Write x bs false e) s = .next (logAer s 0)) ∧
    (∀ x bs, served → inside x bs.length → first → rangeWaits s (at_ x) bs.length = false → ∃ u, exec (.bar2Write x bs false []) s = .next u ∧
      mread u.mem (at_ x) bs.length = bs ∧ kept u (at_ x) bs.length ∧ memFrame u ∧ u.host = s.host) ∧
    (∀ x bs e, served → inside x bs.length → ¬ first ∨ rangeRetrains s (at_ x) bs.length = true →
      exec (.bar2Write x bs false e) s = .next (queued (.write (at_ x) bs e))) ∧
    (∀ x bs e b, s.host.linkUp = false → (exec (.bar2Read x bs.length e) s = .next s ∧ exec (.bar2Write x bs b e) s = .next s)) ∧
    (∀ (c : Fin 52) a n now, (chanAt s c).retraining = true → (chanAt s c).waiting = [] → (∀ i, i ≠ c.val → (chanAt s i).retraining = false) →
      s.waits = [] → (∀ p, p < 2 → (jobOf s p).rxHeld = []) → (∀ i, (portAt s i).xoff = []) → awaitingRuns s a n = [] → rangeDead s a n = false →
      (s.host.waits = [.read a n []] → ∃ u, exec (.retrainEnd c now) s = .next u ∧ u.host.cpl = 0 ∧ u.host.readData = mread s.mem a n ∧ u.host.waits = []) ∧
      ∀ bs, bs.length = n → s.host.waits = [.write a bs []] → ∃ u, exec (.retrainEnd c now) s = .next u ∧ mread u.mem a n = bs ∧ u.host.waits = []) ∧
    (Taken s k 0x39 → inp m 0 1 ≠ 1 → ¬ fine → exec (.hostDmaToDevice k) s = .next (finish s k 3 [])) ∧
    (Taken s k 0x39 → inp m 0 1 ≠ 0 → ¬ fine → ∀ e c n, exec (.hostDmaToHost k e c n) s = .next (finish s k 3 [])) ∧
    (Taken s k 0x39 → fine → memTop < a0 + len → (inp m 0 1 = 0 → exec (.hostDmaToDevice k) s = .next (finish s k 0xC [])) ∧
      (inp m 0 1 = 1 → ∀ e c n, exec (.hostDmaToHost k e c n) s = .next (finish s k 0xC []))) ∧
    (Taken s k 0x39 → fine → a0 + len ≤ memTop → inp m 0 1 = 0 → exec (.hostDmaToDevice k) s = .next (modMbx s k fun m => { m with cmd := some {} })) ∧
    (∀ c bs, m.owner = true → m.opcode = 0x39 → inp m 0 1 = 0 → m.cmd = some c → c.ended = false →
      let b := bs.take (len - c.moved)
      (∀ e, ¬ noFill ∨ rangeRetrains s (a0 + c.moved) b.length = true → exec (.hostReadCompletion k bs .ok e) s = .next (queued (.fill k bs e))) ∧
      (noFill → rangeRetrains s (a0 + c.moved) b.length = false → rangeDead s (a0 + c.moved) b.length = false →
        ∃ u, exec (.hostReadCompletion k bs .ok .clean) s = .next u ∧ mread u.mem (a0 + c.moved) b.length = b ∧ kept u (a0 + c.moved) b.length ∧
        (len ≤ c.moved + b.length → cmd u 0 (c.moved + b.length)) ∧
        (c.moved + b.length < len → (mbxAt u k).cmd = some { c with moved := c.moved + b.length }) ∧
        memFrame u) ∧
      (∀ e, e ≠ HostCpl.ok → ∃ u, exec (.hostReadCompletion k bs e .clean) s = .next u ∧ cmd u 0xE c.moved ∧ u.mem = s.mem ∧
        u.host.aer = s.host.aer ++ if e = .poisoned then [1] else []) ∧
      ∃ u, exec (.completionTimeout k) s = .next u ∧ cmd u 0xE c.moved ∧ u.mem = s.mem ∧ u.host.aer = s.host.aer ++ [4]) ∧
    (Taken s k 0x39 → fine → a0 + len ≤ memTop → inp m 0 1 = 1 → rangeRetrains s a0 len = true → ∀ e c n, exec (.hostDmaToHost k e c n) s = .next s) ∧
    (Taken s k 0x39 → fine → a0 + len ≤ memTop → inp m 0 1 = 1 → awaitingRuns s a0 len = [] → rangeRetrains s a0 len = false → rangeDead s a0 len = false →
      (∃ u, exec (.hostDmaToHost k [] .ok 0) s = .next u ∧ cmd u 0 len ∧ u.host.hostWrites = s.host.hostWrites ++ [(h, mread s.mem a0 len)] ∧
        u.mem = s.mem ∧ u.jobs = s.jobs) ∧
      (∀ n, 0 < n → n < len →
        (∀ c, n % 8 = 0 → chanOf s (a0 + n) = some c → fresh c (a0 + n) → byteState s (a0 + n) ≠ .owned →
          ∃ u, exec (.hostDmaToHost k [{ addr := a0 + n, ecc := .double }] .ok 0) s = .next u ∧ cmd u 0xD n ∧
          u.host.hostWrites = s.host.hostWrites ++ [(h, mread s.mem a0 n)] ∧ u.mem = s.mem ∧ u.jobs = s.jobs) ∧
        ∀ c, c ≠ HostCpl.ok → ∃ u, exec (.hostDmaToHost k [] c n) s = .next u ∧ cmd u 0xE n ∧ u.host.hostWrites = s.host.hostWrites ++ [(h, mread s.mem a0 n)]))

/-- RS pairs and read-only registers (R13, R14). A read of a pair's low word gives it and latches the high word; a read of
the high word gives the latched value, without a read of the low word the last one latched, and 0 before the first after reset;
a 64-bit read gives both words of one moment. A write of BAR0 outside the mailboxes, the MSI-X table, IRQ_STATUS and IRQ_MASK, and
DEV_RESET changes nothing and records no error. -/
def Obligations.RegisterAccess : Prop :=
  (∀ (s : State) (off : Nat) (q : Pair), barReach s = true → inService s = true → off % 4 = 0 → rsPair s off = some q →
    exec (.rsLowRead (off + 4) 4) s = .next (answer s 0 (leBytes 4 q.latch.toNat)) ∧
    ∃ u, exec (.rsLowRead off 4) s = .next u ∧ u.host.readData = leBytes 4 q.low.toNat ∧ u.host.cpl = 0 ∧
      (∃ q', rsPair u off = some q' ∧ q'.low = q.low ∧ q'.high = q.high ∧ q'.latch = q.high) ∧
      exec (.rsLowRead (off + 4) 4) u = .next (answer u 0 (leBytes 4 q.high.toNat)) ∧
      (off % 8 = 0 → exec (.rsLowRead off 8) s = .next (answer u 0 (leBytes 4 q.low.toNat ++ leBytes 4 q.high.toNat)))) ∧
  (∀ (off : Nat) (q : Pair), rsPair State.reset off = some q → q.latch = 0) ∧
  (∀ s u : State, Resets s u → ∀ (off : Nat) (q : Pair), rsPair u off = some q → q.latch = 0) ∧
  ∀ (s : State) (off size : Nat) (v : BitVec 64), barReach s = true → (size = 4 ∨ size = 8) → off % size = 0 → off < 2 ^ 25 →
    (∀ k, off ≤ k → k < off + size → k / 4 * 4 ≠ 0x1100 ∧ ¬ (0x10000 ≤ k ∧ k < 0x11000) ∧ ¬ (0x20000 ≤ k ∧ k < 0x20008) ∧
      ¬ (0x30000 ≤ k ∧ k < 0x30400)) → exec (.registerWrite off size v) s = .next s

/-- IRQ_STATUS is write-one-to-clear; IRQ_MASK releases the owed messages of the causes it unmasks; an MSI-X table write
that unmasks a pending vector sends its message. DEV_RESET resets on its key and on no other value. A read gives the register
as it stands, and 0 before READY but for the GEO_ registers; a write reaches a register by its offset; a bad size or alignment,
and any access in D3hot, is an Unsupported Request. FLR, in every state in which the link is up, kills the jobs and aborts the
mailboxes; a hot reset and an entry to D3hot touch neither; a message that the function cannot send is lost; an error in the
endpoint's buffers ends every job; the link comes up at its modes, and a configuration request sets what it names (R15, R443 to
R448, R452, R470, R534, R544, R554). The model's choices: DEV_RESET acts at once (log 120), MSI-X enable and function mask are off after a reset and an FLR (logs
115, 116, 185). -/
def Obligations.HostRegistersAndLink : Prop :=
  ∀ (s : State) (now : Nat), Shape s →
    let h := s.host
    let time := max s.now now
    (∀ v, inService s = true → barReach s = true → exec (.irqStatusClear v) s =
      .next { s with host := { h with irqStatus := h.irqStatus &&& ~~~(v.extractLsb' 0 11), owed := h.owed &&& ~~~(v.extractLsb' 0 11) } }) ∧
    (∀ v, inService s = true → barReach s = true → ∃ u, exec (.irqMaskWrite v) s = .next u ∧ u.host.irqMask = v.extractLsb' 0 11 ∧ u.host.irqStatus = h.irqStatus ∧
      u = { s with host := { h with irqMask := u.host.irqMask, owed := u.host.owed, sent := u.host.sent, pba := u.host.pba } } ∧
      (let due (b : Nat) : Bool := h.owed.getLsbD b && h.irqStatus.getLsbD b && !(v.getLsbD b)
       (∀ b, b < 11 → u.host.owed.getLsbD b = (h.owed.getLsbD b && !due b)) ∧
       (h.msixEn = false → u.host.sent = h.sent ∧ u.host.pba = h.pba) ∧
       (h.msixEn = true → u.host.sent = h.sent ++ ((List.range 11).filter fun b => due b && !vectorMasked s b) ∧
         ∀ b, b < 11 → u.host.pba.getLsbD b = (h.pba.getLsbD b || (due b && vectorMasked s b))))) ∧
    (∀ (v : Fin 64) (w : Fin 4) (x : BitVec 32), inService s = true → barReach s = true →
      (∀ i, i < 12 → i ≠ v.val → h.pba.getLsbD i = true → vectorMasked s i = true) → ∃ u, exec (.msixTableWrite v w x) s = .next u ∧
      (∀ i, tget 0 u.host.msix i = if i = 4 * v.val + w.val then (if w.val = 3 then (x &&& 1) ^^^ 1 else x) else tget 0 h.msix i) ∧
      (v.val < 12 → vectorMasked u v = false → h.pba.getLsbD v = true → h.msixEn = true → u.host.sent = h.sent ++ [v.val] ∧ u.host.pba.getLsbD v = false) ∧
      (vectorMasked u v = true ∨ h.pba.getLsbD v = false ∨ h.msixEn = false → u.host.sent = h.sent ∧ u.host.pba = h.pba) ∧
      u = { s with host := { h with msix := u.host.msix, sent := u.host.sent, pba := u.host.pba } }) ∧
    (∀ v, inService s = false ∨ barReach s = false → exec (.irqStatusClear v) s = .next s ∧ exec (.irqMaskWrite v) s = .next s ∧
      ∀ (k : Fin 64) (w : Fin 4), exec (.msixTableWrite k w v) s = .next s) ∧
    (∀ v : BitVec 32, barReach s = true → v.extractLsb' 0 8 = 0xA5 → ∃ u, exec (.devReset v now) s = .next u ∧ Resets s u ∧
      u.start.cause = CauseAfter s 2 ∧ u.start.internalReset = true ∧ u.start.phase = .inReset ∧ u.now = time) ∧
    (∀ v : BitVec 32, (barReach s = false ∨ v.extractLsb' 0 8 ≠ 0xA5) → exec (.devReset v now) s = .next { s with now := time }) ∧
    (∀ off, barReach s = true → inService s = true → off % 4 = 0 → off < 2 ^ 25 → rsPair s off = none →
      exec (.rsLowRead off 4) s = .next (answer s 0 (leBytes 4 (regWord s off).toNat))) ∧
    (∀ off, barReach s = true → inService s = false → off % 4 = 0 → 0x1000 ≤ off → off < 2 ^ 25 → exec (.rsLowRead off 4) s = .next (answer s 0 (leBytes 4 0))) ∧
    (∀ off size, h.linkUp = true → (h.d3hot = true ∨ (size ≠ 4 ∧ size ≠ 8) ∨ off % size ≠ 0 ∨ 2 ^ 25 ≤ off) →
      exec (.rsLowRead off size) s = .next (logAer (answer s 1 []) 0)) ∧
    (∀ (v : BitVec 64) (off size : Nat), h.linkUp = true → (h.d3hot = true ∨ (size ≠ 4 ∧ size ≠ 8) ∨ off % size ≠ 0 ∨ 2 ^ 25 ≤ off) →
      exec (.registerWrite off size v) s = .next (logAer (answer s 1 []) 0)) ∧
    (∀ (v : BitVec 64) (off size : Nat), h.linkUp = false → exec (.rsLowRead off size) s = .next s ∧ exec (.registerWrite off size v) s = .next s) ∧
    (∀ v : BitVec 64, barReach s = true → let w := v.extractLsb' 0 32
      exec (.registerWrite 0x20000 4 v) s = exec (.irqStatusClear w) s ∧ exec (.registerWrite 0x20004 4 v) s = exec (.irqMaskWrite w) s ∧
      exec (.registerWrite 0x1100 4 v) s = exec (.devReset w s.now) s ∧
      (∀ (k : Fin 8) (off : Nat), off % 4 = 0 → off < 0x200 → exec (.registerWrite (0x10000 + 0x200 * k + off) 4 v) s = exec (.mailboxWrite k off w s.now) s) ∧
      (∀ (k : Fin 64) (i : Fin 4), exec (.registerWrite (0x30000 + 16 * k + 4 * i) 4 v) s = exec (.msixTableWrite k i w) s)) ∧
    (h.linkUp = false → exec (.flr now) s = .next { s with now := time }) ∧
    (h.linkUp = true → ∃ u, exec (.flr now) s = .next u ∧ u.host.irqStatus = 0 ∧ u.host.irqMask = 0x7FF ∧ u.host.bar2Base = 0 ∧
      u.host.msix = [] ∧ u.host.pba = 0 ∧ u.host.d3hot = false ∧ u.start = s.start ∧ u.sec = s.sec ∧
      (∀ k, k < 8 → (mbxAt u k).owner = false ∧ ((mbxAt s k).owner = true → (mbxAt u k).status = 10) ∧ ((mbxAt s k).owner = false → (mbxAt u k).status = (mbxAt s k).status)) ∧
      (∀ p ∈ partitions s, (jobOf u p).state = if faultable (jobOf s p).state then .killed else (jobOf s p).state) ∧ ∀ a, ¬ DevDest s 0 a → ¬ DevDest s 1 a → mget u.mem a = mget s.mem a) ∧
    (∀ why, ∃ u, exec (.hotReset why) s = .next u ∧ u = { s with host := u.host } ∧ u.host.mbx = h.mbx ∧ u.host.bar2Log = 6 ∧ u.host.barBase = [0, 0] ∧
      u.host.msix = [] ∧ u.host.pba = 0 ∧ u.host.msixEn = false ∧ u.host.irqStatus = h.irqStatus ∧ u.host.linkUp = (h.linkUp && decide (why ≠ .linkDown)) ∧
      u.host.d3hot = decide (why = .d3hot) ∧ u.host.sent = h.sent ∧ (why ≠ .linkDown → u.host.waits = h.waits)) ∧
    (∀ e, (h.linkUp = false ∨ h.d3hot = true ∨ h.msixEn = false) → signalVector s e = s) ∧
    (∃ u, exec (.hostLinkError now) s = .next u ∧ u.host.aer = h.aer ++ [3] ∧ (∀ a, ¬ DevDest s 0 a → ¬ DevDest s 1 a → mget u.mem a = mget s.mem a) ∧
      ∀ p ∈ partitions s, (faultable (jobOf s p).state = true → (jobOf u p).state = .faulted ∧ (jobOf u p).code = 0x7D01) ∧
        (faultable (jobOf s p).state = false → (jobOf u p).state = (jobOf s p).state)) ∧
    (∀ speed width, s.start.phase ≠ .unpowered → s.start.phase ≠ .inReset → (speed = 16 ∨ speed = 32 ∨ speed = 64) → (width = 8 ∨ width = 16) →
      exec (.pcieLinkUp speed width) s = .next { s with host := { h with linkUp := true, speed := speed, width := width } }) ∧
    (s.start.phase ≠ .unpowered → s.start.phase ≠ .inReset → h.linkUp = true →
      let sets (r : CfgReq) (g : HostLink) : Prop := exec (.configurationRequest r) s = .next { s with host := { g with cpl := 0, readData := [] } }
      (∀ n, n ≤ 6 → sets (.bar2Size n) { h with bar2Log := n, bar2Base := h.bar2Base - h.bar2Base % (2 ^ n * gib) }) ∧
      (∀ n, (n = 128 ∨ n = 256 ∨ n = 512) → sets (.maxPayload n) { h with mps := n }) ∧
      (∀ n, (n = 128 ∨ n = 256 ∨ n = 512 ∨ n = 1024 ∨ n = 2048 ∨ n = 4096) → sets (.maxReadReq n) { h with mrrs := n }) ∧
      (∀ n, sets (.completionTimeout n) { h with cto := n }) ∧ (∀ b base, sets (.barAssign b base) { h with barBase := setAt h.barBase b base }) ∧
      (∀ g c, sets (.ecrc g c) { h with ecrcGen := g, ecrcCheck := c }) ∧ sets (.power false) { h with d3hot := false } ∧
      (h.d3hot = false → ∃ u v, exec (.configurationRequest (.power true)) s = .next u ∧ exec (.hotReset .d3hot) s = .next v ∧
        u = { v with host := { v.host with cpl := 0, readData := [] } }) ∧
      ((∀ i, i < 12 → h.pba.getLsbD i = false) → ∀ e k, sets (.msix e k) { h with msixEn := e, msixMask := k }) ∧
      ∃ bs, exec (.configurationRequest .readMsix) s = .next { s with host := { h with cpl := 0, readData := bs } } ∧
        bs.drop 2 = leBytes 4 0x30000 ++ leBytes 4 0x31000 ∧ fieldAt bs 0 2 = 63 + (if h.msixEn then 2 ^ 15 else 0) + if h.msixMask then 2 ^ 14 else 0)

/-! ## The sideband, Balance, power and reset -/

/-- The sideband answers in service and only then, each row with the code and the data that its protocol gives it: the
identifiers, the sensors and the effecter, the BAL_ space with its platform latches, and the firmware update, whose
commands work in their state and are refused with no effect in any other (R381, R382, R465 to R468, R563). Code numbers
and bodies that the manual leaves to DSP0236, DSP0240, DSP0248 and DSP0267 are the model's (logs 119, 154), and so is the size of
what RequestFirmwareData asks for (log 184). -/
def Obligations.SidebandRows : Prop :=
  ∀ s : State, Shape s →
    let x := s.side
    let b := s.bal
    let row (c : Instr) (r : State) : Prop := exec c s = .next (if inService s then r else s)
    let tells (c : Instr) (code : Nat) : Prop := ∃ body, row c (reply s code body)
    let moves (f : FdState) : State := { s with side := { x with fd := f } }
    let fd (ok : List FdState) (c : Instr) (r : State) : Prop :=
      row c (if x.fd ∈ ok then r else reply s (if x.fd = .idle then 0x80 else 0x84) [])
    (∀ e, row (.setEndpointId e) (if e % 256 = 0 ∨ e % 256 = 0xFF then reply s 2 []
      else reply { s with side := { x with eid := e % 256 } } 0 [0, BitVec.ofNat 8 e, 0])) ∧
    row .getEndpointId (reply s 0 [BitVec.ofNat 8 x.eid, 0, 0]) ∧ tells .getEndpointUuid 0 ∧
    (∀ t, ((t = 0xFF ∨ t = 0) → row (.getMctpVersionSupport t) (reply s 0 [1, 0xF1, 0xF3, 0xFF, 0])) ∧ (t = 1 → tells (.getMctpVersionSupport t) 0) ∧ (t ≠ 0xFF → 1 < t → row (.getMctpVersionSupport t) (reply s 0x80 []))) ∧
    row .getMessageTypeSupport (reply s 0 [2, 0, 1]) ∧ row .getTid (reply s 0 [BitVec.ofNat 8 x.tid]) ∧
    (∀ c t, row (.mctpUnsupportedCmd c) (reply s 5 []) ∧ row (.pldmUnsupportedCmd t c) (reply s 5 [])) ∧
    (∀ t, (t ∈ [0, 2, 5, 63] → tells (.getPldmVersion t) 0 ∧ tells (.getPldmCommands t) 0) ∧
      (t ∉ [0, 2, 5, 63] → row (.getPldmVersion t) (reply s 0x83 []) ∧ row (.getPldmCommands t) (reply s 0x83 []))) ∧
    (∀ t v, (t, v) ∈ [(2, [0, 0xFF, 0xF2, 0xF1]), (5, [0, 0xFF, 0xF1, 0xF1])] → ∃ crc, crc.length = 4 ∧ row (.getPldmVersion t) (reply s 0 ([0, 0, 0, 0, 5] ++ v ++ crc))) ∧
    (∀ t cs, (t, cs) ∈ [(0, [2, 3, 4, 5]), (2, [0x04, 0x11, 0x21, 0x31, 0x32, 0x50, 0x51]),
        (5, [0x01, 0x02, 0x10, 0x13, 0x14, 0x16, 0x17, 0x18, 0x1A, 0x1B, 0x1C, 0x1D]), (63, [1, 2])] →
      ∃ bs, bs.length = 32 ∧ row (.getPldmCommands t) (reply s 0 bs) ∧ ∀ c, c < 256 → ((nth 0 bs (c / 8)).getLsbD (c % 8) = true ↔ c ∈ cs)) ∧
    row .getPldmTypes (reply s 0 [0x25, 0, 0, 0, 0, 0, 0, 0x80]) ∧
    tells .getPdrRepositoryInfo 0 ∧ (∀ h, 7 < h → row (.getPdr h) (reply s 0x82 [])) ∧
    (let record (h : Nat) (r : Config.Pdr) : Prop :=
       let bs := Config.pdrBytes h r
       let out := leBytes 4 (if h < 7 then h + 1 else 0) ++ [0, 0, 0, 0, 5] ++ leBytes 2 bs.length ++ bs
       row (.getPdr h) (reply s 0 out) ∧ (h = 1 → row (.getPdr 0) (reply s 0 out))
     record 1 { kind := .numericSensor, id := 1, unit := "W", perUnit := 10 } ∧ record 2 { kind := .numericSensor, id := 2, unit := "J" } ∧
     (∀ n, n ∈ [3, 4, 5] → record n { kind := .numericSensor, id := n, unit := "°C", perUnit := 8 }) ∧
     record 6 { kind := .stateSensor, id := 6, sets := 10 } ∧ record 7 { kind := .numericEffecter, id := 1, unit := "W", range := some (300, 600) }) ∧
    row (.getSensorReading 1) (reply s 0 (leBytes 4 b.meas.toNat)) ∧
    row (.getSensorReading 2) (reply s 0 (leBytes 8 (b.energy.val.toNat / 1000000))) ∧
    row (.getSensorReading 3) (reply s 0 (leBytes 2 (dieAt s 0).hottest.toNat)) ∧
    row (.getSensorReading 4) (reply s 0 (leBytes 2 (dieAt s 1).hottest.toNat)) ∧
    row (.getSensorReading 5) (reply s 0 (leBytes 2 b.ioHottest.toNat)) ∧
    (∀ n, (n = 0 ∨ 5 < n) → row (.getSensorReading n) (reply s 0x80 [])) ∧
    (∃ out, row (.getStateSensorReadings 6) (reply s 0 out) ∧ out.length = 10 ∧ ∀ k, k < 10 → nth 0 out k = if b.event.getLsbD k then 1 else 0) ∧
    (∀ n, n ≠ 6 → row (.getStateSensorReadings n) (reply s 0x80 [])) ∧
    (∀ v, ∃ u, row (.setNumericEffecterValue 1 v) (reply u 0 []) ∧ u.bal.capReq.toNat = v % 1024 ∧ u.bal.cap = max 300 (min 600 v) ∧
      u = { s with bal := { b with capReq := u.bal.capReq, cap := u.bal.cap, event := u.bal.event }, side := u.side } ∧
      (300 ≤ v → v ≤ 600 → u.bal.event = b.event ∧ u.side = x) ∧
      ((v < 300 ∨ 600 < v) → ∀ k, k < 32 → u.bal.event.getLsbD k = (b.event.getLsbD k || decide (k = 1)))) ∧
    row (.getNumericEffecterValue 1) (reply s 0 (leBytes 4 b.capReq.toNat)) ∧
    (∀ n v, n ≠ 1 → row (.setNumericEffecterValue n v) (reply s 0x80 []) ∧ row (.getNumericEffecterValue n) (reply s 0x80 [])) ∧
    (∀ e, row (.setEventReceiver e) (reply { s with side := { x with receiver := e % 256 } } 0 [])) ∧
    (∀ off, (off % 4 ≠ 0 ∨ 0x1000 ≤ off) → row (.readBal off) (reply s 2 []) ∧
      ∀ v, inService s = true → exec (.writeBal off v s.now) s = .next (reply s 2 [])) ∧
    (inService s = true → ∀ off ∈ [0x018, 0x050, 0x058, 0x070, 0x078], ∀ q, balPair b off = some q →
      ∃ u v, exec (.readBal off) s = .next u ∧ u.side.code = 0 ∧ u.side.data = leBytes 4 q.2.low.toNat ∧
        exec (.readBal (off + 4)) u = .next v ∧ v.side.code = 0 ∧ v.side.data = leBytes 4 q.2.high.toNat ∧ u.bal = b ∧ v.bal = b) ∧
    row (.readBal 0x000) (reply s 0 (leBytes 4 b.capReq.toNat)) ∧ row (.readBal 0x00C) (reply s 0 (leBytes 4 b.event.toNat)) ∧
    row (.readBal 0x010) (reply s 0 (leBytes 4 b.eventEn.toNat)) ∧ row (.readBal 0x020) (reply s 0 (leBytes 4 b.meas.toNat)) ∧
    row (.readBal 0x024) (reply s 0 (leBytes 4 b.est.toNat)) ∧ row (.readBal 0xFFC) (reply s 0 [0, 0, 0, 0]) ∧
    (∀ v, inService s = true →
      (∃ u, exec (.balCapWrite v s.now) s = .next u ∧ exec (.writeBal 0x000 v s.now) s = .next (reply u 0 [])) ∧
      (∃ u, exec (.balEventClear v) s = .next u ∧ exec (.writeBal 0x00C v s.now) s = .next (reply u 0 [])) ∧
      (∃ u, exec (.balEventEnWrite v) s = .next u ∧ exec (.writeBal 0x010 v s.now) s = .next (reply u 0 [])) ∧
      ∀ off, off % 4 = 0 → off < 0x1000 → off ∉ [0x000, 0x00C, 0x010] → exec (.writeBal off v s.now) s = .next (reply s 0 [])) ∧
    (∀ off v now, inService s = false → exec (.writeBal off v now) s = .next { s with now := max s.now now }) ∧
    tells .queryDeviceIdentifiers 0 ∧
    (∃ body, row .getFirmwareParameters (reply s 0 (leBytes 4 s.sec.run.version.toNat ++ leBytes 4 ((s.sec.staged.map (·.version.toNat)).getD 0) ++ body))) ∧
    (let busy : Prop := ∃ m ∈ s.host.mbx, m.owner = true ∧ m.opcode = 0x30 ∧ m.cmd.isSome = true
     ∀ n, (busy → row (.requestUpdate n) (reply s 0x8E [])) ∧
     (¬ busy → x.fd ≠ .idle → row (.requestUpdate n) (reply s 0x81 [])) ∧
     (¬ busy → x.fd = .idle → row (.requestUpdate n) (reply { s with side := { x with fd := .learn, fdMax := n } } 0 []))) ∧
    (∀ n, fd [.learn] (.passComponentTable n) (if n = 0 then reply (moves .ready) 0 [] else reply s 0x82 [])) ∧
    (∀ n, fd [.ready] (.updateComponent n) (if n ≤ 2 ^ 24 then reply { s with side := { x with fd := .download, fdSize := n, fdImage := [], asked := if n = 0 then [] else [(0, min x.fdMax n)] } } 0 [] else reply s 0x82 [])) ∧
    (∀ off bs, row (.requestFirmwareDataResponse off bs)
      (let n := off + bs.length
       if x.fd = .download ∧ off = x.fdImage.length ∧ x.asked.getLast? = some (off, bs.length) then
         { s with side := { x with fdImage := x.fdImage ++ bs, asked := x.asked ++ if n < x.fdSize then [(n, min x.fdMax (x.fdSize - n))] else [] } }
       else s)) ∧
    (∀ ok, fd [.download] (.transferComplete ok) (reply (moves (if ok = true ∧ x.fdImage.length = x.fdSize then .verify else .ready)) 0 [])) ∧
    (let r := verifyImage s.sec x.fdImage
     fd [.verify] .verifyComplete (reply (moves (if r = 0 then .apply else .ready)) 0 [BitVec.ofNat 8 r])) ∧
    fd [.apply] .applyComplete (reply { moves .ready with sec := { s.sec with staged := some (imageOf x.fdImage), flash := setAt s.sec.flash (if s.sec.activeB then 0 else 1) x.fdImage } } 0 [0]) ∧
    fd [.ready] (.activateFirmware true) (reply s 0x8C []) ∧
    fd [.ready] (.activateFirmware false) (if s.sec.staged = none then reply s 0x85 [] else if ¬ (∀ p ∈ partitions s, (jobOf s p).state = .idle) then reply s 0x84 []
      else { reply (moves .idle) 0 [0, 0] with
        start := { s.start with phase := .activating }
        sec := { s.sec with salt := [], aliasKey := 0, aliasCert := [], cdi := [], rootOpen := true, activeB := !s.sec.activeB, staged := none, activated := true } }) ∧
    (∃ n, row .getStatus (reply s 0 [n]) ∧ (n = 0 ↔ x.fd = .idle)) ∧
    fd [.download, .verify, .apply] .cancelUpdateComponent (reply { s with side := { x with fd := .ready, fdImage := [] } } 0 []) ∧
    fd [.learn, .ready, .download, .verify, .apply, .activate] .cancelUpdate (reply { s with side := { x with fd := .idle, fdImage := [] } } 0 [])

/-- Balance: a cap request is held between 300 W and 600 W; the 1 µs step moves both rails 10 mV at most, divides the cap
between the dies by their needs, and gives each die the slowest of the points its job, its share of the cap, its
temperature and its age allow, moving down at once and up behind its rails; a ramp slice changes a die's activity by at
most 1.25 % of A_max and shares what the next one may rise by among its tiles; the measurement compares with the mean
estimate and changes the mode after 100 or 10,000 windows, and reads 48 sensors a compute die and 16 of the I/O die; duty
falls at P15 above the target and PWR_ALERT_N follows at its floor; the thermal rule moves one point at a time; trips,
guards and slews act on their die (R21, R354 to R382). Figures of the die are fused values. The model's choices: shares and
ratios round down (logs 91 to 94), and stretched cycles are counted from the time (log 181). -/
def Obligations.BalanceRows : Prop :=
  ∀ s : State, Shape s →
    let b := s.bal
    let rises (u : State) (ks : List Nat) : Prop :=
      (∀ k, k < 32 → u.bal.event.getLsbD k = (b.event.getLsbD k || decide (k ∈ ks))) ∧
        u.side = { s.side with events := s.side.events ++ ks.filter fun k => !b.event.getLsbD k && b.eventEn.getLsbD k }
    let other (u : State) (d : Nat) : Prop := ∀ k, k ≠ d → dieAt u k = dieAt s k
    (∀ v now, inService s = false → exec (.balCapWrite v now) s = .next { s with now := max s.now now } ∧
      exec (.balEventClear v) s = .next s ∧ exec (.balEventEnWrite v) s = .next s) ∧
    (∀ v now, inService s = true → ∃ u, exec (.balCapWrite v now) s = .next u ∧ u.bal.capReq.toNat = v.toNat % 1024 ∧ u.bal.cap = max 300 (min 600 (v.toNat % 1024)) ∧
      rises u (if v.toNat % 1024 < 300 ∨ 600 < v.toNat % 1024 then [1] else []) ∧
      u = { s with bal := { b with capReq := u.bal.capReq, cap := u.bal.cap, event := u.bal.event }, side := u.side, now := max s.now now }) ∧
    (∀ v, inService s = true → exec (.balEventClear v) s = .next { s with bal := { b with event := b.event &&& ~~~v } }) ∧
    (∀ v, inService s = true → ∃ u, exec (.balEventEnWrite v) s = .next u ∧ (∀ k, k < 32 → u.bal.eventEn.getLsbD k = (v.getLsbD k && decide (k < 10))) ∧
      u = { s with bal := { b with eventEn := u.bal.eventEn } }) ∧
    (let all := capTarget b - b.ioMeas
     let need (d : Nat) : Nat := needAt s d (dieJob s d).pc
     shareOf s 0 + shareOf s 1 = all ∧ (need 0 + need 1 ≤ all → need 0 ≤ shareOf s 0 ∧ need 1 ≤ shareOf s 1) ∧
     (s.split = true → ∀ d, d < 2 → all ≤ 2 * need d → all / 2 ≤ shareOf s d)) ∧
    (let w := slewDie (slewDie s 0) 1
     let cap (d : Nat) : Nat := capPoint w d
     let ruled (d : Nat) : Nat := if (dieJob s d).state = .armed then (dieJob s d).pc
       else if (dieJob s d).state ≠ .running then 15
       else if (dieJob s d).elastic = true ∧ ((dieJob s d).part ≠ .off ∨ 0 < (dieJob s d).j) then min (dieJob s d).pc (max (cap d) (dieAt s d).top)
       else (dieJob s d).pc
     let est (d : Nat) : Nat := Config.staticPower d (dieAt w d).current (dieAt s d).temps +
       Config.dynPower d (dieAt w d).current (if (dieAt s d).slices = 0 then (dieAt s d).activity else (dieAt s d).actSum / (dieAt s d).slices)
     let above : Prop := capTarget b < powerAt w 0 15 + powerAt w 1 15 + b.ioMeas
     let below : Prop := ∃ d, d < 2 ∧ (dieJob s d).state = .running ∧ ((dieJob s d).pc < cap d ∨ (above ∧ (dieJob s d).pc < 15))
     ∃ u, exec .balanceStep s = .next u ∧
      (∀ d, d < 2 → let x := dieAt s d
        let z := dieAt w d
        let y := dieAt u d
        let j := dieJob s d
        let moved (v v' goal : Nat) : Prop := (v ≤ goal → v' = min goal (v + 10)) ∧ (goal < v → v' = max goal (v - 10))
        let n := max (max (ruled d) (cap d)) (max x.thermal x.top)
        let t := if x.held = true ∨ above then 15 else if b.duty < 15 then max n x.target else n
        let counts : Prop := j.state = .running ∧ j.part ≠ .off ∧ 0 < x.slices
        let ts (k : Nat) : List Nat := (dieTiles s d).filter fun t => decide (phaseOf x t = k)
        moved x.vnow z.vnow x.vlogic ∧ moved x.cnow z.cnow x.vcim ∧
        (x.tripped = [] → y.stretch = x.stretch ∧ y.stretchBeat = x.stretchBeat ∧ y.stretchFrom = x.stretchFrom) ∧
        z = { x with vnow := z.vnow, cnow := z.cnow, stretch := z.stretch, stretchBeat := z.stretchBeat, stretchFrom := z.stretchFrom, current := if x.current ≤ x.target ∨ (x.vlogic ≤ z.vnow ∧ x.vcim ≤ z.cnow) then x.target else x.current } ∧
        cap d ≤ 15 ∧ (cap d < 15 → powerAt w d (cap d) ≤ shareOf w d) ∧ (∀ m, m < cap d → shareOf w d < powerAt w d m) ∧
        y.target = t ∧ y.vlogic = Config.fusedVlogic d t + 5 * x.steps + guardSum x + droopGuard s d ∧ y.vcim = Config.fusedVcim d t ∧
        y.current = (if z.current ≤ t ∨ (y.vlogic ≤ z.vnow ∧ y.vcim ≤ z.cnow) then t else z.current) ∧
        y = { z with target := t, vlogic := y.vlogic, vcim := y.vcim, current := y.current, phases := y.phases, slices := 0, actSum := 0, acts := []
                     stretch := y.stretch, stretchBeat := y.stretchBeat, stretchFrom := y.stretchFrom } ∧
        ∀ k, let f := tget {} x.phases k
          let g := tget {} y.phases k
          g.learnt = f.learnt ∧ g.guard = f.guard ∧ (¬ counts → g = f) ∧
            (counts → g.n = f.n + (ts k).length ∧
              g.sum = f.sum + ((ts k).map fun t => Config.dynPower d j.pc (tget 0 x.acts t / x.slices * (1050 - 35 * j.pc) / (1050 - 35 * z.current))).foldl (· + ·) 0)) ∧
      (u.bal.belowCommit = true ↔ below) ∧ (below → b.belowCommit = false → rises u [0]) ∧ ((¬ below ∨ b.belowCommit = true) → rises u []) ∧
      u.bal.estN = b.estN + 1 ∧ u.bal.estSum = b.estSum + est 0 + est 1 + b.ioMeas ∧
      u = { s with side := u.side, bal := { b with dies := u.bal.dies, event := u.bal.event, belowCommit := u.bal.belowCommit, estSum := u.bal.estSum, estN := u.bal.estN } }) ∧
    (∀ (d : Fin 2) work now, ∃ u, exec (.rampSlice d work now) s = .next u ∧ (let x := dieAt s d
      let y := dieAt u d
      let job := dieJob s d
      let ts := dieTiles s d
      let act (t : Nat) : Nat := ((work.filter fun w => decide (w.tile = t)).map fun w => w.n * Config.weight d w.kind).foldl (· + ·) 0
      let total := (ts.map act).foldl (· + ·) 0
      let idle : Prop := job.part ≠ .work ∨ ∀ t ∈ ts, t ∈ job.finished
      let learnt := ts.length * learntOf x 0
      let l0 := phase0Level d job.pc x.current learnt
      let time := job.tickOf (max s.now now)
      (∀ a, a ≤ 8000000 → learnt ≤ Config.dynPower d job.pc a → (∀ c, c < a → Config.dynPower d job.pc c < learnt) →
        l0 = min 8000000 (a * (1050 - 35 * x.current) / (1050 - 35 * job.pc))) ∧
      y.activity ≤ x.activity + 100000 ∧ x.activity ≤ y.activity + 100000 ∧ y.ballast = y.activity - total ∧
      (∃ goal, goal ≤ 8000000 ∧ min 8000000 total ≤ goal ∧
        ((job.state ≠ .running ∨ ¬ idle) → goal = min 8000000 total) ∧
        (job.state = .running → idle → min l0 x.activity ≤ goal ∧
          (nextRelease job ≤ time + 8000 → l0 ≤ goal) ∧ (time + 8000 < nextRelease job → goal ≤ max (min 8000000 total) x.activity)) ∧
        (x.activity ≤ goal → goal ≤ x.activity + 100000 → y.activity = goal) ∧ (x.activity + 100000 < goal → y.activity = x.activity + 100000) ∧
        (goal < x.activity → x.activity ≤ goal + 100000 → y.activity = goal) ∧ (goal + 100000 < x.activity → y.activity = x.activity - 100000)) ∧
      y.allow = some ((y.activity + 100000 - total) / max 1 ts.length) ∧
      (∀ t ∈ ts, tget 0 y.did t = act t ∧ tget 0 y.acts t = tget 0 x.acts t + act t) ∧
      y = { x with activity := y.activity, ballast := y.ballast, allow := y.allow, did := y.did, issued := [], slices := x.slices + 1, actSum := x.actSum + y.activity, acts := y.acts }) ∧
      other u d ∧ u = { s with now := max s.now now, bal := { b with dies := u.bal.dies } }) ∧
    (∀ meas io t0 t1 ti, let est := if b.estN = 0 then b.est.toNat else b.estSum / b.estN / 100
      let differs : Prop := meas < 5 * (if est ≤ meas then meas - est else est - meas)
      let w := if (differs ↔ b.measLed = false) then b.windows + 1 else 0
      let flip : Prop := if b.measLed then 10000 ≤ w else 100 ≤ w
      let read (o : Tbl Nat) (f g : List Nat) (hot hot' : BitVec 16) (xs : List Int) (n : Nat) : Prop :=
        (xs.length ≠ n → g = f ∧ hot' = hot) ∧ (xs.length = n →
          f <+: g ∧ (∀ i, i < n → (nth 0 xs i < -320 ∨ 1200 < nth 0 xs i) → i ∈ g) ∧
          (∀ i ∈ g, i ∈ f ∨ nth 0 xs i < -320 ∨ 1200 < nth 0 xs i ∨ (10 ≤ tget 0 o i + 1 ∧ 200 < (nth 0 xs i - median xs).natAbs)) ∧
          (∀ i, i < n → i ∉ g → nth 0 xs i ≤ hot'.toInt) ∧ ((∀ i, i < n → i ∈ g) → hot' = hot) ∧
          ((∃ i, i < n ∧ i ∉ g) → ∃ i, i < n ∧ i ∉ g ∧ nth 0 xs i = hot'.toInt))
      ∃ u, exec (.powerMeasurement meas io t0 t1 ti) s = .next u ∧ u.bal.meas = BitVec.ofNat 16 meas ∧ u.bal.est = BitVec.ofNat 16 est ∧
        u.bal.ioMeas = 100 * io ∧ u.bal.energy = b.energy.add (10 * meas) ∧ u.bal.estN = 0 ∧ u.bal.estSum = 0 ∧
        (flip → u.bal.measLed = !b.measLed ∧ u.bal.windows = 0) ∧ (¬ flip → u.bal.measLed = b.measLed ∧ u.bal.windows = w) ∧
        read (dieAt s 0).off (dieAt s 0).failed (dieAt u 0).failed (dieAt s 0).hottest (dieAt u 0).hottest t0 48 ∧
        read (dieAt s 1).off (dieAt s 1).failed (dieAt u 1).failed (dieAt s 1).hottest (dieAt u 1).hottest t1 48 ∧
        read b.ioOff b.ioFailed u.bal.ioFailed b.ioHottest u.bal.ioHottest ti 16 ∧
        (∀ d, d < 2 → let xs := if d = 0 then t0 else t1
          (xs.length ≠ 48 → dieAt u d = dieAt s d) ∧
          (xs.length = 48 → (dieAt u d).temps = xs ∧ (dieAt u d).held = ((dieAt s d).held || decide (8 < (dieAt u d).failed.length)))) ∧
        (let new : Prop := (dieAt u 0).failed ≠ (dieAt s 0).failed ∨ (dieAt u 1).failed ≠ (dieAt s 1).failed ∨ u.bal.ioFailed ≠ b.ioFailed
         let k := if b.measLed then 3 else 2
         (flip → new → rises u [k, 7]) ∧ (flip → ¬ new → rises u [k]) ∧ (¬ flip → new → rises u [7]) ∧ (¬ flip → ¬ new → rises u [])) ∧
        u = { s with bal := u.bal, side := u.side } ∧ u.bal.cap = b.cap ∧ u.bal.duty = b.duty ∧ (dieAt u 0).target = (dieAt s 0).target ∧ (dieAt u 1).target = (dieAt s 1).target) ∧
    (∀ now, let above : Prop := capTarget b < powerAt s 0 15 + powerAt s 1 15 + b.ioMeas
      let slow : Prop := ∀ d, d < 2 → (dieAt s d).current = 15
      let due : Prop := b.dutyAt + 100000 ≤ now ∨ b.duty = 15
      let only (u : State) : Prop := u = { s with now := max s.now now, side := u.side, bal := { b with duty := u.bal.duty, dutyAt := u.bal.dutyAt, lowSince := u.bal.lowSince, pwrAlert := u.bal.pwrAlert, event := u.bal.event } }
      ∃ u, exec (.dutyStep now) s = .next u ∧ only u ∧ (above → u.bal.lowSince = now) ∧ (¬ above → u.bal.lowSince = b.lowSince) ∧
        (above → slow → 7 < b.duty → due → u.bal.duty = b.duty - 1 ∧ u.bal.dutyAt = now ∧ u.bal.pwrAlert = b.pwrAlert ∧ rises u (if b.duty = 15 then [4] else [])) ∧
        (above → slow → b.duty ≤ 7 → u.bal.duty = b.duty ∧ u.bal.pwrAlert = true ∧ rises u (if b.pwrAlert then [] else [5])) ∧
        (above → (¬ slow ∨ (7 < b.duty ∧ ¬ due)) → u.bal.duty = b.duty ∧ u.bal.pwrAlert = b.pwrAlert ∧ rises u []) ∧
        (¬ above → rises u [] ∧ u.bal.duty = (if b.duty < 15 ∧ b.dutyAt + 1000000 ≤ now then b.duty + 1 else b.duty) ∧
          (u.bal.pwrAlert = true ↔ b.pwrAlert = true ∧ now < b.lowSince + 10000000))) ∧
    (∀ (d : Fin 2) now, let x := dieAt s d
      let hot := max x.hottest.toInt b.ioHottest.toInt
      let up : Prop := 840 ≤ hot ∧ x.thermal < 15 ∧ x.thermalAt + 1000000 ≤ now
      let down : Prop := hot ≤ 816 ∧ ruledPoint s d < x.thermal ∧ x.thermalAt + 10000000 ≤ now
      ∃ u, exec (.thermalStep d now) s = .next u ∧ other u d ∧
        (up → dieAt u d = { x with thermal := x.thermal + 1, thermalAt := now }) ∧ (down → dieAt u d = { x with thermal := x.thermal - 1, thermalAt := now }) ∧
        (¬ up → ¬ down → dieAt u d = x) ∧
        (u.bal.throttle = true ↔ ∃ k, k < 2 ∧ ((dieAt u k).held = true ∨ ruledPoint s k < (dieAt u k).thermal)) ∧
        rises u (if u.bal.throttle = true ∧ b.throttle = false then [6] else []) ∧
        u = { s with now := max s.now now, side := u.side, bal := { b with dies := u.bal.dies, throttle := u.bal.throttle, event := u.bal.event } }) ∧
    (∀ (d : Fin 2) (det : Fin 32) now, let x := dieAt s d
      let time := max s.now now
      let count (t : Nat) : Die := if x.tripped = [] then x else
        let dt := t - x.stretchFrom
        { x with stretch := x.stretch.add (4 * dt * (1050 - 35 * x.current) / 5000), stretchBeat := x.stretchBeat + dt, stretchFrom := max t x.stretchFrom }
      let near (v goal : Nat) : Prop := goal ≤ v + 10 ∧ v ≤ goal + 10
      let puts (c : Instr) (t : Nat) (z : Die) : Prop := exec c s = .next { s with bal := { b with dies := b.dies.set d z }, now := t }
      puts (.droopTrip d det now) time { count time with droop := x.droop.add 1, tripped := if det.val ∈ x.tripped then x.tripped else x.tripped ++ [det.val]
                                                         stretchFrom := if x.tripped = [] then time else (count time).stretchFrom } ∧
      puts (.droopRecover d now) time { count time with tripped := [] } ∧
      (near x.vnow x.vlogic → near x.cnow x.vcim → puts (.voltageSlewDone d) s.now { count s.now with vnow := x.vlogic, cnow := x.vcim, current := x.target }) ∧
      (¬ (near x.vnow x.vlogic ∧ near x.cnow x.vcim) → exec (.voltageSlewDone d) s = .next s)) ∧
    ∀ (d : Fin 2) now, let x := dieAt s d
      let spent (g : Guard) : Prop := ∃ e, g.entered = some e ∧ e + 20000 ≤ now
      ((∀ g ∈ x.guards, ¬ spent g) → exec (.phaseGuardRemove d now) s = .next { s with now := max s.now now }) ∧
      ((∃ g ∈ x.guards, spent g) → ∃ u, exec (.phaseGuardRemove d now) s = .next u ∧ other u d ∧
        (dieAt u d).guards.Sublist x.guards ∧ (∀ g, g ∈ (dieAt u d).guards ↔ g ∈ x.guards ∧ ¬ spent g) ∧
        dieAt u d = { x with guards := (dieAt u d).guards, vcim := Config.fusedVcim d x.target
                             vlogic := Config.fusedVlogic d x.target + 5 * x.steps + ((dieAt u d).guards.map (·.mv)).foldl (· + ·) 0 + droopGuard s d } ∧
        u = { s with now := max s.now now, bal := { b with dies := u.bal.dies } })

/-- Power, reset and start-up: PWR_EN, PG and PERST_N act by their levels, once held for 5 µs; a reset leaves what `Resets` says and its cause;
an input trip, the loss of the input or a trip by temperature ends every job and drops the rails, and a rail failure, the
MP's watchdog or an error in its memories takes the device down; the clearing on wake retires what it finds; the boot
ROM runs the first slot that verifies; each interface's training is recorded; READY asserts when all of it has ended; a
lost die-to-die link faults the jobs it serves; and the test access port does what its instructions name, refusing by
name the debug instructions that the manual does not describe (R15, R263, R376, R379, R483 to R488, R498, R499, R505,
R521 to R538). The keys of a boot follow from its image, the fuses and its draws (R497). The model's choices: a reset acts at its
assertion (log 120), a counter port that fails on wake (log 122), how long a boot cause stands (log 125), what the loss of
housekeeping power leaves (log 127), whether a fuse
write is cut by a reset is free (log 130), the SMBus lines are high between commands and PPS_OUT shows both partitions' tick
sources (log 170), and the lifecycle moves with debug-disable set (log 169). -/
def Obligations.PowerAndStartRows : Prop :=
  ∀ (s : State) (now : Nat), Shape s →
    let st := s.start
    let x := s.sec
    let time := max s.now now
    let same (c : Instr) : Prop := exec c s = .next { s with now := time }
    let resets (u : State) (cause : Nat) : Prop := Resets s u ∧ u.start.cause = CauseAfter s cause ∧ u.now = time
    let uncut (u : State) : Prop := u.sec = { x with journal := u.sec.journal, entries := u.sec.entries, fuseAt := none, missing := u.sec.missing } ∧
      (x.fuseAt = none ∨ (∀ t e, x.fuseAt = some (t, e) → t + 5000000 ≤ time) → u.sec = { x with fuseAt := none } ∧ u.free = s.free)
    let jobless (u : State) : Prop := (∀ p, p < 2 → jobOf u p =
        { jobOf s p with state := .idle, part := .off, arming := false, awaiting := [], armBox := none, loadBox := none }) ∧
      (∀ t, t < 256 → Stopped (tileOf s t) (tileOf u t)) ∧ (∀ w, w < 256 → (windowAt u w).isOpen = false) ∧
      u.start.faultN = false ∧ u.start.squelched = true ∧ (∀ a, ¬ DevDest s 0 a → ¬ DevDest s 1 a → mget u.mem a = mget s.mem a) ∧
      u = { s with tiles := u.tiles, windows := u.windows, jobs := u.jobs, start := u.start, host := u.host, now := u.now
                   mem := u.mem, fens := u.fens, waits := u.waits, sec := u.sec, free := u.free }
    let dark (u : State) : Prop := (st.pg = true → jobless u ∧ u.start.cause = 0) ∧
      (st.pg = false → u = { s with start := u.start, host := u.host, sec := u.sec, free := u.free, now := u.now } ∧ uncut u) ∧
      u.sec = { x with journal := u.sec.journal, entries := u.sec.entries, fuseAt := none, missing := u.sec.missing } ∧ u.start.pg = false ∧ u.start.phase = .unpowered ∧
      u.start.faultN = false ∧ u.start.squelched = true ∧ u.host = { s.host with linkUp := false } ∧ u.now = time
    let opened : Security := { x with salt := [], aliasKey := 0, aliasCert := [], cdi := [], rootOpen := true }
    (∀ (addr : Fin 8) held, held < 5000 → same (.pwrEnRise held now) ∧ same (.pwrEnFall held now) ∧ same (.perstNAssert held now) ∧
      same (.perstNDeassert addr held now)) ∧
    (∀ held, 5000 ≤ held →
    (st.pwrEn = true → same (.pwrEnRise held now)) ∧
    (st.pwrEn = false → exec (.pwrEnRise held now) s = .next { s with now := time, bal := freshBal, sec := { x with readyPwr := 0 }, start := { st with pwrEn := true, cause := 0, causeCode := 0, tripped := st.tripped && decide (now < st.pwrFell + 100000000) } }) ∧
    (let on : Prop := st.pwrEn = true ∧ st.housekeeping = true ∧ st.tripped = false ∧ st.thermtripN = true ∧ st.pg = false
     (¬ on → same (.pgAssert now)) ∧
     (on → ∃ u, exec (.pgAssert now) s = .next u ∧ resets u 0 ∧ u.start.pg = true ∧
       u.start.phase = (if st.perstN = true ∧ st.internalReset = false then .starting else .inReset) ∧
       (st.perstN = true → st.internalReset = false → u.sec = { opened with volatile := [], staged := none, clearing := false, journal := u.sec.journal, entries := u.sec.entries,
                                                                                   fuseAt := none, missing := u.sec.missing }))) ∧
    (st.pwrEn = false → same (.pwrEnFall held now)) ∧
    (st.pwrEn = true → ∃ u, exec (.pwrEnFall held now) s = .next u ∧ resets u 0 ∧ u.start.pg = false ∧ u.start.phase = .unpowered ∧
      u.start.pwrEn = false ∧ u.start.pwrFell = now ∧ u.start.thermtripN = true ∧ u.start.internalReset = false) ∧
    (st.pg = true → ∃ u, exec (.perstNAssert held now) s = .next u ∧ resets u 1 ∧ u.start.phase = .inReset ∧ u.start.perstN = false) ∧
    (st.pg = false → exec (.perstNAssert held now) s = .next { s with now := time, start := { st with perstN := false } }) ∧
    (∀ addr : Fin 8, (let starts : Prop := st.pg = true ∧ st.phase = .inReset ∧ st.internalReset = false
      exec (.perstNDeassert addr held now) s = .next { s with
        now := time
        side := { s.side with addr := BitVec.ofNat 7 (0x58 + addr.val) }
        sec := if starts then opened else x
        start := { st with perstN := true, addrPins := addr, phase := if starts then .starting else st.phase } }) ∧
      (st.internalReset = false → same (.internalResetRelease addr now)) ∧
      (st.internalReset = true → ∃ u, exec (.internalResetRelease addr now) s = .next u ∧ u.start.internalReset = false ∧
        u.start.phase = (if st.perstN = true ∧ st.pg = true then .starting else st.phase) ∧
        (st.perstN = true → st.pg = true → u.side.addr = BitVec.ofNat 7 (0x58 + addr.val)) ∧
        u = { s with now := time, side := u.side, start := u.start, sec := if st.perstN = true ∧ st.pg = true then opened else x }))) ∧
    (∀ why, ∃ u, exec (.inputProtectionTrip why now) s = .next u ∧ dark u ∧ u.start.tripped = true) ∧
    (∃ u, exec (.housekeepingStop now) s = .next u ∧ dark u ∧ u.start.housekeeping = false ∧ u.start.thermtripN = true) ∧
    (st.housekeeping = true → same (.housekeepingStart now)) ∧
    (st.housekeeping = false → exec (.housekeepingStart now) s = .next (if st.pwrEn then { s with now := time, bal := freshBal, sec := { x with readyPwr := 0 }, start := { st with housekeeping := true, cause := 0, causeCode := 0 } }
      else { s with now := time, start := { st with housekeeping := true } })) ∧
    (let rising : Prop := st.pwrEn = true ∧ st.housekeeping = true ∧ st.tripped = false ∧ st.thermtripN = true
     (st.pg = false → ¬ rising → same (.thermtrip now)) ∧
     (st.pg = true ∨ rising → ∃ u, exec (.thermtrip now) s = .next u ∧ dark u ∧ u.start.thermtripN = false)) ∧
    (st.pg = false → same (.railFailure now)) ∧
    (st.pg = true → ∃ u, exec (.railFailure now) s = .next u ∧ jobless u ∧ u.sec.records = x.records ∧ u.start.pg = false ∧ u.start.phase = .down ∧ u.start.cause = 0 ∧ u.host = { s.host with linkUp := false }) ∧
    (let runs : Prop := st.phase = .ready ∨ st.phase = .activating
     (¬ runs → same (.mpWatchdogExpiry now) ∧ same (.controlMemoryError now)) ∧
     (runs → (∃ u, exec (.mpWatchdogExpiry now) s = .next u ∧ jobless u ∧ u.sec = x ∧ u.start.phase = .down ∧ u.start.cause = 3 ∧ u.start.causeCode = 0xFF01 ∧ u.host = s.host) ∧
       ∃ u, exec (.controlMemoryError now) s = .next u ∧ jobless u ∧ u.sec = x ∧ u.start.phase = .down ∧ u.start.cause = 4 ∧ u.start.causeCode = 0xFF02 ∧ u.host = s.host)) ∧
    (∀ k : Fin 12, let serves (p : Nat) : Prop := if s.split then (p = 0 ∧ k.val < 4) ∨ (p = 1 ∧ 4 ≤ k.val ∧ k.val < 8) else p = 0
      ∃ u, exec (.dieToDieLinkLoss k) s = .next u ∧ u.start = { st with d2dTrained := st.d2dTrained.erase k.val } ∧ u.sec = x ∧ u.bal = s.bal ∧
        (∀ a, (∀ p, serves p → ¬ DevDest s p a) → mget u.mem a = mget s.mem a) ∧
        ∀ p, p < 2 → (serves p → faultable (jobOf s p).state = true → (jobOf u p).state = .faulted ∧ (jobOf u p).code.toNat = 0xFC00 + k.val) ∧
          (serves p → faultable (jobOf s p).state = false → jobOf u p = { jobOf s p with loadBox := none, confirms := (jobOf s p).confirms ++ [{ pm := k, kind := 4 }] } ∧
            ∀ i, (jobOf s p).loadBox = some i → ((mbxAt s i).cmd.map (·.ended)) = some false → (mbxAt u i).cmd.map (fun c => (c.status, c.ended)) = some (6, true)) ∧ (¬ serves p → jobOf u p = jobOf s p)) ∧
    (∀ finds, (st.phase ≠ .starting ∨ st.arraysCleared = true → exec (.clearingOnWake finds) s = .next s) ∧
      (st.phase = .starting → st.arraysCleared = false → ∃ u, exec (.clearingOnWake finds) s = .next u ∧ u.start.arraysCleared = true ∧
        (∀ d, d < 2 → (fenOf u d).banks = [] ∧ (fenOf u d).scr = [] ∧ (fenOf u d).wcs = []) ∧
        (∀ pt m, WakeFind.macro_ pt m ∈ finds → (tileAt u pt).ret.mret.getLsbD m = true ∨ (tileAt u pt).ret.tilePend = true) ∧
        (∀ pt arr, WakeFind.tileArray pt arr ∈ finds → (tileAt u pt).ret.tilePend = true) ∧
        (∀ d k, WakeFind.fenBank d k ∈ finds → (d.val, 0x2701) ∈ u.start.beyond) ∧ (∀ d, WakeFind.counterPort d ∈ finds → (d.val, 0x2701) ∈ u.start.beyond) ∧
        (finds = [] → u.tiles = s.tiles ∧ u.sec = x ∧ u.start.beyond = st.beyond) ∧
        u = { s with tiles := u.tiles, fens := u.fens, start := { st with arraysCleared := true, beyond := u.start.beyond, tpendFull := u.start.tpendFull }, sec := u.sec, host := u.host })) ∧
    (∀ a o : Option (List Byte), let flash := match a with | some bs => setAt x.flash 0 bs | none => x.flash
      let y : Security := { x with flash := match o with | some bs => setAt flash 1 bs | none => flash }
      let good (b : Bool) : Prop := verifyImage y (slotBytes y b) = 0
      (st.phase ≠ .starting ∨ st.verified = true → exec (.skovundVerify a o) s = .next s) ∧
      (st.phase = .starting → st.verified = false →
        (∀ b, good b → b = y.activeB ∨ ¬ good y.activeB → ∃ u, exec (.skovundVerify a o) s = .next u ∧ Boots y u.sec b ∧
          u = { s with
            start := { st with verified := true }
            sec := { y with run := u.sec.run, slotB := u.sec.slotB, fallback := u.sec.fallback, salt := u.sec.salt, aliasKey := u.sec.aliasKey,
                            aliasCert := u.sec.aliasCert, cdi := [], rootOpen := false, draws := u.sec.draws } }) ∧
        (¬ good y.activeB → ¬ good (!y.activeB) → exec (.skovundVerify a o) s = .next { s with
          sec := y, start := { st with phase := .bootFailed, faultN := false, squelched := true } }))) ∧
    (st.phase ≠ .starting → ∀ t, exec (.interfaceTrainingDone t) s = .next s) ∧
    (st.phase = .starting →
      (∀ (k : Fin 12) ok, ∃ u, exec (.interfaceTrainingDone (.dieToDie k ok)) s = .next u ∧ k.val ∈ u.start.d2dTrained ∧
        (ok = true → u.start.beyond = st.beyond) ∧ (ok = false → (if k.val < 8 then k.val / 4 else 2, 0xFC00 + k.val) ∈ u.start.beyond) ∧
        u = { s with start := { st with d2dTrained := u.start.d2dTrained, beyond := u.start.beyond } }) ∧
      (∀ (ch : Fin 52) ok, ∃ u, exec (.interfaceTrainingDone (.lpddr ch ok)) s = .next u ∧ ch.val ∈ u.start.lpddrTrained ∧
        (ok = true → u = { s with start := { st with lpddrTrained := u.start.lpddrTrained }, chans := s.chans.set ch.val { chanAt s ch with lastRetrain := s.now } }) ∧
        (ok = false → (chanAt s ch).state ≠ 2 → (chanAt s ch).state ≠ 3 → ChanFails s u ch)) ∧
      (∀ (n : Fin 5) mode, ∃ u, exec (.interfaceTrainingDone (.causeway n mode)) s = .next u ∧ n.val ∈ u.start.cwyTrained ∧
        (portAt u n).state = (if 1 ≤ mode ∧ mode ≤ 4 then 2 else 0) ∧ (portAt u n).mode = (if 1 ≤ mode ∧ mode ≤ 4 then mode else 0) ∧
        (∀ m, m ≠ n.val → portAt u m = portAt s m) ∧ u = { s with ports := u.ports, start := { st with cwyTrained := u.start.cwyTrained } })) ∧
    (let done : Prop := s.host.linkUp = true ∧ st.phase = .starting ∧ st.arraysCleared = true ∧ st.verified = true ∧ st.d2dTrained.length = 12 ∧ st.lpddrTrained.length = 52 ∧ st.cwyTrained.length = 5
     (¬ done → same (.readyAssert now)) ∧
     (done → ∃ u, exec (.readyAssert now) s = .next u ∧ inService u = true ∧ u.start = { st with phase := .ready, faultN := true, squelched := false } ∧
       u.segs = [(0, .awaiting)] ∧ u.host = { s.host with irqStatus := 0, irqMask := 0x7FF, owed := 0, mbx := List.replicate 8 {} } ∧
       u.sec.readyEver = x.readyEver + 1 ∧ u.sec.readyPwr = x.readyPwr + 1 ∧ u.sec.activated = false ∧ u.sec.missing = none ∧ (∀ kind arg, x.missing = some (kind, arg) → x.journal ≠ u.sec.journal) ∧ u.bal.measLed = false ∧ u.bal.windows = 0 ∧
       u.sec.counter = (if x.activated then max x.counter (min x.run.svn (x.counter + 128)) else x.counter) ∧
       (∀ d, d < 2 → (dieAt u d).steps ≤ 10) ∧ u = { s with start := u.start, segs := u.segs, host := u.host, sec := u.sec, bal := u.bal, side := u.side, free := u.free, now := time })) ∧
    (∀ high, exec (.jtagInstruction (.trst high)) s = .next { s with start := { st with trstN := high, extest := if high then st.extest else none } }) ∧
    (∀ j, st.trstN = false → (∀ high, j ≠ .trst high) → exec (.jtagInstruction j) s = .next s) ∧
    (st.trstN = true →
    (∃ u, exec (.jtagInstruction .idcode) s = .next u ∧ u.start.tdo.toNat / 4096 % 65536 = 0xC4B2 ∧ u = { s with start := { st with tdo := u.start.tdo, extest := none } }) ∧
    exec (.jtagInstruction .bypass) s = .next { s with start := { st with tdo := 0, extest := none } } ∧
    (let own : List Bool := [st.pwrEn, st.perstN, st.pg, inService s, st.faultN, !s.bal.pwrAlert, st.thermtripN, smbAlertN s.bal, decide (s.now < st.ppsUntil), ppsOut s,
       false, true, true]
     ∃ u, exec (.jtagInstruction .sample) s = .next u ∧ u = { s with start := { st with tdo := u.start.tdo, extest := none } } ∧
      ∀ i, i < 13 → u.start.tdo.getLsbD i = match st.extest with
        | none => nth false own i
        | some v => if i ∈ [2, 3, 4, 5, 6, 7, 9, 11, 12] then v.getLsbD i else nth false own i) ∧
    (∀ v, exec (.jtagInstruction (.extest v)) s = .next { s with start := { st with extest := some v } }) ∧
    (∀ next auth, let go : Prop := auth = true ∧ next = x.lifecycle + 1 ∧ next ≤ 2
      (¬ go → exec (.jtagInstruction (.lifecycle next auth)) s = .next s) ∧
      (go → ∃ u, exec (.jtagInstruction (.lifecycle next auth)) s = .next u ∧ u.sec.lifecycle = next ∧ u.sec.journal = x.journal + 1 ∧
        u.sec.zeroised = (x.zeroised || decide (next = 2)) ∧
        u = { s with sec := { x with lifecycle := next, zeroised := u.sec.zeroised, journal := u.sec.journal, entries := u.sec.entries, fuseAt := u.sec.fuseAt } })) ∧
    (∀ auth, let go : Prop := auth = true ∧ x.lifecycle = 0 ∧ x.debugDis = false
      (¬ go → exec (.jtagInstruction (.debugDisable auth)) s = .next s) ∧
      (go → ∃ u, exec (.jtagInstruction (.debugDisable auth)) s = .next u ∧ u.sec.debugDis = true ∧ u.sec.journal = x.journal + 1 ∧
        u = { s with sec := { x with debugDis := true, journal := u.sec.journal, entries := u.sec.entries, fuseAt := u.sec.fuseAt } })) ∧
    ∀ c, (x.debugDis = true → exec (.jtagInstruction (.other c)) s = .next s) ∧
      (x.debugDis = false → exec (.jtagInstruction (.other c)) s = .refused .debugInstruction))

/-- After reset the queue is empty, the device is in service in WHOLE with every byte of memory AWAITING, the shapes, the
memories' form and the tiles' places hold, and the registers of BAR0 and of the BAL_ space hold the values that the
register tables give: 0 but for those named (R15, R470, R475, R511, R518, R519, R544 and the tables of the blocks). -/
def Obligations.ResetState : Prop :=
  let s := State.reset
  let word (off : Nat) (v : BitVec 32) : Prop := regWord s off = v
  s.pending = [] ∧ inService s = true ∧ s.split = false ∧ (∀ a, byteState s a = .awaiting) ∧ Shape s ∧ MemOk s ∧ TilesApart s ∧
    (∀ p, p < 2 → (jobOf s p).state = .idle) ∧ (∀ pt, tileAt s pt = {}) ∧ (∀ k, k < 8 → mbxAt s k = {}) ∧
    word 0x20000 0x80000000 ∧ word 0x20004 0x7FF ∧ word 0x1100 0 ∧ word 0x1220 0xFFFFFFFF ∧
    (∀ off ∈ [0x1200, 0x1204, 0x1208, 0x120C, 0x1210, 0x1214, 0x1218, 0x121C, 0x1228, 0x122C, 0x1240, 0x1248, 0x124C], word off 0) ∧
    (∀ k off, k < 8 → off < 0x200 → off % 4 = 0 → word (0x10000 + 0x200 * k + off) 0) ∧
    (∀ v w, v < 64 → w < 4 → word (0x30000 + 16 * v + 4 * w) (if w = 3 then 1 else 0)) ∧
    (∀ n, n < 52 → word (0x100100 + 4 * n) 0 ∧ word (0x100200 + 4 * n) 0 ∧ word (0x100300 + 4 * n) 0) ∧
    (∀ n off, n < 5 → off ∈ [0x10, 0x14, 0x18, 0x1C, 0x20, 0x24, 0x28, 0x2C, 0x30, 0x34, 0x38] → word (0x200000 + 0x100 * n + off) 0) ∧
    (∀ off ∈ [0x800, 0x804, 0x808, 0x80C, 0x810, 0x814], word (0x200000 + off) 0) ∧
    (∀ off, off < 0x2000 → off % 4 = 0 → word (0x300000 + off) 0) ∧ (∀ off, off < 0x2000 → off % 4 = 0 → word (0x400000 + off) 0) ∧
    (∀ off ∈ [0x00, 0x04, 0x08, 0x10, 0x14, 0x18], word (0x500000 + off) 0) ∧
    (∀ t k, t < 256 → k < 32 → word (0x1000200 + 0x4000 * t + 4 * k) 0x01000000 ∧ word (0x1000480 + 0x4000 * t + 4 * k) 0) ∧
    (∀ t off, t < 256 → (off ∈ [0x300, 0x304, 0x308, 0x320, 0x324, 0x340, 0x344, 0x348] ∨ (0x360 ≤ off ∧ off < 0x3B8) ∨ (0x400 ≤ off ∧ off < 0x468)) → off % 4 = 0 →
      word (0x1000000 + 0x4000 * t + off) 0) ∧
    (∀ off ∈ [0x008, 0x100, 0x104, 0x108, 0x10C, 0x110, 0x114, 0x118, 0x11C], word (0x1800000 + off) 0) ∧
    balReg s.bal 0x000 = 0x258 ∧ balReg s.bal 0x004 = 0x02580258 ∧ balReg s.bal 0x008 = 0x0F000000 ∧ balReg s.bal 0x010 = 0x3FF ∧
    (∀ off ∈ [0x00C, 0x020, 0x024], balReg s.bal off = 0) ∧ (∀ i, i < 16 → balReg s.bal (0x100 + 4 * i) = 0) ∧
    ∀ off ∈ [0x018, 0x050, 0x058, 0x070, 0x078], balPair s.bal off ≠ none ∧ ∀ q, balPair s.bal off = some q → q.2 = {}
end

