-- ==== Sys2Proof/Laws/Tables.lean ====
section
/-!
SUPPORT. Sparse tables and byte memories: reading after writing, and that every write keeps the canonical form.
-/
namespace Sys2Proof.Machine

/-! ## Reading -/

theorem tget_append (d : α) (a b : Tbl α) (k : Nat) (h : ∀ e ∈ a, e.1 ≠ k) : tget d (a ++ b) k = tget d b k := by
  induction a with
  | nil => rfl
  | cons e r ih =>
    have h1 := h e (by simp)
    have h2 := ih fun x hx => h x (by simp [hx])
    simp [tget, h1, h2]

theorem tget_absent (d : α) (a : Tbl α) (k : Nat) (h : ∀ e ∈ a, e.1 ≠ k) : tget d a k = d := by
  have := tget_append d a [] k h
  simpa [tget] using this

theorem tget_append_left (d : α) (a b : Tbl α) (k : Nat) (h : ∀ e ∈ b, e.1 ≠ k) : tget d (a ++ b) k = tget d a k := by
  induction a with
  | nil => simpa [tget] using tget_absent d b k h
  | cons e r ih => by_cases h1 : e.1 = k <;> simp [tget, h1, ih]

/-- A filter that keeps every entry of key `k` does not change what `k` reads as. -/
theorem tget_filter (d : α) (a : Tbl α) (q : Nat × α → Bool) (k : Nat) (h : ∀ e ∈ a, e.1 = k → q e = true) :
    tget d (a.filter q) k = tget d a k := by
  induction a with
  | nil => rfl
  | cons e r ih =>
    have h2 := ih fun x hx => h x (by simp [hx])
    by_cases h1 : e.1 = k
    · have := h e (by simp) h1
      simp [List.filter, this, tget, h1]
    · by_cases hq : q e = true
      · simp [List.filter, hq, tget, h1, h2]
      · simp [List.filter, hq, tget, h1, h2]

@[simp] theorem tget_tset [DecidableEq α] (d : α) (t : Tbl α) (k : Nat) (v : α) : tget d (tset d t k v) k = v := by
  unfold tset
  rw [List.append_assoc, tget_append]
  · by_cases h : v = d
    · subst h
      simp only [if_true, List.nil_append]
      exact tget_absent _ _ _ (by simp; omega)
    · simp [h, tget]
  · simp; omega

theorem tget_tset_ne [DecidableEq α] (d : α) (t : Tbl α) (k k' : Nat) (v : α) (h : k' ≠ k) :
    tget d (tset d t k v) k' = tget d t k' := by
  unfold tset
  by_cases hv : v = d <;> simp only [hv, if_true, if_false, List.append_nil]
  · rcases Nat.lt_or_gt_of_ne h with h' | h'
    · rw [tget_append_left _ _ _ _ (by simp; omega)]
      exact tget_filter _ _ _ _ (by simp; omega)
    · rw [tget_append _ _ _ _ (by simp; omega)]
      exact tget_filter _ _ _ _ (by simp; omega)
  · rcases Nat.lt_or_gt_of_ne h with h' | h'
    · rw [tget_append_left _ _ _ _ (by simp; omega), tget_append_left _ _ _ _ (by simp; omega)]
      exact tget_filter _ _ _ _ (by simp; omega)
    · rw [List.append_assoc, tget_append _ _ _ _ (by simp; omega), tget_append _ _ _ _ (by simp; omega)]
      exact tget_filter _ _ _ _ (by simp; omega)

theorem tget_tset_eq [DecidableEq α] (d : α) (t : Tbl α) (k k' : Nat) (v : α) :
    tget d (tset d t k v) k' = if k' = k then v else tget d t k' := by
  by_cases h : k' = k
  · subst h; simp
  · simp [h, tget_tset_ne _ _ _ _ _ h]

/-! ## The canonical form -/

/-- The canonical form said of pairs: rising keys, and no value equal to the default. -/
theorem tblWf_iff [DecidableEq α] (d : α) (t : Tbl α) :
    tblWf d t = true ↔ t.Pairwise (fun a b => a.1 < b.1) ∧ ∀ e ∈ t, e.2 ≠ d := by
  induction t with
  | nil => simp [tblWf]
  | cons e r ih =>
    cases r with
    | nil => simp [tblWf]
    | cons f r =>
      simp only [tblWf, Bool.and_eq_true, decide_eq_true_eq, ih, List.pairwise_cons]
      constructor
      · rintro ⟨⟨h1, h2⟩, ⟨h3, h4⟩, h5⟩
        refine ⟨⟨?_, h3, h4⟩, ?_⟩
        · intro a ha
          rcases List.mem_cons.mp ha with rfl | ha
          · exact h2
          · exact Nat.lt_trans h2 (h3 a ha)
        · intro a ha
          rcases List.mem_cons.mp ha with rfl | ha
          · exact h1
          · exact h5 a ha
      · rintro ⟨⟨h1, h2, h3⟩, h4⟩
        exact ⟨⟨h4 e (by simp), h1 f (by simp)⟩, ⟨h2, h3⟩, fun a ha => h4 a (by simp [ha])⟩

theorem tblWf_filter [DecidableEq α] (d : α) (t : Tbl α) (q : Nat × α → Bool) (h : tblWf d t = true) :
    tblWf d (t.filter q) = true := by
  rw [tblWf_iff] at h ⊢
  exact ⟨h.1.filter q, fun e he => h.2 e (List.mem_filter.mp he).1⟩

/-- Three runs of a table that follow one another. -/
theorem tblWf_append3 [DecidableEq α] (d : α) (a b c : Tbl α) (lo hi : Nat) (ha : tblWf d a = true)
    (hb : tblWf d b = true) (hc : tblWf d c = true) (h1 : ∀ e ∈ a, e.1 < lo) (h2 : ∀ e ∈ b, lo ≤ e.1 ∧ e.1 < hi)
    (h3 : ∀ e ∈ c, hi ≤ e.1) (h : lo ≤ hi) : tblWf d (a ++ b ++ c) = true := by
  rw [tblWf_iff] at *
  simp only [List.pairwise_append, List.mem_append]
  refine ⟨⟨⟨ha.1, hb.1, ?_⟩, hc.1, ?_⟩, ?_⟩
  · intro x hx y hy
    have := h1 x hx; have := h2 y hy; omega
  · rintro x (hx | hx) y hy
    · have := h1 x hx; have := h3 y hy; omega
    · have := h2 x hx; have := h3 y hy; omega
  · rintro x ((hx | hx) | hx)
    · exact ha.2 x hx
    · exact hb.2 x hx
    · exact hc.2 x hx

theorem tblWf_tset [DecidableEq α] (d : α) (t : Tbl α) (k : Nat) (v : α) (h : tblWf d t = true) :
    tblWf d (tset d t k v) = true := by
  unfold tset
  refine tblWf_append3 d _ _ _ k (k + 1) (tblWf_filter _ _ _ h) ?_ (tblWf_filter _ _ _ h) ?_ ?_ ?_ (by omega)
  · by_cases hv : v = d <;> simp [hv, tblWf]
  · simp
  · by_cases hv : v = d <;> simp [hv]
  · intro e he
    have := List.mem_filter.mp he
    simp at this
    omega

/-- Whatever the entries of a table hold, its rewriting ends in canonical form. -/
theorem tblWf_tmap [DecidableEq α] (d : α) (t : Tbl α) (f : α → α) : tblWf d (tmap d t f) = true := by
  have h : ∀ (l : Tbl α) (m : Tbl α), tblWf d m = true → tblWf d (l.foldl (fun m e => tset d m e.1 (f (tget d t e.1))) m) = true := by
    intro l
    induction l with
    | nil => exact fun m hm => hm
    | cons e r ih => exact fun m hm => ih _ (tblWf_tset d m _ _ hm)
  exact h t [] rfl

/-- Rewriting every entry rewrites what every key reads as. -/
theorem tget_tmap [DecidableEq α] (d : α) (t : Tbl α) (f : α → α) (hd : f d = d) (k : Nat) :
    tget d (tmap d t f) k = f (tget d t k) := by
  have h : ∀ (l m : Tbl α), tget d (l.foldl (fun m e => tset d m e.1 (f (tget d t e.1))) m) k =
      if ∃ e ∈ l, e.1 = k then f (tget d t k) else tget d m k := by
    intro l
    induction l with
    | nil => simp
    | cons e r ih =>
      intro m
      rw [List.foldl_cons, ih, tget_tset_eq]
      by_cases he : e.1 = k
      · subst he; simp
      · rw [if_neg fun h : k = e.1 => he h.symm]
        exact if_congr (by simp [he]) rfl rfl
  rw [tmap, h]
  split
  · rfl
  · rename_i hk
    rw [tget_absent d t k fun e he hek => hk ⟨e, he, hek⟩, hd]; rfl

theorem cells_bound (a : Nat) (bs : List Byte) : ∀ e ∈ cells a bs, a ≤ e.1 ∧ e.1 < a + bs.length := by
  induction bs generalizing a with
  | nil => simp [cells]
  | cons b r ih =>
    intro e he
    by_cases hb : b = 0 <;> simp only [cells, hb, if_true, if_false, List.mem_cons, List.length_cons] at he ⊢
    · have := ih (a + 1) e he; omega
    · rcases he with rfl | he
      · simp
      · have := ih (a + 1) e he; omega

theorem memWf_cells (a : Nat) (bs : List Byte) : tblWf 0 (cells a bs) = true := by
  induction bs generalizing a with
  | nil => simp [cells, tblWf]
  | cons b r ih =>
    by_cases hb : b = 0 <;> simp only [cells, hb, if_true, if_false]
    · exact ih (a + 1)
    · have h1 := (tblWf_iff 0 _).mp (ih (a + 1))
      refine (tblWf_iff 0 _).mpr ⟨List.pairwise_cons.mpr ⟨fun x hx => ?_, h1.1⟩, ?_⟩
      · have := cells_bound (a + 1) r x hx
        show a < x.1
        omega
      · intro x hx
        rcases List.mem_cons.mp hx with rfl | hx
        · exact hb
        · exact h1.2 x hx

/-- Every store keeps the canonical form of a memory. -/
theorem memWf_mwrite (m : Mem) (a : Nat) (bs : List Byte) (h : memWf m = true) : memWf (mwrite m a bs) = true := by
  unfold memWf mwrite at *
  refine tblWf_append3 0 _ _ _ a (a + bs.length) (tblWf_filter _ _ _ h) (memWf_cells a bs) (tblWf_filter _ _ _ h) ?_
    (cells_bound a bs) ?_ (by omega)
  · simp
  · simp

theorem memWf_filter (m : Mem) (q : Nat × Byte → Bool) (h : memWf m = true) : memWf (m.filter q) = true :=
  tblWf_filter 0 m q h

/-- Clearing a range keeps the canonical form of a memory. -/
theorem memWf_mclear (m : Mem) (a n : Nat) (h : memWf m = true) : memWf (mclear m a n) = true := by
  have h1 := tblWf_append3 0 (m.filter fun e => decide (e.1 < a)) [] (m.filter fun e => decide (a + n ≤ e.1)) a (a + n)
    (memWf_filter _ _ h) rfl (memWf_filter _ _ h) (by simp) (by simp) (by simp) (by omega)
  simpa [memWf, mclear] using h1

/-! ## What a store leaves and what it stores -/

theorem tget_cells (a : Nat) (bs : List Byte) (k : Nat) (h1 : a ≤ k) (h2 : k < a + bs.length) :
    tget 0 (cells a bs) k = bs.getD (k - a) 0 := by
  induction bs generalizing a with
  | nil => simp at h2; omega
  | cons b r ih =>
    simp only [List.length_cons] at h2
    by_cases hk : k = a
    · subst hk
      by_cases hb : b = 0
      · rw [cells, if_pos hb, Nat.sub_self, List.getD_cons_zero, hb]
        exact tget_absent _ _ _ fun e he => by have := cells_bound (k + 1) r e he; omega
      · rw [cells, if_neg hb, tget, if_pos rfl, Nat.sub_self, List.getD_cons_zero]
    · have h3 := ih (a + 1) (by omega) (by omega)
      have h4 : k - a = (k - (a + 1)) + 1 := by omega
      have h5 : ¬ a = k := fun h => hk h.symm
      rw [h4, List.getD_cons_succ, ← h3]
      by_cases hb : b = 0
      · rw [cells, if_pos hb]
      · rw [cells, if_neg hb, tget, if_neg h5]

theorem mget_mwrite_out (m : Mem) (a : Nat) (bs : List Byte) (k : Nat) (h : k < a ∨ a + bs.length ≤ k) :
    mget (mwrite m a bs) k = mget m k := by
  unfold mget mwrite
  rcases h with h | h
  · rw [tget_append_left _ _ _ _ (by simp; omega)]
    rw [tget_append_left _ _ _ _ fun e he => by have := cells_bound a bs e he; omega]
    exact tget_filter _ _ _ _ (by simp; omega)
  · rw [List.append_assoc, tget_append _ _ _ _ (by simp; omega)]
    rw [tget_append _ _ _ _ fun e he => by have := cells_bound a bs e he; omega]
    exact tget_filter _ _ _ _ (by simp; omega)

theorem mget_mwrite_in (m : Mem) (a : Nat) (bs : List Byte) (k : Nat) (h1 : a ≤ k) (h2 : k < a + bs.length) :
    mget (mwrite m a bs) k = bs.getD (k - a) 0 := by
  unfold mget mwrite
  rw [List.append_assoc, tget_append _ _ _ _ (by simp; omega), tget_append_left _ _ _ _ (by simp; omega)]
  exact tget_cells a bs k h1 h2

/-- Reading back the bytes just stored. -/
@[simp] theorem mread_mwrite (m : Mem) (a : Nat) (bs : List Byte) : mread (mwrite m a bs) a bs.length = bs := by
  apply List.ext_getElem
  · simp [mread]
  · intro i h1 h2
    simp [mread, mget_mwrite_in m a bs (a + i) (by omega) (by omega), h2]

theorem mget_mclear (m : Mem) (a n k : Nat) : mget (mclear m a n) k = if a ≤ k ∧ k < a + n then 0 else mget m k := by
  unfold mget mclear
  by_cases h : a ≤ k ∧ k < a + n
  · simp only [h, and_self, if_true]
    exact tget_absent _ _ _ (by simp; rintro x y (⟨_, h1⟩ | ⟨_, h1⟩) <;> omega)
  · simp only [h, if_false]
    by_cases h1 : k < a
    · rw [tget_append_left _ _ _ _ (by simp; omega)]
      exact tget_filter _ _ _ _ (by simp; omega)
    · rw [tget_append _ _ _ _ (by simp; omega)]
      exact tget_filter _ _ _ _ (by simp; omega)

end Sys2Proof.Machine
end

