-- ==== Sys2Proof/Laws/State.lean ====
section
/-!
SUPPORT. One lemma for each field of State and each update of Ops: what the update leaves is read through it, and
what it writes is read back.
-/
namespace Sys2Proof.Machine

variable (s : State)

/-! ## Lists of units -/

@[simp] theorem length_setAt (l : List α) (i : Nat) (v : α) : (setAt l i v).length = l.length := by simp [setAt]

theorem nth_setAt (d : α) (l : List α) (i : Nat) (v : α) (h : i < l.length) : nth d (setAt l i v) i = v := by
  simp [nth, setAt, List.getD, h]

theorem nth_setAt_ne (d : α) (l : List α) (i j : Nat) (v : α) (h : j ≠ i) : nth d (setAt l i v) j = nth d l j := by
  simp [nth, setAt, List.getD, List.getElem?_set_ne (Ne.symm h)]

/-! ## Reading back -/

@[simp] theorem tileAt_setTile (pt : Nat) (x : Tile) : tileAt (setTile s pt x) pt = x := by simp [tileAt, setTile]

theorem tileAt_setTile_ne (pt k : Nat) (x : Tile) (h : k ≠ pt) : tileAt (setTile s pt x) k = tileAt s k := by
  simp [tileAt, setTile, tget_tset_ne _ _ _ _ _ h]

@[simp] theorem tileAt_modTile (pt : Nat) (f : Tile → Tile) : tileAt (modTile s pt f) pt = f (tileAt s pt) := by
  simp [modTile]

theorem tileAt_modTile_ne (pt k : Nat) (f : Tile → Tile) (h : k ≠ pt) : tileAt (modTile s pt f) k = tileAt s k :=
  tileAt_setTile_ne s pt k _ h

theorem jobOf_setJob (p : Nat) (j : Job) (h : p < s.jobs.length) : jobOf (setJob s p j) p = j := nth_setAt _ _ _ _ h

theorem jobOf_setJob_ne (p q : Nat) (j : Job) (h : q ≠ p) : jobOf (setJob s p j) q = jobOf s q := nth_setAt_ne _ _ _ _ _ h

theorem fenOf_setFen (d : Nat) (x : Fen) (h : d < s.fens.length) : fenOf (setFen s d x) d = x := nth_setAt _ _ _ _ h

theorem fenOf_setFen_ne (d k : Nat) (x : Fen) (h : k ≠ d) : fenOf (setFen s d x) k = fenOf s k := nth_setAt_ne _ _ _ _ _ h

theorem portAt_modPort (k : Nat) (f : Port → Port) (h : k < s.ports.length) : portAt (modPort s k f) k = f (portAt s k) :=
  nth_setAt _ _ _ _ h

theorem portAt_modPort_ne (k n : Nat) (f : Port → Port) (h : n ≠ k) : portAt (modPort s k f) n = portAt s n :=
  nth_setAt_ne _ _ _ _ _ h

theorem chanAt_modChan (k : Nat) (f : Channel → Channel) (h : k < s.chans.length) :
    chanAt (modChan s k f) k = f (chanAt s k) := nth_setAt _ _ _ _ h

theorem chanAt_modChan_ne (k n : Nat) (f : Channel → Channel) (h : n ≠ k) : chanAt (modChan s k f) n = chanAt s n :=
  nth_setAt_ne _ _ _ _ _ h

theorem mbxAt_modMbx (k : Nat) (f : Mailbox → Mailbox) (h : k < s.host.mbx.length) :
    mbxAt (modMbx s k f) k = f (mbxAt s k) := nth_setAt _ _ _ _ h

theorem mbxAt_modMbx_ne (k n : Nat) (f : Mailbox → Mailbox) (h : n ≠ k) : mbxAt (modMbx s k f) n = mbxAt s n :=
  nth_setAt_ne _ _ _ _ _ h

theorem dieAt_modDie (d : Nat) (f : Die → Die) (h : d < s.bal.dies.length) : dieAt (modDie s d f) d = f (dieAt s d) :=
  nth_setAt _ _ _ _ h

theorem dieAt_modDie_ne (d k : Nat) (f : Die → Die) (h : k ≠ d) : dieAt (modDie s d f) k = dieAt s k :=
  nth_setAt_ne _ _ _ _ _ h

theorem windowAt_setWindow (w k : Nat) (x : Window) : windowAt (setWindow s w x) k = if k = w then x else windowAt s k :=
  tget_tset_eq _ _ _ _ _

/-! ## Fields an update leaves -/

@[simp] theorem atTime_pending (n : Nat) : (atTime s n).pending = s.pending := rfl
@[simp] theorem atTime_tiles (n : Nat) : (atTime s n).tiles = s.tiles := rfl
@[simp] theorem atTime_tileMap (n : Nat) : (atTime s n).tileMap = s.tileMap := rfl
@[simp] theorem atTime_fens (n : Nat) : (atTime s n).fens = s.fens := rfl
@[simp] theorem atTime_cache (n : Nat) : (atTime s n).cache = s.cache := rfl
@[simp] theorem atTime_mem (n : Nat) : (atTime s n).mem = s.mem := rfl
@[simp] theorem atTime_segs (n : Nat) : (atTime s n).segs = s.segs := rfl
@[simp] theorem atTime_chans (n : Nat) : (atTime s n).chans = s.chans := rfl
@[simp] theorem atTime_memParts (n : Nat) : (atTime s n).memParts = s.memParts := rfl
@[simp] theorem atTime_waits (n : Nat) : (atTime s n).waits = s.waits := rfl
@[simp] theorem atTime_ports (n : Nat) : (atTime s n).ports = s.ports := rfl
@[simp] theorem atTime_windows (n : Nat) : (atTime s n).windows = s.windows := rfl
@[simp] theorem atTime_split (n : Nat) : (atTime s n).split = s.split := rfl
@[simp] theorem atTime_jobs (n : Nat) : (atTime s n).jobs = s.jobs := rfl
@[simp] theorem atTime_bal (n : Nat) : (atTime s n).bal = s.bal := rfl
@[simp] theorem atTime_host (n : Nat) : (atTime s n).host = s.host := rfl
@[simp] theorem atTime_side (n : Nat) : (atTime s n).side = s.side := rfl
@[simp] theorem atTime_sec (n : Nat) : (atTime s n).sec = s.sec := rfl
@[simp] theorem atTime_start (n : Nat) : (atTime s n).start = s.start := rfl
@[simp] theorem atTime_sentFrames (n : Nat) : (atTime s n).sentFrames = s.sentFrames := rfl
@[simp] theorem atTime_sentLink (n : Nat) : (atTime s n).sentLink = s.sentLink := rfl
@[simp] theorem atTime_free (n : Nat) : (atTime s n).free = s.free := rfl

@[simp] theorem setTile_pending (pt : Nat) (x : Tile) : (setTile s pt x).pending = s.pending := rfl
@[simp] theorem setTile_tileMap (pt : Nat) (x : Tile) : (setTile s pt x).tileMap = s.tileMap := rfl
@[simp] theorem setTile_fens (pt : Nat) (x : Tile) : (setTile s pt x).fens = s.fens := rfl
@[simp] theorem setTile_cache (pt : Nat) (x : Tile) : (setTile s pt x).cache = s.cache := rfl
@[simp] theorem setTile_mem (pt : Nat) (x : Tile) : (setTile s pt x).mem = s.mem := rfl
@[simp] theorem setTile_segs (pt : Nat) (x : Tile) : (setTile s pt x).segs = s.segs := rfl
@[simp] theorem setTile_chans (pt : Nat) (x : Tile) : (setTile s pt x).chans = s.chans := rfl
@[simp] theorem setTile_memParts (pt : Nat) (x : Tile) : (setTile s pt x).memParts = s.memParts := rfl
@[simp] theorem setTile_waits (pt : Nat) (x : Tile) : (setTile s pt x).waits = s.waits := rfl
@[simp] theorem setTile_ports (pt : Nat) (x : Tile) : (setTile s pt x).ports = s.ports := rfl
@[simp] theorem setTile_windows (pt : Nat) (x : Tile) : (setTile s pt x).windows = s.windows := rfl
@[simp] theorem setTile_split (pt : Nat) (x : Tile) : (setTile s pt x).split = s.split := rfl
@[simp] theorem setTile_jobs (pt : Nat) (x : Tile) : (setTile s pt x).jobs = s.jobs := rfl
@[simp] theorem setTile_bal (pt : Nat) (x : Tile) : (setTile s pt x).bal = s.bal := rfl
@[simp] theorem setTile_host (pt : Nat) (x : Tile) : (setTile s pt x).host = s.host := rfl
@[simp] theorem setTile_side (pt : Nat) (x : Tile) : (setTile s pt x).side = s.side := rfl
@[simp] theorem setTile_sec (pt : Nat) (x : Tile) : (setTile s pt x).sec = s.sec := rfl
@[simp] theorem setTile_start (pt : Nat) (x : Tile) : (setTile s pt x).start = s.start := rfl
@[simp] theorem setTile_sentFrames (pt : Nat) (x : Tile) : (setTile s pt x).sentFrames = s.sentFrames := rfl
@[simp] theorem setTile_sentLink (pt : Nat) (x : Tile) : (setTile s pt x).sentLink = s.sentLink := rfl
@[simp] theorem setTile_now (pt : Nat) (x : Tile) : (setTile s pt x).now = s.now := rfl
@[simp] theorem setTile_free (pt : Nat) (x : Tile) : (setTile s pt x).free = s.free := rfl

@[simp] theorem modTile_pending (pt : Nat) (f : Tile → Tile) : (modTile s pt f).pending = s.pending := rfl
@[simp] theorem modTile_tileMap (pt : Nat) (f : Tile → Tile) : (modTile s pt f).tileMap = s.tileMap := rfl
@[simp] theorem modTile_fens (pt : Nat) (f : Tile → Tile) : (modTile s pt f).fens = s.fens := rfl
@[simp] theorem modTile_cache (pt : Nat) (f : Tile → Tile) : (modTile s pt f).cache = s.cache := rfl
@[simp] theorem modTile_mem (pt : Nat) (f : Tile → Tile) : (modTile s pt f).mem = s.mem := rfl
@[simp] theorem modTile_segs (pt : Nat) (f : Tile → Tile) : (modTile s pt f).segs = s.segs := rfl
@[simp] theorem modTile_chans (pt : Nat) (f : Tile → Tile) : (modTile s pt f).chans = s.chans := rfl
@[simp] theorem modTile_memParts (pt : Nat) (f : Tile → Tile) : (modTile s pt f).memParts = s.memParts := rfl
@[simp] theorem modTile_waits (pt : Nat) (f : Tile → Tile) : (modTile s pt f).waits = s.waits := rfl
@[simp] theorem modTile_ports (pt : Nat) (f : Tile → Tile) : (modTile s pt f).ports = s.ports := rfl
@[simp] theorem modTile_windows (pt : Nat) (f : Tile → Tile) : (modTile s pt f).windows = s.windows := rfl
@[simp] theorem modTile_split (pt : Nat) (f : Tile → Tile) : (modTile s pt f).split = s.split := rfl
@[simp] theorem modTile_jobs (pt : Nat) (f : Tile → Tile) : (modTile s pt f).jobs = s.jobs := rfl
@[simp] theorem modTile_bal (pt : Nat) (f : Tile → Tile) : (modTile s pt f).bal = s.bal := rfl
@[simp] theorem modTile_host (pt : Nat) (f : Tile → Tile) : (modTile s pt f).host = s.host := rfl
@[simp] theorem modTile_side (pt : Nat) (f : Tile → Tile) : (modTile s pt f).side = s.side := rfl
@[simp] theorem modTile_sec (pt : Nat) (f : Tile → Tile) : (modTile s pt f).sec = s.sec := rfl
@[simp] theorem modTile_start (pt : Nat) (f : Tile → Tile) : (modTile s pt f).start = s.start := rfl
@[simp] theorem modTile_sentFrames (pt : Nat) (f : Tile → Tile) : (modTile s pt f).sentFrames = s.sentFrames := rfl
@[simp] theorem modTile_sentLink (pt : Nat) (f : Tile → Tile) : (modTile s pt f).sentLink = s.sentLink := rfl
@[simp] theorem modTile_now (pt : Nat) (f : Tile → Tile) : (modTile s pt f).now = s.now := rfl
@[simp] theorem modTile_free (pt : Nat) (f : Tile → Tile) : (modTile s pt f).free = s.free := rfl

@[simp] theorem setJob_pending (p : Nat) (j : Job) : (setJob s p j).pending = s.pending := rfl
@[simp] theorem setJob_tiles (p : Nat) (j : Job) : (setJob s p j).tiles = s.tiles := rfl
@[simp] theorem setJob_tileMap (p : Nat) (j : Job) : (setJob s p j).tileMap = s.tileMap := rfl
@[simp] theorem setJob_fens (p : Nat) (j : Job) : (setJob s p j).fens = s.fens := rfl
@[simp] theorem setJob_cache (p : Nat) (j : Job) : (setJob s p j).cache = s.cache := rfl
@[simp] theorem setJob_mem (p : Nat) (j : Job) : (setJob s p j).mem = s.mem := rfl
@[simp] theorem setJob_segs (p : Nat) (j : Job) : (setJob s p j).segs = s.segs := rfl
@[simp] theorem setJob_chans (p : Nat) (j : Job) : (setJob s p j).chans = s.chans := rfl
@[simp] theorem setJob_memParts (p : Nat) (j : Job) : (setJob s p j).memParts = s.memParts := rfl
@[simp] theorem setJob_waits (p : Nat) (j : Job) : (setJob s p j).waits = s.waits := rfl
@[simp] theorem setJob_ports (p : Nat) (j : Job) : (setJob s p j).ports = s.ports := rfl
@[simp] theorem setJob_windows (p : Nat) (j : Job) : (setJob s p j).windows = s.windows := rfl
@[simp] theorem setJob_split (p : Nat) (j : Job) : (setJob s p j).split = s.split := rfl
@[simp] theorem setJob_bal (p : Nat) (j : Job) : (setJob s p j).bal = s.bal := rfl
@[simp] theorem setJob_host (p : Nat) (j : Job) : (setJob s p j).host = s.host := rfl
@[simp] theorem setJob_side (p : Nat) (j : Job) : (setJob s p j).side = s.side := rfl
@[simp] theorem setJob_sec (p : Nat) (j : Job) : (setJob s p j).sec = s.sec := rfl
@[simp] theorem setJob_start (p : Nat) (j : Job) : (setJob s p j).start = s.start := rfl
@[simp] theorem setJob_sentFrames (p : Nat) (j : Job) : (setJob s p j).sentFrames = s.sentFrames := rfl
@[simp] theorem setJob_sentLink (p : Nat) (j : Job) : (setJob s p j).sentLink = s.sentLink := rfl
@[simp] theorem setJob_now (p : Nat) (j : Job) : (setJob s p j).now = s.now := rfl
@[simp] theorem setJob_free (p : Nat) (j : Job) : (setJob s p j).free = s.free := rfl

@[simp] theorem modJob_pending (p : Nat) (f : Job → Job) : (modJob s p f).pending = s.pending := rfl
@[simp] theorem modJob_tiles (p : Nat) (f : Job → Job) : (modJob s p f).tiles = s.tiles := rfl
@[simp] theorem modJob_tileMap (p : Nat) (f : Job → Job) : (modJob s p f).tileMap = s.tileMap := rfl
@[simp] theorem modJob_fens (p : Nat) (f : Job → Job) : (modJob s p f).fens = s.fens := rfl
@[simp] theorem modJob_cache (p : Nat) (f : Job → Job) : (modJob s p f).cache = s.cache := rfl
@[simp] theorem modJob_mem (p : Nat) (f : Job → Job) : (modJob s p f).mem = s.mem := rfl
@[simp] theorem modJob_segs (p : Nat) (f : Job → Job) : (modJob s p f).segs = s.segs := rfl
@[simp] theorem modJob_chans (p : Nat) (f : Job → Job) : (modJob s p f).chans = s.chans := rfl
@[simp] theorem modJob_memParts (p : Nat) (f : Job → Job) : (modJob s p f).memParts = s.memParts := rfl
@[simp] theorem modJob_waits (p : Nat) (f : Job → Job) : (modJob s p f).waits = s.waits := rfl
@[simp] theorem modJob_ports (p : Nat) (f : Job → Job) : (modJob s p f).ports = s.ports := rfl
@[simp] theorem modJob_windows (p : Nat) (f : Job → Job) : (modJob s p f).windows = s.windows := rfl
@[simp] theorem modJob_split (p : Nat) (f : Job → Job) : (modJob s p f).split = s.split := rfl
@[simp] theorem modJob_bal (p : Nat) (f : Job → Job) : (modJob s p f).bal = s.bal := rfl
@[simp] theorem modJob_host (p : Nat) (f : Job → Job) : (modJob s p f).host = s.host := rfl
@[simp] theorem modJob_side (p : Nat) (f : Job → Job) : (modJob s p f).side = s.side := rfl
@[simp] theorem modJob_sec (p : Nat) (f : Job → Job) : (modJob s p f).sec = s.sec := rfl
@[simp] theorem modJob_start (p : Nat) (f : Job → Job) : (modJob s p f).start = s.start := rfl
@[simp] theorem modJob_sentFrames (p : Nat) (f : Job → Job) : (modJob s p f).sentFrames = s.sentFrames := rfl
@[simp] theorem modJob_sentLink (p : Nat) (f : Job → Job) : (modJob s p f).sentLink = s.sentLink := rfl
@[simp] theorem modJob_now (p : Nat) (f : Job → Job) : (modJob s p f).now = s.now := rfl
@[simp] theorem modJob_free (p : Nat) (f : Job → Job) : (modJob s p f).free = s.free := rfl

@[simp] theorem setFen_pending (d : Nat) (x : Fen) : (setFen s d x).pending = s.pending := rfl
@[simp] theorem setFen_tiles (d : Nat) (x : Fen) : (setFen s d x).tiles = s.tiles := rfl
@[simp] theorem setFen_tileMap (d : Nat) (x : Fen) : (setFen s d x).tileMap = s.tileMap := rfl
@[simp] theorem setFen_cache (d : Nat) (x : Fen) : (setFen s d x).cache = s.cache := rfl
@[simp] theorem setFen_mem (d : Nat) (x : Fen) : (setFen s d x).mem = s.mem := rfl
@[simp] theorem setFen_segs (d : Nat) (x : Fen) : (setFen s d x).segs = s.segs := rfl
@[simp] theorem setFen_chans (d : Nat) (x : Fen) : (setFen s d x).chans = s.chans := rfl
@[simp] theorem setFen_memParts (d : Nat) (x : Fen) : (setFen s d x).memParts = s.memParts := rfl
@[simp] theorem setFen_waits (d : Nat) (x : Fen) : (setFen s d x).waits = s.waits := rfl
@[simp] theorem setFen_ports (d : Nat) (x : Fen) : (setFen s d x).ports = s.ports := rfl
@[simp] theorem setFen_windows (d : Nat) (x : Fen) : (setFen s d x).windows = s.windows := rfl
@[simp] theorem setFen_split (d : Nat) (x : Fen) : (setFen s d x).split = s.split := rfl
@[simp] theorem setFen_jobs (d : Nat) (x : Fen) : (setFen s d x).jobs = s.jobs := rfl
@[simp] theorem setFen_bal (d : Nat) (x : Fen) : (setFen s d x).bal = s.bal := rfl
@[simp] theorem setFen_host (d : Nat) (x : Fen) : (setFen s d x).host = s.host := rfl
@[simp] theorem setFen_side (d : Nat) (x : Fen) : (setFen s d x).side = s.side := rfl
@[simp] theorem setFen_sec (d : Nat) (x : Fen) : (setFen s d x).sec = s.sec := rfl
@[simp] theorem setFen_start (d : Nat) (x : Fen) : (setFen s d x).start = s.start := rfl
@[simp] theorem setFen_sentFrames (d : Nat) (x : Fen) : (setFen s d x).sentFrames = s.sentFrames := rfl
@[simp] theorem setFen_sentLink (d : Nat) (x : Fen) : (setFen s d x).sentLink = s.sentLink := rfl
@[simp] theorem setFen_now (d : Nat) (x : Fen) : (setFen s d x).now = s.now := rfl
@[simp] theorem setFen_free (d : Nat) (x : Fen) : (setFen s d x).free = s.free := rfl

@[simp] theorem modFen_pending (d : Nat) (f : Fen → Fen) : (modFen s d f).pending = s.pending := rfl
@[simp] theorem modFen_tiles (d : Nat) (f : Fen → Fen) : (modFen s d f).tiles = s.tiles := rfl
@[simp] theorem modFen_tileMap (d : Nat) (f : Fen → Fen) : (modFen s d f).tileMap = s.tileMap := rfl
@[simp] theorem modFen_cache (d : Nat) (f : Fen → Fen) : (modFen s d f).cache = s.cache := rfl
@[simp] theorem modFen_mem (d : Nat) (f : Fen → Fen) : (modFen s d f).mem = s.mem := rfl
@[simp] theorem modFen_segs (d : Nat) (f : Fen → Fen) : (modFen s d f).segs = s.segs := rfl
@[simp] theorem modFen_chans (d : Nat) (f : Fen → Fen) : (modFen s d f).chans = s.chans := rfl
@[simp] theorem modFen_memParts (d : Nat) (f : Fen → Fen) : (modFen s d f).memParts = s.memParts := rfl
@[simp] theorem modFen_waits (d : Nat) (f : Fen → Fen) : (modFen s d f).waits = s.waits := rfl
@[simp] theorem modFen_ports (d : Nat) (f : Fen → Fen) : (modFen s d f).ports = s.ports := rfl
@[simp] theorem modFen_windows (d : Nat) (f : Fen → Fen) : (modFen s d f).windows = s.windows := rfl
@[simp] theorem modFen_split (d : Nat) (f : Fen → Fen) : (modFen s d f).split = s.split := rfl
@[simp] theorem modFen_jobs (d : Nat) (f : Fen → Fen) : (modFen s d f).jobs = s.jobs := rfl
@[simp] theorem modFen_bal (d : Nat) (f : Fen → Fen) : (modFen s d f).bal = s.bal := rfl
@[simp] theorem modFen_host (d : Nat) (f : Fen → Fen) : (modFen s d f).host = s.host := rfl
@[simp] theorem modFen_side (d : Nat) (f : Fen → Fen) : (modFen s d f).side = s.side := rfl
@[simp] theorem modFen_sec (d : Nat) (f : Fen → Fen) : (modFen s d f).sec = s.sec := rfl
@[simp] theorem modFen_start (d : Nat) (f : Fen → Fen) : (modFen s d f).start = s.start := rfl
@[simp] theorem modFen_sentFrames (d : Nat) (f : Fen → Fen) : (modFen s d f).sentFrames = s.sentFrames := rfl
@[simp] theorem modFen_sentLink (d : Nat) (f : Fen → Fen) : (modFen s d f).sentLink = s.sentLink := rfl
@[simp] theorem modFen_now (d : Nat) (f : Fen → Fen) : (modFen s d f).now = s.now := rfl
@[simp] theorem modFen_free (d : Nat) (f : Fen → Fen) : (modFen s d f).free = s.free := rfl

@[simp] theorem modPort_pending (k : Nat) (f : Port → Port) : (modPort s k f).pending = s.pending := rfl
@[simp] theorem modPort_tiles (k : Nat) (f : Port → Port) : (modPort s k f).tiles = s.tiles := rfl
@[simp] theorem modPort_tileMap (k : Nat) (f : Port → Port) : (modPort s k f).tileMap = s.tileMap := rfl
@[simp] theorem modPort_fens (k : Nat) (f : Port → Port) : (modPort s k f).fens = s.fens := rfl
@[simp] theorem modPort_cache (k : Nat) (f : Port → Port) : (modPort s k f).cache = s.cache := rfl
@[simp] theorem modPort_mem (k : Nat) (f : Port → Port) : (modPort s k f).mem = s.mem := rfl
@[simp] theorem modPort_segs (k : Nat) (f : Port → Port) : (modPort s k f).segs = s.segs := rfl
@[simp] theorem modPort_chans (k : Nat) (f : Port → Port) : (modPort s k f).chans = s.chans := rfl
@[simp] theorem modPort_memParts (k : Nat) (f : Port → Port) : (modPort s k f).memParts = s.memParts := rfl
@[simp] theorem modPort_waits (k : Nat) (f : Port → Port) : (modPort s k f).waits = s.waits := rfl
@[simp] theorem modPort_windows (k : Nat) (f : Port → Port) : (modPort s k f).windows = s.windows := rfl
@[simp] theorem modPort_split (k : Nat) (f : Port → Port) : (modPort s k f).split = s.split := rfl
@[simp] theorem modPort_jobs (k : Nat) (f : Port → Port) : (modPort s k f).jobs = s.jobs := rfl
@[simp] theorem modPort_bal (k : Nat) (f : Port → Port) : (modPort s k f).bal = s.bal := rfl
@[simp] theorem modPort_host (k : Nat) (f : Port → Port) : (modPort s k f).host = s.host := rfl
@[simp] theorem modPort_side (k : Nat) (f : Port → Port) : (modPort s k f).side = s.side := rfl
@[simp] theorem modPort_sec (k : Nat) (f : Port → Port) : (modPort s k f).sec = s.sec := rfl
@[simp] theorem modPort_start (k : Nat) (f : Port → Port) : (modPort s k f).start = s.start := rfl
@[simp] theorem modPort_sentFrames (k : Nat) (f : Port → Port) : (modPort s k f).sentFrames = s.sentFrames := rfl
@[simp] theorem modPort_sentLink (k : Nat) (f : Port → Port) : (modPort s k f).sentLink = s.sentLink := rfl
@[simp] theorem modPort_now (k : Nat) (f : Port → Port) : (modPort s k f).now = s.now := rfl
@[simp] theorem modPort_free (k : Nat) (f : Port → Port) : (modPort s k f).free = s.free := rfl

@[simp] theorem modChan_pending (k : Nat) (f : Channel → Channel) : (modChan s k f).pending = s.pending := rfl
@[simp] theorem modChan_tiles (k : Nat) (f : Channel → Channel) : (modChan s k f).tiles = s.tiles := rfl
@[simp] theorem modChan_tileMap (k : Nat) (f : Channel → Channel) : (modChan s k f).tileMap = s.tileMap := rfl
@[simp] theorem modChan_fens (k : Nat) (f : Channel → Channel) : (modChan s k f).fens = s.fens := rfl
@[simp] theorem modChan_cache (k : Nat) (f : Channel → Channel) : (modChan s k f).cache = s.cache := rfl
@[simp] theorem modChan_mem (k : Nat) (f : Channel → Channel) : (modChan s k f).mem = s.mem := rfl
@[simp] theorem modChan_segs (k : Nat) (f : Channel → Channel) : (modChan s k f).segs = s.segs := rfl
@[simp] theorem modChan_memParts (k : Nat) (f : Channel → Channel) : (modChan s k f).memParts = s.memParts := rfl
@[simp] theorem modChan_waits (k : Nat) (f : Channel → Channel) : (modChan s k f).waits = s.waits := rfl
@[simp] theorem modChan_ports (k : Nat) (f : Channel → Channel) : (modChan s k f).ports = s.ports := rfl
@[simp] theorem modChan_windows (k : Nat) (f : Channel → Channel) : (modChan s k f).windows = s.windows := rfl
@[simp] theorem modChan_split (k : Nat) (f : Channel → Channel) : (modChan s k f).split = s.split := rfl
@[simp] theorem modChan_jobs (k : Nat) (f : Channel → Channel) : (modChan s k f).jobs = s.jobs := rfl
@[simp] theorem modChan_bal (k : Nat) (f : Channel → Channel) : (modChan s k f).bal = s.bal := rfl
@[simp] theorem modChan_host (k : Nat) (f : Channel → Channel) : (modChan s k f).host = s.host := rfl
@[simp] theorem modChan_side (k : Nat) (f : Channel → Channel) : (modChan s k f).side = s.side := rfl
@[simp] theorem modChan_sec (k : Nat) (f : Channel → Channel) : (modChan s k f).sec = s.sec := rfl
@[simp] theorem modChan_start (k : Nat) (f : Channel → Channel) : (modChan s k f).start = s.start := rfl
@[simp] theorem modChan_sentFrames (k : Nat) (f : Channel → Channel) : (modChan s k f).sentFrames = s.sentFrames := rfl
@[simp] theorem modChan_sentLink (k : Nat) (f : Channel → Channel) : (modChan s k f).sentLink = s.sentLink := rfl
@[simp] theorem modChan_now (k : Nat) (f : Channel → Channel) : (modChan s k f).now = s.now := rfl
@[simp] theorem modChan_free (k : Nat) (f : Channel → Channel) : (modChan s k f).free = s.free := rfl

@[simp] theorem modMbx_pending (k : Nat) (f : Mailbox → Mailbox) : (modMbx s k f).pending = s.pending := rfl
@[simp] theorem modMbx_tiles (k : Nat) (f : Mailbox → Mailbox) : (modMbx s k f).tiles = s.tiles := rfl
@[simp] theorem modMbx_tileMap (k : Nat) (f : Mailbox → Mailbox) : (modMbx s k f).tileMap = s.tileMap := rfl
@[simp] theorem modMbx_fens (k : Nat) (f : Mailbox → Mailbox) : (modMbx s k f).fens = s.fens := rfl
@[simp] theorem modMbx_cache (k : Nat) (f : Mailbox → Mailbox) : (modMbx s k f).cache = s.cache := rfl
@[simp] theorem modMbx_mem (k : Nat) (f : Mailbox → Mailbox) : (modMbx s k f).mem = s.mem := rfl
@[simp] theorem modMbx_segs (k : Nat) (f : Mailbox → Mailbox) : (modMbx s k f).segs = s.segs := rfl
@[simp] theorem modMbx_chans (k : Nat) (f : Mailbox → Mailbox) : (modMbx s k f).chans = s.chans := rfl
@[simp] theorem modMbx_memParts (k : Nat) (f : Mailbox → Mailbox) : (modMbx s k f).memParts = s.memParts := rfl
@[simp] theorem modMbx_waits (k : Nat) (f : Mailbox → Mailbox) : (modMbx s k f).waits = s.waits := rfl
@[simp] theorem modMbx_ports (k : Nat) (f : Mailbox → Mailbox) : (modMbx s k f).ports = s.ports := rfl
@[simp] theorem modMbx_windows (k : Nat) (f : Mailbox → Mailbox) : (modMbx s k f).windows = s.windows := rfl
@[simp] theorem modMbx_split (k : Nat) (f : Mailbox → Mailbox) : (modMbx s k f).split = s.split := rfl
@[simp] theorem modMbx_jobs (k : Nat) (f : Mailbox → Mailbox) : (modMbx s k f).jobs = s.jobs := rfl
@[simp] theorem modMbx_bal (k : Nat) (f : Mailbox → Mailbox) : (modMbx s k f).bal = s.bal := rfl
@[simp] theorem modMbx_side (k : Nat) (f : Mailbox → Mailbox) : (modMbx s k f).side = s.side := rfl
@[simp] theorem modMbx_sec (k : Nat) (f : Mailbox → Mailbox) : (modMbx s k f).sec = s.sec := rfl
@[simp] theorem modMbx_start (k : Nat) (f : Mailbox → Mailbox) : (modMbx s k f).start = s.start := rfl
@[simp] theorem modMbx_sentFrames (k : Nat) (f : Mailbox → Mailbox) : (modMbx s k f).sentFrames = s.sentFrames := rfl
@[simp] theorem modMbx_sentLink (k : Nat) (f : Mailbox → Mailbox) : (modMbx s k f).sentLink = s.sentLink := rfl
@[simp] theorem modMbx_now (k : Nat) (f : Mailbox → Mailbox) : (modMbx s k f).now = s.now := rfl
@[simp] theorem modMbx_free (k : Nat) (f : Mailbox → Mailbox) : (modMbx s k f).free = s.free := rfl

@[simp] theorem setWindow_pending (w : Nat) (x : Window) : (setWindow s w x).pending = s.pending := rfl
@[simp] theorem setWindow_tiles (w : Nat) (x : Window) : (setWindow s w x).tiles = s.tiles := rfl
@[simp] theorem setWindow_tileMap (w : Nat) (x : Window) : (setWindow s w x).tileMap = s.tileMap := rfl
@[simp] theorem setWindow_fens (w : Nat) (x : Window) : (setWindow s w x).fens = s.fens := rfl
@[simp] theorem setWindow_cache (w : Nat) (x : Window) : (setWindow s w x).cache = s.cache := rfl
@[simp] theorem setWindow_mem (w : Nat) (x : Window) : (setWindow s w x).mem = s.mem := rfl
@[simp] theorem setWindow_segs (w : Nat) (x : Window) : (setWindow s w x).segs = s.segs := rfl
@[simp] theorem setWindow_chans (w : Nat) (x : Window) : (setWindow s w x).chans = s.chans := rfl
@[simp] theorem setWindow_memParts (w : Nat) (x : Window) : (setWindow s w x).memParts = s.memParts := rfl
@[simp] theorem setWindow_waits (w : Nat) (x : Window) : (setWindow s w x).waits = s.waits := rfl
@[simp] theorem setWindow_ports (w : Nat) (x : Window) : (setWindow s w x).ports = s.ports := rfl
@[simp] theorem setWindow_split (w : Nat) (x : Window) : (setWindow s w x).split = s.split := rfl
@[simp] theorem setWindow_jobs (w : Nat) (x : Window) : (setWindow s w x).jobs = s.jobs := rfl
@[simp] theorem setWindow_bal (w : Nat) (x : Window) : (setWindow s w x).bal = s.bal := rfl
@[simp] theorem setWindow_host (w : Nat) (x : Window) : (setWindow s w x).host = s.host := rfl
@[simp] theorem setWindow_side (w : Nat) (x : Window) : (setWindow s w x).side = s.side := rfl
@[simp] theorem setWindow_sec (w : Nat) (x : Window) : (setWindow s w x).sec = s.sec := rfl
@[simp] theorem setWindow_start (w : Nat) (x : Window) : (setWindow s w x).start = s.start := rfl
@[simp] theorem setWindow_sentFrames (w : Nat) (x : Window) : (setWindow s w x).sentFrames = s.sentFrames := rfl
@[simp] theorem setWindow_sentLink (w : Nat) (x : Window) : (setWindow s w x).sentLink = s.sentLink := rfl
@[simp] theorem setWindow_now (w : Nat) (x : Window) : (setWindow s w x).now = s.now := rfl
@[simp] theorem setWindow_free (w : Nat) (x : Window) : (setWindow s w x).free = s.free := rfl

@[simp] theorem modDie_pending (d : Nat) (f : Die → Die) : (modDie s d f).pending = s.pending := rfl
@[simp] theorem modDie_tiles (d : Nat) (f : Die → Die) : (modDie s d f).tiles = s.tiles := rfl
@[simp] theorem modDie_tileMap (d : Nat) (f : Die → Die) : (modDie s d f).tileMap = s.tileMap := rfl
@[simp] theorem modDie_fens (d : Nat) (f : Die → Die) : (modDie s d f).fens = s.fens := rfl
@[simp] theorem modDie_cache (d : Nat) (f : Die → Die) : (modDie s d f).cache = s.cache := rfl
@[simp] theorem modDie_mem (d : Nat) (f : Die → Die) : (modDie s d f).mem = s.mem := rfl
@[simp] theorem modDie_segs (d : Nat) (f : Die → Die) : (modDie s d f).segs = s.segs := rfl
@[simp] theorem modDie_chans (d : Nat) (f : Die → Die) : (modDie s d f).chans = s.chans := rfl
@[simp] theorem modDie_memParts (d : Nat) (f : Die → Die) : (modDie s d f).memParts = s.memParts := rfl
@[simp] theorem modDie_waits (d : Nat) (f : Die → Die) : (modDie s d f).waits = s.waits := rfl
@[simp] theorem modDie_ports (d : Nat) (f : Die → Die) : (modDie s d f).ports = s.ports := rfl
@[simp] theorem modDie_windows (d : Nat) (f : Die → Die) : (modDie s d f).windows = s.windows := rfl
@[simp] theorem modDie_split (d : Nat) (f : Die → Die) : (modDie s d f).split = s.split := rfl
@[simp] theorem modDie_jobs (d : Nat) (f : Die → Die) : (modDie s d f).jobs = s.jobs := rfl
@[simp] theorem modDie_host (d : Nat) (f : Die → Die) : (modDie s d f).host = s.host := rfl
@[simp] theorem modDie_side (d : Nat) (f : Die → Die) : (modDie s d f).side = s.side := rfl
@[simp] theorem modDie_sec (d : Nat) (f : Die → Die) : (modDie s d f).sec = s.sec := rfl
@[simp] theorem modDie_start (d : Nat) (f : Die → Die) : (modDie s d f).start = s.start := rfl
@[simp] theorem modDie_sentFrames (d : Nat) (f : Die → Die) : (modDie s d f).sentFrames = s.sentFrames := rfl
@[simp] theorem modDie_sentLink (d : Nat) (f : Die → Die) : (modDie s d f).sentLink = s.sentLink := rfl
@[simp] theorem modDie_now (d : Nat) (f : Die → Die) : (modDie s d f).now = s.now := rfl
@[simp] theorem modDie_free (d : Nat) (f : Die → Die) : (modDie s d f).free = s.free := rfl

end Sys2Proof.Machine
end

