-- ==== Sys2Proof/Laws/Tile.lean ====
section
/-!
SUPPORT. One lemma for each field of Tile and each update of one tile.
-/
namespace Sys2Proof.Machine

variable (x : Tile)

@[simp] theorem streamOf_setStream (k : Nat) (y : Stream) : streamOf (setStream x k y) k = y := by simp [streamOf, setStream]

theorem streamOf_setStream_ne (k j : Nat) (y : Stream) (h : j ≠ k) : streamOf (setStream x k y) j = streamOf x j := by
  simp [streamOf, setStream, tget_tset_ne _ _ _ _ _ h]

theorem semOf_setSem (k j v : Nat) : semOf (setSem x k v) j = if j = k then v else semOf x j := tget_tset_eq _ _ _ _ _

@[simp] theorem macroOf_setMacro (k : Nat) (m : Macro) : macroOf (setMacro x k m) k = m := by simp [macroOf, setMacro]

theorem macroOf_setMacro_ne (k j : Nat) (m : Macro) (h : j ≠ k) : macroOf (setMacro x k m) j = macroOf x j := by
  simp [macroOf, setMacro, tget_tset_ne _ _ _ _ _ h]

@[simp] theorem pageOf_setPage (m p : Nat) (y : Page) : pageOf (setPage x m p y) m p = y := by simp [pageOf, setPage]

@[simp] theorem setStream_tsp (k : Nat) (y : Stream) : (setStream x k y).tsp = x.tsp := rfl
@[simp] theorem setStream_wstall (k : Nat) (y : Stream) : (setStream x k y).wstall = x.wstall := rfl
@[simp] theorem setStream_fetching (k : Nat) (y : Stream) : (setStream x k y).fetching = x.fetching := rfl
@[simp] theorem setStream_singles (k : Nat) (y : Stream) : (setStream x k y).singles = x.singles := rfl
@[simp] theorem setStream_hour (k : Nat) (y : Stream) : (setStream x k y).hour = x.hour := rfl
@[simp] theorem setStream_worn (k : Nat) (y : Stream) : (setStream x k y).worn = x.worn := rfl
@[simp] theorem setStream_issues (k : Nat) (y : Stream) : (setStream x k y).issues = x.issues := rfl
@[simp] theorem setStream_accBase (k : Nat) (y : Stream) : (setStream x k y).accBase = x.accBase := rfl
@[simp] theorem setStream_accLog (k : Nat) (y : Stream) : (setStream x k y).accLog = x.accLog := rfl
@[simp] theorem setStream_wbuf (k : Nat) (y : Stream) : (setStream x k y).wbuf = x.wbuf := rfl
@[simp] theorem setStream_fbuf (k : Nat) (y : Stream) : (setStream x k y).fbuf = x.fbuf := rfl
@[simp] theorem setStream_swept (k : Nat) (y : Stream) : (setStream x k y).swept = x.swept := rfl
@[simp] theorem setStream_acm (k : Nat) (y : Stream) : (setStream x k y).acm = x.acm := rfl
@[simp] theorem setStream_slots (k : Nat) (y : Stream) : (setStream x k y).slots = x.slots := rfl
@[simp] theorem setStream_macros (k : Nat) (y : Stream) : (setStream x k y).macros = x.macros := rfl
@[simp] theorem setStream_pages (k : Nat) (y : Stream) : (setStream x k y).pages = x.pages := rfl
@[simp] theorem setStream_sps (k : Nat) (y : Stream) : (setStream x k y).sps = x.sps := rfl
@[simp] theorem setStream_spx (k : Nat) (y : Stream) : (setStream x k y).spx = x.spx := rfl
@[simp] theorem setStream_tensors (k : Nat) (y : Stream) : (setStream x k y).tensors = x.tensors := rfl
@[simp] theorem setStream_flights (k : Nat) (y : Stream) : (setStream x k y).flights = x.flights := rfl
@[simp] theorem setStream_sems (k : Nat) (y : Stream) : (setStream x k y).sems = x.sems := rfl
@[simp] theorem setStream_plan (k : Nat) (y : Stream) : (setStream x k y).plan = x.plan := rfl
@[simp] theorem setStream_rr (k : Nat) (y : Stream) : (setStream x k y).rr = x.rr := rfl
@[simp] theorem setStream_entries (k : Nat) (y : Stream) : (setStream x k y).entries = x.entries := rfl
@[simp] theorem setStream_ageCtr (k : Nat) (y : Stream) : (setStream x k y).ageCtr = x.ageCtr := rfl
@[simp] theorem setStream_free (k : Nat) (y : Stream) : (setStream x k y).free = x.free := rfl
@[simp] theorem setStream_halted (k : Nat) (y : Stream) : (setStream x k y).halted = x.halted := rfl
@[simp] theorem setStream_released (k : Nat) (y : Stream) : (setStream x k y).released = x.released := rfl
@[simp] theorem setStream_busy (k : Nat) (y : Stream) : (setStream x k y).busy = x.busy := rfl
@[simp] theorem setStream_accQ (k : Nat) (y : Stream) : (setStream x k y).accQ = x.accQ := rfl
@[simp] theorem setStream_sparseQ (k : Nat) (y : Stream) : (setStream x k y).sparseQ = x.sparseQ := rfl
@[simp] theorem setStream_updQ (k : Nat) (y : Stream) : (setStream x k y).updQ = x.updQ := rfl
@[simp] theorem setStream_updPub (k : Nat) (y : Stream) : (setStream x k y).updPub = x.updPub := rfl
@[simp] theorem setStream_arrivals (k : Nat) (y : Stream) : (setStream x k y).arrivals = x.arrivals := rfl
@[simp] theorem setStream_led (k : Nat) (y : Stream) : (setStream x k y).led = x.led := rfl
@[simp] theorem setStream_err (k : Nat) (y : Stream) : (setStream x k y).err = x.err := rfl
@[simp] theorem setStream_stat (k : Nat) (y : Stream) : (setStream x k y).stat = x.stat := rfl
@[simp] theorem setStream_fault (k : Nat) (y : Stream) : (setStream x k y).fault = x.fault := rfl
@[simp] theorem setStream_ret (k : Nat) (y : Stream) : (setStream x k y).ret = x.ret := rfl

@[simp] theorem setSem_tsp (k v : Nat) : (setSem x k v).tsp = x.tsp := rfl
@[simp] theorem setSem_wstall (k v : Nat) : (setSem x k v).wstall = x.wstall := rfl
@[simp] theorem setSem_fetching (k v : Nat) : (setSem x k v).fetching = x.fetching := rfl
@[simp] theorem setSem_singles (k v : Nat) : (setSem x k v).singles = x.singles := rfl
@[simp] theorem setSem_hour (k v : Nat) : (setSem x k v).hour = x.hour := rfl
@[simp] theorem setSem_worn (k v : Nat) : (setSem x k v).worn = x.worn := rfl
@[simp] theorem setSem_issues (k v : Nat) : (setSem x k v).issues = x.issues := rfl
@[simp] theorem setSem_accBase (k v : Nat) : (setSem x k v).accBase = x.accBase := rfl
@[simp] theorem setSem_accLog (k v : Nat) : (setSem x k v).accLog = x.accLog := rfl
@[simp] theorem setSem_wbuf (k v : Nat) : (setSem x k v).wbuf = x.wbuf := rfl
@[simp] theorem setSem_fbuf (k v : Nat) : (setSem x k v).fbuf = x.fbuf := rfl
@[simp] theorem setSem_swept (k v : Nat) : (setSem x k v).swept = x.swept := rfl
@[simp] theorem setSem_acm (k v : Nat) : (setSem x k v).acm = x.acm := rfl
@[simp] theorem setSem_slots (k v : Nat) : (setSem x k v).slots = x.slots := rfl
@[simp] theorem setSem_macros (k v : Nat) : (setSem x k v).macros = x.macros := rfl
@[simp] theorem setSem_pages (k v : Nat) : (setSem x k v).pages = x.pages := rfl
@[simp] theorem setSem_sps (k v : Nat) : (setSem x k v).sps = x.sps := rfl
@[simp] theorem setSem_spx (k v : Nat) : (setSem x k v).spx = x.spx := rfl
@[simp] theorem setSem_tensors (k v : Nat) : (setSem x k v).tensors = x.tensors := rfl
@[simp] theorem setSem_streams (k v : Nat) : (setSem x k v).streams = x.streams := rfl
@[simp] theorem setSem_flights (k v : Nat) : (setSem x k v).flights = x.flights := rfl
@[simp] theorem setSem_plan (k v : Nat) : (setSem x k v).plan = x.plan := rfl
@[simp] theorem setSem_rr (k v : Nat) : (setSem x k v).rr = x.rr := rfl
@[simp] theorem setSem_entries (k v : Nat) : (setSem x k v).entries = x.entries := rfl
@[simp] theorem setSem_ageCtr (k v : Nat) : (setSem x k v).ageCtr = x.ageCtr := rfl
@[simp] theorem setSem_free (k v : Nat) : (setSem x k v).free = x.free := rfl
@[simp] theorem setSem_halted (k v : Nat) : (setSem x k v).halted = x.halted := rfl
@[simp] theorem setSem_released (k v : Nat) : (setSem x k v).released = x.released := rfl
@[simp] theorem setSem_busy (k v : Nat) : (setSem x k v).busy = x.busy := rfl
@[simp] theorem setSem_accQ (k v : Nat) : (setSem x k v).accQ = x.accQ := rfl
@[simp] theorem setSem_sparseQ (k v : Nat) : (setSem x k v).sparseQ = x.sparseQ := rfl
@[simp] theorem setSem_updQ (k v : Nat) : (setSem x k v).updQ = x.updQ := rfl
@[simp] theorem setSem_updPub (k v : Nat) : (setSem x k v).updPub = x.updPub := rfl
@[simp] theorem setSem_arrivals (k v : Nat) : (setSem x k v).arrivals = x.arrivals := rfl
@[simp] theorem setSem_led (k v : Nat) : (setSem x k v).led = x.led := rfl
@[simp] theorem setSem_err (k v : Nat) : (setSem x k v).err = x.err := rfl
@[simp] theorem setSem_stat (k v : Nat) : (setSem x k v).stat = x.stat := rfl
@[simp] theorem setSem_fault (k v : Nat) : (setSem x k v).fault = x.fault := rfl
@[simp] theorem setSem_ret (k v : Nat) : (setSem x k v).ret = x.ret := rfl

@[simp] theorem setMacro_tsp (k : Nat) (m : Macro) : (setMacro x k m).tsp = x.tsp := rfl
@[simp] theorem setMacro_wstall (k : Nat) (m : Macro) : (setMacro x k m).wstall = x.wstall := rfl
@[simp] theorem setMacro_fetching (k : Nat) (m : Macro) : (setMacro x k m).fetching = x.fetching := rfl
@[simp] theorem setMacro_singles (k : Nat) (m : Macro) : (setMacro x k m).singles = x.singles := rfl
@[simp] theorem setMacro_hour (k : Nat) (m : Macro) : (setMacro x k m).hour = x.hour := rfl
@[simp] theorem setMacro_worn (k : Nat) (m : Macro) : (setMacro x k m).worn = x.worn := rfl
@[simp] theorem setMacro_issues (k : Nat) (m : Macro) : (setMacro x k m).issues = x.issues := rfl
@[simp] theorem setMacro_accBase (k : Nat) (m : Macro) : (setMacro x k m).accBase = x.accBase := rfl
@[simp] theorem setMacro_accLog (k : Nat) (m : Macro) : (setMacro x k m).accLog = x.accLog := rfl
@[simp] theorem setMacro_wbuf (k : Nat) (m : Macro) : (setMacro x k m).wbuf = x.wbuf := rfl
@[simp] theorem setMacro_fbuf (k : Nat) (m : Macro) : (setMacro x k m).fbuf = x.fbuf := rfl
@[simp] theorem setMacro_swept (k : Nat) (m : Macro) : (setMacro x k m).swept = x.swept := rfl
@[simp] theorem setMacro_acm (k : Nat) (m : Macro) : (setMacro x k m).acm = x.acm := rfl
@[simp] theorem setMacro_slots (k : Nat) (m : Macro) : (setMacro x k m).slots = x.slots := rfl
@[simp] theorem setMacro_pages (k : Nat) (m : Macro) : (setMacro x k m).pages = x.pages := rfl
@[simp] theorem setMacro_sps (k : Nat) (m : Macro) : (setMacro x k m).sps = x.sps := rfl
@[simp] theorem setMacro_spx (k : Nat) (m : Macro) : (setMacro x k m).spx = x.spx := rfl
@[simp] theorem setMacro_tensors (k : Nat) (m : Macro) : (setMacro x k m).tensors = x.tensors := rfl
@[simp] theorem setMacro_streams (k : Nat) (m : Macro) : (setMacro x k m).streams = x.streams := rfl
@[simp] theorem setMacro_flights (k : Nat) (m : Macro) : (setMacro x k m).flights = x.flights := rfl
@[simp] theorem setMacro_sems (k : Nat) (m : Macro) : (setMacro x k m).sems = x.sems := rfl
@[simp] theorem setMacro_plan (k : Nat) (m : Macro) : (setMacro x k m).plan = x.plan := rfl
@[simp] theorem setMacro_rr (k : Nat) (m : Macro) : (setMacro x k m).rr = x.rr := rfl
@[simp] theorem setMacro_entries (k : Nat) (m : Macro) : (setMacro x k m).entries = x.entries := rfl
@[simp] theorem setMacro_ageCtr (k : Nat) (m : Macro) : (setMacro x k m).ageCtr = x.ageCtr := rfl
@[simp] theorem setMacro_free (k : Nat) (m : Macro) : (setMacro x k m).free = x.free := rfl
@[simp] theorem setMacro_halted (k : Nat) (m : Macro) : (setMacro x k m).halted = x.halted := rfl
@[simp] theorem setMacro_released (k : Nat) (m : Macro) : (setMacro x k m).released = x.released := rfl
@[simp] theorem setMacro_busy (k : Nat) (m : Macro) : (setMacro x k m).busy = x.busy := rfl
@[simp] theorem setMacro_accQ (k : Nat) (m : Macro) : (setMacro x k m).accQ = x.accQ := rfl
@[simp] theorem setMacro_sparseQ (k : Nat) (m : Macro) : (setMacro x k m).sparseQ = x.sparseQ := rfl
@[simp] theorem setMacro_updQ (k : Nat) (m : Macro) : (setMacro x k m).updQ = x.updQ := rfl
@[simp] theorem setMacro_updPub (k : Nat) (m : Macro) : (setMacro x k m).updPub = x.updPub := rfl
@[simp] theorem setMacro_arrivals (k : Nat) (m : Macro) : (setMacro x k m).arrivals = x.arrivals := rfl
@[simp] theorem setMacro_led (k : Nat) (m : Macro) : (setMacro x k m).led = x.led := rfl
@[simp] theorem setMacro_err (k : Nat) (m : Macro) : (setMacro x k m).err = x.err := rfl
@[simp] theorem setMacro_stat (k : Nat) (m : Macro) : (setMacro x k m).stat = x.stat := rfl
@[simp] theorem setMacro_fault (k : Nat) (m : Macro) : (setMacro x k m).fault = x.fault := rfl
@[simp] theorem setMacro_ret (k : Nat) (m : Macro) : (setMacro x k m).ret = x.ret := rfl

@[simp] theorem setPage_tsp (m p : Nat) (y : Page) : (setPage x m p y).tsp = x.tsp := rfl
@[simp] theorem setPage_wstall (m p : Nat) (y : Page) : (setPage x m p y).wstall = x.wstall := rfl
@[simp] theorem setPage_fetching (m p : Nat) (y : Page) : (setPage x m p y).fetching = x.fetching := rfl
@[simp] theorem setPage_singles (m p : Nat) (y : Page) : (setPage x m p y).singles = x.singles := rfl
@[simp] theorem setPage_hour (m p : Nat) (y : Page) : (setPage x m p y).hour = x.hour := rfl
@[simp] theorem setPage_worn (m p : Nat) (y : Page) : (setPage x m p y).worn = x.worn := rfl
@[simp] theorem setPage_issues (m p : Nat) (y : Page) : (setPage x m p y).issues = x.issues := rfl
@[simp] theorem setPage_accBase (m p : Nat) (y : Page) : (setPage x m p y).accBase = x.accBase := rfl
@[simp] theorem setPage_accLog (m p : Nat) (y : Page) : (setPage x m p y).accLog = x.accLog := rfl
@[simp] theorem setPage_wbuf (m p : Nat) (y : Page) : (setPage x m p y).wbuf = x.wbuf := rfl
@[simp] theorem setPage_fbuf (m p : Nat) (y : Page) : (setPage x m p y).fbuf = x.fbuf := rfl
@[simp] theorem setPage_swept (m p : Nat) (y : Page) : (setPage x m p y).swept = x.swept := rfl
@[simp] theorem setPage_acm (m p : Nat) (y : Page) : (setPage x m p y).acm = x.acm := rfl
@[simp] theorem setPage_slots (m p : Nat) (y : Page) : (setPage x m p y).slots = x.slots := rfl
@[simp] theorem setPage_macros (m p : Nat) (y : Page) : (setPage x m p y).macros = x.macros := rfl
@[simp] theorem setPage_sps (m p : Nat) (y : Page) : (setPage x m p y).sps = x.sps := rfl
@[simp] theorem setPage_spx (m p : Nat) (y : Page) : (setPage x m p y).spx = x.spx := rfl
@[simp] theorem setPage_tensors (m p : Nat) (y : Page) : (setPage x m p y).tensors = x.tensors := rfl
@[simp] theorem setPage_streams (m p : Nat) (y : Page) : (setPage x m p y).streams = x.streams := rfl
@[simp] theorem setPage_flights (m p : Nat) (y : Page) : (setPage x m p y).flights = x.flights := rfl
@[simp] theorem setPage_sems (m p : Nat) (y : Page) : (setPage x m p y).sems = x.sems := rfl
@[simp] theorem setPage_plan (m p : Nat) (y : Page) : (setPage x m p y).plan = x.plan := rfl
@[simp] theorem setPage_rr (m p : Nat) (y : Page) : (setPage x m p y).rr = x.rr := rfl
@[simp] theorem setPage_entries (m p : Nat) (y : Page) : (setPage x m p y).entries = x.entries := rfl
@[simp] theorem setPage_ageCtr (m p : Nat) (y : Page) : (setPage x m p y).ageCtr = x.ageCtr := rfl
@[simp] theorem setPage_free (m p : Nat) (y : Page) : (setPage x m p y).free = x.free := rfl
@[simp] theorem setPage_halted (m p : Nat) (y : Page) : (setPage x m p y).halted = x.halted := rfl
@[simp] theorem setPage_released (m p : Nat) (y : Page) : (setPage x m p y).released = x.released := rfl
@[simp] theorem setPage_busy (m p : Nat) (y : Page) : (setPage x m p y).busy = x.busy := rfl
@[simp] theorem setPage_accQ (m p : Nat) (y : Page) : (setPage x m p y).accQ = x.accQ := rfl
@[simp] theorem setPage_sparseQ (m p : Nat) (y : Page) : (setPage x m p y).sparseQ = x.sparseQ := rfl
@[simp] theorem setPage_updQ (m p : Nat) (y : Page) : (setPage x m p y).updQ = x.updQ := rfl
@[simp] theorem setPage_updPub (m p : Nat) (y : Page) : (setPage x m p y).updPub = x.updPub := rfl
@[simp] theorem setPage_arrivals (m p : Nat) (y : Page) : (setPage x m p y).arrivals = x.arrivals := rfl
@[simp] theorem setPage_led (m p : Nat) (y : Page) : (setPage x m p y).led = x.led := rfl
@[simp] theorem setPage_err (m p : Nat) (y : Page) : (setPage x m p y).err = x.err := rfl
@[simp] theorem setPage_stat (m p : Nat) (y : Page) : (setPage x m p y).stat = x.stat := rfl
@[simp] theorem setPage_fault (m p : Nat) (y : Page) : (setPage x m p y).fault = x.fault := rfl
@[simp] theorem setPage_ret (m p : Nat) (y : Page) : (setPage x m p y).ret = x.ret := rfl

@[simp] theorem modFlight_tsp (t : Nat) (f : Flight → Flight) : (modFlight x t f).tsp = x.tsp := rfl
@[simp] theorem modFlight_wstall (t : Nat) (f : Flight → Flight) : (modFlight x t f).wstall = x.wstall := rfl
@[simp] theorem modFlight_fetching (t : Nat) (f : Flight → Flight) : (modFlight x t f).fetching = x.fetching := rfl
@[simp] theorem modFlight_singles (t : Nat) (f : Flight → Flight) : (modFlight x t f).singles = x.singles := rfl
@[simp] theorem modFlight_hour (t : Nat) (f : Flight → Flight) : (modFlight x t f).hour = x.hour := rfl
@[simp] theorem modFlight_worn (t : Nat) (f : Flight → Flight) : (modFlight x t f).worn = x.worn := rfl
@[simp] theorem modFlight_issues (t : Nat) (f : Flight → Flight) : (modFlight x t f).issues = x.issues := rfl
@[simp] theorem modFlight_accBase (t : Nat) (f : Flight → Flight) : (modFlight x t f).accBase = x.accBase := rfl
@[simp] theorem modFlight_accLog (t : Nat) (f : Flight → Flight) : (modFlight x t f).accLog = x.accLog := rfl
@[simp] theorem modFlight_wbuf (t : Nat) (f : Flight → Flight) : (modFlight x t f).wbuf = x.wbuf := rfl
@[simp] theorem modFlight_fbuf (t : Nat) (f : Flight → Flight) : (modFlight x t f).fbuf = x.fbuf := rfl
@[simp] theorem modFlight_swept (t : Nat) (f : Flight → Flight) : (modFlight x t f).swept = x.swept := rfl
@[simp] theorem modFlight_acm (t : Nat) (f : Flight → Flight) : (modFlight x t f).acm = x.acm := rfl
@[simp] theorem modFlight_slots (t : Nat) (f : Flight → Flight) : (modFlight x t f).slots = x.slots := rfl
@[simp] theorem modFlight_macros (t : Nat) (f : Flight → Flight) : (modFlight x t f).macros = x.macros := rfl
@[simp] theorem modFlight_pages (t : Nat) (f : Flight → Flight) : (modFlight x t f).pages = x.pages := rfl
@[simp] theorem modFlight_sps (t : Nat) (f : Flight → Flight) : (modFlight x t f).sps = x.sps := rfl
@[simp] theorem modFlight_spx (t : Nat) (f : Flight → Flight) : (modFlight x t f).spx = x.spx := rfl
@[simp] theorem modFlight_tensors (t : Nat) (f : Flight → Flight) : (modFlight x t f).tensors = x.tensors := rfl
@[simp] theorem modFlight_streams (t : Nat) (f : Flight → Flight) : (modFlight x t f).streams = x.streams := rfl
@[simp] theorem modFlight_sems (t : Nat) (f : Flight → Flight) : (modFlight x t f).sems = x.sems := rfl
@[simp] theorem modFlight_plan (t : Nat) (f : Flight → Flight) : (modFlight x t f).plan = x.plan := rfl
@[simp] theorem modFlight_rr (t : Nat) (f : Flight → Flight) : (modFlight x t f).rr = x.rr := rfl
@[simp] theorem modFlight_entries (t : Nat) (f : Flight → Flight) : (modFlight x t f).entries = x.entries := rfl
@[simp] theorem modFlight_ageCtr (t : Nat) (f : Flight → Flight) : (modFlight x t f).ageCtr = x.ageCtr := rfl
@[simp] theorem modFlight_free (t : Nat) (f : Flight → Flight) : (modFlight x t f).free = x.free := rfl
@[simp] theorem modFlight_halted (t : Nat) (f : Flight → Flight) : (modFlight x t f).halted = x.halted := rfl
@[simp] theorem modFlight_released (t : Nat) (f : Flight → Flight) : (modFlight x t f).released = x.released := rfl
@[simp] theorem modFlight_busy (t : Nat) (f : Flight → Flight) : (modFlight x t f).busy = x.busy := rfl
@[simp] theorem modFlight_accQ (t : Nat) (f : Flight → Flight) : (modFlight x t f).accQ = x.accQ := rfl
@[simp] theorem modFlight_sparseQ (t : Nat) (f : Flight → Flight) : (modFlight x t f).sparseQ = x.sparseQ := rfl
@[simp] theorem modFlight_updQ (t : Nat) (f : Flight → Flight) : (modFlight x t f).updQ = x.updQ := rfl
@[simp] theorem modFlight_updPub (t : Nat) (f : Flight → Flight) : (modFlight x t f).updPub = x.updPub := rfl
@[simp] theorem modFlight_arrivals (t : Nat) (f : Flight → Flight) : (modFlight x t f).arrivals = x.arrivals := rfl
@[simp] theorem modFlight_led (t : Nat) (f : Flight → Flight) : (modFlight x t f).led = x.led := rfl
@[simp] theorem modFlight_err (t : Nat) (f : Flight → Flight) : (modFlight x t f).err = x.err := rfl
@[simp] theorem modFlight_stat (t : Nat) (f : Flight → Flight) : (modFlight x t f).stat = x.stat := rfl
@[simp] theorem modFlight_fault (t : Nat) (f : Flight → Flight) : (modFlight x t f).fault = x.fault := rfl
@[simp] theorem modFlight_ret (t : Nat) (f : Flight → Flight) : (modFlight x t f).ret = x.ret := rfl

/-- A post enters write buffers, and touches nothing else. -/
theorem post_eq (ps : List Posted) : post x ps = { x with wbuf := (post x ps).wbuf, wstall := (post x ps).wstall } := by
  unfold post
  induction ps generalizing x with
  | nil => rfl
  | cons p r ih =>
    rw [List.foldl_cons, ih]
    dsimp only
    split <;> rfl

end Sys2Proof.Machine
end

