-- ==== Sys2Proof/Laws/Issue.lean ====
section
/-!
SUPPORT. Issue: what the shared meaning of the 66 tile instruction rows does for a halted tile, for a skipped
instruction and for an instruction with a tag.
-/
namespace Sys2Proof.Machine

/-- Every tile instruction row is the shared issue, a SEMA WAIT once its semaphore holds enough. -/
theorem exec_row (s : State) (i : Instr) (t : Fin 256) (st : Fin 32) (h : Hdr) (op : TileInstr) (e : ReadErrs)
    (hi : rowOp i = some (t, st, h, op, e))
    (hw : ∀ k n, op = .sema 0 k n → n ≤ semOf (tileOf s t) k) :
    exec i s = .next (issueOp s t st h op e) := by
  cases i <;> simp only [rowOp, Option.some.injEq, reduceCtorEq, Prod.mk.injEq] at hi <;>
    (obtain ⟨rfl, rfl, rfl, rfl, rfl⟩ := hi) <;> try rfl
  have := hw _ _ rfl
  simp only [tileOf] at this
  simp [exec, execSemaWait, this]

@[simp] theorem tileOf_setTile (s : State) (t : Nat) (x : Tile) : tileOf (setTile s (physTile s t) x) t = x := by
  simp [tileOf, physTile]

/-- The tile an update of one tile leaves is the only difference. -/
theorem onlyTile_setTile (s : State) (pt : Nat) (x : Tile) : OnlyTile s (setTile s pt x) pt :=
  ⟨rfl, fun k hk => tileAt_setTile_ne s pt k x hk⟩

/-- What the ramp limiter counts touches Balance alone. -/
theorem noteIssue_eq (s : State) (t : Nat) (op : TileInstr) : noteIssue s t op = { s with bal := (noteIssue s t op).bal } := by
  unfold noteIssue
  dsimp only
  split <;> rfl

@[simp] theorem noteIssue_now (s : State) (t : Nat) (op : TileInstr) : (noteIssue s t op).now = s.now := by
  rw [noteIssue_eq]

@[simp] theorem noteIssue_tileAt (s : State) (t k : Nat) (op : TileInstr) : tileAt (noteIssue s t op) k = tileAt s k := by
  rw [noteIssue_eq]; rfl

@[simp] theorem noteIssue_physTile (s : State) (t k : Nat) (op : TileInstr) : physTile (noteIssue s t op) k = physTile s k := by
  rw [noteIssue_eq]; rfl

/-- A tag is free: no flight holds it. -/
theorem freeTag_absent {x : Tile} {tag : Nat} (h : freeTag x = some tag) : ∀ f ∈ x.flights, f.tag ≠ tag := by
  unfold freeTag lowest at h
  simpa using List.find?_some h

/-- An instruction that has just taken its tag. -/
def freshFlight (x : Tile) (k : Nat) (h : Hdr) (op : TileInstr) (cl : List Claim) (tag : Nat) : Flight :=
  { tag := tag, stream := k, pc := (streamOf x k).pc.toNat, order := orderOf x k, h := h, op := op, claims := cl, issued := x.issues }

theorem flights_enterFlight (x : Tile) (k : Nat) (h : Hdr) (op : TileInstr) (cl : List Claim) (tag : Nat) :
    (enterFlight x k h op cl tag).flights = x.flights ++ [freshFlight x k h op cl tag] := by
  unfold enterFlight
  rw [post_eq]; rfl

/-- Rewriting the flight of a tag just taken. -/
theorem flightOf_modFlight_fresh {x y : Tile} {k : Nat} {h : Hdr} {op : TileInstr} {cl : List Claim} {tag : Nat}
    (ht : freeTag x = some tag) (hy : y.flights = (enterFlight x k h op cl tag).flights) (g : Flight → Flight)
    (hg : ∀ f, (g f).tag = f.tag) : flightOf (modFlight y tag g) tag = some (g (freshFlight x k h op cl tag)) := by
  have ha := freeTag_absent ht
  rw [flights_enterFlight] at hy
  unfold flightOf modFlight
  simp only [hy, List.map_append, List.find?_append]
  rw [List.find?_eq_none.mpr]
  · have h1 : (freshFlight x k h op cl tag).tag = tag := rfl
    simp [h1, hg]
  · intro f hf
    obtain ⟨f', hf', rfl⟩ := List.mem_map.mp hf
    have := ha f' hf'
    simp [this]

theorem flightOf_enterFlight {x : Tile} {k : Nat} {h : Hdr} {op : TileInstr} {cl : List Claim} {tag : Nat}
    (ht : freeTag x = some tag) : flightOf (enterFlight x k h op cl tag) tag = some (freshFlight x k h op cl tag) := by
  have ha := freeTag_absent ht
  unfold flightOf
  rw [flights_enterFlight, List.find?_append, List.find?_eq_none.mpr (by simpa using ha)]
  simp [freshFlight]

/-- An instruction that takes a tag: its unit gets it, and what it asks reaches the device. -/
theorem issueOp_tagged (s : State) (t st : Nat) (h : Hdr) (op : TileInstr) (e : ReadErrs) (tag : Nat)
    (hc : CanIssue s t st h op tag) (hop : tagFree op = false) :
    issueOp s t st h op e =
      doAsk (setTile (noteIssue s t op) (physTile s t)
        (stampSingles s.now (startWork (entered s t st h op tag) st tag (orderOf (tileOf s t) st) op e))) t e.mem (askOf (streamOf (tileOf s t) st) tag op) := by
  obtain ⟨⟨h1, h2, h3⟩, h4⟩ := hc
  unfold tileOf at h1 h3 h4
  have hg : gatedOp (tileAt s (physTile s t)) st h op = op := by simp [gatedOp, h3]
  unfold issueOp
  simp only [hg, h1, h2, Bool.and_self, if_true, issueCore, noteIssue_tileAt, noteIssue_physTile]
  have key : issueTile (tileAt s (physTile s t)) st h op
      (entryClaims (tileAt s (physTile s t)) ((streamOf (tileAt s (physTile s t)) st).entry.getD (tileAt s (physTile s t)).entries) st h op) e =
      (startWork (entered s t st h op tag) st tag (orderOf (tileOf s t) st) op e, askOf (streamOf (tileOf s t) st) tag op, none) := by
    cases op <;> simp [tagFree] at hop <;> simp [issueTile, h3, h4, entered, orderOf, tileOf]
  rw [key]
  simp [cycleFaults]

/-- A skipped instruction only signals. -/
theorem issueOp_skipped (s : State) (t st : Nat) (h : Hdr) (op : TileInstr) (e : ReadErrs) (hm : mayIssue (tileOf s t) = true)
    (hd : dutyOpen s t = true) (hs : skipped (streamOf (tileOf s t) st) h = true)
    (hsem : semOf (tileOf s t) h.sem + sigAt h h.sem ≤ 0xFFFF) :
    issueOp s t st h op e = setTile (noteIssue s t (.nop 0)) (physTile s t)
      (stampSingles s.now (if h.sig then setSem (advance (tileOf s t) st) h.sem (semOf (tileOf s t) h.sem + 1) else advance (tileOf s t) st)) := by
  have e1 : semOf (advance (tileOf s t) st) h.sem = semOf (tileOf s t) h.sem := by
    simp [advance, enterNext, setStream, semOf]
  unfold tileOf at *
  have hg : gatedOp (tileAt s (physTile s t)) st h op = .nop 0 := by simp [gatedOp, hs]
  have ho : gateOpen s t (.nop 0) = true := by
    unfold gateOpen rampOpen
    simp only [hd, Bool.true_and]
    split <;> simp [tileCost, issueCost, actOf]
  unfold issueOp
  simp only [hg, hm, ho, Bool.and_self, if_true, issueCore, noteIssue_tileAt, noteIssue_physTile, issueTile, hs]
  by_cases hsig : h.sig = true
  · simp only [sigAt, hsig, and_self, if_true] at hsem
    simp [signalNow, hsig, semAdd, e1, hsem, doAsk, cycleFaults]
  · simp [signalNow, hsig, doAsk, cycleFaults]

end Sys2Proof.Machine
end

