-- ==== Sys2Proof/Laws/Keeps.lean ====
section
/-!
SUPPORT. The shared operations keep the queue, the time, the shapes, the memories' form, the tiles' places and the fuses.
-/
namespace Sys2Proof.Machine

/-! ## The relation -/

theorem FusesKept.refl (s : State) : FusesKept s s :=
  ⟨id, id, le_refl _, le_refl _, fun _ _ => rfl, List.prefix_refl _, id⟩

theorem FusesKept.of_eq {s t : State} (h : t.sec = s.sec) : FusesKept s t := by
  unfold FusesKept; rw [h]; exact FusesKept.refl s

theorem FusesKept.trans {s t u : State} (a : FusesKept s t) (b : FusesKept t u) : FusesKept s u := by
  obtain ⟨a1, a2, a3, a4, a5, a6, a7⟩ := a
  obtain ⟨b1, b2, b3, b4, b5, b6, b7⟩ := b
  refine ⟨fun h => b1 (a1 h), fun h => b2 (a2 h), a3.trans b3, a4.trans b4, fun i h => ?_, a6.trans b6, fun h => b7 (a7 h)⟩
  have h' := a5 i h
  rw [b5 i (by rw [h']; exact h), h']

theorem StepKeeps.refl (s : State) : StepKeeps s s := ⟨rfl, le_refl _, id, id, id, .refl s⟩

theorem StepKeeps.trans {s t u : State} (a : StepKeeps s t) (b : StepKeeps t u) : StepKeeps s u :=
  ⟨b.pending.trans a.pending, a.now.trans b.now, fun h => b.shape (a.shape h), fun h => b.mem (a.mem h),
    fun h => b.apart (a.apart h), a.fuses.trans b.fuses⟩

theorem StepKeeps.foldl {α : Type} {f : State → α → State} (h : ∀ s x, StepKeeps s (f s x)) (l : List α) (s : State) :
    StepKeeps s (l.foldl f s) := by
  induction l generalizing s with
  | nil => exact .refl s
  | cons x r ih => exact (h s x).trans (ih (f s x))

theorem StepKeeps.ite {s t u : State} {c : Prop} [Decidable c] (a : StepKeeps s t) (b : StepKeeps s u) :
    StepKeeps s (if c then t else u) := by split <;> assumption

theorem apart_of_map {s t : State} (h : t.tileMap = s.tileMap) (a : TilesApart s) : TilesApart t := by
  have e : ∀ k, physTile t k = physTile s k := fun k => by simp [physTile, h]
  exact ⟨fun i j hi hj hp => a.1 i j hi hj (by rw [← e, ← e]; exact hp), fun i hi hp => by rw [e]; exact a.2 i hi (by rw [← e]; exact hp)⟩

/-- An update that touches neither memories, tile map, queue nor fuses. -/
theorem StepKeeps.plain {s t : State}
    (h : t = { s with tiles := t.tiles, chans := t.chans, memParts := t.memParts, ports := t.ports, windows := t.windows
                      split := t.split, jobs := t.jobs, bal := t.bal, host := t.host, side := t.side, start := t.start, waits := t.waits
                      sentFrames := t.sentFrames, sentLink := t.sentLink, now := t.now, free := t.free }) (hn : s.now ≤ t.now)
    (hs : Shape s → Shape t) : StepKeeps s t := by
  exact ⟨by rw [h], hn, hs, fun x => by rw [h]; exact x, apart_of_map (by rw [h]), .of_eq (by rw [h])⟩


section
variable (s : State)

/-! ## Updates of one unit -/

theorem keeps_atTime (n : Nat) : StepKeeps s (atTime s n) := .plain rfl (Nat.le_max_left _ _) id
theorem keeps_setTile (pt : Nat) (x : Tile) : StepKeeps s (setTile s pt x) := .plain rfl (le_refl _) id
theorem keeps_modTile (pt : Nat) (f : Tile → Tile) : StepKeeps s (modTile s pt f) := keeps_setTile s pt _
theorem keeps_setJob (p : Nat) (j : Job) : StepKeeps s (setJob s p j) :=
  .plain rfl (le_refl _) fun h => by simpa [Shape, setJob] using h
theorem keeps_modJob (p : Nat) (f : Job → Job) : StepKeeps s (modJob s p f) := keeps_setJob s p _
theorem keeps_modPort (k : Nat) (f : Port → Port) : StepKeeps s (modPort s k f) :=
  .plain rfl (le_refl _) fun h => by simpa [Shape, modPort] using h
theorem keeps_modChan (n : Nat) (f : Channel → Channel) : StepKeeps s (modChan s n f) :=
  .plain rfl (le_refl _) fun h => by simpa [Shape, modChan] using h
theorem keeps_modMbx (k : Nat) (f : Mailbox → Mailbox) : StepKeeps s (modMbx s k f) :=
  .plain rfl (le_refl _) fun h => by simpa [Shape, modMbx] using h
theorem keeps_modDie (d : Nat) (f : Die → Die) : StepKeeps s (modDie s d f) :=
  .plain rfl (le_refl _) fun h => by simpa [Shape, modDie] using h
theorem keeps_setWindow (w : Nat) (x : Window) : StepKeeps s (setWindow s w x) := .plain rfl (le_refl _) id

/-- An update of the Fen that keeps its scratchpads in form. -/
theorem keeps_modFen (d : Nat) (f : Fen → Fen) (h : ∀ x, memWf x.scr = true → memWf (f x).scr = true) :
    StepKeeps s (modFen s d f) := by
  refine ⟨rfl, le_refl _, fun k => by simpa [Shape, modFen, setFen] using k, fun k => ?_, apart_of_map rfl, .of_eq rfl⟩
  refine ⟨k.1, fun e => ?_, k.2.2⟩
  have hk := k.2.1
  by_cases he : e = d
  · subst he
    by_cases hl : e < s.fens.length
    · rw [modFen, fenOf_setFen _ _ _ hl]; exact h _ (hk e)
    · have : setAt s.fens e (f (fenOf s e)) = s.fens := by simp [setAt, List.set_eq_of_length_le (not_lt.mp hl)]
      have e2 : fenOf (modFen s e f) e = fenOf s e := by unfold fenOf modFen setFen; dsimp only; rw [this]
      rw [e2]; exact hk e
  · rw [modFen, fenOf_setFen_ne _ _ _ _ he]; exact hk e

/-- An update of device memory that keeps its form. -/
theorem keeps_mem (m : Mem) (h : memWf s.mem = true → memWf m = true) : StepKeeps s { s with mem := m } :=
  ⟨rfl, le_refl _, id, fun k => ⟨h k.1, k.2⟩, apart_of_map rfl, .of_eq rfl⟩

/-- An update of the cache that keeps its form. -/
theorem keeps_cache (c : Tbl CLine) (h : tblWf {} s.cache = true → tblWf {} c = true) : StepKeeps s { s with cache := c } :=
  ⟨rfl, le_refl _, id, fun k => ⟨k.1, k.2.1, h k.2.2.1, k.2.2.2⟩, apart_of_map rfl, .of_eq rfl⟩

theorem keeps_memPart (p : Nat) (m : MemPart) : StepKeeps s { s with memParts := setAt s.memParts p m } :=
  .plain rfl (le_refl _) fun h => by simpa [Shape] using h

/-- An update of both dies' Fen that leaves their scratchpads. -/
theorem keeps_fens (f : Fen → Fen) (w : List DmaWait) (h : ∀ x, (f x).scr = x.scr) :
    StepKeeps s { s with waits := w, fens := s.fens.map f } := by
  refine ⟨rfl, le_refl _, fun k => by simpa [Shape] using k, fun k => ⟨k.1, fun e => ?_, k.2.2⟩, apart_of_map rfl, .of_eq rfl⟩
  have hk := k.2.1 e
  have e2 : (fenOf { s with waits := w, fens := s.fens.map f } e).scr = (fenOf s e).scr := by
    simp only [fenOf, nth, List.getD_eq_getElem?_getD, List.getElem?_map]
    cases s.fens[e]? <;> simp [h]
  rw [e2]; exact hk

/-- An update of the fuses and firmware that keeps what is fused. -/
theorem keeps_sec (x : Security) (hl : x.slots.length = s.sec.slots.length) (h : FusesKept s { s with sec := x }) :
    StepKeeps s { s with sec := x } :=
  ⟨rfl, le_refl _, fun k => by simpa [Shape, hl] using k, id, apart_of_map rfl, h⟩

/-! ## Interrupts, frames, windows -/

theorem keeps_signalVector (v : Nat) : StepKeeps s (signalVector s v) :=
  .ite (.refl s) (.ite (.plain rfl (le_refl _) id) (.plain rfl (le_refl _) id))

theorem keeps_raiseCause (b : Nat) : StepKeeps s (raiseCause s b) := by
  unfold raiseCause
  split
  · exact .refl s
  · have h1 : StepKeeps s { s with host := { s.host with irqStatus := s.host.irqStatus ||| BitVec.ofNat 11 (2 ^ b) } } :=
      .plain rfl (le_refl _) id
    dsimp only
    split
    · exact .plain rfl (le_refl _) id
    · exact h1.trans (keeps_signalVector _ _)

theorem keeps_emitFrame (p n : Nat) (f : Frame) : StepKeeps s (emitFrame s p n f) :=
  .ite (.plain rfl (le_refl _) fun h => by simpa [Shape, modPort] using h) (.refl s)

theorem keeps_sendFrame (p k : Nat) (f : Frame) : StepKeeps s (sendFrame s p k f) := by
  unfold sendFrame
  split
  · exact .refl s
  · exact .ite (keeps_modPort s _ _) (keeps_emitFrame s _ _ _)

theorem keeps_endPause (n prio : Nat) : StepKeeps s (endPause s n prio) :=
  (keeps_modPort s _ _).trans (.foldl (fun s _ => keeps_emitFrame s _ _ _) _ _)

theorem keeps_sendAll (p dst typ : Nat) (body : List Byte) : StepKeeps s (sendAll s p dst typ body) :=
  .foldl (fun s k => keeps_sendFrame s p k _) _ _

theorem keeps_notice (p orig code : Nat) (a : Bool) (k : Option Nat) : StepKeeps s (notice s p orig code a k) :=
  .foldl (fun s m => keeps_sendAll s p m 8 _) _ _

theorem keeps_closeWindows (p : Nat) : StepKeeps s (closeWindows s p) :=
  .foldl (fun s w => by dsimp only; split; exact keeps_setWindow s w _; exact .refl s) _ _

/-! ## Job states and faults -/

theorem keeps_refill (p : Nat) : StepKeeps s (refill s p) := keeps_memPart s _ _

theorem keeps_setJobState (p : Nat) (st : JobState) : StepKeeps s (setJobState s p st) := by
  unfold setJobState
  split
  · exact .refl s
  · exact ((keeps_refill s p).trans (keeps_modJob _ p _)).trans (keeps_raiseCause _ _)

theorem keeps_freeDev (a n : Nat) : StepKeeps s (freeDev s a n) := by
  have h : StepKeeps s { s with free := s.free + n } := .plain rfl (le_refl _) id
  unfold freeDev
  dsimp only
  split
  · exact h.trans (keeps_modFen _ _ _ fun _ k => memWf_mwrite _ _ _ k)
  · exact h.trans (keeps_mem _ _ fun k => memWf_mwrite _ _ _ k)

theorem keeps_abandonTt (pt : Nat) (f : Flight) : StepKeeps s (abandonTt s pt f) := by
  unfold abandonTt
  split
  · exact keeps_modTile s _ _
  · exact .refl s

theorem keeps_haltTile (pt : Nat) : StepKeeps s (haltTile s pt) := by
  unfold haltTile
  dsimp only
  split
  · exact .refl s
  · exact (((StepKeeps.foldl (fun s r => keeps_freeDev s _ _) _ _).trans (.foldl (fun s f => keeps_abandonTt s pt f) _ _)).trans
      (keeps_modTile _ _ _)).trans (keeps_fens _ _ _ fun _ => rfl)

theorem keeps_haltTiles (p : Nat) : StepKeeps s (haltTiles s p) := .foldl (fun s _ => keeps_haltTile s _) _ _

theorem keeps_endBox (b : Option Nat) (st : Nat) (out : List Byte) : StepKeeps s (endBox s b st out) := by
  cases b
  · exact .refl s
  · unfold endBox; exact keeps_modMbx s _ _

theorem keeps_endArm (p st : Nat) (out : List Byte) : StepKeeps s (endArm s p st out) := by
  unfold endArm
  exact (keeps_endBox s _ _ _).trans (keeps_modJob _ _ _)

theorem keeps_freshSlot (p : Nat) : StepKeeps s (freshSlot s p) :=
  .plain rfl (le_refl _) fun h => by simpa [Shape, freshSlot] using h

theorem keeps_leaveRunning (p : Nat) : StepKeeps s (leaveRunning s p) := by
  unfold leaveRunning
  dsimp only
  split
  · exact ((keeps_closeWindows s p).trans (keeps_freshSlot _ p)).trans (keeps_modJob _ _ _)
  · exact keeps_modJob _ _ _

theorem keeps_raiseFault (p code : Nat) (l : Loc) : StepKeeps s (raiseFault s p code l) := by
  unfold raiseFault
  dsimp only
  have h := ((keeps_endArm s p 6 (faultOut code)).trans (keeps_haltTiles _ p)).trans (keeps_leaveRunning _ p)
  split
  · split
    · exact ((h.trans (keeps_modJob _ _ _)).trans (keeps_notice _ _ _ _ _ _)).trans (keeps_setJobState _ _ _)
    · exact (h.trans (keeps_modJob _ _ _)).trans (keeps_setJobState _ _ _)
  · exact (keeps_endBox s _ _ _).trans (keeps_modJob _ _ _)

theorem keeps_remoteFault (p orig code from_ : Nat) : StepKeeps s (remoteFault s p orig code from_) :=
  (((((keeps_endArm s p 6 (faultOut code)).trans (keeps_haltTiles _ p)).trans (keeps_leaveRunning _ p)).trans
    (keeps_modJob _ _ _)).trans (keeps_notice _ _ _ _ _ _)).trans (keeps_setJobState _ _ _)

theorem keeps_enterKilled (p orig : Nat) (k : Option Nat) : StepKeeps s (enterKilled s p orig k) := by
  unfold enterKilled
  dsimp only
  have h := ((keeps_endArm s p 10 []).trans (keeps_haltTiles _ p)).trans (keeps_leaveRunning _ p)
  split
  · split
    · exact ((h.trans (keeps_modJob _ _ _)).trans (keeps_notice _ _ _ _ _ _)).trans (keeps_setJobState _ _ _)
    · exact (h.trans (keeps_modJob _ _ _)).trans (keeps_setJobState _ _ _)
  · exact .refl s

theorem keeps_backToLoaded (p : Nat) : StepKeeps s (backToLoaded s p) := by
  unfold backToLoaded
  split
  · exact (keeps_modJob s _ _).trans (keeps_setJobState _ _ _)
  · exact .refl s

theorem keeps_tileFault (t code lm pm : Nat) : StepKeeps s (tileFault s t code lm pm) := by
  unfold tileFault
  split
  · exact .refl s
  · exact keeps_raiseFault s _ _ _

theorem keeps_tileWork (t : Nat) (f : Tile → Tile × Nat) : StepKeeps s (tileWork s t f) :=
  (keeps_setTile s _ _).trans (keeps_tileFault _ _ _ _ _)

/-! ## Reserve records, channels, the device -/

/-- An update of what Security holds beside the fuses. -/
theorem keeps_unfused (x : Security)
    (h : x = { s.sec with journal := x.journal, entries := x.entries, fuseAt := x.fuseAt, missing := x.missing }) (n : Nat) :
    StepKeeps s { s with sec := x, free := n } :=
  (keeps_sec s x (by rw [h]) (by rw [h]; exact ⟨id, id, le_refl _, le_refl _, fun _ _ => rfl, List.prefix_refl _, id⟩)).trans
    (.plain rfl (le_refl _) id)

theorem keeps_writeEntry (kind : Nat) (arg : List Byte) (time : Nat) : StepKeeps s (writeEntry s kind arg time) :=
  keeps_unfused s _ rfl s.free

theorem keeps_journalEntry (kind : Nat) (arg : List Byte) : StepKeeps s (journalEntry s kind arg) := keeps_writeEntry s _ _ _

theorem keeps_cutEntry : StepKeeps s (cutEntry s) := by
  unfold cutEntry
  dsimp only
  split
  · exact .ite (keeps_unfused s _ rfl _) (keeps_unfused s _ rfl s.free)
  · exact .refl s

theorem keeps_mendJournal : StepKeeps s (mendJournal s) := by
  unfold mendJournal
  split
  · exact (keeps_writeEntry s _ _ _).trans (keeps_unfused _ _ rfl (writeEntry s _ _ _).free)
  · exact .refl s

theorem keeps_reserveRecord (kind : Nat) (arg : List Byte) : StepKeeps s (reserveRecord s kind arg) := by
  unfold reserveRecord
  refine StepKeeps.trans ?_ (keeps_raiseCause _ _)
  dsimp only
  split
  · refine StepKeeps.trans ?_ (keeps_journalEntry _ _ _)
    refine keeps_sec s _ rfl ?_
    exact ⟨id, id, le_refl _, le_refl _, fun _ _ => rfl, List.prefix_append _ _, id⟩
  · exact keeps_sec s _ rfl ⟨id, id, le_refl _, le_refl _, fun _ _ => rfl, List.prefix_refl _, id⟩

theorem keeps_retireTile (pt : Nat) : StepKeeps s (retireTile s pt) := by
  unfold retireTile
  split
  · exact .refl s
  · have h : ∀ y : State, StepKeeps y { y with start := { y.start with tpendFull := y.start.tpendFull || decide (15 ≤ (pendingTiles y).length) } } :=
      fun _ => .plain rfl (le_refl _) id
    exact ((keeps_modTile s _ _).trans (h _)).trans (keeps_reserveRecord _ _ _)

theorem keeps_retireMacro (pt m : Nat) : StepKeeps s (retireMacro s pt m) :=
  .ite (.refl s) (.ite (keeps_retireTile s pt) ((keeps_modTile s _ _).trans (keeps_reserveRecord _ _ _)))

theorem keeps_beyondReserve (scope code : Nat) : StepKeeps s (beyondReserve s scope code) :=
  .ite (.refl s) (.plain rfl (le_refl _) id)

theorem keeps_failChannel (n : Nat) : StepKeeps s (failChannel s n) := by
  unfold failChannel
  extract_lets c p s1 s2 st
  have h : StepKeeps s s2 := .ite (keeps_modChan s n _) ((keeps_modChan s n _).trans (keeps_reserveRecord _ _ _))
  exact .ite (.refl s) (.ite (h.trans (keeps_raiseFault _ _ _ _)) h)

theorem keeps_channelCe (n : Nat) : StepKeeps s (channelCe s n) :=
  .ite ((keeps_modChan s n _).trans (keeps_reserveRecord _ _ _)) (keeps_modChan s n _)

theorem keeps_channelUe (n a : Nat) : StepKeeps s (channelUe s n a) :=
  .ite ((keeps_modChan s n _).trans (keeps_failChannel _ _)) (keeps_modChan s n _)

theorem keeps_endJobs : StepKeeps s (endJobs s) :=
  .foldl (fun s p => ((keeps_haltTiles s p).trans (keeps_modJob _ _ _)).trans (keeps_closeWindows _ _)) _ _

theorem keeps_deviceDown (c : Nat) (code : BitVec 16) : StepKeeps s (deviceDown s c code) :=
  (keeps_endJobs s).trans (.plain rfl (le_refl _) id)

theorem keeps_balEvent (k : Nat) : StepKeeps s (balEvent s k) := by
  unfold balEvent
  dsimp only
  split <;> exact .plain rfl (le_refl _) id

/-! ## Device memory and the cache -/

theorem keeps_modBank (d b : Nat) (f : Bank → Bank) : StepKeeps s (modBank s d b f) := keeps_modFen s d _ fun _ h => h

theorem keeps_charge (c : MemClass) (t : Option Nat) (a n : Nat) : StepKeeps s (charge s c t a n) :=
  (keeps_refill s _).trans (keeps_memPart _ _ _)

/-- Joining neighbouring segments keeps rising starts and the first one. -/
theorem joinSegs_sorted : ∀ l : List (Nat × ByteState), l.Pairwise (fun a b => a.1 < b.1) →
    (joinSegs l).Pairwise (fun a b => a.1 < b.1) ∧ (joinSegs l).head?.map (·.1) = l.head?.map (·.1) ∧
      ∀ e ∈ joinSegs l, e ∈ l
  | [], h => by simp [joinSegs]
  | [e], h => by simp [joinSegs]
  | e :: f :: r, h => by
    unfold joinSegs
    rw [List.pairwise_cons] at h
    have hr := List.pairwise_cons.mp h.2
    split
    · have h' : (e :: r).Pairwise (fun a b => a.1 < b.1) :=
        List.pairwise_cons.mpr ⟨fun x hx => h.1 x (List.mem_cons_of_mem _ hx), hr.2⟩
      have ih := joinSegs_sorted (e :: r) h'
      refine ⟨ih.1, by simpa using ih.2.1, fun x hx => ?_⟩
      have := ih.2.2 x hx
      simp only [List.mem_cons] at this ⊢
      tauto
    · have ih := joinSegs_sorted (f :: r) h.2
      refine ⟨List.pairwise_cons.mpr ⟨fun x hx => h.1 x (ih.2.2 x hx), ih.1⟩, by simp, fun x hx => ?_⟩
      rcases List.mem_cons.mp hx with rfl | hx
      · exact List.mem_cons_self
      · exact List.mem_cons_of_mem _ (ih.2.2 x hx)

/-- An update of the byte states that keeps them rising from address 0. -/
theorem keeps_segs (g : List (Nat × ByteState))
    (h : s.segs.Pairwise (fun a b => a.1 < b.1) → s.segs.head?.map (·.1) = some 0 →
      g.Pairwise (fun a b => a.1 < b.1) ∧ g.head?.map (·.1) = some 0) : StepKeeps s { s with segs := g } :=
  ⟨rfl, le_refl _, id, fun k => ⟨k.1, k.2.1, k.2.2.1, h k.2.2.2.1 k.2.2.2.2⟩, apart_of_map rfl, .of_eq rfl⟩

theorem keeps_clearing : StepKeeps s { s with sec := { s.sec with clearing := true } } :=
  keeps_sec s _ rfl ⟨id, id, le_refl _, le_refl _, fun _ _ => rfl, List.prefix_refl _, id⟩

theorem keeps_setBytes (a n : Nat) (st : ByteState) : StepKeeps s (setBytes s a n st) := by
  unfold setBytes
  split
  · exact .refl s
  rename_i hn
  refine StepKeeps.trans (t := { s with segs := joinSegs (s.segs.filter (fun e => decide (e.1 < a)) ++
      [(a, st), (a + n, byteState s (a + n))] ++ s.segs.filter fun e => decide (a + n < e.1)) })
    (keeps_segs s _ fun hp hh => ?_) (keeps_clearing _)
  have hs : (s.segs.filter (fun e => decide (e.1 < a)) ++ [(a, st), (a + n, byteState s (a + n))] ++
      s.segs.filter fun e => decide (a + n < e.1)).Pairwise (fun a b => a.1 < b.1) := by
    refine List.pairwise_append.mpr ⟨List.pairwise_append.mpr ⟨hp.filter _, ?_, ?_⟩, hp.filter _, ?_⟩
    · simp; omega
    · intro x hx y hy
      simp only [List.mem_filter, decide_eq_true_eq] at hx
      simp only [List.mem_cons, List.not_mem_nil, or_false] at hy
      rcases hy with rfl | rfl <;> simp only [] <;> omega
    · intro x hx y hy
      simp only [List.mem_append, List.mem_filter, decide_eq_true_eq, List.mem_cons, List.not_mem_nil, or_false] at hx hy
      rcases hx with (h | rfl | rfl) <;> omega
  obtain ⟨h1, h2, -⟩ := joinSegs_sorted _ hs
  refine ⟨h1, h2.trans ?_⟩
  obtain ⟨x, r, hx⟩ : ∃ x r, s.segs = x :: r := by
    cases hz : s.segs with
    | nil => simp [hz] at hh
    | cons x r => exact ⟨x, r, rfl⟩
  rw [hx] at hh ⊢
  simp only [List.head?_cons, Option.map_some, Option.some.injEq] at hh
  by_cases ha : a = 0
  · subst ha; simp
  · have : decide (x.1 < a) = true := by simp; omega
    simp [hh, Nat.pos_of_ne_zero ha]

theorem keeps_clearAwaiting (a n : Nat) : StepKeeps s (clearAwaiting s a n) :=
  .foldl (fun s (r : Nat × Nat) => (keeps_setBytes s r.1 r.2 .free).trans (keeps_mem _ _ fun h => memWf_mclear _ _ _ (by
    have e : (setBytes s r.1 r.2 .free).mem = s.mem := by unfold setBytes; split <;> rfl
    rw [e] at h; exact h))) _ _

theorem keeps_touchAwaiting (a n : Nat) : StepKeeps s (touchAwaiting s a n) := by
  unfold touchAwaiting
  split
  · exact .refl s
  · exact .foldl (fun s k => keeps_clearAwaiting s _ _) _ _

theorem memWf_foldl_mwrite {α : Type} (l : List α) (f : α → Nat) (g : α → List Byte) (m : Mem) (h : memWf m = true) :
    memWf (l.foldl (fun m k => mwrite m (f k) (g k)) m) = true := by
  induction l generalizing m with
  | nil => exact h
  | cons x r ih => exact ih _ (memWf_mwrite _ _ _ h)

theorem keeps_memWrite (a : Nat) (bs : List Byte) : StepKeeps s { s with mem := mwrite s.mem a bs } :=
  keeps_mem s _ fun k => memWf_mwrite _ _ _ k

theorem keeps_addFree (n : Nat) : StepKeeps s { s with free := n } := .plain rfl (le_refl _) id

/-! ## Errors of LPDDR5X, and requests at the controller -/

theorem keeps_spoilMem (a : Nat) : StepKeeps s (spoilMem s a) := (keeps_memWrite s _ _).trans (keeps_addFree _ _)

theorem keeps_memEcc (n ca : Nat) (job : Option Nat) (e : Ecc) : StepKeeps s (memEcc s n ca job e) := by
  cases e
  case double => cases job; exact keeps_channelUe s n ca; exact (keeps_raiseFault s _ _ _).trans (keeps_channelUe _ _ _)
  all_goals first | exact .refl s | exact keeps_channelCe s n

theorem keeps_linkErr (n : Nat) (link : Bool) : StepKeeps s (linkErr s n link) := .ite (keeps_modChan s n _) (.refl s)

theorem keeps_lpddrErr (b : Bool) (e : MemErr) : StepKeeps s (lpddrErr s b e) := by
  unfold lpddrErr
  split
  · exact .refl s
  · exact ((StepKeeps.ite (keeps_spoilMem s _) (.refl s)).trans (keeps_linkErr _ _ _)).trans (keeps_memEcc _ _ _ _ _)

theorem keeps_chargeRange (c : MemClass) (a n : Nat) : StepKeeps s (chargeRange s c a n) :=
  .ite ((keeps_charge s _ _ _ _).trans (keeps_charge _ _ _ _ _)) (keeps_charge s _ _ _ _)

theorem keeps_outsideErrs (errs : List MemErr) : StepKeeps s (outsideErrs s errs) := .foldl (fun s e => keeps_lpddrErr s _ e) _ _

theorem keeps_cmdRead (errs : List MemErr) (a n : Nat) : StepKeeps s (cmdRead s errs a n).1 :=
  ((keeps_touchAwaiting s a n).trans (keeps_chargeRange _ _ _ _)).trans (keeps_outsideErrs _ _)

theorem keeps_serveUnit (r : MemReq) : StepKeeps s (serveUnit s r) := by
  unfold serveUnit
  extract_lets n s1 s2 s3 p job s4 m
  have h2 : StepKeeps s s2 := (StepKeeps.ite (keeps_touchAwaiting s _ _) (.refl s)).trans (keeps_charge s1 _ _ _ _)
  have h3 : StepKeeps s s3 := by
    refine h2.trans ?_
    simp only [s3]
    split
    · exact keeps_linkErr _ _ _
    · exact .refl _
  have h4 : StepKeeps s s4 := h3.trans (.foldl (fun s e => keeps_lpddrErr s _ e) _ _)
  exact .ite (.refl s) (.ite (.ite h4 (h4.trans (keeps_memPart _ _ _))) (h3.trans (keeps_memWrite _ _ _)))

theorem keeps_postUnit (r : MemReq) : StepKeeps s (postUnit s r) := by
  unfold postUnit
  split
  · exact .ite (keeps_modChan s _ _) (keeps_serveUnit s r)
  · exact .refl s

theorem keeps_postRequest (r : MemReq) : StepKeeps s (postRequest s r) := .foldl (fun s r => keeps_postUnit s r) _ _

/-! ## The cache -/

theorem keeps_cacheSet (k : Nat) (l : CLine) : StepKeeps s { s with cache := tset {} s.cache k l } :=
  keeps_cache s _ fun h => tblWf_tset _ _ _ _ h

theorem keeps_postSector (t : Option Nat) (a : Nat) (bs : List Byte) : StepKeeps s (postSector s t a bs) :=
  .ite (keeps_postUnit s _) ((keeps_charge s _ _ _ _).trans (keeps_memWrite (charge s .tile t a bs.length) a bs))

theorem keeps_writeBackSectors (t : Option Nat) (line : Nat) (ks : List Nat) : StepKeeps s (writeBackSectors s t line ks) :=
  .foldl (fun s _ => (keeps_cacheSet s _ _).trans (keeps_postSector _ _ _ _)) _ _

theorem keeps_writeBack (t : Option Nat) (line : Nat) : StepKeeps s (writeBack s t line) := keeps_writeBackSectors s t line _

theorem keeps_makeRoom (p d : Nat) (t : Option Nat) (line : Nat) : StepKeeps s (makeRoom s p d t line) := by
  unfold makeRoom
  dsimp only
  repeat' split
  · exact .refl s
  · exact .refl s
  · exact ((keeps_addFree s _).trans (keeps_writeBack _ _ _)).trans (keeps_cacheSet _ _ _)
  · exact .refl s

theorem keeps_putSector (p d a : Nat) (b : Bool) (bs : List Byte) : StepKeeps s (putSector s p d a b bs) := keeps_cacheSet s _ _

theorem keeps_fillSector (p d : Nat) (t : Option Nat) (a : Nat) : StepKeeps s (fillSector s p d t a) := by
  unfold fillSector
  refine StepKeeps.trans ?_ (keeps_charge _ _ _ _ _)
  refine StepKeeps.trans ?_ (keeps_modFen _ _ _ fun _ h => h)
  exact (keeps_makeRoom s p d t _).trans (keeps_putSector _ _ _ _ _ _)

theorem keeps_dropSector (a : Nat) : StepKeeps s (dropSector s a) := keeps_cacheSet s _ _

theorem keeps_touchSector (p d : Nat) (t : Option Nat) (a : Nat) : StepKeeps s (touchSector s p d t a) :=
  .ite (keeps_modFen s _ _ fun _ h => h) (keeps_fillSector s p d t a)

theorem keeps_writeSector (p d : Nat) (t : Option Nat) (a : Nat) (bs : List Byte) : StepKeeps s (writeSector s p d t a bs) :=
  (keeps_makeRoom s p d t _).trans (keeps_putSector _ _ _ _ _ _)

/-! ## A tile's accesses -/

theorem keeps_tileTouch (p pt a n : Nat) : StepKeeps s (tileTouch s p pt a n) :=
  .foldl (fun s x => by
    split
    · exact .refl s
    · exact keeps_touchSector s _ _ _ _
    · exact .ite (keeps_charge s _ _ _ _) (.refl s)) _ _

theorem keeps_storeSector (p pt a x : Nat) (bs : List Byte) : StepKeeps s (storeSector s p pt a x bs) := by
  unfold storeSector
  split
  · exact keeps_modFen s _ _ fun _ h => memWf_mwrite _ _ _ h
  · exact keeps_writeSector s _ _ _ _ _
  · exact (StepKeeps.ite (keeps_charge s _ _ _ _) (.refl s)).trans (keeps_memWrite _ _ _)

theorem keeps_tileStore (p pt a : Nat) (bs : List Byte) : StepKeeps s (tileStore s p pt a bs) :=
  .foldl (fun s _ => keeps_storeSector s _ _ _ _ _) _ _

theorem keeps_flushRange (pt a n : Nat) : StepKeeps s (flushRange s pt a n) :=
  .foldl (fun s _ => keeps_writeBackSectors s _ _ _) _ _

theorem keeps_flushAll (p : Nat) : StepKeeps s (flushAll s p) := .foldl (fun s _ => keeps_writeBack s _ _) _ _

theorem keeps_dropCache (p : Nat) : StepKeeps s (dropCache s p) := keeps_cache s _ fun h => tblWf_filter _ _ _ h

theorem keeps_fenCorrected (d : Nat) : StepKeeps s (fenCorrected s d) := keeps_modFen s _ _ fun _ h => h

theorem keeps_fenUncorrectable (d b : Nat) : StepKeeps s (fenUncorrectable s d b) := by
  unfold fenUncorrectable
  have h := keeps_modFen s d (fun f => { f with ue := errAdd f.ue 1 }) fun _ k => k
  dsimp only
  split
  · exact h.trans (keeps_raiseFault _ _ _ _)
  · exact h

theorem keeps_bankErr (d : Nat) (e : MemErr) : StepKeeps s (bankErr s d e) := by
  unfold bankErr
  have h : StepKeeps s (if eccWrong e.ecc then
      { modFen s d (fun f => { f with scr := mwrite f.scr (8 * (fenOff e.addr / 8)) (freeBytes s.free 8) }) with free := s.free + 8 }
    else s) := .ite ((keeps_modFen s _ _ fun _ k => memWf_mwrite _ _ _ k).trans (keeps_addFree _ _)) (.refl s)
  dsimp only
  split
  all_goals first | exact h | exact h.trans (keeps_fenCorrected _ _) | exact h.trans (keeps_fenUncorrectable _ _ _)

theorem keeps_cacheErr (d : Nat) (e : MemErr) : StepKeeps s (cacheErr s d e) := by
  unfold cacheErr
  extract_lets l s1
  have h1 : StepKeeps s s1 := .ite ((keeps_cacheSet s _ _).trans (keeps_addFree { s with cache := _ } (s.free + 8))) (.refl s)
  clear_value s1
  split
  · exact h1
  · exact h1
  · exact h1.trans (keeps_fenCorrected _ _)
  · exact h1.trans (keeps_fenCorrected _ _)
  · exact .ite (h1.trans (keeps_fenUncorrectable _ _ _)) ((h1.trans (keeps_dropSector _ _)).trans (keeps_fenCorrected _ _))

theorem keeps_tagErr (d b line : Nat) (e : Ecc) : StepKeeps s (tagErr s d b line e) := by
  unfold tagErr
  have h : StepKeeps s (if eccWrong e then spoilLine s line else s) :=
    .ite ((keeps_cache s _ fun h => tblWf_tset _ _ _ _ h).trans (keeps_addFree { s with cache := _ } (s.free + 128))) (.refl s)
  dsimp only
  split
  all_goals first | exact h | exact h.trans (keeps_fenCorrected _ _) | exact h.trans (keeps_fenUncorrectable _ _ _)

theorem keeps_accessErrs (p : Nat) (errs : List MemErr) : StepKeeps s (accessErrs s p errs) :=
  .foldl (fun s e => by
    split
    · exact keeps_bankErr s _ _
    · exact .ite (keeps_tagErr s _ _ _ _) (.ite (keeps_cacheErr s _ _) (keeps_lpddrErr s _ _))
    · exact keeps_lpddrErr s _ _) _ _

end

end Sys2Proof.Machine
end

