-- ==== Sys2Proof/Laws/Units.lean ====
section
/-!
SUPPORT. What the units that end their work at issue leave alone: one lemma for each shared shape of result.
-/
namespace Sys2Proof.Machine

/-! ## Lengths -/

@[simp] theorem length_leBytes (n v : Nat) : (leBytes n v).length = n := by
  induction n generalizing v with
  | zero => rfl
  | succ n ih => simp [leBytes, ih]

@[simp] theorem length_zeros (n : Nat) : (zeros n).length = n := by simp [zeros]

@[simp] theorem length_freeBytes (c n : Nat) : (freeBytes c n).length = n := by simp [freeBytes]

@[simp] theorem length_mread (m : Mem) (a n : Nat) : (mread m a n).length = n := by simp [mread]

theorem length_packNibbles (xs : List Nat) : (packNibbles xs).length = (xs.length + 1) / 2 := by
  match xs with
  | [] => rfl
  | [a] => simp [packNibbles]
  | a :: b :: r =>
    have := length_packNibbles r
    simp only [packNibbles, List.length_cons, this]
    omega

theorem length_flatMap_const (xs : List α) (f : α → List β) (n : Nat) (h : ∀ x ∈ xs, (f x).length = n) :
    (xs.flatMap f).length = xs.length * n := by
  induction xs with
  | nil => simp
  | cons x r ih =>
    have h1 := h x (by simp)
    have h2 := ih fun y hy => h y (by simp [hy])
    simp [h1, h2, Nat.succ_mul, Nat.add_comm]

/-- A packed row takes no more bytes than its elements have bits. -/
theorem length_packRow_le (c : Nat) (xs : List Nat) : (packRow c xs).length ≤ (xs.length * fmtBits c + 7) / 8 := by
  unfold packRow
  split
  · subst_vars
    rw [length_packNibbles]
    simp only [fmtBits]
    omega
  · rw [length_flatMap_const _ _ (fmtBits c / 8) (by simp)]
    have : xs.length * (fmtBits c / 8) * 8 ≤ xs.length * fmtBits c := by
      rw [Nat.mul_assoc]
      exact Nat.mul_le_mul_left _ (Nat.div_mul_le_self _ _)
    omega

theorem le_up64 (n : Nat) : n ≤ up64 n := by unfold up64; omega

theorem length_packRow_rowLen (c : Nat) (xs : List Nat) : (packRow c xs).length ≤ rowLen c xs.length :=
  Nat.le_trans (length_packRow_le c xs) (le_up64 _)

/-- What holds of a start and is kept by each step holds of a fold. -/
theorem foldl_ind {P : α → Prop} (l : List β) (f : α → β → α) (a : α) (h0 : P a) (h : ∀ a b, P a → P (f a b)) : P (l.foldl f a) := by
  induction l generalizing a with
  | nil => exact h0
  | cons b r ih => exact ih _ (h a b h0)

/-! ## The frame of a unit's result -/

/-- A tile differs from another in the TSP, the ACM, the sparse store, counters and free values alone. -/
def UnitFrame (x y : Tile) : Prop :=
  y.pages = x.pages ∧ y.macros = x.macros ∧ y.sems = x.sems ∧ y.plan = x.plan ∧ y.flights = x.flights ∧
    y.accQ = x.accQ ∧ y.sparseQ = x.sparseQ ∧ y.updQ = x.updQ ∧ y.halted = x.halted ∧ y.fault = x.fault

theorem UnitFrame.trans {x y z : Tile} (h : UnitFrame x y) (g : UnitFrame y z) : UnitFrame x z := by
  unfold UnitFrame at *
  simp_all

/-- A byte of a run of `n` bytes from `a`. -/
def InRun (a n k : Nat) : Prop := a ≤ k ∧ k < a + n

/-- A unit that writes the TSP only inside `[a, a + n)` and leaves the ACM and the sparse store. -/
def TspOnly (P : Nat → Prop) (x y : Tile) : Prop :=
  UnitFrame x y ∧ y.acm = x.acm ∧ y.sps = x.sps ∧ y.spx = x.spx ∧ ∀ k, ¬ P k → mget y.tsp k = mget x.tsp k

theorem TspOnly.refl (P : Nat → Prop) (x : Tile) : TspOnly P x x :=
  ⟨⟨rfl, rfl, rfl, rfl, rfl, rfl, rfl, rfl, rfl, rfl⟩, rfl, rfl, rfl, fun _ _ => rfl⟩

theorem TspOnly.trans {P : Nat → Prop} {x y z : Tile} (h : TspOnly P x y) (g : TspOnly P y z) : TspOnly P x z :=
  ⟨h.1.trans g.1, g.2.1.trans h.2.1, g.2.2.1.trans h.2.2.1, g.2.2.2.1.trans h.2.2.2.1,
    fun k hk => (g.2.2.2.2 k hk).trans (h.2.2.2.2 k hk)⟩

theorem TspOnly.ite {P : Nat → Prop} {x : Tile} {c : Prop} [Decidable c] {a b : Work} (h : TspOnly P x a.t)
    (g : TspOnly P x b.t) : TspOnly P x (if c then a else b).t := by
  by_cases hc : c
  · rwa [if_pos hc]
  · rwa [if_neg hc]

/-- One store inside the allowed bytes. -/
theorem TspOnly.store {P : Nat → Prop} (x y : Tile) (a : Nat) (bs : List Byte)
    (h : TspOnly P x y) (hP : ∀ k, a ≤ k → k < a + bs.length → P k) :
    TspOnly P x { y with tsp := mwrite y.tsp a bs } := by
  refine h.trans ⟨⟨rfl, rfl, rfl, rfl, rfl, rfl, rfl, rfl, rfl, rfl⟩, rfl, rfl, rfl, fun k hk => ?_⟩
  exact mget_mwrite_out _ _ _ _ (by by_contra hc; exact hk (hP k (by omega) (by omega)))

/-- A fold of stores inside the allowed bytes leaves every other byte. -/
theorem mget_foldl_mwrite (P : Nat → Prop) (l : List β) (f : Mem → β → Mem) (m : Mem)
    (h : ∀ m, ∀ b ∈ l, ∀ k, ¬ P k → mget (f m b) k = mget m k) (k : Nat) (hk : ¬ P k) :
    mget (l.foldl f m) k = mget m k := by
  induction l generalizing m with
  | nil => rfl
  | cons b r ih =>
    rw [List.foldl_cons, ih _ fun m c hc => h m c (by simp [hc])]
    exact h m b (by simp) k hk

theorem mget_mwrite_outside (P : Nat → Prop) (m : Mem) (a : Nat) (bs : List Byte) (k : Nat) (hk : ¬ P k)
    (h : ∀ j, a ≤ j → j < a + bs.length → P j) : mget (mwrite m a bs) k = mget m k :=
  mget_mwrite_out _ _ _ _ (by by_contra hc; exact hk (h k (by omega) (by omega)))

/-- A byte of row `i` of `h` rows at pitch `L` lies inside the run of all rows. -/
theorem row_inside {d i h L n j : Nat} (hi : i < h) (hn : n ≤ L) (h1 : d + i * L ≤ j) (h2 : j < d + i * L + n) :
    d ≤ j ∧ j < d + h * L := by
  have : (i + 1) * L ≤ h * L := Nat.mul_le_mul_right _ hi
  rw [Nat.succ_mul] at this
  omega

/-! ## The vector engine -/

theorem vopFault_only (x : Tile) (d n : Nat) : TspOnly (InRun d n) x (vopFault x d n).t :=
  ⟨⟨rfl, rfl, rfl, rfl, rfl, rfl, rfl, rfl, rfl, rfl⟩, rfl, rfl, rfl, fun k hk =>
    mget_mwrite_outside (InRun _ _) _ _ _ _ hk fun j h1 h2 => ⟨h1, by simpa using h2⟩⟩

/-- Rows of results stay inside the destination of h rows. -/
theorem vecRows_only (x : Tile) (d f h w : Nat) (g : Nat → Nat → Option (Nat × Bool)) :
    TspOnly (InRun (tbyte d) (dstLen f h w)) x (vecRows x d f h w g).t := by
  unfold vecRows
  simp only
  split
  · exact vopFault_only _ _ _
  · refine ⟨⟨rfl, rfl, rfl, rfl, rfl, rfl, rfl, rfl, rfl, rfl⟩, rfl, rfl, rfl, fun k hk => ?_⟩
    refine mget_foldl_mwrite (InRun _ _) _ _ _ (fun m b hb k hk => ?_) k hk
    obtain ⟨i, r⟩ := b
    have hb := List.of_mem_zip hb
    obtain ⟨hi, hr⟩ := hb
    simp only [List.mem_map, List.mem_range] at hi hr
    obtain ⟨i', -, rfl⟩ := hr
    refine mget_mwrite_outside (InRun _ _) _ _ _ _ hk fun j h1 h2 => ?_
    refine row_inside hi ?_ h1 h2
    have := length_packRow_rowLen f (((List.range w).map fun j => g i' j).map fun x => (x.getD (0, false)).1)
    simpa using this

/-- A column of results stays inside its bytes. -/
theorem vecColumn_only (x : Tile) (d f : Nat) (xs : List (Option (Nat × Bool))) :
    TspOnly (InRun (tbyte d) ((xs.length * fmtBits f + 7) / 8)) x (vecColumn x d f xs).t := by
  unfold vecColumn
  split
  · exact vopFault_only _ _ _
  · refine ⟨⟨rfl, rfl, rfl, rfl, rfl, rfl, rfl, rfl, rfl, rfl⟩, rfl, rfl, rfl, fun k hk => ?_⟩
    refine mget_mwrite_outside (InRun _ _) _ _ _ _ hk fun j h1 h2 => ⟨h1, ?_⟩
    have := length_packRow_le f (xs.map fun x => (x.getD (0, false)).1)
    simp at this
    omega

theorem TspOnly.mono {P Q : Nat → Prop} {x y : Tile} (h : TspOnly P x y) (g : ∀ k, P k → Q k) : TspOnly Q x y :=
  ⟨h.1, h.2.1, h.2.2.1, h.2.2.2.1, fun k hk => h.2.2.2.2 k fun hp => hk (g k hp)⟩

/-- Only counters, ledger, error counts, streams and free values differ. -/
theorem TspOnly.of_eq {P : Nat → Prop} {x y : Tile} (h : UnitFrame x y) (h1 : y.acm = x.acm) (h2 : y.sps = x.sps)
    (h3 : y.spx = x.spx) (h4 : y.tsp = x.tsp) : TspOnly P x y := ⟨h, h1, h2, h3, fun k _ => by rw [h4]⟩

theorem length_entries (w u : Nat) (f : Nat → Int) (n : Nat) :
    ((List.range n).flatMap fun i => leBytes w (toField u (f i))).length = n * w := by
  rw [length_flatMap_const _ _ w fun _ _ => length_leBytes _ _, List.length_range]

theorem length_scales (t : AccTile) : ((List.range 32).flatMap fun r => leBytes 4 (tget 0 t.rscale r)).length = 128 := by
  rw [length_flatMap_const _ _ 4 fun _ _ => length_leBytes _ _, List.length_range]

theorem length_accImage_sum (t : AccTile) : (accImage t).length = 256 + 1024 * (t.width / 8) := by
  unfold accImage
  simp only [List.length_append, length_entries, length_scales, List.length_map, List.length_range, length_leBytes,
    length_zeros, List.length_cons, List.length_nil]

theorem length_accImage (t : AccTile) : (accImage t).length = imageLen t.narrow := by
  rw [length_accImage_sum]
  cases h : t.narrow
  · simp only [AccTile.width, imageLen, h, Bool.false_eq_true, if_false]
  · simp only [AccTile.width, imageLen, h, if_true]

theorem length_cpImage (a b c : Nat) (e : List Nat) : (cpImage a b c e).length = 64 + 8 * e.length := by
  unfold cpImage
  simp only [List.length_append, length_leBytes, length_zeros, List.length_cons, List.length_nil]
  rw [length_flatMap_const _ _ 8 (by simp)]
  omega

theorem vopIadd_only (x : Tile) (o : VopOp) : TspOnly (InRun (tbyte o.d) 8448) x (vopIadd x o).t := by
  unfold vopIadd
  simp only
  split
  · exact TspOnly.refl _ _
  · refine ⟨⟨rfl, rfl, rfl, rfl, rfl, rfl, rfl, rfl, rfl, rfl⟩, rfl, rfl, rfl, fun k hk => ?_⟩
    refine mget_mwrite_outside (InRun _ _) _ _ _ _ hk fun j h1 h2 => ⟨h1, ?_⟩
    rw [length_accImage] at h2
    simp only [imageLen, Bool.false_eq_true, if_false] at h2
    omega

theorem vopDeq_only (x : Tile) (o : VopOp) : TspOnly (InRun (tbyte o.d) 8256) x (vopDeq x o).t := by
  unfold vopDeq
  simp only
  split
  · exact TspOnly.refl _ _
  split
  · exact vopFault_only _ _ _
  · refine ⟨⟨rfl, rfl, rfl, rfl, rfl, rfl, rfl, rfl, rfl, rfl⟩, rfl, rfl, rfl, fun k hk => ?_⟩
    exact mget_mwrite_outside (InRun _ _) _ _ _ _ hk fun j h1 h2 => ⟨h1, by simpa [length_cpImage] using h2⟩

theorem vopImgadd_only (x : Tile) (o : VopOp) : TspOnly (InRun (tbyte o.d) 8256) x (vopImgadd x o).t := by
  unfold vopImgadd
  simp only
  split
  · exact vopFault_only _ _ _
  · refine ⟨⟨rfl, rfl, rfl, rfl, rfl, rfl, rfl, rfl, rfl, rfl⟩, rfl, rfl, rfl, fun k hk => ?_⟩
    exact mget_mwrite_outside (InRun _ _) _ _ _ _ hk fun j h1 h2 => ⟨h1, by simpa [length_cpImage] using h2⟩

/-- Every VOP but OUTL writes the TSP inside its own result and nothing else. -/
theorem vopWork_only (v : Vop) (x : Tile) (tag : Nat) (o : VopOp) (e : List WordErr) (hv : v ≠ .outl) :
    TspOnly (Writes x (.vop v o)) x (vopWork v x tag o e).t := by
  have put : ∀ a n, wrt .vecW a n ∈ vopOperands v o → ∀ k, InRun a n k → Writes x (.vop v o) k :=
    fun a n h k hk => ⟨wrt .vecW a n, h, rfl, (a, n), by simp [wrt], hk.1, hk.2⟩
  cases v
  case outl => exact absurd rfl hv
  case iadd => exact (vopIadd_only x o).mono (put _ _ (by simp [vopOperands]))
  case deq => exact (vopDeq_only x o).mono (put _ _ (by simp [vopOperands]))
  case imgadd => exact (vopImgadd_only x o).mono (put _ _ (by simp [vopOperands]))
  all_goals first
    | exact (vecRows_only x o.d _ _ _ _).mono (put _ _ (by simp [vopOperands]))
    | exact (vecColumn_only x o.d _ _).mono (put _ _ (by simp [vopOperands]))

/-! ## Drain unit -/

/-- Noting single-bit errors touches the note alone. -/
theorem noteSingles_eq (x : Tile) (a n : Nat) : noteSingles x a n = { x with singles := (noteSingles x a n).singles } := by
  unfold noteSingles; split <;> rfl

/-- What errors of ACM words touch: the entries of one accumulator tile, error counts and free values. -/
theorem acmEcc_frame (x : Tile) (tile : Nat) (e : List WordErr) :
    UnitFrame x (acmEcc x tile e).1 ∧ (acmEcc x tile e).1.tsp = x.tsp ∧ (acmEcc x tile e).1.sps = x.sps ∧
      (acmEcc x tile e).1.spx = x.spx ∧ (acmEcc x tile e).1.slots = x.slots ∧
      (∀ k, k ≠ tile → tget {} (acmEcc x tile e).1.acm k = tget {} x.acm k) ∧
      (wrongWords e = [] → (acmEcc x tile e).1.acm = x.acm) := by
  unfold acmEcc
  simp only
  rw [noteSingles_eq]
  generalize hz : List.foldl _ _ (wrongWords e) = z
  have h : UnitFrame x z ∧ z.tsp = x.tsp ∧ z.sps = x.sps ∧ z.spx = x.spx ∧ z.slots = x.slots ∧
      ∀ k, k ≠ tile → tget {} z.acm k = tget {} x.acm k := by
    rw [← hz]
    refine foldl_ind (P := fun y => UnitFrame x y ∧ y.tsp = x.tsp ∧ y.sps = x.sps ∧ y.spx = x.spx ∧ y.slots = x.slots ∧
      ∀ k, k ≠ tile → tget {} y.acm k = tget {} x.acm k) _ _ _
      ⟨⟨rfl, rfl, rfl, rfl, rfl, rfl, rfl, rfl, rfl, rfl⟩, rfl, rfl, rfl, rfl, fun _ _ => rfl⟩ fun y k h => ?_
    exact ⟨h.1, h.2.1, h.2.2.1, h.2.2.2.1, h.2.2.2.2.1, fun j hj => (tget_tset_ne _ _ _ _ _ hj).trans (h.2.2.2.2.2 j hj)⟩
  exact ⟨h.1, h.2.1, h.2.2.1, h.2.2.2.1, h.2.2.2.2.1, h.2.2.2.2.2, fun h => by rw [← hz, h]; rfl⟩

theorem acmrdWork_only (x : Tile) (o : AcmOp) (e : List WordErr) :
    TspOnly (Writes x (.acmrd o)) (acmEcc x o.tile e).1 (acmrdWork x o e).t := by
  have hf := (acmEcc_frame x o.tile e).2.2.2.2.1
  unfold acmrdWork
  simp only
  split
  · exact .refl _ _
  · refine (TspOnly.refl _ _).store _ _ _ _ fun k h1 h2 => ?_
    refine ⟨_, List.mem_singleton.mpr rfl, rfl, _, List.mem_singleton.mpr rfl, h1, ?_⟩
    rw [length_accImage] at h2
    simp only [slotKind, hf] at h2
    refine Nat.lt_of_lt_of_eq h2 ?_
    congr 2
    simp only [slotKind, widenTile]
    by_cases hw : o.widen <;> by_cases hn : tget 0 x.slots (o.tile / 2) = 2 <;> simp [hw, hn]

theorem noteEntered_eq (x : Tile) (ps : List AccPart) : noteEntered x ps = { x with accLog := (noteEntered x ps).accLog } := by
  unfold noteEntered; dsimp only; split <;> rfl

theorem foldl_noteEntered (x : Tile) (l : List AccPart) :
    l.foldl (fun s p => noteEntered s [p]) x = { x with accLog := (l.foldl (fun s p => noteEntered s [p]) x).accLog } := by
  induction l generalizing x with
  | nil => rfl
  | cons p r ih => rw [List.foldl_cons, ih, noteEntered_eq]

/-- OUTL touches its accumulator tile, error counts, free values and the ledger alone. -/
theorem vopOutl_frame (x : Tile) (tag : Nat) (o : VopOp) (e : List WordErr) :
    UnitFrame x (vopOutl x tag o e).t ∧ (vopOutl x tag o e).t.tsp = x.tsp ∧ (vopOutl x tag o e).t.sps = x.sps ∧
      (vopOutl x tag o e).t.spx = x.spx ∧ ∀ k, k ≠ o.tile → tget {} (vopOutl x tag o e).t.acm k = tget {} x.acm k := by
  obtain ⟨f1, f2, f3, f4, -, f6, -⟩ := acmEcc_frame x o.tile e
  unfold vopOutl
  generalize acmEcc x o.tile e = r at f1 f2 f3 f4 f6 ⊢
  have same : UnitFrame x r.1 ∧ r.1.tsp = x.tsp ∧ r.1.sps = x.sps ∧ r.1.spx = x.spx ∧
      ∀ k, k ≠ o.tile → tget {} r.1.acm k = tget {} x.acm k := ⟨f1, f2, f3, f4, f6⟩
  simp only
  split
  · exact same
  · split
    · exact same
    · split
      · exact same
      · dsimp only
        rw [foldl_noteEntered]
        refine ⟨f1, f2, f3, f4, fun k hk => ?_⟩
        exact (tget_tset_ne _ _ _ _ _ hk).trans (f6 k hk)

theorem acmwrWork_frame (x : Tile) (o : AcmOp) :
    UnitFrame x (acmwrWork x o).t ∧ (acmwrWork x o).t.tsp = x.tsp ∧ (acmwrWork x o).t.sps = x.sps ∧
      (acmwrWork x o).t.spx = x.spx ∧ ∀ k, k ≠ o.tile → tget {} (acmwrWork x o).t.acm k = tget {} x.acm k := by
  unfold acmwrWork
  simp only
  split
  · exact ⟨⟨rfl, rfl, rfl, rfl, rfl, rfl, rfl, rfl, rfl, rfl⟩, rfl, rfl, rfl, fun k hk => tget_tset_ne _ _ _ _ _ hk⟩
  · exact ⟨⟨rfl, rfl, rfl, rfl, rfl, rfl, rfl, rfl, rfl, rfl⟩, rfl, rfl, rfl, fun _ _ => rfl⟩

theorem addCarried_only {P : Nat → Prop} (x : Tile) (k a b : Nat) : TspOnly P x (addCarried x k a b) :=
  TspOnly.of_eq ⟨rfl, rfl, rfl, rfl, rfl, rfl, rfl, rfl, rfl, rfl⟩ rfl rfl rfl rfl

theorem calibrate_only {P : Nat → Prop} (x : Tile) (k : Nat) : TspOnly P x (calibrate x k) := by
  unfold calibrate
  split
  · exact TspOnly.of_eq ⟨rfl, rfl, rfl, rfl, rfl, rfl, rfl, rfl, rfl, rfl⟩ rfl rfl rfl rfl
  · exact TspOnly.refl _ _

theorem length_descBytes (d : RowDesc) : d.bytes.length = 8 := by simp [RowDesc.bytes]

theorem mem_writes {x : Tile} {op : TileInstr} {o : Operand} (h : o ∈ operandsOf x op) (hw : o.wr = true) {a n : Nat}
    (hr : (a, n) ∈ o.runs) (k : Nat) (hk : InRun a n k) : Writes x op k := ⟨o, h, hw, (a, n), hr, hk.1, hk.2⟩

/-- Byte lists of a fixed length at a pitch stay inside the run of all of them. -/
theorem item_inside {d i h L j : Nat} (hi : i < h) (h1 : d + L * i ≤ j) (h2 : j < d + L * i + L) : InRun d (L * h) j := by
  have : L * (i + 1) ≤ L * h := Nat.mul_le_mul_left _ hi
  rw [Nat.mul_succ] at this
  exact ⟨by omega, by omega⟩

theorem length_drainOut (o : DrainOp) (g : RowDesc) (ys : List (Nat × Bool)) : (drainOut o g ys).1.length = ys.length := by
  unfold drainOut
  split <;> simp [quantRow]

theorem drainGo_only (x : Tile) (k : Nat) (o : DrainOp) (t : AccTile) (cs : List Nat) (g : RowDesc) (l : List Nat) :
    ∀ (s : Tile) (f : Bool) (vs : List (Nat × List Nat)), (∀ i ∈ l, i < o.h + 1) → (∀ v ∈ vs, v.1 < o.h + 1) →
      TspOnly (Writes x (.drain o)) x s →
      TspOnly (Writes x (.drain o)) x (drainGo s k o t cs g f vs l).1.t ∧
        ∀ v ∈ (drainGo s k o t cs g f vs l).2, v.1 < o.h + 1 := by
  induction l with
  | nil => intro s f vs _ hv hs; exact ⟨hs, hv⟩
  | cons i r ih =>
    intro s f vs hl hv hs
    have hi := hl i (by simp)
    unfold drainGo
    simp only
    split
    · exact ⟨hs, by simp⟩
    · refine ih _ _ _ (fun j hj => hl j (by simp [hj])) ?_ ?_
      · intro v hm
        rcases List.mem_append.mp hm with hm | hm
        · exact hv v hm
        · simp only [List.mem_singleton] at hm; subst hm; exact hi
      · have out : ∀ (s : Tile) (cod : List Nat), cod.length = 8 * (o.w8 + 1) → TspOnly (Writes x (.drain o)) x s →
            TspOnly (Writes x (.drain o)) x { s with tsp := mwrite s.tsp (tbyte o.dst + i * rowLen o.ofmt (8 * (o.w8 + 1))) (packRow o.ofmt cod) } := by
          intro s cod hc h
          refine h.store _ _ _ _ fun j h1 h2 => ?_
          refine mem_writes (o := wrt .drain (tbyte o.dst) ((o.h + 1) * rowLen o.ofmt (8 * (o.w8 + 1)))) ?_ rfl
            (List.mem_singleton.mpr rfl) j (row_inside hi ?_ h1 h2)
          · simp [operandsOf, drainOperands]
          · have := length_packRow_rowLen o.ofmt cod
            rwa [hc] at this
        have dsc : ∀ (s : Tile) (bs : List Byte), bs.length = 8 → (o.ofmt = 6 ∨ o.ofmt = 7) → TspOnly (Writes x (.drain o)) x s →
            TspOnly (Writes x (.drain o)) x { s with tsp := mwrite s.tsp (tbyte o.recd + 64 + 8 * i) bs } := by
          intro s bs hb hq h
          refine h.store _ _ _ _ fun j h1 h2 => ?_
          refine mem_writes (o := wrt .drain (tbyte o.recd + 64) (8 * (o.h + 1))) ?_ rfl (List.mem_singleton.mpr rfl) j
            (item_inside hi h1 (by omega))
          simp [operandsOf, drainOperands, hq]
        have led : ∀ (s : Tile) (l : Ledger), TspOnly (Writes x (.drain o)) x s → TspOnly (Writes x (.drain o)) x { s with led := l } :=
          fun s l h => h.trans (TspOnly.of_eq ⟨rfl, rfl, rfl, rfl, rfl, rfl, rfl, rfl, rfl, rfl⟩ rfl rfl rfl rfl)
        by_cases hq : o.ofmt = 6 ∨ o.ofmt = 7
        · simp only [hq, decide_true, if_true]
          refine TspOnly.trans ?_ (addCarried_only _ _ _ _)
          exact led _ _ (dsc _ _ (length_descBytes _) hq (out s _ (by rw [length_drainOut]; simp) hs))
        · simp only [hq, decide_false, Bool.false_eq_true, if_false]
          exact led _ _ (out s _ (by rw [length_drainOut]; simp) hs)

theorem length_topBytes (xs : List (Nat × Nat)) : (topBytes xs).length = 64 := by
  unfold topBytes
  simp only [List.length_append]
  rw [length_flatMap_const _ _ 4 fun _ _ => length_leBytes _ _, length_flatMap_const _ _ 4 fun _ _ => length_leBytes _ _,
    List.length_range]

/-- The fused records as an operand. -/
def recOperand (o : DrainOp) : Operand :=
  { master := .drain, wr := true
    runs := if (o.topk || !o.merge) = true then [(tbyte o.recd, 32 * (o.h + 1)), (tbyte o.recd + 2048, 64 * (o.h + 1))]
      else [(tbyte o.recd, 32 * (o.h + 1))] }

theorem mget_fuseRow (x : Tile) (m : Mem) (o : DrainOp) (i : Nat) (ys : List Nat) (hi : i < o.h + 1) (ho : drainOpt o = true)
    (k : Nat) (hk : ¬ Writes x (.drain o) k) : mget (fuseRow m o i ys) k = mget m k := by
  have r1 : ∀ j, tbyte o.recd + 32 * i ≤ j → j < tbyte o.recd + 32 * i + 32 → Writes x (.drain o) j := by
    intro j h1 h2
    have hin := item_inside hi h1 h2
    refine mem_writes (a := tbyte o.recd) (n := 32 * (o.h + 1)) (o := recOperand o) ?_ rfl ?_ j hin
    · simp [operandsOf, drainOperands, ho, recOperand]
    · by_cases ht : (o.topk || !o.merge) = true <;> simp [recOperand, ht]
  have r2 : (o.topk || !o.merge) = true → ∀ j, tbyte o.recd + 2048 + 64 * i ≤ j → j < tbyte o.recd + 2048 + 64 * i + 64 →
      Writes x (.drain o) j := by
    intro ht j h1 h2
    have hin := item_inside hi h1 h2
    refine mem_writes (a := tbyte o.recd + 2048) (n := 64 * (o.h + 1)) (o := recOperand o) ?_ rfl ?_ j hin
    · simp [operandsOf, drainOperands, ho, recOperand]
    · simp [recOperand, ht]
  have w1 : ∀ (m : Mem) (bs : List Byte), bs.length = 32 → mget (mwrite m (tbyte o.recd + 32 * i) bs) k = mget m k :=
    fun m bs hb => mget_mwrite_outside _ _ _ _ _ hk fun j h1 h2 => r1 j h1 (by omega)
  have w2 : (o.topk || !o.merge) = true → ∀ (m : Mem) (bs : List Byte), bs.length = 64 →
      mget (mwrite m (tbyte o.recd + 2048 + 64 * i) bs) k = mget m k :=
    fun ht m bs hb => mget_mwrite_outside _ _ _ _ _ hk fun j h1 h2 => r2 ht j h1 (by omega)
  unfold fuseRow
  simp only
  split
  · rename_i ht
    rw [w2 (by simp [ht]) _ _ (length_topBytes _), w1 _ _ (by simp)]
  · split
    · exact w1 _ _ (by simp)
    · rename_i hm
      rw [w2 (by simp [hm]) _ _ (by simp), w1 _ _ (by simp)]

theorem drainWork_only (x : Tile) (k : Nat) (o : DrainOp) (e : List WordErr) :
    TspOnly (Writes x (.drain o)) (acmEcc x o.tile e).1 (drainWork x k o e).t := by
  unfold drainWork
  simp only
  generalize (acmEcc x o.tile e).2 = bad
  generalize (acmEcc x o.tile e).1 = y
  have hw : Writes x (.drain o) = Writes y (.drain o) := rfl
  rw [hw]
  split
  · exact .refl _ _
  · split
    · exact .refl _ _
    · have hg := drainGo_only y k o (tget {} y.acm o.tile)
        ((List.range (8 * (o.w8 + 1))).map fun k => readCs y.tsp (4 * o.cs + 4 * (8 * o.c8 + k)))
        (readDesc y.tsp (tbyte o.recd)) (List.range (o.h + 1)) y
        (tget {} y.acm o.tile).flagged [] (by simp) (by simp) (.refl _ _)
      generalize drainGo y k o _ _ _ _ [] _ = r at hg ⊢
      obtain ⟨w, vals⟩ := r
      obtain ⟨h1, h2⟩ := hg
      have h3 : TspOnly (Writes y (.drain o)) y
          (if decide (o.ofmt = 6 ∨ o.ofmt = 7) = true then { w with t := calibrate w.t k } else w).t := by
        split
        · exact h1.trans (calibrate_only _ _)
        · exact h1
      generalize (if decide (o.ofmt = 6 ∨ o.ofmt = 7) = true then { w with t := calibrate w.t k } else w) = w' at h3 ⊢
      split
      · exact h3
      · rename_i hc
        have ho : drainOpt o = true := by
          by_contra hn
          exact hc (.inr (by simpa using hn))
        refine h3.trans ⟨⟨rfl, rfl, rfl, rfl, rfl, rfl, rfl, rfl, rfl, rfl⟩, rfl, rfl, rfl, fun j hj => ?_⟩
        refine mget_foldl_mwrite _ _ _ _ (fun m b hb j hj => ?_) j hj
        exact mget_fuseRow y m o b.1 b.2 (h2 b hb) ho j hj

/-! ## Quantiser -/

theorem length_qstatBytes (q : QStat) : q.bytes.length = 16 := by simp [QStat.bytes]

theorem qstatGo_only (x : Tile) (o : QuantOp) (ol : List Nat) (n : Nat) (l : List Nat) :
    ∀ s : Tile, (∀ i ∈ l, i < o.r + 1) → TspOnly (Writes x (.qstat o)) x s →
      TspOnly (Writes x (.qstat o)) x (qstatGo s o ol n l).t := by
  induction l with
  | nil => intro s _ hs; exact hs
  | cons i r ih =>
    intro s hl hs
    unfold qstatGo
    simp only
    split
    · exact hs
    · refine ih _ (fun j hj => hl j (by simp [hj])) (hs.store _ _ _ _ fun j h1 h2 => ?_)
      rw [length_qstatBytes] at h2
      exact mem_writes (o := wrt .quant (tbyte o.recd) (16 * (o.r + 1))) (by simp [operandsOf]) rfl
        (List.mem_singleton.mpr rfl) j (item_inside (hl i (by simp)) h1 h2)

theorem qstatWork_only (x : Tile) (o : QuantOp) : TspOnly (Writes x (.qstat o)) x (qstatWork x o).t :=
  qstatGo_only x o _ _ _ x (by simp) (TspOnly.refl _ _)

theorem length_readOutliers (plan : Mem) (l : Nat) : (readOutliers plan l).length ≤ 32 := by
  unfold readOutliers
  split
  · refine Nat.le_trans (List.length_filter_le _ _) ?_
    simp
  · simp

theorem length_outlierStrip (f : Nat) (ol raw : List Nat) (h : ol.length ≤ 32) : (outlierStrip f ol raw).length = 64 := by
  unfold outlierStrip
  simp only [List.length_append, length_zeros]
  rw [length_flatMap_const _ _ 2 fun _ _ => length_leBytes _ _]
  simp only [List.length_map]
  omega

theorem length_quantRow (a b c : Bool) (sc z : Nat) (ol : List Nat) (xs : List Dy) :
    (quantRow a b c sc z ol xs).1.length = xs.length := by simp [quantRow]

/-- One converted row stays inside the operands of its QCONV. -/
theorem putRow_only (x s : Tile) (c : Bool) (o : QuantOp) (i : Nat) (codes : List Nat) (d nx : RowDesc) (strip : List Byte)
    (hi : i < o.r + 1) (hc : codes.length = 32 * (o.n32 + 1)) (hst : strip.length = 64)
    (hs : TspOnly (Writes x (.qconv c o)) x s) :
    TspOnly (Writes x (.qconv c o)) x (putRow s o (32 * (o.n32 + 1)) i codes d nx strip) := by
  refine hs.trans ⟨⟨rfl, rfl, rfl, rfl, rfl, rfl, rfl, rfl, rfl, rfl⟩, rfl, rfl, rfl, fun k hk => ?_⟩
  have w1 : ∀ m : Mem, mget (mwrite m (tbyte o.dst + i * rowLen (if o.a4 then 7 else 6) (32 * (o.n32 + 1)))
      (packRow (if o.a4 then 7 else 6) codes)) k = mget m k := fun m => by
    refine mget_mwrite_outside _ _ _ _ _ hk fun j h1 h2 => ?_
    refine mem_writes (o := wrt .quant (tbyte o.dst) ((o.r + 1) * rowLen (if o.a4 then 7 else 6) (32 * (o.n32 + 1))))
      (by simp [operandsOf]) rfl (List.mem_singleton.mpr rfl) j (row_inside hi ?_ h1 h2)
    have := length_packRow_rowLen (if o.a4 then 7 else 6) codes
    rwa [hc] at this
  have w2 : ∀ m : Mem, mget (mwrite m (tbyte o.desc + 8 * i) d.bytes) k = mget m k := fun m => by
    refine mget_mwrite_outside _ _ _ _ _ hk fun j h1 h2 => ?_
    rw [length_descBytes] at h2
    exact mem_writes (o := wrt .quant (tbyte o.desc) (8 * (o.r + 1))) (by simp [operandsOf]) rfl
      (List.mem_singleton.mpr rfl) j (item_inside hi h1 h2)
  have w3 : o.dnext ≠ taddrNull → ∀ m : Mem, mget (mwrite m (tbyte o.dnext + 8 * i) nx.bytes) k = mget m k := fun hn m => by
    refine mget_mwrite_outside _ _ _ _ _ hk fun j h1 h2 => ?_
    rw [length_descBytes] at h2
    exact mem_writes (o := wrt .quant (tbyte o.dnext) (8 * (o.r + 1))) (by simp [operandsOf, hn]) rfl
      (List.mem_singleton.mpr rfl) j (item_inside hi h1 h2)
  have w4 : o.strip ≠ taddrNull → ∀ m : Mem, mget (mwrite m (tbyte o.strip + 64 * i) strip) k = mget m k := fun hn m => by
    refine mget_mwrite_outside _ _ _ _ _ hk fun j h1 h2 => ?_
    rw [hst] at h2
    exact mem_writes (o := wrt .quant (tbyte o.strip) (64 * (o.r + 1))) (by simp [operandsOf, hn]) rfl
      (List.mem_singleton.mpr rfl) j (item_inside hi h1 h2)
  unfold putRow
  simp only
  by_cases h3 : o.dnext = taddrNull <;> by_cases h4 : o.strip = taddrNull <;> simp only [h3, h4, if_true, if_false]
  · rw [w2, w1]
  · rw [w4 h4, w2, w1]
  · rw [w3 h3, w2, w1]
  · rw [w4 h4, w3 h3, w2, w1]

theorem presentGo_only (x : Tile) (o : QuantOp) (ol : List Nat) (hol : ol.length ≤ 32) (l : List Nat) :
    ∀ s : Tile, (∀ i ∈ l, i < o.r + 1) → TspOnly (Writes x (.qconv false o)) x s →
      TspOnly (Writes x (.qconv false o)) x (presentGo s o ol (32 * (o.n32 + 1)) l).t := by
  induction l with
  | nil => intro s _ hs; exact hs
  | cons i r ih =>
    intro s hl hs
    unfold presentGo
    simp only
    split
    · exact hs
    · split
      · exact hs
      · refine ih _ (fun j hj => hl j (by simp [hj])) ?_
        exact putRow_only x s false o i _ _ _ _ (hl i (by simp)) (by rw [length_quantRow]; simp [rowVals])
          (length_outlierStrip _ _ _ hol) hs

theorem presentWork_only (x : Tile) (o : QuantOp) : TspOnly (Writes x (.qconv false o)) x (presentWork x o).t :=
  presentGo_only x o _ (length_readOutliers _ _) _ x (by simp) (TspOnly.refl _ _)

theorem carriedGo_only (x : Tile) (st : Nat) (o : QuantOp) (one : Option RowDesc) (ol : List Nat) (hol : ol.length ≤ 32) (k : Nat) (l : List Nat) :
    ∀ (s : Tile) (f : Bool), (∀ i ∈ l, i < o.r + 1) → TspOnly (Writes x (.qconv true o)) x s →
      TspOnly (Writes x (.qconv true o)) x (carriedGo s st o one ol (32 * (o.n32 + 1)) k f l).t := by
  have led : ∀ (s : Tile) (l : Ledger), TspOnly (Writes x (.qconv true o)) x s →
      TspOnly (Writes x (.qconv true o)) x { s with led := l } :=
    fun s l h => h.trans (TspOnly.of_eq ⟨rfl, rfl, rfl, rfl, rfl, rfl, rfl, rfl, rfl, rfl⟩ rfl rfl rfl rfl)
  induction l with
  | nil => intro s _ _ hs; exact hs
  | cons i r ih =>
    intro s f hl hs
    unfold carriedGo
    simp only
    refine TspOnly.ite hs ?_
    generalize deriveScale _ _ _ _ _ = pres
    rcases pres with _ | ⟨sc, z⟩
    · exact hs
    · refine TspOnly.ite ?_ ?_ <;> refine ih _ _ (fun j hj => hl j (by simp [hj])) ?_ <;>
        refine TspOnly.trans (led _ _ ?_) (addCarried_only _ _ _ _) <;>
        exact putRow_only x s true o i _ _ _ _ (hl i (by simp)) (by rw [length_quantRow]; simp [rowVals])
          (length_outlierStrip _ _ _ hol) hs

theorem carriedWork_only (x : Tile) (st : Nat) (o : QuantOp) : TspOnly (Writes x (.qconv true o)) x (carriedWork x st o).t :=
  TspOnly.trans (carriedGo_only x st o _ _ (length_readOutliers _ _) _ _ x false (by simp) (TspOnly.refl _ _))
    (calibrate_only _ _)

/-! ## XMOV -/

theorem length_copyRow (p : Pattern) (f : Nat) (xs : List Nat) : (copyRow p f xs).length ≤ (xs.length * p.ebits + 7) / 8 := by
  unfold copyRow
  split
  · rename_i he
    have hb : p.ebits = 4 := by simp [Pattern.ebits, he]
    rw [hb]
    simp only
    split
    · simp only [List.length_append, List.length_dropLast, length_packNibbles, List.length_cons, List.length_nil]
      omega
    · rw [length_packNibbles]; omega
  · rw [length_flatMap_const _ _ (p.ebits / 8) fun _ _ => length_leBytes _ _]
    have : xs.length * (p.ebits / 8) * 8 ≤ xs.length * p.ebits := by
      rw [Nat.mul_assoc]
      exact Nat.mul_le_mul_left _ (Nat.div_mul_le_self _ _)
    omega

theorem copyWork_only (x : Tile) (o : CopyOp) : TspOnly (Writes x (.xmov o)) x (copyWork x o).t := by
  refine ⟨⟨rfl, rfl, rfl, rfl, rfl, rfl, rfl, rfl, rfl, rfl⟩, rfl, rfl, rfl, fun k hk => ?_⟩
  unfold copyWork
  simp only
  refine mget_foldl_mwrite _ _ _ _ (fun m b hb j hj => ?_) k hk
  refine mget_mwrite_outside _ _ _ _ _ hj fun q h1 h2 => ?_
  generalize hp : readPattern x.plan o.pat = p at *
  have hl := length_copyRow p (x.free + b)
    (if p.transpose = true then (List.range p.h).map fun i => p.elem x.tsp 0 i b else (List.range p.w).map fun j => p.elem x.tsp 0 b j)
  refine mem_writes (a := tbyte o.dst + b * p.pd)
    (n := ((if p.transpose then p.h else p.w) * p.ebits + 7) / 8)
    (o := { master := .xmov, wr := true, runs := (List.range (if p.transpose then p.w else p.h)).map fun k => (tbyte o.dst + k * p.pd, ((if p.transpose then p.h else p.w) * p.ebits + 7) / 8) })
    (by simp [operandsOf, hp]) rfl (List.mem_map.mpr ⟨b, hb, rfl⟩) q ⟨h1, ?_⟩
  have hlen : (if p.transpose = true then (List.range p.h).map fun i => p.elem x.tsp 0 i b else (List.range p.w).map fun j => p.elem x.tsp 0 b j).length = if p.transpose then p.h else p.w := by
    cases p.transpose <;> simp
  rw [hlen] at hl
  omega

/-! ## Sparse engine -/

/-- What errors of sparse store words touch: the store, its exponents, error counts and free values. -/
theorem spsEcc_frame (x : Tile) (e : List WordErr) :
    UnitFrame x (spsEcc x e).1 ∧ (spsEcc x e).1.tsp = x.tsp ∧ (spsEcc x e).1.acm = x.acm ∧ (spsEcc x e).1.tensors = x.tensors ∧
      (wrongWords e = [] → (spsEcc x e).1.sps = x.sps ∧ (spsEcc x e).1.spx = x.spx) := by
  unfold spsEcc
  simp only
  rw [noteSingles_eq]
  generalize hz : List.foldl _ _ (wrongWords e) = z
  have h : UnitFrame x z ∧ z.tsp = x.tsp ∧ z.acm = x.acm ∧ z.tensors = x.tensors := by
    rw [← hz]
    refine foldl_ind (P := fun y => UnitFrame x y ∧ y.tsp = x.tsp ∧ y.acm = x.acm ∧ y.tensors = x.tensors) _ _ _
      ⟨⟨rfl, rfl, rfl, rfl, rfl, rfl, rfl, rfl, rfl, rfl⟩, rfl, rfl, rfl⟩ fun y k h => ?_
    split <;> exact h
  exact ⟨h.1, h.2.1, h.2.2.1, h.2.2.2, fun h => by rw [← hz, h]; exact ⟨rfl, rfl⟩⟩

/-- What errors of chain buffer words touch: the chain buffer, error counts and free values. -/
theorem chainEcc_frame (x : Tile) (p : Pattern) (e : List WordErr) :
    UnitFrame x (chainEcc x p e).1 ∧ (chainEcc x p e).1.acm = x.acm ∧ (chainEcc x p e).1.sps = x.sps ∧
      (chainEcc x p e).1.spx = x.spx ∧ (∀ k, k < 0xC0000 → mget (chainEcc x p e).1.tsp k = mget x.tsp k) ∧
      ((p.base < 0xC0000 ∨ wrongWords e = []) → (chainEcc x p e).1.tsp = x.tsp) := by
  unfold chainEcc
  split
  · exact ⟨⟨rfl, rfl, rfl, rfl, rfl, rfl, rfl, rfl, rfl, rfl⟩, rfl, rfl, rfl, fun _ _ => rfl, fun _ => rfl⟩
  rename_i hb
  simp only
  rw [noteSingles_eq]
  generalize hz : List.foldl _ _ (wrongWords e) = z
  have h : UnitFrame x z ∧ z.acm = x.acm ∧ z.sps = x.sps ∧ z.spx = x.spx ∧ ∀ k, k < 0xC0000 → mget z.tsp k = mget x.tsp k := by
    rw [← hz]
    refine foldl_ind (P := fun y => UnitFrame x y ∧ y.acm = x.acm ∧ y.sps = x.sps ∧ y.spx = x.spx ∧
      ∀ k, k < 0xC0000 → mget y.tsp k = mget x.tsp k) _ _ _
      ⟨⟨rfl, rfl, rfl, rfl, rfl, rfl, rfl, rfl, rfl, rfl⟩, rfl, rfl, rfl, fun _ _ => rfl⟩ fun y k h => ?_
    exact ⟨h.1, h.2.1, h.2.2.1, h.2.2.2.1, fun j hj => (mget_mwrite_out _ _ _ _ (by split <;> omega)).trans (h.2.2.2.2 j hj)⟩
  exact ⟨h.1, h.2.1, h.2.2.1, h.2.2.2.1, h.2.2.2.2, fun h => by rw [← hz, h.resolve_left hb]; rfl⟩

/-- PRUNE LOAD touches the sparse store alone. -/
theorem loadGo_frame (o : StoreOp) (t : SpTensor) (l : List Nat) :
    ∀ s : Tile, UnitFrame s (loadGo s o t l).t ∧ (loadGo s o t l).t.tsp = s.tsp ∧ (loadGo s o t l).t.acm = s.acm := by
  induction l with
  | nil => intro s; exact ⟨⟨rfl, rfl, rfl, rfl, rfl, rfl, rfl, rfl, rfl, rfl⟩, rfl, rfl⟩
  | cons i r ih =>
    intro s
    unfold loadGo
    simp only
    split
    · obtain ⟨h1, h2, h3⟩ := ih { s with sps := spsWrite s.sps (64 * (o.blk + i)) (mread s.tsp (tbyte o.src + 64 * i) 64)
                                         spx := mwrite s.spx (o.blk + i) [mget s.tsp (tbyte o.aux + i)] }
      exact ⟨UnitFrame.trans ⟨rfl, rfl, rfl, rfl, rfl, rfl, rfl, rfl, rfl, rfl⟩ h1, h2, h3⟩
    · exact ⟨⟨rfl, rfl, rfl, rfl, rfl, rfl, rfl, rfl, rfl, rfl⟩, rfl, rfl⟩

theorem readWork_only (x : Tile) (o : StoreOp) (e : List WordErr) :
    TspOnly (Writes x (.store true o)) (spsEcc x e).1 (storeWork x true o e).t := by
  unfold storeWork
  simp only [if_true]
  generalize (spsEcc x e).2 = bad
  generalize (spsEcc x e).1 = y
  split
  · exact .refl _ _
  · refine ((TspOnly.refl _ _).store _ _ (tbyte o.src) (spsRead y.sps (64 * o.blk) (64 * (o.nb + 1))) fun k h1 h2 => ?_).store _ _
      (tbyte o.aux) (mread y.spx o.blk (o.nb + 1)) fun k h1 h2 => ?_
    · exact mem_writes (o := wrt .sparse (tbyte o.src) (64 * (o.nb + 1))) (by simp [operandsOf]) rfl
        (List.mem_singleton.mpr rfl) k ⟨h1, by simpa [spsRead] using h2⟩
    · exact mem_writes (o := wrt .sparse (tbyte o.aux) (o.nb + 1)) (by simp [operandsOf]) rfl
        (List.mem_singleton.mpr rfl) k ⟨h1, by simpa using h2⟩

/-- Only the sparse store, error counts and free values differ. -/
def StoreOnly (x y : Tile) : Prop := UnitFrame x y ∧ y.tsp = x.tsp ∧ y.acm = x.acm

theorem StoreOnly.refl (x : Tile) : StoreOnly x x := ⟨⟨rfl, rfl, rfl, rfl, rfl, rfl, rfl, rfl, rfl, rfl⟩, rfl, rfl⟩

theorem StoreOnly.trans {x y z : Tile} (h : StoreOnly x y) (g : StoreOnly y z) : StoreOnly x z :=
  ⟨h.1.trans g.1, g.2.1.trans h.2.1, g.2.2.trans h.2.2⟩

theorem StoreOnly.foldl {x : Tile} (l : List β) (f : Tile → β → Tile) (hf : ∀ s b, StoreOnly s (f s b)) :
    ∀ s, StoreOnly x s → StoreOnly x (l.foldl f s) := by
  induction l with
  | nil => exact fun _ h => h
  | cons b r ih => exact fun s h => ih _ (h.trans (hf s b))

theorem pruneBlock_only (s : Tile) (keep : Bool) (b E cs : Nat) (ks : List (Nat × Nat)) (x : Nat → Dy) :
    StoreOnly s (pruneBlock s keep b E cs ks x) := ⟨⟨rfl, rfl, rfl, rfl, rfl, rfl, rfl, rfl, rfl, rfl⟩, rfl, rfl⟩

theorem length_pruneMask (t : SpTensor) (o : PruneOp) (kept : Nat → Nat → List (Nat × Nat)) :
    (pruneMask t o kept).length = 32 * (64 * cdiv t.k 512) := by
  unfold pruneMask
  rw [length_flatMap_const _ _ (64 * cdiv t.k 512) (by simp), List.length_range]

/-- What PRUNE SELECT and KEEP may touch: the sparse store, and the TSP inside their own operands. -/
def PruneOnly (x : Tile) (op : TileInstr) (y : Tile) : Prop :=
  UnitFrame x y ∧ y.acm = x.acm ∧ ∀ k, ¬ Writes x op k → mget y.tsp k = mget x.tsp k

theorem pruneTables_only (x s : Tile) (keep : Bool) (o : PruneOp) (E : Nat → Nat → Nat)
    (h : PruneOnly x (.prune keep o) s) :
    PruneOnly x (.prune keep o) (pruneTables s o (nmW (tensorOf x o.tensor).pat) E).1 := by
  unfold pruneTables
  by_cases ht : o.table
  · simp only [ht, Bool.not_true, Bool.false_eq_true, if_false]
    refine ⟨UnitFrame.trans h.1 ⟨rfl, rfl, rfl, rfl, rfl, rfl, rfl, rfl, rfl, rfl⟩, h.2.1, fun k hk => ?_⟩
    have e1 : ∀ (m : Mem) (bs : List Byte), bs.length = 32 → mget (mwrite m (tbyte o.eref + o.eidx) bs) k = mget m k := by
      intro m bs hb
      refine mget_mwrite_outside _ _ _ _ _ hk fun j h1 h2 => ?_
      exact mem_writes (o := wrt .sparse (tbyte o.eref + o.eidx) 32) (by simp [operandsOf, ht]) rfl
        (List.mem_singleton.mpr rfl) j ⟨h1, by omega⟩
    have e2 : o.tied = true → ∀ (m : Mem) (bs : List Byte), bs.length = (o.nw + 1) * nmW (tensorOf x o.tensor).pat →
        mget (mwrite m (tbyte o.treft) bs) k = mget m k := by
      intro htied m bs hb
      refine mget_mwrite_outside _ _ _ _ _ hk fun j h1 h2 => ?_
      exact mem_writes (o := wrt .sparse (tbyte o.treft) ((o.nw + 1) * nmW (tensorOf x o.tensor).pat))
        (by simp [operandsOf, ht, htied]) rfl (List.mem_singleton.mpr rfl) j ⟨h1, by omega⟩
    cases htied : o.tied
    · simp only [Bool.false_eq_true, if_false]
      rw [e1 _ _ (by simp), h.2.2 k hk]
    · simp only [if_true]
      rw [e2 htied _ _ (by rw [length_flatMap_const _ _ _ fun _ _ => List.length_replicate, List.length_range]),
        e1 _ _ (by simp), h.2.2 k hk]
  · simpa [ht] using h

theorem pruneWork_frame (x : Tile) (keep : Bool) (o : PruneOp) (e : List WordErr) :
    PruneOnly x (.prune keep o) (pruneWork x keep o e).t := by
  have h0 : StoreOnly x (if keep then spsEcc x e else (x, false)).1 := by
    cases keep
    · exact StoreOnly.refl x
    · have hf := spsEcc_frame x e
      exact ⟨hf.1, hf.2.1, hf.2.2.1⟩
  have ht : (if keep then spsEcc x e else (x, false)).1.tensors = x.tensors := by
    cases keep
    · rfl
    · exact (spsEcc_frame x e).2.2.2.1
  unfold pruneWork
  generalize (if keep then spsEcc x e else (x, false)) = r at h0 ht ⊢
  obtain ⟨s, dbl⟩ := r
  dsimp only at h0 ht
  have hten : tensorOf s o.tensor = tensorOf x o.tensor := by simp only [tensorOf, ht]
  have put : ∀ y, StoreOnly x y → PruneOnly x (.prune keep o) y := fun y h => ⟨h.1, h.2.2, fun _ _ => by rw [h.2.1]⟩
  have ite : ∀ (c : Prop) [Decidable c] (a b : Work), PruneOnly x (.prune keep o) a.t → PruneOnly x (.prune keep o) b.t →
      PruneOnly x (.prune keep o) (if c then a else b).t := by
    intro c _ a b h g
    by_cases hc : c
    · rwa [if_pos hc]
    · rwa [if_neg hc]
  refine ite _ _ _ (put s h0) (ite _ _ _ (put s h0) ?_)
  dsimp only
  generalize pruneExps o _ = ex
  rcases ex with _ | exps
  · exact put s h0
  · rw [hten]
    refine pruneTables_only x _ keep o _ ?_
    generalize hs1 : (List.range (o.nw + 1)).foldl _ s = s1
    have h1 : StoreOnly x s1 := by
      rw [← hs1]
      exact StoreOnly.foldl _ _ (fun s kk => StoreOnly.foldl _ _ (fun s j => pruneBlock_only _ _ _ _ _ _ _) _ (StoreOnly.refl _)) _ h0
    cases hk : keep
    · rw [if_neg Bool.false_ne_true]
      refine ⟨h1.1, h1.2.2, fun k hk2 => ?_⟩
      rw [← hk] at hk2
      rw [mget_mwrite_outside _ _ _ _ _ hk2, h1.2.1]
      intro j j1 j2
      rw [length_pruneMask] at j2
      exact mem_writes (o := wrt .sparse (tbyte o.aux) (32 * (64 * cdiv (tensorOf x o.tensor).k 512)))
        (by simp [operandsOf, hk]) rfl (List.mem_singleton.mpr rfl) j ⟨j1, by omega⟩
    · rw [if_pos rfl, ← hk]
      exact put s1 h1

end Sys2Proof.Machine
end

