-- ==== Sys2Proof/Tests/Slice0.lean ====
section
/-!
SUPPORT. Tests of the model: ill-formed terms that the checks refuse, words of tile instructions written out from
R272 to R294, the manual's worked examples, and for each statement concrete states and operands that meet its hypotheses, clause by clause.
-/
namespace Sys2Proof.Tests

set_option Elab.async false

open Sys2Proof Sys2Proof.Machine

/-! ## States of the tests -/

/-- The block after reset with a tile in place of logical tile 0 and a job in partition 0. -/
def base (x : Tile) (j : Job) : State := { State.reset with tiles := [(0, x)], jobs := [j, {}] }

theorem base_shape (x : Tile) (j : Job) : Shape (base x j) := by
  refine ⟨rfl, rfl, ?_, rfl, ?_, rfl, ?_, ?_, rfl, rfl⟩ <;> rfl

theorem base_mem (x : Tile) (j : Job) : MemOk (base x j) := by
  refine ⟨rfl, fun d => ?_, rfl, by simp [base, State.reset], rfl⟩
  rcases d with _ | _ | d <;> rfl

theorem base_apart (x : Tile) (j : Job) : TilesApart (base x j) := by
  refine ⟨fun t u ht hu h => ?_, fun t ht h => ?_⟩
  · simp only [physTile, base, State.reset, tget, homeTile] at h; omega
  · exact absurd rfl h


/-! ## Well-formedness: for each check a term that it refuses -/

theorem test_wf_dmaOp : DmaOp.wf { ch := 2 ^ 1 - 1, rsem := 2 ^ 4 - 1, dtile := 2 ^ 8 - 1, taddr := 2 ^ 14 - 1, dev := 2 ^ 35 - 1, len := 2 ^ 16 - 1, xsel := 2 ^ 2 - 1, stride := 2 ^ 24 - 1, afmt := 2 ^ 1 - 1 } = true ∧
    ∀ o ∈ ([{ ch := 2 ^ 1 }, { rsem := 2 ^ 4 }, { dtile := 2 ^ 8 }, { taddr := 2 ^ 14 }, { dev := 2 ^ 35 }, { len := 2 ^ 16 }, { xsel := 2 ^ 2 }, { stride := 2 ^ 24 }, { afmt := 2 ^ 1 }] : List DmaOp), o.wf = false := by decide +kernel

theorem test_wf_sendOp : SendOp.wf { peer := 2 ^ 14 - 1, window := 2 ^ 8 - 1, woff := 2 ^ 24 - 1, src := 2 ^ 35 - 1, len := 2 ^ 16 - 1 } = true ∧
    ∀ o ∈ ([{ peer := 2 ^ 14 }, { window := 2 ^ 8 }, { woff := 2 ^ 24 }, { src := 2 ^ 35 }, { len := 2 ^ 16 }] : List SendOp), o.wf = false := by decide +kernel

theorem test_wf_passOp : PassOp.wf { grp := 2 ^ 6 - 1, page := 2 ^ 3 - 1, pat := 2 ^ 9 - 1, desc := 2 ^ 14 - 1, tile := 2 ^ 6 - 1, gid := 2 ^ 4 - 1, row0 := 2 ^ 5 - 1, h := 2 ^ 5 - 1, eref := 2 ^ 14 - 1, eidx := 2 ^ 12 - 1 } = true ∧
    ∀ o ∈ ([{ grp := 2 ^ 6 }, { page := 2 ^ 3 }, { pat := 2 ^ 9 }, { desc := 2 ^ 14 }, { tile := 2 ^ 6 }, { gid := 2 ^ 4 }, { row0 := 2 ^ 5 }, { h := 2 ^ 5 }, { eref := 2 ^ 14 }, { eidx := 2 ^ 12 }] : List PassOp), o.wf = false := by decide +kernel

theorem test_wf_pgwrOp : PgwrOp.wf { grp := 2 ^ 6 - 1, page := 2 ^ 3 - 1, img := 2 ^ 14 - 1, istep := 2 ^ 16 - 1, exp := 2 ^ 14 - 1, estep := 2 ^ 16 - 1 } = true ∧
    ∀ o ∈ ([{ grp := 2 ^ 6 }, { page := 2 ^ 3 }, { img := 2 ^ 14 }, { istep := 2 ^ 16 }, { exp := 2 ^ 14 }, { estep := 2 ^ 16 }] : List PgwrOp), o.wf = false := by decide +kernel

theorem test_wf_pgrdOp : PgrdOp.wf { grp := 2 ^ 6 - 1, page := 2 ^ 3 - 1, img := 2 ^ 14 - 1, istep := 2 ^ 16 - 1 } = true ∧
    ∀ o ∈ ([{ grp := 2 ^ 6 }, { page := 2 ^ 3 }, { img := 2 ^ 14 }, { istep := 2 ^ 16 }] : List PgrdOp), o.wf = false := by decide +kernel

theorem test_wf_updOp : UpdOp.wf { grp := 2 ^ 6 - 1, pmask := 2 ^ 8 - 1, udesc := 2 ^ 6 - 1, hyp := 2 ^ 14 - 1 } = true ∧
    ∀ o ∈ ([{ grp := 2 ^ 6 }, { pmask := 2 ^ 8 }, { udesc := 2 ^ 6 }, { hyp := 2 ^ 14 }] : List UpdOp), o.wf = false := by decide +kernel

theorem test_wf_acmOp : AcmOp.wf { tile := 2 ^ 6 - 1, img := 2 ^ 14 - 1 } = true ∧
    ∀ o ∈ ([{ tile := 2 ^ 6 }, { img := 2 ^ 14 }] : List AcmOp), o.wf = false := by decide +kernel

theorem test_wf_drainOp : DrainOp.wf { tile := 2 ^ 6 - 1, row0 := 2 ^ 5 - 1, h := 2 ^ 5 - 1, c8 := 2 ^ 2 - 1, w8 := 2 ^ 2 - 1, ofmt := 2 ^ 3 - 1, k := 2 ^ 3 - 1, dst := 2 ^ 14 - 1, desc := 2 ^ 14 - 1, cs := 2 ^ 18 - 1, recd := 2 ^ 14 - 1, ib := 2 ^ 13 - 1 } = true ∧
    ∀ o ∈ ([{ tile := 2 ^ 6 }, { row0 := 2 ^ 5 }, { h := 2 ^ 5 }, { c8 := 2 ^ 2 }, { w8 := 2 ^ 2 }, { ofmt := 2 ^ 3 }, { k := 2 ^ 3 }, { dst := 2 ^ 14 }, { desc := 2 ^ 14 }, { cs := 2 ^ 18 }, { recd := 2 ^ 14 }, { ib := 2 ^ 13 }] : List DrainOp), o.wf = false := by decide +kernel

theorem test_wf_quantOp : QuantOp.wf { ifmt := 2 ^ 3 - 1, src := 2 ^ 14 - 1, dst := 2 ^ 14 - 1, recd := 2 ^ 14 - 1, desc := 2 ^ 14 - 1, dnext := 2 ^ 14 - 1, strip := 2 ^ 14 - 1, n32 := 2 ^ 11 - 1, r := 2 ^ 5 - 1, ol := 2 ^ 4 - 1 } = true ∧
    ∀ o ∈ ([{ ifmt := 2 ^ 3 }, { src := 2 ^ 14 }, { dst := 2 ^ 14 }, { recd := 2 ^ 14 }, { desc := 2 ^ 14 }, { dnext := 2 ^ 14 }, { strip := 2 ^ 14 }, { n32 := 2 ^ 11 }, { r := 2 ^ 5 }, { ol := 2 ^ 4 }] : List QuantOp), o.wf = false := by decide +kernel

theorem test_wf_vopOp : VopOp.wf { afmt := 2 ^ 3 - 1, ofmt := 2 ^ 3 - 1, bmode := 2 ^ 2 - 1, cmode := 2 ^ 2 - 1, a := 2 ^ 14 - 1, b := 2 ^ 14 - 1, c := 2 ^ 14 - 1, d := 2 ^ 14 - 1, w := 2 ^ 16 - 1, h := 2 ^ 5 - 1, tile := 2 ^ 6 - 1, gid := 2 ^ 4 - 1, o := 2 ^ 5 - 1 } = true ∧
    ∀ o ∈ ([{ afmt := 2 ^ 3 }, { ofmt := 2 ^ 3 }, { bmode := 2 ^ 2 }, { cmode := 2 ^ 2 }, { a := 2 ^ 14 }, { b := 2 ^ 14 }, { c := 2 ^ 14 }, { d := 2 ^ 14 }, { w := 2 ^ 16 }, { h := 2 ^ 5 }, { tile := 2 ^ 6 }, { gid := 2 ^ 4 }, { o := 2 ^ 5 }] : List VopOp), o.wf = false := by decide +kernel

theorem test_wf_swOp : SwOp.wf { tile := 2 ^ 6 - 1, gid := 2 ^ 4 - 1, h := 2 ^ 5 - 1, act := 2 ^ 14 - 1, desc := 2 ^ 14 - 1, eref := 2 ^ 14 - 1, eidx := 2 ^ 12 - 1, tensor := 2 ^ 5 - 1, cb := 2 ^ 8 - 1, k0 := 2 ^ 9 - 1, nw := 2 ^ 8 - 1 } = true ∧
    ∀ o ∈ ([{ tile := 2 ^ 6 }, { gid := 2 ^ 4 }, { h := 2 ^ 5 }, { act := 2 ^ 14 }, { desc := 2 ^ 14 }, { eref := 2 ^ 14 }, { eidx := 2 ^ 12 }, { tensor := 2 ^ 5 }, { cb := 2 ^ 8 }, { k0 := 2 ^ 9 }, { nw := 2 ^ 8 }] : List SwOp), o.wf = false := by decide +kernel

theorem test_wf_saOp : SaOp.wf { tile := 2 ^ 6 - 1, gid := 2 ^ 4 - 1, h := 2 ^ 5 - 1, act := 2 ^ 14 - 1, desc := 2 ^ 14 - 1, eref := 2 ^ 14 - 1, eidx := 2 ^ 12 - 1, wop := 2 ^ 14 - 1, k32 := 2 ^ 11 - 1 } = true ∧
    ∀ o ∈ ([{ tile := 2 ^ 6 }, { gid := 2 ^ 4 }, { h := 2 ^ 5 }, { act := 2 ^ 14 }, { desc := 2 ^ 14 }, { eref := 2 ^ 14 }, { eidx := 2 ^ 12 }, { wop := 2 ^ 14 }, { k32 := 2 ^ 11 }] : List SaOp), o.wf = false := by decide +kernel

theorem test_wf_pruneOp : PruneOp.wf { tensor := 2 ^ 5 - 1, cb := 2 ^ 8 - 1, k0 := 2 ^ 9 - 1, nw := 2 ^ 9 - 1, src := 2 ^ 14 - 1, aux := 2 ^ 14 - 1, eref := 2 ^ 14 - 1, eidx := 2 ^ 12 - 1, treft := 2 ^ 14 - 1 } = true ∧
    ∀ o ∈ ([{ tensor := 2 ^ 5 }, { cb := 2 ^ 8 }, { k0 := 2 ^ 9 }, { nw := 2 ^ 9 }, { src := 2 ^ 14 }, { aux := 2 ^ 14 }, { eref := 2 ^ 14 }, { eidx := 2 ^ 12 }, { treft := 2 ^ 14 }] : List PruneOp), o.wf = false := by decide +kernel

theorem test_wf_storeOp : StoreOp.wf { tensor := 2 ^ 5 - 1, blk := 2 ^ 12 - 1, nb := 2 ^ 12 - 1, src := 2 ^ 14 - 1, aux := 2 ^ 14 - 1, eref := 2 ^ 14 - 1, eidx := 2 ^ 12 - 1, treft := 2 ^ 14 - 1 } = true ∧
    ∀ o ∈ ([{ tensor := 2 ^ 5 }, { blk := 2 ^ 12 }, { nb := 2 ^ 12 }, { src := 2 ^ 14 }, { aux := 2 ^ 14 }, { eref := 2 ^ 14 }, { eidx := 2 ^ 12 }, { treft := 2 ^ 14 }] : List StoreOp), o.wf = false := by decide +kernel

theorem test_wf_frame : Frame.wf { ver := 2 ^ 4 - 1, typ := 2 ^ 4 - 1, jobId := 2 ^ 64 - 1, src := 2 ^ 14 - 1, jport := 2 ^ 2 - 1, dst := 2 ^ 14 - 1, seq := 2 ^ 24 - 1 } = true ∧
    ∀ o ∈ ([{ ver := 2 ^ 4 }, { typ := 2 ^ 4 }, { jobId := 2 ^ 64 }, { src := 2 ^ 14 }, { jport := 2 ^ 2 }, { dst := 2 ^ 14 }, { seq := 2 ^ 24 }] : List Frame), o.wf = false := by decide +kernel

theorem test_wf_hdr : Hdr.wf { sem := 15, pred := 2 } = true ∧ Hdr.wf { sem := 16 } = false ∧ Hdr.wf { pred := 3 } = false := by decide

theorem test_wf_tileInstr :
    (∀ i ∈ [TileInstr.nop 0xFFFF, .beat 3 0xFFF, .sema 2 15 0xFFFF, .hint 1 15, .wcnt 2 511 0xFFFF true, .dma 4 {}, .acmrd { widen := true }, .qstat {},
        .qconv true { bcast := true }, .xmov { pat := 511, dst := 0x3FFF }], i.wf = true) ∧
      ∀ i ∈ [TileInstr.nop 0x10000, .beat 4 0, .beat 0 0x1000, .sema 3 0 0, .sema 0 16 0, .sema 0 0 0x10000, .hint 2 0, .hint 0 16, .wcnt 3 0 0 true,
        .wcnt 0 512 0 true, .wcnt 0 0 0x10000 true, .dma 5 {}, .acmwr { widen := true }, .qstat { sym := true }, .qstat { rnd := true }, .qstat { bcast := true },
        .qconv false { bcast := true }, .xmov { pat := 512 }, .xmov { dst := 0x4000 }], i.wf = false := by decide +kernel

theorem test_wf_instr : (∀ i ∈ [Instr.wcntAdd 0 0 {} 0 1 true, .qconvCarried 0 0 {} { bcast := true }, .pfcFrame 0 0 0xFFFF, .readBal 0xFFFF, .bar2Write 0 [1] true []], i.wf = true) ∧
      ∀ i ∈ [Instr.nop 0 0 { pred := 3 } 0, .nop 0 0 {} 0x10000, .beatJump 0 0 {} 0x1000, .beatLoop 0 0 {} 0x1000, .semaWait 0 0 {} 16 0, .semaSignal 0 0 {} 0 0x10000,
        .semaSet 0 0 {} 16 0, .hintEnter 0 0 {} 16, .hintAnnounce 0 0 {} 16, .wcntRead 0 0 {} 512 true, .wcntAdd 0 0 {} 512 1 true, .wcntAdd 0 0 {} 0 0 true,
        .wcntAdd 0 0 {} 0 0x10000 true, .wcntReset 0 0 {} 512 true, .acmwr 0 0 {} { widen := true }, .qconvPresent 0 0 {} { bcast := true }, .beatSeq 0 0 { sem := 16 },
        .beatStop 0 0 { pred := 3 }, .writeFrame 0 { ver := 16 } 0, .ackFrame 0 { seq := 2 ^ 24 } 0, .pfcFrame 0 0 0x10000, .readBal 0x10000], i.wf = false := by decide +kernel

theorem test_wf_bar2Write : (Instr.bar2Write 0 (List.replicate 4097 1) true []).wf = false := by decide +kernel

/-- Every row of a tile refuses a header that does not fit, and each row with operands one that does not. -/
theorem test_wf_headers1 : ∀ i ∈ ([
      .nop 0 0 { pred := 3 } 0, .beatSeq 0 0 { pred := 3 }, .beatJump 0 0 { pred := 3 } 0, .beatLoop 0 0 { pred := 3 } 0,
        .beatStop 0 0 { pred := 3 }, .semaWait 0 0 { pred := 3 } 0 0, .semaSignal 0 0 { pred := 3 } 0 0,
        .semaSet 0 0 { pred := 3 } 0 0, .hintEnter 0 0 { pred := 3 } 0, .hintAnnounce 0 0 { pred := 3 } 0,
        .wcntRead 0 0 { pred := 3 } 0 true, .wcntAdd 0 0 { pred := 3 } 0 0 true, .wcntReset 0 0 { pred := 3 } 0 true,
        .dmaLoad 0 0 { pred := 3 } {} [], .dmaStore 0 0 { pred := 3 } {} [], .dmaAdd 0 0 { pred := 3 } {} [], .dmaTt 0 0 { pred := 3 } {},
        .dmaFlush 0 0 { pred := 3 } {} [], .dmaSend 0 0 { pred := 3 } {}, .cpass 0 0 { pred := 3 } {} [], .tpass 0 0 { pred := 3 } {} [],
        .pgwr 0 0 { pred := 3 } {}, .pgrd 0 0 { pred := 3 } {} [], .upd 0 0 { pred := 3 } {},
        .acmrd 0 0 { pred := 3 } {} [], .acmwr 0 0 { pred := 3 } {}, .drain 0 0 { pred := 3 } {} [],
        .qstat 0 0 { pred := 3 } {}, .qconvPresent 0 0 { pred := 3 } {}, .qconvCarried 0 0 { pred := 3 } {},
        .copy 0 0 { pred := 3 } {} [], .spmacSwForward 0 0 { pred := 3 } {} [], .spmacSwTransposed 0 0 { pred := 3 } {} []] : List Instr), i.wf = false := by decide +kernel

theorem test_wf_headers2 : ∀ i ∈ ([
      .spmacSa 0 0 { pred := 3 } {}, .pruneSelect 0 0 { pred := 3 } {}, .pruneKeep 0 0 { pred := 3 } {} [],
        .pruneLoad 0 0 { pred := 3 } {}, .pruneRead 0 0 { pred := 3 } {} [], .vopAdd 0 0 { pred := 3 } {},
        .vopSub 0 0 { pred := 3 } {}, .vopMul 0 0 { pred := 3 } {}, .vopFma 0 0 { pred := 3 } {}, .vopMin 0 0 { pred := 3 } {},
        .vopMax 0 0 { pred := 3 } {}, .vopAbs 0 0 { pred := 3 } {}, .vopNeg 0 0 { pred := 3 } {}, .vopCvt 0 0 { pred := 3 } {},
        .vopTwosum 0 0 { pred := 3 } {}, .vopCpadd 0 0 { pred := 3 } {}, .vopExp 0 0 { pred := 3 } {},
        .vopLog 0 0 { pred := 3 } {}, .vopRcp 0 0 { pred := 3 } {}, .vopRsqrt 0 0 { pred := 3 } {},
        .vopRsum 0 0 { pred := 3 } {}, .vopRmax 0 0 { pred := 3 } {}, .vopRmin 0 0 { pred := 3 } {},
        .vopRmaxabs 0 0 { pred := 3 } {}, .vopRcsum 0 0 { pred := 3 } {}, .vopCsum 0 0 { pred := 3 } {},
        .vopCmax 0 0 { pred := 3 } {}, .vopEmax8 0 0 { pred := 3 } {}, .vopEmin8 0 0 { pred := 3 } {},
        .vopIadd 0 0 { pred := 3 } {}, .vopDeq 0 0 { pred := 3 } {}, .vopImgadd 0 0 { pred := 3 } {},
        .vopOutl 0 0 { pred := 3 } {} []] : List Instr), i.wf = false := by decide +kernel

theorem test_wf_operands1 : ∀ i ∈ ([
      .dmaLoad 0 0 {} { ch := 2 } [], .dmaStore 0 0 {} { ch := 2 } [], .dmaAdd 0 0 {} { ch := 2 } [], .dmaTt 0 0 {} { ch := 2 },
        .dmaFlush 0 0 {} { ch := 2 } [], .dmaSend 0 0 {} { len := 0x10000 }, .cpass 0 0 {} { h := 32 } [], .tpass 0 0 {} { h := 32 } [],
        .pgwr 0 0 {} { page := 8 }, .pgrd 0 0 {} { page := 8 } [], .upd 0 0 {} { pmask := 256 },
        .acmrd 0 0 {} { tile := 64 } [], .acmwr 0 0 {} { tile := 64 }, .drain 0 0 {} { k := 8 } [],
        .qstat 0 0 {} { ol := 16 }, .qconvPresent 0 0 {} { ol := 16 }, .qconvCarried 0 0 {} { ol := 16 },
        .copy 0 0 {} { pat := 512 } [], .spmacSwForward 0 0 {} { nw := 256 } [], .spmacSwTransposed 0 0 {} { nw := 256 } [],
        .spmacSa 0 0 {} { k32 := 2048 }, .pruneSelect 0 0 {} { k0 := 512 }, .pruneKeep 0 0 {} { k0 := 512 } [],
        .pruneLoad 0 0 {} { nb := 4096 }, .pruneRead 0 0 {} { nb := 4096 } [], .vopAdd 0 0 {} { o := 32 },
        .vopSub 0 0 {} { o := 32 }] : List Instr), i.wf = false := by decide +kernel

theorem test_wf_operands2 : ∀ i ∈ ([
      .vopMul 0 0 {} { o := 32 }, .vopFma 0 0 {} { o := 32 }, .vopMin 0 0 {} { o := 32 }, .vopMax 0 0 {} { o := 32 },
        .vopAbs 0 0 {} { o := 32 }, .vopNeg 0 0 {} { o := 32 }, .vopCvt 0 0 {} { o := 32 }, .vopTwosum 0 0 {} { o := 32 },
        .vopCpadd 0 0 {} { o := 32 }, .vopExp 0 0 {} { o := 32 }, .vopLog 0 0 {} { o := 32 }, .vopRcp 0 0 {} { o := 32 },
        .vopRsqrt 0 0 {} { o := 32 }, .vopRsum 0 0 {} { o := 32 }, .vopRmax 0 0 {} { o := 32 }, .vopRmin 0 0 {} { o := 32 },
        .vopRmaxabs 0 0 {} { o := 32 }, .vopRcsum 0 0 {} { o := 32 }, .vopCsum 0 0 {} { o := 32 }, .vopCmax 0 0 {} { o := 32 },
        .vopEmax8 0 0 {} { o := 32 }, .vopEmin8 0 0 {} { o := 32 }, .vopIadd 0 0 {} { o := 32 }, .vopDeq 0 0 {} { o := 32 },
        .vopImgadd 0 0 {} { o := 32 }, .vopOutl 0 0 {} { o := 32 } []] : List Instr), i.wf = false := by decide +kernel

/-! ## Words of tile instructions, written out from R272 to R294 -/

/-- R276: NOP, BEAT, SEMA, HINT and WCNT. -/
theorem test_word_stream :
    decodeTile (0x00 + 1 * 2 ^ 12 + 9 * 2 ^ 13 + 2 * 2 ^ 17 + 1 * 2 ^ 19 + 0x8001 * 2 ^ 20) = some ({ sig := true, sem := 9, pred := 2, fence := true }, .nop 0x8001) ∧
    decodeTile (0x01 + 1 * 2 ^ 8 + 15 * 2 ^ 13 + 0xabc * 2 ^ 20) = some ({ sem := 0xf }, .beat 1 0xABC) ∧
    decodeTile (0x02 + 2 * 2 ^ 8 + 1 * 2 ^ 17 + 0xb * 2 ^ 20 + 0xfffe * 2 ^ 24) = some ({ pred := 1 }, .sema 2 11 0xFFFE) ∧
    decodeTile (0x03 + 1 * 2 ^ 8 + 0xd * 2 ^ 20) = some ({}, .hint 1 13) ∧
    decodeTile (0x04 + 1 * 2 ^ 8 + 1 * 2 ^ 19 + 0x1fe * 2 ^ 20 + 0x8003 * 2 ^ 29 + 1 * 2 ^ 45) = some ({ fence := true }, .wcnt 1 0x1FE 0x8003 true) := by
  refine ⟨?_, ?_, ?_, ?_, ?_⟩ <;> decide +kernel

/-- R278: DMA TT. -/
theorem test_word_dma :
    decodeTile (0x08 + 3 * 2 ^ 8 + 1 * 2 ^ 12 + 9 * 2 ^ 13 + 2 * 2 ^ 17 + 1 * 2 ^ 19 + 1 * 2 ^ 20 + 1 * 2 ^ 21 + 5 * 2 ^ 22 + 0x81 * 2 ^ 26 + 0x2fff * 2 ^ 34 + 0x3ff * 2 ^ 48 + 0x8001 * 2 ^ 83 + 2 * 2 ^ 99 + 0x800001 * 2 ^ 101 + 1 * 2 ^ 125) =
      some ({ sig := true, sem := 9, pred := 2, fence := true }, .dma 3 { ch := 1, rsig := true, rsem := 5, dtile := 0x81, taddr := 0x2fff, dev := 0x3ff, len := 0x8001, xsel := 2, stride := 0x800001, afmt := 1 }) := by
  decide +kernel

/-- R278: DMA LOAD with the highest device address. -/
theorem test_word_dma_load :
    decodeTile (0x08 + 1 * 2 ^ 34 + 0x7ffffffff * 2 ^ 48 + 1 * 2 ^ 83) =
      some ({}, .dma 0 { taddr := 1, dev := 0x7ffffffff, len := 1 }) := by
  decide +kernel

/-- R280. -/
theorem test_word_send :
    decodeTile (0x08 + 5 * 2 ^ 8 + 1 * 2 ^ 12 + 9 * 2 ^ 13 + 2 * 2 ^ 17 + 1 * 2 ^ 19 + 0x2001 * 2 ^ 20 + 0x81 * 2 ^ 34 + 0x800001 * 2 ^ 42 + 0x3fff * 2 ^ 66 + 0x8001 * 2 ^ 101 + 1 * 2 ^ 117 + 1 * 2 ^ 118) =
      some ({ sig := true, sem := 9, pred := 2, fence := true }, .send { peer := 0x2001, window := 0x81, woff := 0x800001, src := 0x3fff, len := 0x8001, nm := true, tsrc := true }) := by
  decide +kernel

/-- R282: CPASS and TPASS. -/
theorem test_word_pass :
    decodeTile (0x10 + 1 * 2 ^ 12 + 9 * 2 ^ 13 + 2 * 2 ^ 17 + 1 * 2 ^ 19 + 0x21 * 2 ^ 20 + 5 * 2 ^ 26 + 1 * 2 ^ 29 + 0x101 * 2 ^ 30 + 0x2001 * 2 ^ 39 + 0x22 * 2 ^ 53 + 1 * 2 ^ 59 + 9 * 2 ^ 60 + 0x11 * 2 ^ 64 + 0xe * 2 ^ 69 + 0x1002 * 2 ^ 74 + 0x801 * 2 ^ 88) =
      some ({ sig := true, sem := 9, pred := 2, fence := true }, .cpass { grp := 0x21, page := 5, a4 := true, pat := 0x101, desc := 0x2001, tile := 0x22, ovw := true, gid := 9, row0 := 0x11, h := 0xe, eref := 0x1002, eidx := 0x801 }) ∧
    decodeTile (0x11 + 0x21 * 2 ^ 20 + 5 * 2 ^ 26 + 0x101 * 2 ^ 30 + 0x2001 * 2 ^ 39 + 0x22 * 2 ^ 53 + 9 * 2 ^ 60 + 0x11 * 2 ^ 64 + 0xe * 2 ^ 69 + 0x1002 * 2 ^ 74 + 0x801 * 2 ^ 88) =
      some ({}, .tpass { grp := 0x21, page := 5, a4 := false, pat := 0x101, desc := 0x2001, tile := 0x22, ovw := false, gid := 9, row0 := 0x11, h := 0xe, eref := 0x1002, eidx := 0x801 }) := by
  refine ⟨?_, ?_⟩ <;> decide +kernel

/-- R284: PGWR and PGRD. -/
theorem test_word_page :
    decodeTile (0x12 + 0x21 * 2 ^ 20 + 6 * 2 ^ 26 + 1 * 2 ^ 29 + 1 * 2 ^ 31 + 0x2001 * 2 ^ 32 + 0x8010 * 2 ^ 46 + 0x3fff * 2 ^ 62 + 0x8001 * 2 ^ 76) =
      some ({}, .pgwr { grp := 0x21, page := 6, w4 := true, centred := false, keepExp := true, img := 0x2001, istep := 0x8010, exp := 0x3fff, estep := 0x8001 }) ∧
    decodeTile (0x12 + 1 * 2 ^ 30 + 1 * 2 ^ 32 + 0x10 * 2 ^ 46 + 2 * 2 ^ 62) =
      some ({}, .pgwr { centred := true, img := 1, istep := 0x10, exp := 2 }) ∧
    decodeTile (0x13 + 0x21 * 2 ^ 20 + 5 * 2 ^ 26 + 0x2001 * 2 ^ 32 + 0x8011 * 2 ^ 46) =
      some ({}, .pgrd { grp := 0x21, page := 5, img := 0x2001, istep := 0x8011 }) := by
  refine ⟨?_, ?_, ?_⟩ <;> decide +kernel

/-- R285. -/
theorem test_word_upd :
    decodeTile (0x14 + 0x21 * 2 ^ 20 + 0x81 * 2 ^ 26 + 1 * 2 ^ 34 + 0x22 * 2 ^ 36 + 0x2001 * 2 ^ 42) =
      some ({}, .upd { grp := 0x21, pmask := 0x81, tied := true, clearGrad := false, udesc := 0x22, hyp := 0x2001 }) ∧
    decodeTile (0x14 + 0xff * 2 ^ 26 + 1 * 2 ^ 35) =
      some ({}, .upd { pmask := 0xff, clearGrad := true }) := by
  refine ⟨?_, ?_⟩ <;> decide +kernel

/-- R286. -/
theorem test_word_acm :
    decodeTile (0x18 + 0x21 * 2 ^ 20 + 1 * 2 ^ 26 + 0x2001 * 2 ^ 27) =
      some ({}, .acmrd { tile := 0x21, widen := true, img := 0x2001 }) ∧
    decodeTile (0x19 + 0x22 * 2 ^ 20 + 0x1001 * 2 ^ 27) =
      some ({}, .acmwr { tile := 0x22, img := 0x1001 }) := by
  refine ⟨?_, ?_⟩ <;> decide +kernel

/-- R287. -/
theorem test_word_drain :
    decodeTile (0x1A + 0x21 * 2 ^ 20 + 0x11 * 2 ^ 26 + 0xe * 2 ^ 31 + 1 * 2 ^ 36 + 2 * 2 ^ 38 + 4 * 2 ^ 40 + 1 * 2 ^ 43 + 1 * 2 ^ 44 + 1 * 2 ^ 46 + 1 * 2 ^ 48 + 5 * 2 ^ 49 + 0x2001 * 2 ^ 52 + 0x1001 * 2 ^ 66 + 0x20001 * 2 ^ 80 + 0x2002 * 2 ^ 98 + 0x1001 * 2 ^ 112) =
      some ({}, .drain { tile := 0x21, row0 := 0x11, h := 0xe, c8 := 1, w8 := 2, ofmt := 4, rnd := true, rowmax := true, rowsum := false, rowsumexp := true, topk := false, merge := true, k := 5, dst := 0x2001, desc := 0x1001, cs := 0x20001, recd := 0x2002, ib := 0x1001 }) ∧
    decodeTile (0x1A + 1 * 2 ^ 45 + 1 * 2 ^ 47 + 1 * 2 ^ 98) =
      some ({}, .drain { rowsum := true, topk := true, recd := 1 }) := by
  refine ⟨?_, ?_⟩ <;> decide +kernel

/-- R289: QSTAT, CARRIED with sym and bcast, PRESENT with rnd. -/
theorem test_word_quant :
    decodeTile (0x20 + 1 * 2 ^ 20 + 0x2001 * 2 ^ 24 + 0x2002 * 2 ^ 52 + 0x401 * 2 ^ 108 + 0x11 * 2 ^ 119 + 0xf * 2 ^ 124) =
      some ({}, .qstat { ifmt := 1, src := 0x2001, recd := 0x2002, n32 := 0x401, r := 0x11, ol := 0xf, dnext := 0, strip := 0 }) ∧
    decodeTile (0x21 + 1 * 2 ^ 8 + 2 * 2 ^ 20 + 0x2001 * 2 ^ 24 + 0x1001 * 2 ^ 38 + 0x2002 * 2 ^ 52 + 0x1002 * 2 ^ 66 + 0x2003 * 2 ^ 80 + 0x1003 * 2 ^ 94 + 0x401 * 2 ^ 108 + 0x11 * 2 ^ 119 + 0xe * 2 ^ 124 + 1 * 2 ^ 23 + 1 * 2 ^ 9 + 1 * 2 ^ 11) =
      some ({}, .qconv true { ifmt := 2, src := 0x2001, dst := 0x1001, recd := 0x2002, desc := 0x1002, dnext := 0x2003, strip := 0x1003, n32 := 0x401, r := 0x11, ol := 0xe, a4 := true, sym := true, bcast := true }) ∧
    decodeTile (0x21 + 2 * 2 ^ 20 + 0x2001 * 2 ^ 24 + 0x1001 * 2 ^ 38 + 0x2002 * 2 ^ 52 + 0x1002 * 2 ^ 66 + 0x2003 * 2 ^ 80 + 0x1003 * 2 ^ 94 + 0x401 * 2 ^ 108 + 0x11 * 2 ^ 119 + 0xe * 2 ^ 124 + 1 * 2 ^ 10) =
      some ({}, .qconv false { ifmt := 2, src := 0x2001, dst := 0x1001, recd := 0x2002, desc := 0x1002, dnext := 0x2003, strip := 0x1003, n32 := 0x401, r := 0x11, ol := 0xe, rnd := true }) := by
  refine ⟨?_, ?_, ?_⟩ <;> decide +kernel

/-- R290, R291: OUTL with every field, and FMA. -/
theorem test_word_vop :
    decodeTile (0x28 + 1 * 2 ^ 12 + 9 * 2 ^ 13 + 2 * 2 ^ 17 + 1 * 2 ^ 19 + 0x3c * 2 ^ 20 + 1 * 2 ^ 26 + 5 * 2 ^ 29 + 1 * 2 ^ 32 + 2 * 2 ^ 34 + 0x2001 * 2 ^ 36 + 0x1001 * 2 ^ 50 + 0x2002 * 2 ^ 64 + 0x1002 * 2 ^ 78 + 0x801f * 2 ^ 92 + 0x11 * 2 ^ 108 + 0x21 * 2 ^ 113 + 9 * 2 ^ 119 + 0xe * 2 ^ 123) =
      some ({ sig := true, sem := 9, pred := 2, fence := true }, .vop .outl { afmt := 1, ofmt := 5, bmode := 1, cmode := 2, a := 0x2001, b := 0x1001, c := 0x2002, d := 0x1002, w := 0x801f, h := 0x11, tile := 0x21, gid := 9, o := 0xe }) ∧
    decodeTile (0x28 + 3 * 2 ^ 20 + 3 * 2 ^ 32 + 1 * 2 ^ 34 + 1 * 2 ^ 36 + 2 * 2 ^ 50 + 3 * 2 ^ 64 + 4 * 2 ^ 78 + 0x1f * 2 ^ 92) =
      some ({}, .vop .fma { bmode := 3, cmode := 1, a := 1, b := 2, c := 3, d := 4, w := 0x1f }) := by
  refine ⟨?_, ?_⟩ <;> decide +kernel

/-- R292: SW forward, SW transposed and SA. -/
theorem test_word_spmac :
    decodeTile (0x30 + 0x21 * 2 ^ 20 + 1 * 2 ^ 26 + 9 * 2 ^ 27 + 0x11 * 2 ^ 31 + 1 * 2 ^ 36 + 0x2001 * 2 ^ 37 + 0x1001 * 2 ^ 51 + 0x2002 * 2 ^ 65 + 0x801 * 2 ^ 79 + 0x11 * 2 ^ 91 + 0x81 * 2 ^ 96 + 0x101 * 2 ^ 104 + 0x82 * 2 ^ 113) =
      some ({}, .spmacSw false { tile := 0x21, ovw := true, gid := 9, h := 0x11, a4 := true, act := 0x2001, desc := 0x1001, eref := 0x2002, eidx := 0x801, tensor := 0x11, cb := 0x81, k0 := 0x101, nw := 0x82 }) ∧
    decodeTile (0x30 + 1 * 2 ^ 8 + 0x21 * 2 ^ 20 + 9 * 2 ^ 27 + 0x11 * 2 ^ 31 + 0x2001 * 2 ^ 37 + 0x1001 * 2 ^ 51 + 0x2002 * 2 ^ 65 + 0x801 * 2 ^ 79 + 0xe * 2 ^ 91) =
      some ({}, .spmacSw true { tile := 0x21, ovw := false, gid := 9, h := 0x11, a4 := false, act := 0x2001, desc := 0x1001, eref := 0x2002, eidx := 0x801, tensor := 0xe }) ∧
    decodeTile (0x30 + 2 * 2 ^ 8 + 0x21 * 2 ^ 20 + 1 * 2 ^ 26 + 9 * 2 ^ 27 + 0x11 * 2 ^ 31 + 1 * 2 ^ 36 + 0x2001 * 2 ^ 37 + 0x1001 * 2 ^ 51 + 0x2002 * 2 ^ 65 + 0x801 * 2 ^ 79 + 0x2003 * 2 ^ 91 + 0x401 * 2 ^ 105) =
      some ({}, .spmacSa { tile := 0x21, ovw := true, gid := 9, h := 0x11, a4 := true, act := 0x2001, desc := 0x1001, eref := 0x2002, eidx := 0x801, wop := 0x2003, k32 := 0x401 }) := by
  refine ⟨?_, ?_, ?_⟩ <;> decide +kernel

/-- R293: SELECT, KEEP, LOAD and READ. -/
theorem test_word_prune :
    decodeTile (0x31 + 1 * 2 ^ 20 + 1 * 2 ^ 22 + 0x11 * 2 ^ 23 + 0x81 * 2 ^ 28 + 0x101 * 2 ^ 36 + 0x102 * 2 ^ 45 + 0x2001 * 2 ^ 54 + 0x1001 * 2 ^ 68 + 0x2002 * 2 ^ 82 + 0x801 * 2 ^ 96 + 0x1003 * 2 ^ 108) =
      some ({}, .prune false { tied := true, table := false, bf16 := true, tensor := 0x11, cb := 0x81, k0 := 0x101, nw := 0x102, src := 0x2001, aux := 0x1001, eref := 0x2002, eidx := 0x801, treft := 0x1003 }) ∧
    decodeTile (0x31 + 1 * 2 ^ 8 + 1 * 2 ^ 21 + 1 * 2 ^ 23 + 0x2001 * 2 ^ 54 + 0x1001 * 2 ^ 68 + 0x2002 * 2 ^ 82 + 0x801 * 2 ^ 96 + 0x1003 * 2 ^ 108) =
      some ({}, .prune true { table := true, tensor := 1, src := 0x2001, aux := 0x1001, eref := 0x2002, eidx := 0x801, treft := 0x1003 }) ∧
    decodeTile (0x31 + 2 * 2 ^ 8 + 1 * 2 ^ 20 + 0x11 * 2 ^ 23 + 0x801 * 2 ^ 28 + 0x802 * 2 ^ 40 + 0x2001 * 2 ^ 54 + 0x1001 * 2 ^ 68 + 0x2002 * 2 ^ 82 + 0x801 * 2 ^ 96 + 0x1003 * 2 ^ 108) =
      some ({}, .store false { tied := true, tensor := 0x11, blk := 0x801, nb := 0x802, src := 0x2001, aux := 0x1001, eref := 0x2002, eidx := 0x801, treft := 0x1003 }) ∧
    decodeTile (0x31 + 3 * 2 ^ 8 + 1 * 2 ^ 21 + 1 * 2 ^ 28 + 2 * 2 ^ 40) =
      some ({}, .store true { table := true, blk := 1, nb := 2 }) := by
  refine ⟨?_, ?_, ?_, ?_⟩ <;> decide +kernel

/-- R294. -/
theorem test_word_copy : decodeTile (0x22 + 0x101 * 2 ^ 20 + 0x2001 * 2 ^ 29) = some ({}, .xmov { pat := 0x101, dst := 0x2001 }) := by decide +kernel

/-- The vop codes of R291, in its order. -/
theorem test_vop_codes : allVops.map vopCode = [0x00, 0x01, 0x02, 0x03, 0x04, 0x05, 0x06, 0x07, 0x08, 0x10, 0x11, 0x18, 0x19, 0x1A, 0x1B,
    0x20, 0x21, 0x22, 0x23, 0x24, 0x28, 0x29, 0x30, 0x31, 0x38, 0x39, 0x3A, 0x3C] := by decide

/-- R273, R275: opcodes, fn values and vop codes that no table lists have no meaning. -/
theorem test_reserved_refused :
    (∀ opc ∈ [0x05, 0x07, 0x09, 0x0F, 0x15, 0x17, 0x1B, 0x1F, 0x23, 0x27, 0x29, 0x2F, 0x32, 0xFF], decodeTile opc = none) ∧
      (∀ e ∈ [(0x00, 1), (0x01, 4), (0x02, 3), (0x03, 2), (0x04, 3), (0x08, 6), (0x10, 1), (0x12, 1), (0x1A, 1), (0x20, 1), (0x22, 1), (0x28, 1), (0x30, 3), (0x31, 4)],
        decodeTile (e.1 + e.2 * 2 ^ 8) = none) ∧
      decodeTile (0x21 + 8 * 2 ^ 8) = none ∧ (∀ v ∈ [0x09, 0x0F, 0x12, 0x1C, 0x25, 0x2A, 0x32, 0x3B, 0x3D], decodeTile (0x28 + v * 2 ^ 20) = none) := by
  refine ⟨?_, ?_, ?_, ?_⟩ <;> decide +kernel

/-- R275: a reserved bit is seen in a word that decodes, and none in the same word without it. -/
theorem test_reserved_bits : reservedBits (0x22 + 2 ^ 43) = true ∧ reservedBits 0x22 = false ∧ reservedBits (0x08 + 2 ^ 126) = true ∧
    reservedBits (0x13 + 2 ^ 29 + 17 * 2 ^ 46) = true ∧ reservedBits (0x19 + 2 ^ 26) = true := by
  refine ⟨?_, ?_, ?_, ?_, ?_⟩ <;> decide +kernel

/-! ## Worked examples of the manual -/

/-- Chapter 11: address 0x12_3456_7800 lies in slot 31 at 0x6117_2200, on channel 31, and on channel 48 once that one is replaced. -/
theorem test_address_slot : slotOf State.reset 0x1234567800 = (31, 0x61172200) ∧ chanOf State.reset 0x1234567800 = some 31 ∧
    chanOf (replaceChannels (modChan State.reset 31 fun c => { c with state := 2 }) 0) 0x1234567800 = some 48 ∧
    slotOf (replaceChannels (modChan State.reset 31 fun c => { c with state := 2 }) 0) 0x1234567800 = (31, 0x61172200) := by
  refine ⟨?_, ?_, ?_, ?_⟩ <;> decide +kernel

/-- Chapter 17: tile 131 reads ptile 0x103, and the pair of its DMA channel 0 on lane 7 lies at 0x0120_C390. -/
theorem test_conflict_pair : physTile State.reset 131 = 0x103 ∧
    (rsPair { State.reset with tiles := [(0x103, { stat := { tspc := [{}, {}, { val := 0x3FFFFFFF0 }, {}, {}, {}] } })] } 0x120C390).map
      (fun q => (q.low, q.high)) = some (0xFFFFFFF0, 3) := by
  refine ⟨?_, ?_⟩ <;> decide +kernel

/-- Chapter 02: 2.0 at scale 0.03 and zero point 50 is 116 toward zero and 117 to nearest; 6.18 saturates at 206 steps. -/
theorem test_quant_element : let rcp := fvalD fp32 (fdiv fone 0x3CF5C28F)
    (quantElem false false false rcp 50 ⟨2, 0⟩).1 = 116 ∧ (quantElem false false true rcp 50 ⟨2, 0⟩).1 = 117 ∧
      quantElem false false false rcp 50 ⟨9, 0⟩ = (255, true, false) ∧ quantElem false false false rcp 50 ⟨1, -6⟩ = (50, false, true) := by
  refine ⟨?_, ?_, ?_, ?_⟩ <;> decide +kernel

/-- Chapter 02: mn = -1.2 and mx = 9.0 give scale 0.04 and zero point 30. -/
theorem test_quant_derive : deriveScale false false (some (fvalD fp32 0xBF99999A)) (some ⟨9, 0⟩) none = some (0x3D23D70A, 30) := by decide +kernel

/-- Chapter 04: the far block's partial -4,711 aligns to -1,177 and truncates. -/
theorem test_far_block : alignOne 16 0x7F 0x6D (-4711) = some (-1177, true) := by decide

/-- The page of chapter 03's example. -/
def passPage : Page := Page.resum { codes := [(0, 3), (1, 0xFF), (32, 0xFE), (33, 4), (65, 7)] }

/-- Chapter 03: its stored sums, and a forward pass: 40, -30, every other column 0, checksum 10, six plane cycles. -/
theorem test_forward_pass : let q : PassJob := { codes := 60 :: 45 :: List.replicate 30 50, z := 50 }
    tget 0 passPage.rows 0 = 2 ∧ tget 0 passPage.rows 2 = 7 ∧ tget 0 passPage.cols 1 = 10 ∧ passPage.corner = 11 ∧
      passResults passPage q = (40 :: -30 :: List.replicate 30 0, 10) ∧ planeCycles false (zeroPlaneMask q.codes) = 6 := by
  refine ⟨?_, ?_, ?_, ?_, ?_, ?_⟩ <;> decide +kernel

/-- Chapter 05: the weight crosses its block's range at -10, fits at -9 (byte 0x7C), and rounds to 16,430. -/
theorem test_block_exponent : chooseExp false ⟨65721, -19⟩ 0x7B 0 = some (0x7C, 0) ∧ stochRound ⟨65721, -2⟩ 0x2000 = 16430 ∧
    stochRound ⟨-124384, 0⟩ 0x999A = -124384 := by
  refine ⟨?_, ?_, ?_⟩ <;> decide +kernel

/-- The hyperparameter record of chapter 05's example. -/
def exHyper : Hyper :=
  { lr := 0x3A83126F, beta1 := 0x3F666666, omb1 := 0x3DCCCCCD, beta2 := 0x3F7FBE77, omb2 := 0x3A83126F, eps := 0x322BCC77, wd := 0x3C23D70A,
    bc1 := 0x3F800000, bc2 := 0x3F80017B, gscale := 0x3F800000, t := 10000, opt := 1 }

/-- Chapter 05: the example's weight after one AdamW step: M, E_m, E_v and the codes of both moments under the example's draws. -/
theorem test_adamw_weight : (updWeight exHyper 0x7B 127 100 (-120) 118 131 119 (fvalD fp32 0x3F800000) (fvalD fp32 0xBB23D70A)).map (fun x =>
      (stochRound (x.1.scale (8 - ((0x7C : Int) - 133))) 0x2000, momentExp 127 134 (maxMag [x.2.1]), momentExp 255 135 (maxMag [x.2.2]),
        stochRound (x.2.1.scale 16) 0x999A, stochRound (x.2.2.scale 16) 0x8000)) = some (16430, 118, 119, -124, 131) := by decide +kernel

/-- Chapter 06: the ReLU chunk takes 13 cycles. -/
theorem test_relu_chunk : (saChunk 32 fun r l => decide ((l + 32 - r) % 8 < 3)).1 = 13 := by decide +kernel

/-! ## Cryptography -/

/-- FIPS 180-4's digest of "abc". -/
theorem test_sha384_abc : beNat (sha384 [0x61, 0x62, 0x63]) =
    0xCB00753F45A35E8BB5A03D699AC65007272C32AB0EDED1631A8B605A43FF5BED8086072BA1E7CC2358BAECA134C825A7 := by decide +kernel

/-- The base point of RFC 5639 lies on its curve. -/
theorem test_base_point : onCurve curveG = true := by decide +kernel

/-! ## Reset and the interface -/

/-- The block's table gives no bits; an empty queue idles; reset has no command. -/
theorem test_reset : step State.reset = .next State.reset ∧ decodeTableWord 0 0 = none ∧ State.reset.withFetchWord 8 0 = State.reset ∧
    core.reset = State.reset := ⟨rfl, rfl, rfl, rfl⟩

/-- R15, R536: after reset the invariants hold. -/
theorem test_reset_invariants : Shape State.reset ∧ MemOk State.reset ∧ TilesApart State.reset := by
  refine ⟨by unfold Shape; decide, ⟨rfl, fun d => ?_, rfl, by simp [State.reset], rfl⟩, fun t u ht hu h => ?_, fun t ht h => absurd rfl h⟩
  · rcases d with _ | _ | d <;> rfl
  · simp only [physTile, State.reset, tget, homeTile] at h; omega


/-! ## The queue and the invariants (O1 to O7) -/

/-- O1: an empty queue, and one with a command in front. -/
theorem witness_StepRunsFront : State.reset.pending = [] ∧
    step { base {} {} with pending := [.pfcFrame 0 3 0] } = exec (.pfcFrame 0 3 0) (base {} {}) := ⟨rfl, rfl⟩

/-- O2, O3, O7: a command answers a next state, and one is refused. -/
theorem witness_exec_answers : (∃ t, exec (.ppsOutEdge 0 true 5) (base {} {}) = .next t) ∧
    exec (.jtagInstruction (.other 9)) { base {} {} with sec := { debugDis := false }, start := { trstN := true } } = .refused .debugInstruction :=
  ⟨⟨_, rfl⟩, rfl⟩

/-- O4 to O7: the invariants hold where a step answers a next state. -/
theorem witness_StepKeeps : let s := { base {} {} with pending := [Instr.pfcFrame 0 3 0] }
    Shape s ∧ MemOk s ∧ TilesApart s ∧ ∃ t, step s = .next t :=
  ⟨base_shape {} {}, base_mem {} {}, base_apart {} {}, _, rfl⟩

/-! ## Tile instructions (O8 to O28) -/

/-- O8: headers and instructions that fit. -/
theorem witness_TileWordRoundTrip : Hdr.wf { sig := true, sem := 15, pred := 2, fence := true } = true ∧
    TileInstr.wf (.dma 4 { dev := 2 ^ 35 - 1, len := 0xFFFF }) = true ∧ TileInstr.wf (.qconv true { bcast := true }) = true := by decide

/-- O9: a tile that a fault has stopped, one that is not released, one whose duty holds it. -/
theorem witness_Halted : rowOp (.cpass 0 3 {} {} []) = some (0, 3, {}, .cpass {}, {}) ∧
    (tileOf (base { halted := true } {}) 0).halted = true ∧ (tileOf (base {} {}) 0).released = false ∧
    gateOpen { base {} {} with bal := { dies := [{ cycles := [(0, 1)] }, {}], duty := 0 } } 0 (.cpass {}) = false := by
  refine ⟨rfl, rfl, rfl, ?_⟩; decide

/-- O10: x2 reads EXHAUSTED and the instruction names it. -/
theorem witness_Skipped : let s := base { released := true, streams := [(0, { x2 := 0xFFFFFFFF })], sems := [(15, 0xFFFE)] } {}
    let h : Hdr := { sig := true, sem := 15, pred := 1 }
    rowOp (.dmaSend 0 0 h {}) = some (0, 0, h, .send {}, {}) ∧ (tileOf s 0).halted = false ∧ (tileOf s 0).released = true ∧ dutyOpen s 0 = true ∧
      skipped (streamOf (tileOf s 0) 0) h = true ∧ semOf (tileOf s 0) h.sem + sigAt h h.sem ≤ 0xFFFF := by
  refine ⟨rfl, rfl, rfl, ?_, ?_, ?_⟩ <;> decide

/-- In the block after reset no gate of Balance is closed. -/
theorem gates (x : Tile) (j : Job) (op : TileInstr) : gateOpen (base x j) 0 op = true := rfl

/-- A released tile with nothing in flight may issue. -/
theorem runs (x : Tile) (j : Job) (h : Hdr) (op : TileInstr) (hx : x.halted = false) (hr : x.released = true) (hf : x.flights = [])
    (hp : h.pred = 0) : CanIssue (base x j) 0 0 h op 0 := by
  refine ⟨⟨?_, gates x j op, ?_⟩, ?_⟩
  · show mayIssue x = true
    simp [mayIssue, hx, hr]
  · simp [skipped, hp]
  · show freeTag x = some 0
    simp [freeTag, hf, lowest]

/-- A released tile, and one whose sparse engine has work. -/
def liveTile : Tile := { released := true }

/-- O11, O12: an instruction whose unit ends at issue may issue, its unit free or taken. -/
theorem witness_UnitRows : CanIssue (base liveTile {}) 0 0 {} (.vop .add {}) 0 ∧
    (∃ w, unitWork (entered (base liveTile {}) 0 0 {} (.vop .add {}) 0) 0 0 {} (.vop .add {}) = some w) ∧ UnitFree liveTile (.prune false {}) ∧
    ¬ UnitFree { liveTile with sparseQ := [{ tag := 1 }] } (.prune false {}) ∧
    (∃ w, unitWork {} 31 63 { unit := [{ ecc := .double }] } (.drain {}) = some w) ∧ wrongWords [{ ecc := .single }] = [] := by
  refine ⟨runs _ _ _ _ rfl rfl rfl rfl, ⟨_, rfl⟩, rfl, ?_, ⟨_, rfl⟩, rfl⟩
  simp [UnitFree]

/-- O13: a WAIT that may go on, one that waits, a SIGNAL up to 0xFFFF and one past it. -/
theorem witness_SemaphoreRows : let s := base { released := true, sems := [(3, 0xFFFE)] } {}
    CanRun s 0 0 {} (.sema 0 3 0xFFFE) ∧ 0xFFFE ≤ semOf (tileOf s 0) 3 ∧ semOf (tileOf s 0) 3 < 0xFFFF ∧ semOf (tileOf s 0) 3 + 1 ≤ 0xFFFF ∧
      0xFFFF < semOf (tileOf s 0) 3 + 2 := by
  refine ⟨(runs _ _ _ _ rfl rfl rfl rfl).1, ?_, ?_, ?_, ?_⟩ <;> decide

/-- O13, O15: an instruction that signals, with room in its semaphore. -/
theorem witness_NopBeatHint : let s := base { released := true, sems := [(2, 0xFFFE)] } {}
    let h : Hdr := { sig := true, sem := 2 }
    Shape s ∧ CanRun s 0 0 h (.nop 5) ∧ CanRun s 0 0 h (.hint 0 15) ∧ semOf (tileOf s 0) 2 + sigAt h 2 ≤ 0xFFFF := by
  refine ⟨base_shape _ _, (runs _ _ _ _ rfl rfl rfl rfl).1, (runs _ _ _ _ rfl rfl rfl rfl).1, ?_⟩; decide

/-- O14: bit patterns of FP32: 1.0, 2.0, infinity and the quotient of a scale; operands that are finite, one that is not, and a sum
past FP32; a DRAIN whose row has no scale, one whose descriptor carries its scale, one whose channel scale breaks R54. -/
theorem witness_UnitValues : let x : Tile := { tsp := [(2, 0x80), (3, 0x3F), (256, 1), (260, 1)] }
    let o : VopOp := { b := 16 }
    let g : Tile := { tsp := ((List.range 8).flatMap fun j => [(4 * j + 2, 0x80), (4 * j + 3, 0x3F)]) ++ [(258, 0x80), (259, 0x3F)]
                      acm := [(0, { opened := true, rscale := [(0, 0x3F800000)] })] }
    let d : DrainOp := { desc := 4, dst := 16 }
    isFinite fp32 0x3F800000 = true ∧ isFinite fp32 0x7F800000 = false ∧ posNormal32 0x3D23D70A = true ∧
      isFinite (fmtOf 0) (vecRaw x.tsp o.a 0 0 1 0 0) = true ∧ isFinite (fmtOf 0) (vecRaw [(2, 0x80), (3, 0x7F)] o.a 0 0 1 0 0) = false ∧
      drainOpt d = false ∧ overlaps (tbyte d.desc) 8 (tbyte d.dst) (rowLen d.ofmt 8) = false ∧
      (∀ k, k < 8 → csOk (readCs g.tsp (4 * d.cs + 4 * k)) = true) ∧ csOk (readCs x.tsp 4) = false ∧
      tget 0 (tget {} ({} : Tile).acm 0).rscale 0 = 0 ∧ (readDesc g.tsp (tbyte d.desc)).ok = true ∧
      (readDesc g.tsp (tbyte d.desc)).scale = tget 0 (tget {} g.acm 0).rscale 0 ∧ (readDesc x.tsp (tbyte d.desc)).scale ≠ tget 0 (tget {} g.acm 0).rscale 0 := by
  refine ⟨?_, ?_, ?_, ?_, ?_, ?_, ?_, ?_, ?_, ?_, ?_, ?_, ?_⟩ <;> decide +kernel

/-- O14: images of zeros, which ACMWR loads and IADD adds, and ones whose narrow flags do not fit. -/
theorem witness_UnitImages : (imageTile (zeros 8448)).narrow = false ∧ imageOk (zeros 8448) = true ∧ slotKind {} 0 ≠ 2 ∧
    (∀ k, k < 32 → mget (imageTile (zeros 8448)).eref k = 0) ∧ (∀ r, r < 32 → tget 0 (imageTile (zeros 8448)).rscale r = 0) ∧
    (imageTile (mread [(172, 0x10)] 0 8448)).narrow = true := by
  refine ⟨?_, ?_, ?_, ?_, ?_, ?_⟩ <;> decide +kernel

/-- O16: an idle counter port, and one with a request ahead. -/
theorem witness_CounterRowsServe : Shape (base liveTile {}) ∧ CanIssue (base liveTile {}) 0 0 {} (.wcnt 0 511 0 true) 0 ∧
    (fenOf (base {} {}) 0).portQ = [] ∧ (fenOf { base {} {} with fens := [{ portQ := [{}] }, {}] } 0).portQ ≠ [] :=
  ⟨base_shape _ _, runs _ _ _ _ rfl rfl rfl rfl, rfl, by decide⟩

/-- O17: one die-to-die request ahead of a mesh request; an ADD at the limit and one past it, and a READ (R261). -/
theorem witness_CounterPortServesOne : let a : WcReq := { op := 1, inc := 1 }
    let b : WcReq := { tile := 256 }
    Shape (base {} {}) ∧ (fenOf (base {} {}) 1).portQ ++ ([a, b].filter fun q => decide (q.tile / 256 ≠ 1)) ++
      ([a, b].filter fun q => decide (q.tile / 256 = 1)) = a :: [b] ∧
    (let c : Counter := { val := 6, limit := 7 }
     c.val.toNat + 1 ≤ c.limit.toNat ∧ c.limit.toNat < c.val.toNat + 2 ∧ c.limit.toNat ≤ 0xFFFFFFFE) ∧
    (flightOf { flights := [{ tag := 9, stream := 0, pc := 0, order := 0, h := {}, op := .wcnt 0 0 0 false }] } 9).isSome = true :=
  ⟨base_shape _ _, rfl, by decide, rfl⟩

/-- A tile whose byte 0 of the TSP holds a row descriptor of scale 1.0, whose group 0 has macro 0 alone, and whose
pattern 0 reads the TSP, or chain half 0. -/
def descTile : Tile := { released := true, tsp := [(2, 0x80), (3, 0x3F), (40, 1)], plan := [(0x14400, 1)] }
def chainTile : Tile := { descTile with plan := [(0x14400, 1), (patOff + 2, 0x10)] }

/-- O18: a descriptor that meets R33 and one that does not; a chain half whose codeword cannot be corrected. -/
theorem witness_PassRowsQueue : CanIssue (base descTile {}) 0 0 {} (.cpass {}) 0 ∧ CanIssue (base chainTile {}) 0 0 {} (.tpass {}) 0 ∧
    (chainEcc (entered (base descTile {}) 0 0 {} (.cpass {}) 0) (readPattern descTile.plan 0) []).2 = false ∧
    (readDesc descTile.tsp 0).ok = true ∧ (readDesc [] 0).ok = false ∧
    (chainEcc (entered (base chainTile {}) 0 0 {} (.tpass {}) 0) (readPattern chainTile.plan 0) [{ ecc := .double }]).2 = true := by
  refine ⟨runs _ _ _ _ rfl rfl rfl rfl, runs _ _ _ _ rfl rfl rfl rfl, ?_, ?_, ?_, ?_⟩ <;> decide +kernel

/-- O21: descriptors that meet R33 and one that does not, with codewords that read right and one that does not. -/
theorem witness_SparseMacRowsQueue : CanIssue (base descTile {}) 0 0 {} (.spmacSa {}) 0 ∧ CanIssue (base descTile {}) 0 0 {} (.spmacSw true {}) 0 ∧
    (∀ d ∈ (List.range 1).map fun k => readDesc descTile.tsp (tbyte 0 + 8 * k), d.ok = true) ∧
    (∃ d ∈ (List.range 1).map fun k => readDesc [] (tbyte 0 + 8 * k), d.ok = false) ∧
    (∀ w ∈ ([{ ecc := .single }] : List WordErr), w.ecc ≠ .double) ∧ (∃ w ∈ ([{ ecc := .double }] : List WordErr), w.ecc = .double) := by
  refine ⟨runs _ _ _ _ rfl rfl rfl rfl, runs _ _ _ _ rfl rfl rfl rfl, ?_, ?_, ?_, ?_⟩ <;> decide +kernel

/-- O19: a hyperparameter record of Beat 1, all else 0, and one of Beat 0. -/
theorem witness_PageRowsQueue : CanIssue (base descTile {}) 0 0 {} (.pgwr {}) 0 ∧ CanIssue (base descTile {}) 0 0 {} (.upd {}) 0 ∧
    (hyperOf (mread [(40, 1)] 0 64)).ok = true ∧ (hyperOf (mread (tileOf (base {} {}) 0).tsp 0 64)).ok = false := by
  refine ⟨runs _ _ _ _ rfl rfl rfl rfl, runs _ _ _ _ rfl rfl rfl rfl, ?_, ?_⟩ <;> decide +kernel

/-- O20: a group of one member, its macro in service and its page port idle; codewords that are corrected, one that is not. -/
theorem witness_PageRead : let x := tileOf (base descTile {}) 0
    CanIssue (base descTile {}) 0 0 {} (.pgrd {}) 0 ∧ (readGroup x.plan 0).mem = [{}] ∧
    (macroOf x (physMacro descTile.ret 0)).portQ = [] ∧ (macroOf x (physMacro descTile.ret 0)).stage = none ∧ outOfService x (physMacro descTile.ret 0) = false ∧
    (∀ y ∈ ([{ ecc := .single }, { ecc := .double }] : List PageErr), eccWrong y.ecc = false) ∧ Ecc.double ∉ [Ecc.single] ∧
    (let y : Tile := { descTile with macros := [(physMacro descTile.ret 0, { stage := some { op := {} } })] }
     ∀ m ∈ (readGroup y.plan 0).mem, (macroOf y (physMacro y.ret m.lm)).stage ≠ none) := by
  refine ⟨runs _ _ _ _ rfl rfl rfl rfl, ?_, rfl, rfl, ?_, ?_, ?_, ?_⟩ <;> decide +kernel

/-- A job with an uncached and a cached region, and a scratchpad bank; bank 1 caches for it, one sector is dirty. -/
def dmaJob : Job := { regions := [{ kind := 2, base := 0, len := 4096 }, { kind := 0, base := 4096, len := 4096 }], banks := [(0, 0, 1)] }
def dmaState : State :=
  { base liveTile dmaJob with fens := [{ banks := [(0, { state := .ready, mode := 1 }), (1, { state := .ready, mode := 2 })] }, {}]
                              cache := [(32, { valid := 1, dirty := 1 })] }

/-- O22, O23: ranges in an uncached region, in a cached one and in a scratchpad bank, and one outside the grant; a channel that
makes a range wait, and a DMA of channel 1 that waits. -/
theorem witness_DmaRows : let r : State := { dmaState with chans := resetChannels.set 0 { slot := 0, retraining := true } }
    let w : State := { dmaState with waits := [{ t := 0, pt := physTile dmaState 0, fn := 0, tag := 1, addr := 0, n := 32, o := { ch := 1 } }] }
    Shape dmaState ∧ (∀ op, CanIssue dmaState 0 0 {} op 0) ∧
    (∀ a ∈ [0, 4096, fenBase], accessFault dmaState 0 a 32 = 0 ∧ ∀ ch, ch < 2 → ∀ fn, fn < 5 → dmaWaits dmaState 0 ch fn a 32 = false) ∧
    placeOf dmaState 0 0 = .memory ∧ placeOf dmaState 0 4096 = .cached 0 ∧ sectorValid dmaState 4096 = true ∧ sectorDirty dmaState 4096 = true ∧
    isFen fenBase = true ∧ waitsAt dmaState 4096 = false ∧ accessFault r 0 0 32 = 0 ∧ dmaWaits r 0 0 0 0 32 = true ∧ dmaWaits w 0 1 3 0 32 = true ∧ dmaWaits w 0 0 3 0 32 = false ∧ accessFault dmaState 0 8192 32 ≠ 0 ∧
    (sectorsOf 4096 32).all (fun k => isFen k || (homeDie dmaState 0 k).isSome) = true ∧
    (sectorsOf 0 32).all (fun k => isFen k || (homeDie dmaState 0 k).isSome) = false := by
  refine ⟨base_shape liveTile dmaJob, fun op => runs liveTile dmaJob {} op rfl rfl rfl rfl, ?_, ?_, ?_, ?_, ?_, ?_, ?_, ?_, ?_, ?_, ?_, ?_, ?_, ?_⟩ <;> decide +kernel

/-- A released tile whose stream 0 has a NOP pending (a word of zeros). -/
def nopTile : Tile := { released := true, entries := 1, streams := [(0, { stopped := false, entry := some 0 })] }

/-- O24, O25: an instruction that may be picked, a free tag; the gates open, and the duty closed; errors of its word; a tile that
is not released. -/
theorem witness_Issue : (∃ p, pick nopTile = some p) ∧ freeTag nopTile = some 0 ∧ nopTile.halted = false ∧ nopTile.released = true ∧
    (∀ k, k < 32 → (streamOf nopTile k).hold = 0 ∧ ∀ n ∈ (streamOf nopTile k).entry, n < nopTile.entries) ∧
    (∀ p ∈ pick nopTile, dutyOpen (base nopTile {}) 0 = true ∧ rampOpen (base nopTile {}) 0 (gatedOp nopTile p.st p.h p.op) = true ∧
      let y := stampSingles 0 (noteSingles { nopTile with err := { nopTile.err with istCe := errAdd nopTile.err.istCe 0 } } 4 0)
      (issueCore (noteIssue (setTile (base nopTile {}) (physTile (base nopTile {}) 0) y) 0 (gatedOp nopTile p.st p.h p.op)) 0 p.st p.h p.op
        (streamOf nopTile p.st).claims {}).2 = []) ∧ ({} : ReadErrs).logic = false ∧ ({ logic := true } : ReadErrs).done = [] ∧ nopTile.fault.valid = false ∧
    dutyOpen { base nopTile {} with bal := { dies := [{ cycles := [(0, 15)] }, {}], duty := 14 } } 0 = false ∧
    (∀ w ∈ ([{ ecc := .single }] : List WordErr), w.ecc = .single) ∧ (∃ w ∈ ([{ ecc := .double }] : List WordErr), w.ecc = .double) ∧
    pick { released := true } = none ∧ ({} : Tile).released = false := by
  refine ⟨Option.isSome_iff_exists.mp (by decide +kernel), ?_, rfl, rfl, ?_, ?_, rfl, rfl, rfl, ?_, ?_, ?_, ?_, rfl⟩ <;> decide +kernel

/-- O26: an UPD that changed one channel's exponent and left another's. -/
theorem witness_UpdCompletion : let f : Flight := { tag := 63, stream := 1, pc := 2, order := 3, h := {}, op := .upd {} }
    let pub (i v : Nat) (c : Bool) : UpdPub := { tag := 63, transposed := false, index := i, val := v, changed := c }
    let x : Tile := { flights := [f], updPub := [pub 3 7 true, pub 3 9 false, pub 4 5 false] }
    flightOf x 63 = some f ∧ f.left = 0 ∧ f.code = 0 ∧ x.fetching = [] ∧ x.wstall = [] ∧ semOf x 0 + sigAt f.h 0 ≤ 0xFFFF ∧
      (∃ q ∈ x.updPub, q.tag = 63 ∧ q.index = 3 ∧ q.changed = true) ∧ (∀ q ∈ x.updPub, q.index = 4 → q.changed = false) := by
  refine ⟨rfl, rfl, rfl, rfl, rfl, ?_, ?_, ?_⟩ <;> decide

/-- O26: an instruction that has ended without a fault, one that has ended with one, one with work left; a line that stalls for
another instruction. -/
theorem witness_Completion : let f : Flight := { tag := 63, stream := 1, pc := 2, order := 3, h := { sig := true }, op := .acmwr {} }
    let x : Tile := { flights := [f], wstall := [{ req := { master := .xmov, line := 0, entry := 4 } }] }
    Shape (base x {}) ∧ flightOf (tileOf (base x {}) 0) 63 = some f ∧ f.left = 0 ∧ (∀ o, f.op ≠ .upd o) ∧
      (∀ q ∈ x.wstall, q.req.entry = f.order → q.req.master = .mesh ∨ q.req.master = .maint) ∧
      semOf x f.h.sem + sigAt f.h f.h.sem ≤ 0xFFFF ∧
      flightOf ({ flights := [{ f with code := 0xFFFF }] } : Tile) 63 = some { f with code := 0xFFFF } ∧
      flightOf ({ flights := [{ f with left := 1 }] } : Tile) 63 = some { f with left := 1 } ∧ flightOf x 0 = none ∧
      faultable (jobOf (base x { state := .loaded }) 0).state = true := by
  refine ⟨base_shape _ _, rfl, rfl, ?_, ?_, ?_, rfl, rfl, rfl, rfl⟩
  · intro o; simp
  · decide
  · decide

/-- O27: lane 0 reaches bank group 1 in cycle 1: a request of XMOV for line 1, none for line 0, a master without a free buffer, and
a posted line. -/
theorem witness_Lanes : let q (n : Nat) : LaneReq := { master := .xmov, line := n }
    (serve readLane 0 (laneGroup 1 0) ([q 1].filter (hasBuffer {}))).1 = some (q 1) ∧
    (serve readLane 0 (laneGroup 1 0) ([q 0].filter (hasBuffer {}))).1 = none ∧
    hasBuffer { fbuf := (List.range 4).map fun k => { q 1 with entry := k } } { q 1 with entry := 4 } = false ∧
    (serve writeLane 0 (laneGroup 1 0) (([{ req := q 9, part := [31] }] : List Posted).map (·.req))).1 = some (q 9) ∧
    (∀ w ∈ ([{ ecc := .single }] : List WordErr), w.ecc = .single) := by
  refine ⟨?_, ?_, ?_, ?_, ?_⟩
  · simp [serve, readLane, laneGroup, hasBuffer]
  · simp [serve, readLane, laneGroup, hasBuffer]
  · decide +kernel
  · simp [serve, writeLane, laneGroup]
  · decide

/-- O27: a line that an issued instruction still fetches, and the first line of a COPY that is pending. -/
theorem witness_Wanted : let q : LaneReq := { master := .xmov, line := 0 }
    wanted { fetching := [q] } q = true ∧ wanted { nopTile with plan := [(istoreOff, 0x22)] } q = true ∧ wanted nopTile q = false ∧
      (serve readLane 0 (laneGroup 0 0) ([q].filter (wanted { fetching := [q] }))).1 = some q := by
  refine ⟨?_, ?_, ?_, ?_⟩ <;> decide +kernel

/-- O28: the last line of a TT from physical tile 1, with a semaphore just below its top; a write buffer with room and one without. -/
theorem witness_MeshArrival : let a : Arrival := { srcTile := 1, srcTag := 5, addr := 256, bytes := [1, 2], last := true, rsem := some 7 }
    let x (n : Nat) : Tile := { arrivals := [a], sems := [(7, 0xFFFE)], wbuf := List.replicate n { req := { master := .mesh, line := 0 } } }
    (tileOf (base (x 15) {}) 0).arrivals = a :: [] ∧ a.srcTile ≠ physTile (base (x 15) {}) 0 ∧ semOf (x 15) 7 < 0xFFFF ∧
      bufferedOf (x 15) .mesh + (arrivalLines (x 15) a).length ≤ 16 ∧ 16 < bufferedOf (x 16) .mesh + (arrivalLines (x 16) a).length := by
  refine ⟨rfl, ?_, ?_, ?_, ?_⟩ <;> decide +kernel

/-! ## The macro, pages and scrubbing (O29 to O37) -/

/-- O29: codes and a zero point at their bounds, a weight of −127. -/
theorem witness_PassResults : let p : Page := { codes := [(0, 0x81)] }
    let j : PassJob := { codes := List.replicate 32 255, z := 255 }
    (∀ i, i < 64 → nth 0 j.codes i < 256) ∧ j.z < 256 ∧ p.wt 0 0 = -127 ∧
      (∀ r, r < 32 → ∀ c, c < p.ncols → (p.wt r c).natAbs ≤ if p.w4 then 7 else 127) := by
  refine ⟨?_, ?_, ?_, ?_⟩ <;> decide +kernel

/-- A flight with one part of its work left. -/
def flightA (tag : Nat) (op : TileInstr) : Flight := { tag := tag, stream := 0, pc := 0, order := 0, h := {}, op := op, left := 1 }

/-- A tile whose macro 71 holds a result in output register B. -/
def regTile (r : OutReg) : Tile := { macros := [(71, { outB := some r })], flights := [flightA 3 (.cpass {})] }

/-- O30: a result that meets its checksum modulo 2^27, and one that does not. -/
theorem witness_AbftCheck : let o : OutReg := { job := { tag := 3 }, res := [5], chk := 5 + 2 ^ 27 }
    (macroOf (regTile o) 71).outB = some o ∧ o.eligible = false ∧ (macroOf (regTile o) 71).frozen = false ∧
      wrap27 (o.res.foldl (· + ·) 0) = wrap27 o.chk ∧ wrap27 (o.res.foldl (· + ·) 0) ≠ wrap27 6 ∧
      flightOf (regTile o) 3 = some (flightA 3 (.cpass {})) ∧ (flightA 3 (.cpass {})).code = 0 := by
  refine ⟨rfl, rfl, rfl, ?_, ?_, rfl, rfl⟩ <;> decide +kernel

/-- O31: a queued pass, a latched one with register A free, with A taken, and with both taken. -/
theorem witness_PassStages : let q : Macro := { passQ := [{ transposed := true }] }
    outOfService { macros := [(71, q)] } 71 = false ∧ q.latched.length < 2 ∧ q.writeAhead 0 0 = false ∧ (pageOf {} 71 0).tied = true ∧
      ({ latched := [{}] } : Macro).outA = none ∧ ({ latched := [{}], outA := some { job := {} } } : Macro).outA ≠ none ∧
      ({ latched := [{}], outA := some { job := {} }, outB := some { job := {} } } : Macro).outB ≠ none := by decide +kernel

/-- O32: one eligible register with its parts, and none; an empty sparse port. -/
theorem witness_AccumTake : let o : OutReg := { job := { tag := 3 }, res := List.replicate 32 1, eligible := true }
    eligibleRegs (regTile o) = [(71, true, o)] ∧ flightOf (regTile o) 3 = some (flightA 3 (.cpass {})) ∧ (∃ ps, alignReg (regTile o) 71 o = some ps ∧ ps ≠ []) ∧
      eligibleRegs {} = [] ∧ ({} : Tile).sparseQ = [] := by
  refine ⟨?_, rfl, ?_, ?_, rfl⟩
  · simp [eligibleRegs, regTile]
  · exact ⟨_, rfl, List.cons_ne_nil _ _⟩
  · simp [eligibleRegs]

/-- O32: a queued part that adds to an open tile, one that opens its tile, one whose tile is not open. -/
theorem witness_AccumEntry : let p : AccPart := { tag := 3, row := 31, scale := 7 }
    let x : Tile := { accQ := [[p]], acm := [(0, { opened := true, rscale := [(31, 7)] })], flights := [flightA 3 (.cpass {})] }
    x.accQ = [p] :: [] ∧ flightOf x 3 = some (flightA 3 (.cpass {})) ∧ (tget {} x.acm 0).opened = true ∧
      (tget 0 (tget {} x.acm 0).rscale 31 = 0 ∨ tget 0 (tget {} x.acm 0).rscale 31 = p.scale) ∧
      (openTile false (List.replicate 32 0xFE) 0).opened = true ∧ (List.replicate 32 0xFE : List Byte).contains 0xFF = false ∧
      (tget 0 (openTile false (List.replicate 32 0xFE) 0).rscale 31 = 0) ∧ (tget {} x.acm 2).opened = false ∧
      (∀ w ∈ ([{ ecc := .single }] : List WordErr), w.ecc = .single) ∧ (∃ w ∈ ([{ ecc := .double }] : List WordErr), w.ecc = .double) ∧
      wrongWords [{ ecc := .double }] = [] := by
  refine ⟨rfl, rfl, rfl, ?_, rfl, ?_, rfl, rfl, ?_, ?_, rfl⟩ <;> decide +kernel

/-- O32: a block exponent above its reference; a row of the path and one of the sparse port in one cycle. -/
theorem witness_AccumTogether : let o : OutReg := { job := { tag := 3 }, res := List.replicate 32 1, eligible := true }
    let p : AccPart := { tag := 3, row := 31, scale := 7 }
    let q : SparsePart := { tag := 4, row := 31, scale := 7, ps := List.replicate 32 1 }
    let x : Tile := { regTile o with pages := [(pageKey 71 0, { exps := [(0, 9)] })], accQ := [[p]], sparseQ := [q], acm := [(0, { opened := true })]
                                     flights := [flightA 3 (.cpass {}), flightA 4 (.spmacSa {})] }
    (pageOf x 71 0).eb 0 = 9 ∧ (nth 0 (jobEref x 3 false 0 0) 0).toNat = 0 ∧ x.accQ = [p] :: [] ∧ x.sparseQ = [q] ∧ q.whole = false ∧ q.bad = false ∧
      q.tile = p.tile ∧ q.row = p.row ∧ p.ovw = false ∧ q.ovw = false ∧ q.scale = p.scale ∧ p.scale ≠ 0 ∧ (∀ c, c < 32 → nth 0 q.ebs c ≤ 0) ∧
      (tget {} x.acm 0).opened = true ∧ tget 0 (tget {} x.acm 0).rscale 31 = 0 ∧ (flightOf x 4).isSome = true := by
  refine ⟨?_, ?_, rfl, rfl, rfl, rfl, rfl, rfl, rfl, rfl, rfl, ?_, ?_, rfl, ?_, rfl⟩ <;> decide +kernel

/-- O33: a row of the sparse port that aligns in an open tile, and one whose exponent lies above the reference. -/
theorem witness_SparsePort : let q (e : Nat) : SparsePart := { tag := 3, ps := List.replicate 32 1, ebs := List.replicate 32 e }
    let x (e : Nat) : Tile := { sparseQ := [q e], acm := [(0, { opened := true })], flights := [flightA 3 (.spmacSa {})] }
    let al (e : Nat) := alignRow 16 (fun c => (mget (tget {} (x e).acm 0).eref c).toNat) (fun c => nth 0 (q e).ebs c) (q e).ps
    (x 0).sparseQ = [q 0] ∧ (q 0).whole = false ∧ (q 0).bad = false ∧ (q 0).ovw = false ∧ flightOf (x 0) 3 = some (flightA 3 (.spmacSa {})) ∧
      (al 0).isSome = true ∧ al 1 = none ∧ (tget {} (x 0).acm 0).opened = true ∧ tget 0 (tget {} (x 0).acm 0).rscale 0 = 0 := by
  refine ⟨rfl, rfl, rfl, rfl, rfl, ?_, ?_, rfl, rfl⟩ <;> decide +kernel

/-- O34: a page write that may start; a staged one that is legal, one that is not, and one whose PGWR has ended. -/
theorem witness_PageWrite : let o : PageWrite := { tag := 3, img := 64 }
    let x (g : Option Staged) : Tile := { macros := [(71, { portQ := if g = none then [o] else [], stage := g })], flights := [flightA 3 (.pgwr {})] }
    nextPort (x none) 71 = some o ∧ (macroOf (x none) 71).stage = none ∧ outOfService (x none) 71 = false ∧ o.upd = false ∧ o.rd = false ∧
      (macroOf (x (some { op := o, codes := List.replicate 1024 0x7F })) 71).stage ≠ none ∧ flightOf (x none) 3 = some (flightA 3 (.pgwr {})) ∧
      (∀ z ∈ (macroOf (x (some { op := o, legal := false })) 71).portQ, z.rd = false) ∧
      groupLegal (x (some { op := o })) 3 = true ∧ groupLegal (x (some { op := o, legal := false })) 3 = false ∧
      deadTag (x none) 3 = false ∧ deadTag {} 3 = true := by
  refine ⟨?_, ?_, ?_, rfl, rfl, ?_, rfl, ?_, ?_, ?_, ?_, ?_⟩ <;> decide +kernel

/-- A tile whose update engine has one page of UPD tag 3 at its page port: channel scales 1.0, a hyperparameter record of Beat 1 at
byte 256; a job that grants its records and gradients. -/
def updPage3 : UpdPage := { tag := 3, o := { hyp := 4 } }
def updTile : Tile :=
  { updQ := [updPage3], macros := [(0, { portQ := [updPage3.write] })], flights := [flightA 3 (.upd {})]
    tsp := ((List.range 32).flatMap fun j => [(4 * j + 2, 0x80), (4 * j + 3, 0x3F)]) ++ [(296, 1)] }
def updJob : Job := { regions := [{ kind := 2, base := 0, len := 4096 }] }

/-- O35: a page that may start, one behind an earlier write, ranges inside and outside the grant, on a channel that waits. -/
theorem witness_UpdPage : let r : State := { base updTile updJob with chans := resetChannels.set 0 { slot := 0, retraining := true } }
    updTile.updQ = updPage3 :: [] ∧ updTile.halted = false ∧ flightOf updTile updPage3.tag = some (flightA 3 (.upd {})) ∧
    updReady updTile updPage3 = true ∧ updReady { updTile with macros := [(0, { stage := some { op := {} } })] } updPage3 = false ∧
    (∀ r ∈ updRanges updTile, dmaWaits (base updTile updJob) 0 2 0 r.1 r.2 = false ∧ accessFault (base updTile updJob) 0 r.1 r.2 = 0) ∧
    (∃ q ∈ updRanges updTile, dmaWaits r 0 2 0 q.1 q.2 = true) ∧ (∃ r ∈ updRanges updTile, accessFault (base updTile {}) 0 r.1 r.2 ≠ 0) := by
  refine ⟨rfl, rfl, rfl, ?_, ?_, ?_, ?_, ?_⟩ <;> decide +kernel

/-- O35: a step that is legal on records of Beat 0 with the CRC of R184, all else 0, and one whose records lack it. -/
theorem witness_UpdResult :
    (updResult updTile updPage3 0 0 fun _ _ => zeros 124 ++ [0x64, 0xD3, 0x1B, 0xD7]).code = 0 ∧ 0 < (updResult updTile updPage3 0 0 fun _ n => zeros n).code := by
  refine ⟨?_, ?_⟩ <;> decide +kernel

/-- O36: rows 31 and 32 of the scrubber, which has its port; a page whose sums are right; a write-back of each kind. -/
theorem witness_Scrubber : let x (sc : Scrub) : Tile := { macros := [(71, { scrub := sc })] }
    Shape (base (x { row := 31 }) { state := .running }) ∧ scrubHasPort (x { row := 31 }) 71 = true ∧ scrubHasPort (x { row := 32 }) 71 = true ∧
      ({ row := 32 } : Scrub).uncorrected = false ∧
      (∀ c, c < ({} : Page).ncols → tget 0 ({} : Page).cols c = ({} : Page).colSum c) ∧ ({} : Page).corner = sumToI 32 ({} : Page).rowSum ∧
      (∀ w ∈ [WbWhat.word 31 3, .rowSum 31, .colSum 63, .corner], ({ scrub := { wb := [{ page := 7, what := w }] } } : Macro).inFlight 7 = false ∧
        scrubHasPort (x { wb := [{ page := 7, what := w }] }) 71 = true) ∧
      faultable (jobOf (base (x {}) { state := .running }) 0).state = true := by
  refine ⟨base_shape _ _, ?_, ?_, ?_, ?_, ?_, ?_, rfl⟩ <;> decide +kernel

/-- O37: a job in SCRUBBING that owes one confirmation of each kind for tile 0. -/
def oweJob : Job := { state := .scrubbing, confirms := [{ pm := 71 }, { kind := 1 }, { kind := 2 }, { pm := 31, kind := 3 }, { pm := 11, kind := 4 }] }

theorem witness_FailingPass : failingPass { frozen := true, outA := some { job := {}, res := [1], chk := 2 } } = some {} ∧ failingPass {} = none ∧
    wrongWords ([] : List WordErr) = [] := by decide +kernel

theorem witness_Confirmation : Shape (base {} oweJob) ∧ (jobOf (base {} oweJob) 0).state = .scrubbing ∧ oweJob.confirms.Nodup ∧
    (∀ d ∈ [{ tile := physTile (base {} oweJob) 0, pm := 71, kind := 0 }, { tile := physTile (base {} oweJob) 0, kind := 1 },
      { tile := physTile (base {} oweJob) 0, kind := 2 }, { pm := 32 * dieOf 0 + 31, kind := 3 }, ({ pm := 11, kind := 4 } : ConfirmDue)],
      d ∈ (jobOf (base {} oweJob) 0).confirms) := by
  refine ⟨base_shape _ _, rfl, ?_, ?_⟩ <;> decide +kernel

/-! ## The Beat, the end of a job and the tick source (O38 to O42) -/

/-- A RUNNING job in a part of its Beat of 1,000 µs, which starts at 5,000 ns: D_n is 985,000 ns. -/
def beatJob (part : Part) (finished : List Nat) : Job := { state := .running, part := part, beatUs := 1000, sn := 5000, finished := finished }

/-- O38: S_n, S_n + 1 µs, and a tile that finishes at D_n; a window declared and one not. -/
theorem witness_BeatBegins : Shape (base nopTile (beatJob .off [])) ∧ TilesApart (base nopTile (beatJob .off [])) ∧
    (jobOf (base nopTile (beatJob .off [])) 0).state = .running ∧ (beatJob .off []).lastBeat = false ∧ (beatJob .off []).sn ≤ 5000 ∧
    (beatJob .guard []).sn + 1000 ≤ 6000 ∧ partOf (base {} {}) 255 = 0 ∧ 255 ∈ tilesOf (base {} {}) 0 ∧
    finished { released := true, streams := [(31, { stopped := false, atBeat := some (3, 0) })] } = true ∧ 985000 ≤ deadline (beatJob .work []) ∧
    255 ∈ windowsOf (base {} {}) 0 ∧ (windowAt { base {} {} with windows := [(255, { declared := true })] } 255).declared = true := by
  refine ⟨base_shape _ _, base_apart _ _, rfl, rfl, ?_, ?_, ?_, ?_, ?_, ?_, ?_, ?_⟩ <;> decide +kernel

/-- O39: at D_n with every tile done and with all late; the slot with and without its records, with a retrain owed and without. -/
theorem witness_BeatCloses : Shape (base {} (beatJob .slot [])) ∧ TilesApart (base {} (beatJob .slot [])) ∧ MemOk (base {} (beatJob .slot [])) ∧
    retrainOwed (base {} (beatJob .slot [])) 0 = false ∧ retrainOwed (base {} { beatJob .slot [] with slotFrom := 10000000 }) 0 = true ∧ deadline (beatJob .work []) ≤ 985000 ∧
    ((tilesOf (base {} {}) 0).filter fun t => !(beatJob .work (List.range 256)).finished.contains t) = [] ∧
    ((tilesOf (base {} {}) 0).filter fun t => !(beatJob .work []).finished.contains t).head? = some 0 ∧
    (beatJob .slot []).nextStart.getD ((beatJob .slot []).sn + beatLen (beatJob .slot [])) ≤ 1005000 ∧
    (beatJob .slot []).slotRecords = false ∧ ({ beatJob .slot [] with slotRecords := true } : Job).slotRecords = true ∧
    retrainingIn (base {} (beatJob .slot [])) 0 = false ∧
    retrainingIn { base {} (beatJob .slot []) with chans := resetChannels.set 47 { slot := 47, retraining := true } } 0 = true := by
  refine ⟨base_shape _ _, base_apart _ _, base_mem _ _, ?_, ?_, ?_, ?_, ?_, ?_, ?_, ?_, ?_, ?_⟩
  case refine_4 => simp [tilesOf, base, State.reset, beatJob]
  all_goals decide +kernel

/-- O39: a ring on a channel that serves nothing more, and on one that works. -/
theorem witness_LostRecord : let s : State := base {} { beatJob .slot [] with ring := { valid := true, depth := 1, nrec := 256 } }
    (jobOf s 0).ring.valid = true ∧ deadAt s (recordAddr s 0 0) = false ∧
      deadAt { s with chans := resetChannels.set 0 { slot := 0, state := 2 } } (recordAddr s 0 0) = true := by
  refine ⟨rfl, ?_, ?_⟩ <;> decide +kernel

/-- O40: the only child of the root has reported; a leaf; releases that lie before the next fixed start and after it. -/
theorem witness_Barrier : let j : Job := { beatJob .work (List.range 256) with elastic := true, gsize := 2, doneFrom := [1], leadNs := 100 }
    Shape (base {} j) ∧ j.state = .running ∧ j.elastic = true ∧ j.part = .work ∧ j.reported = false ∧
      (∀ t ∈ tilesOf (base {} j) 0, t ∈ j.finished) ∧ (∀ c ∈ childrenOf 0 2, c ∈ j.doneFrom) ∧ (∀ c ∈ childrenOf 1 2, c ∈ j.doneFrom) ∧
      900000 + j.leadNs + slotLen j < j.sn + beatLen j ∧ j.sn + beatLen j ≤ 984900 + j.leadNs + slotLen j := by
  refine ⟨base_shape _ _, rfl, rfl, rfl, rfl, by simp [tilesOf, base, State.reset, beatJob], ?_, ?_, ?_, ?_⟩ <;> decide +kernel

/-- O41: the last Beat has ended with a dirty sector in the cache; a job that faulted; a tile and a partition to clear. -/
theorem witness_JobEnds : let s (j : Job) : State := { base {} j with cache := [(5, { dirty := 8, valid := 8 })] }
    Shape (s (beatJob .off [])) ∧ TilesApart (base {} {}) ∧ MemOk (s (beatJob .off [])) ∧ ({ beatJob .off [] with lastBeat := true } : Job).lastBeat = true ∧
      ((tget {} (s {}).cache 5).part = 0 ∧ (tget {} (s {}).cache 5).dirty.getLsbD 3 = true) ∧
      retrainingIn (s {}) 0 = false ∧ waitsAt (s {}) (128 * 5 + 32 * 3) = false ∧ waitsAt (s {}) 0 = false ∧
      deadAt (s {}) (recordAddr (s { ring := { valid := true, base := 64, depth := 1, nrec := 256 } }) 0 255) = false ∧
      (∀ c ∈ oweJob.confirms, c.kind ≤ 2 → c.tile ≠ physTile (base {} oweJob) 1) ∧ scrubbed (base {} { state := .scrubbing }) 0 = true := by
  refine ⟨base_shape {} (beatJob .off []), base_apart _ _, ?_, rfl, ?_, ?_, ?_, ?_, ?_, ?_, ?_⟩
  · refine ⟨rfl, fun d => ?_, ?_, by simp [base, State.reset], rfl⟩
    · rcases d with _ | _ | d <;> rfl
    · decide
  all_goals decide +kernel

/-- O42: the bounds of a measured offset, an ARM that waits for its lock alone, 20 ms without a message, a holdover of 20 ms. -/
theorem witness_TickSource : let j : Job := { state := .loaded, arming := true, tick := { good := 15, lastSync := 7 } }
    let n (off : Int) : Nat := if off.natAbs ≤ 40 then j.tick.good + 1 else 0
    Shape (base {} j) ∧ clockRuns j = true ∧ j.pps = false ∧ 16 ≤ n 40 ∧ n (-41) = 0 ∧ (50 : Int).natAbs ≤ 50 ∧ 50 < (-51 : Int).natAbs ∧
      j.awaiting = [] ∧ j.tick.lastSync + 20000000 ≤ 20000007 ∧ ({ holdover := true, lostAt := 7 } : Tick).lostAt + 20000000 ≤ 20000007 ∧
      clockRuns { state := .idle } = false ∧ (faultable .running = true) ∧ (3 : Fin 4).val ≠ j.tickPort ∧ (0 : Fin 4).val = j.tickPort ∧
      clockRuns { j with pps := true } = true ∧ 7 + 1000000050 ≤ 1000000057 ∧ 2000100000 % 1000000000 = 100000 := by
  refine ⟨base_shape _ _, ?_, ?_, ?_, ?_, ?_, ?_, ?_, ?_, ?_, ?_, ?_, ?_, ?_, ?_, ?_, ?_⟩ <;> decide



/-! ## Causeway (O43 to O47), and PTP on its ports (O42) -/

/-- Port 0 carries job port 0 of partition 0, whose job is `j`. -/
def net (j : Job) : State := { base {} j with ports := { state := 2, mode := 1, assigned := true } :: resetPorts.drop 1 }

/-- O42: a clock that has a best source, the path delay and a Sync to follow up; one that has asked for its delay and may ask again. -/
theorem witness_Ptp : let a : PtpSource := { id := 5, rank := [1], logMin := -4 }
    let x : PtpPort := { sources := [{ id := 6, rank := [2] }, a], seq := 7, waits := true, gap := some 30, path := some 10, asked := some (3, 100), askedAt := some 5 }
    let j : Job := { state := .armed, tick := { ptp := x } }
    x.best = some a ∧ clockRuns j = true ∧ j.pps = false ∧ (0 : Fin 4).val = j.tickPort ∧ (0 : Nat) = j.ptpDomain ∧ physPort (net j) 0 0 = some 0 ∧
      x.waits = true ∧ ({} : PtpPort).best = none ∧ ({ x with path := none } : PtpPort).path = none ∧ x.asked = some (3, 100) ∧
      5 + delayInterval (-4) ≤ 62500005 ∧ ¬ 5 + delayInterval (-4) ≤ 62500004 := by
  refine ⟨?_, ?_, ?_, ?_, ?_, ?_, ?_, ?_, ?_, ?_, ?_, ?_⟩ <;> decide

/-- O43: a frame of another version, type, job or member, a failed check, a partition that takes none, a port without one. -/
theorem witness_FramesDropped : Shape (net { state := .armed }) ∧ ({ ver := 2 } : Frame).ver ≠ 1 ∧ ({ typ := 9 } : Frame).typ ≠ 8 ∧
    ({ crcOk := false } : Frame).crcOk = false ∧ ({ jobId := 1 } : Frame).jobId ≠ (jobOf (net {}) 0).id.toNat ∧
    ({ dst := 1 } : Frame).dst ≠ (jobOf (net {}) 0).member ∧ (portAt (base {} {}) 4).assigned = false ∧
    ¬ ((jobOf (net {}) 0).state = .loaded ∨ (jobOf (net {}) 0).state = .armed ∨ (jobOf (net {}) 0).state = .running) := by
  refine ⟨by unfold Shape; decide, ?_, ?_, ?_, ?_, ?_, ?_, ?_⟩ <;> decide

/-- A WRITE of 64 bytes to window 0 at `woff`, generation 7. -/
def writeTo (woff : Byte) (seq : Nat) (nm : Bool) : Frame :=
  { typ := 1, seq := seq, nm := nm, body := [0, 0, 7, 0, woff, 0, 0, 0], payload := List.replicate 64 1 }

/-- Window 0 is open for generation 7 with 128 bytes at 4096. -/
def open7 (j : Job) : State := { net j with windows := [(0, { declared := true, isOpen := true, base := 4096, len := 4, gen := 7 })] }

/-- O44: a WRITE to the end of its window and each reason to refuse one; the sequence numbers at the ends of their ranges. -/
theorem witness_WriteFrame : let s := open7 { state := .running }
    let w := windowAt s (devWindow s 0 0)
    Shape s ∧ badFrame s 0 (writeTo 2 0 false) 1 = false ∧ ¬ (w.isOpen = false ∨ w.declared = false) ∧ bodyAt (writeTo 2 0 false) 22 2 = w.gen.toNat ∧
      32 * bodyAt (writeTo 2 0 false) 24 4 + 64 ≤ 32 * w.len ∧ 32 * w.len < 32 * bodyAt (writeTo 3 0 false) 24 4 + 64 ∧
      writeWaits s 0 (writeTo 2 0 false) = false ∧ writeWaits { s with chans := resetChannels.set 16 { slot := 16, retraining := true } } 0 (writeTo 2 0 false) = true ∧
      nmOk (writeTo 2 0 true) = false ∧ bodyAt ({ body := [0, 0, 8] } : Frame) 22 2 ≠ w.gen.toNat ∧ (windowAt (net {}) 0).isOpen = false ∧
      fenRefuses s 0 (4096 + 64) 64 = false ∧ (0 + 2 ^ 24 - 0) % 2 ^ 24 = 0 ∧ (2 ^ 23 - 1 + 2 ^ 24 - 0) % 2 ^ 24 < 2 ^ 23 ∧
      2 ^ 23 ≤ (2 ^ 23 + 2 ^ 24 - 0) % 2 ^ 24 := by
  refine ⟨base_shape {} { state := .running }, ?_, ?_, ?_, ?_, ?_, ?_, ?_, ?_, ?_, ?_, ?_, ?_, ?_, ?_⟩ <;> decide +kernel

/-- O44: enough frames wait to pass the threshold, whatever it is; an acknowledgement that must leave. -/
theorem witness_HeldPastThreshold : (∃ fs : List Frame, Config.pfcThreshold < ((fs.filter fun g => decide (g.jport = 0)).map frameLen).sum) ∧
    (0 < ({ run := 8 } : RxFlow).run ∧ 8 ≤ ({ run := 8 } : RxFlow).run) ∧ ({ run := 1, since := 5 } : RxFlow).since + 1000 < 1006 := by
  refine ⟨⟨List.replicate (Config.pfcThreshold + 1) {}, ?_⟩, by decide, by decide⟩
  have h : (List.replicate (Config.pfcThreshold + 1) ({} : Frame)).filter (fun g => decide (g.jport = 0)) = List.replicate (Config.pfcThreshold + 1) {} :=
    List.filter_eq_self.mpr fun g hg => by rw [List.eq_of_mem_replicate hg]; rfl
  rw [h, List.map_replicate, List.sum_replicate, smul_eq_mul, show frameLen {} = 52 from rfl]
  omega

/-- O45: frames of each control type that are taken, two packets of which one is covered, bodies that match. -/
theorem witness_ControlFrames : let j : Job := { beatJob .work [] with gsize := 2, txFlows := [(4, { unacked := [{ seq := 9 }, { seq := 10 }] })] }
    let fl := tget {} j.txFlows (flowKey 1 0)
    Shape (net j) ∧ (∀ t ∈ [2, 3, 4, 5, 6, 7, 8], badFrame (net j) 0 { typ := t, src := 1 } t = false) ∧
      fl.unacked = { seq := 9 } :: [{ seq := 10 }] ∧ (9 + 2 ^ 24 - 9) % 2 ^ 24 < 2 ^ 23 ∧ ¬ (9 + 2 ^ 24 - 10) % 2 ^ 24 < 2 ^ 23 ∧
      fl.unacked.find? (fun q => decide (q.seq = 10)) = some { seq := 10 } ∧ beatMatches j { body := [] } = true ∧ j.nextStart = none ∧
      bodyAt { body := [] } 20 8 = j.planId ∧ 955000 + slotLen j ≤ bodyAt { body := [0, 0, 0, 0] ++ leBytes 8 975000 } 24 8 ∧
      bodyAt { body := [0, 0, 0, 0] ++ leBytes 8 974999 } 24 8 < 955000 + slotLen j ∧ neighbours j = [1] := by
  refine ⟨by unfold Shape; decide, ?_, rfl, ?_, ?_, ?_, ?_, rfl, ?_, ?_, ?_, ?_⟩ <;> decide +kernel

/-- A SEND of 32 bytes to member `peer`. -/
def sendOf (peer : Nat) : Send := { o := { peer := peer }, packets := 1 }

/-- O46: a packet to another member, one to the member itself that is applied and one that is refused, none; the bounds of the
timeouts; an acknowledgement that is due. -/
theorem witness_FlowRows : let j (x : List Send) : Job := { beatJob .work [] with ports := 1, gsize := 2, sends := x }
    Shape (net (j [sendOf 1])) ∧ (nextSend (startSends (net (j [sendOf 1])) 0) 0).isSome = true ∧
      (nextSend (startSends (net (j [sendOf 0])) 0) 0).map (·.o.peer) = some (j []).member ∧ nextSend (startSends (net (j [])) 0) 0 = none ∧
      refusal (open7 (j [])) 0 (writeTo 2 0 false) = 0 ∧ isFen 4160 = false ∧ fenRefuses (open7 (j [])) 0 4160 64 = false ∧ refusal (net (j [])) 0 (writeTo 2 0 false) = 2 ∧
      ({ sentAt := 5 } : Packet).sentAt + 6000 ≤ 6005 ∧
      ([{ sendOf 1 with started := some 5, budget := 18000 }].find? fun x => decide (x.tile = physTile (net {}) 0 ∧ x.tag = 0)).isSome = true ∧
      5 + 18000 ≤ 18005 ∧ ({ ackDue := true } : RxFlow).ackDue = true := by
  refine ⟨by unfold Shape; decide, ?_, ?_, ?_, ?_, ?_, ?_, ?_, ?_, ?_, ?_, rfl⟩ <;> decide +kernel

/-- O47: a neighbour silent for 250 µs on all ports and on one of two; timers at their ends; a priority the port honours;
a port that is down, in training, up. -/
theorem witness_GroupAndPort : let j : Job := { beatJob .work [] with ports := 2, gsize := 2, beatSent := 5, heard := [(4, 6), (5, 7)], table := { n := 2, pcpData := 3 } }
    Shape (net j) ∧ j.state = .running ∧ j.beatSent + 100000 ≤ 100005 ∧ 1 ∈ neighbours j ∧
      (∀ k, k < j.ports → tget 0 j.heard (flowKey 1 k) + 250000 ≤ 250006 + 1) ∧
      tget 0 j.heard (flowKey 1 0) + 250000 ≤ 250005 + 1 ∧ ¬ tget 0 j.heard (flowKey 1 1) + 250000 ≤ 250005 + 1 ∧
      (let a : Job := { state := .loaded, arming := true, awaiting := [1], helloAt := 5, armFrom := 5, armBox := some 7 }
       a.helloAt + 1000000 ≤ 1000005 ∧ a.awaiting ≠ [] ∧ a.armFrom + 10000000000 ≤ 10000000005) ∧
      honours (net j) 0 3 = true ∧ honours (net j) 0 4 = false ∧ honours (net j) 4 3 = false ∧
      (portAt (net j) 0).mode ≠ 0 ∧ (portAt (net j) 4).assigned = false ∧ faultable (jobOf (net j) 0).state = true ∧
      ({ state := 1, trainFrom := 5 } : Port).trainFrom + 500000000 ≤ 500000005 := by
  refine ⟨by unfold Shape; decide, rfl, ?_, ?_, ?_, ?_, ?_, ?_, ?_, ?_, ?_, ?_, rfl, ?_, ?_⟩ <;> decide +kernel

/-! ## The Fen and LPDDR5X (O48, O49) -/

/-- Bank 31 of die 1 in a state, and device memory with one byte. -/
def fenState (j : Job) (b : Bank) : State := { base {} j with fens := [{}, { banks := [(31, b)] }], mem := [(4096, 7)] }

theorem fen_shape (j : Job) (b : Bank) : Shape (fenState j b) := base_shape {} j

theorem fen_mem (j : Job) (b : Bank) : MemOk (fenState j b) := by
  refine ⟨rfl, fun d => ?_, rfl, by simp [fenState, base, State.reset], rfl⟩
  rcases d with _ | _ | d <;> rfl

/-- O48: a tile's request that wins and the migrating write that goes first; a bank that is READY and one that is not; adds, a
sector to fill and to write back, a channel that makes them wait, banks to hand over. -/
theorem witness_FenRows : let rs : List FenReq := [{ master := .mesh, tile := some (256, 3) }, { master := .mesh, tile := some (0, 3) }, { master := .mem }]
    let r : Bank := { state := .ready, mode := 1 }
    let j : Job := { state := .running, regions := [{ kind := 0, base := 0, len := 4096 }] }
    let a : Nat := fenBase + fenDie + 31 * fenBank
    let c : State := { fenState j {} with cache := [(0, { valid := 8, dirty := 8 })], fens := [{ banks := [(0, { state := .ready, mode := 2 })] }, {}] }
    let w : State := { c with chans := resetChannels.set 0 { slot := 0, retraining := true } }
    Shape (fenState j r) ∧ MemOk (fenState j r) ∧
      rs.filter (fenPath (fenState j r) 1) = [{ master := .mesh, tile := some (256, 3) }, { master := .mem }] ∧
      rs.find? (fun x => rs.all fun q => decide (fenRank x.master ≤ fenRank q.master)) = some { master := .mem } ∧
      (bankAt (fenState j r) 1 31).state = .ready ∧ (bankAt (fenState j r) 1 31).mode = 1 ∧ (bankAt (fenState j {}) 1 31).state ≠ .ready ∧
      fenRefuses (fenState j r) 0 a 32 = false ∧ fenRefuses (fenState j {}) 0 a 32 = true ∧ accessWaits (fenState j r) 0 a 32 true false = false ∧
      accessWaits w 0 0 32 true false = true ∧
      (addSector false (tilePeek (fenState j r) 0 a 32) (zeros 32)).isSome = true ∧ addSector false (zeros 32) ([0, 0, 0x80, 0x7F] ++ zeros 28) = none ∧
      placeOf c 0 0 = .cached 0 ∧ chanOf c 0 = some 0 ∧ sectorValid c 0 = false ∧ waitsAt c 0 = false ∧ waitsAt w 96 = true ∧ sectorValid c 96 = true ∧
      sectorDirty c 96 = true ∧ faultable (jobOf c 0).state = true ∧ faultable (jobOf c 1).state = false ∧ partOfAddr c 0 = 0 ∧
      ((chanAt c 0).bad.filter fun y => decide (y = (slotOf c 0).2)).length < 2 ∧
      (bankAt (fenState j { state := .draining, oldMode := 2 }) 1 31).state = .draining ∧ (bankAt (fenState j { state := .clearing }) 1 31).state = .clearing := by
  refine ⟨fen_shape _ _, fen_mem _ _, ?_, ?_, rfl, rfl, ?_, ?_, ?_, ?_, ?_, ?_, ?_, ?_, ?_, ?_, ?_, ?_, ?_, ?_, rfl, rfl, ?_, ?_, rfl, rfl⟩ <;> decide +kernel

/-- O49: a request within one unit and one across two, on a channel that serves and on one that retrains; units with tokens and
without; a retrain that is due, early and late; a patrol; bytes that are AWAITING. -/
theorem witness_MemoryRows : let s := fenState {} {}
    let r : State := { s with chans := resetChannels.set 0 { slot := 0, retraining := true } }
    let x : Channel := { lastRetrain := 5 }
    Shape s ∧ MemOk s ∧ (nextUnit s 0 [{ addr := 0, len := 32 }]).isSome = true ∧ 255 + 2 ≤ memTop ∧ rangeWaits s 255 2 = false ∧ chanOf s 255 = some 0 ∧
      partOfAddr s 256 = partOfAddr s 255 ∧ unitsTouched 0 256 = 1 ∧ unitsTouched 255 2 = 2 ∧ awaitingRuns { s with segs := [(0, .free)] } 0 32 = [] ∧
      ((chanAt s 0).bad.filter fun y => decide (y = (slotOf s 0).2)).length < 2 ∧ (chanAt r 0).retraining = true ∧ chanOf r 0 = some 0 ∧
      works (chanAt s 0) = true ∧ (chanAt s 0).retraining = false ∧ x.lastRetrain + 10000000 ≤ 10000005 ∧
      (let j : Job := { state := .running, part := .slot, slotFrom := 10000005 }
       j.part = .slot ∧ max 0 10000005 = j.slotFrom ∧ ({} : Channel).slotRetrained = false ∧ 10000006 ≠ j.slotFrom) ∧
      x.lastRetrain + 1000000 ≤ 1000005 ∧ 0 < x.lastRetrain ∧ 1000004 < x.lastRetrain + 1000000 ∧ s.waits = [] ∧ (∀ p, p < 2 → (jobOf s p).rxHeld = []) ∧
      midBeat s 0 = false ∧ (chanAt s 0).patrolled < 64 ∧ (chanAt s 51).slot = 0xFF ∧ chanOf s (addrOf s 0 0 0) = some 0 ∧ (chanAt s 0).slot ≠ 0xFF ∧
      byteState { s with segs := [(0, .owned)] } 0 = .owned ∧ deadChan (chanAt s 0) = false ∧ deadChan { state := 3 } = true ∧
      0 ∈ partitions s ∧ byteState s 0 = .awaiting ∧ s.host.waits = [] ∧ (∀ n, n < 5 → (portAt s n).xoff = []) ∧ ({ driftAt := some 5 } : Channel).driftAt.isSome = true := by
  refine ⟨fen_shape _ _, fen_mem _ _, ?_, ?_, ?_, ?_, ?_, ?_, ?_, ?_, ?_, ?_, ?_, ?_, ?_, ?_, ?_, ?_, ?_, ?_, rfl, ?_, ?_, ?_, ?_, ?_, ?_, ?_, ?_, ?_, ?_, ?_, ?_, ?_, ?_⟩ <;> decide +kernel

/-! ## Mailboxes and their commands (O50 to O54) -/

/-- Mailbox 0 holds a command that waits to be taken; all memory is FREE. -/
def boxed (op : BitVec 8) (len : BitVec 9) (pl : Mem) (j : Job) : State :=
  { base {} j with segs := [(0, .free)], host := { mbx := { owner := true, opcode := op, lenIn := len, payload := pl } :: List.replicate 7 {} } }

theorem boxed_shape (op : BitVec 8) (len : BitVec 9) (pl : Mem) (j : Job) : Shape (boxed op len pl j) := by
  refine ⟨rfl, rfl, ?_, rfl, ?_, rfl, ?_, ?_, rfl, rfl⟩ <;> rfl

theorem boxed_apart (op : BitVec 8) (len : BitVec 9) (pl : Mem) (j : Job) : TilesApart (boxed op len pl j) := base_apart {} j

/-- Channel 0 retrains, or serves nothing more. -/
def retrains (s : State) : State := { s with chans := resetChannels.set 0 { slot := 0, retraining := true } }
def deadens (s : State) : State := { s with chans := resetChannels.set 0 { slot := 0, state := 2 } }

/-- O51 to O54: what the commands that move data ask of a range at 0: its channels work, one retrains, one serves nothing more. -/
theorem witness_Ranges : let s := boxed 0x39 32 [] {}
    (∀ n ∈ [1, 32, 64, 192, 352, 512],
      rangeRetrains s 0 n = false ∧ rangeDead s 0 n = false ∧ awaitingRuns s 0 n = [] ∧ rangeRetrains (retrains s) 0 n = true ∧
        rangeRetrains (deadens s) 0 n = false ∧ rangeDead (deadens s) 0 n = true) ∧
      chanOf s 0 = some 0 ∧ byteState s 0 = .free ∧ ((chanAt s 0).bad.filter fun y => decide (y = (slotOf s 0).2)).length < 2 := by
  refine ⟨?_, ?_, ?_, ?_⟩ <;> decide +kernel

/-- `Taken` as a check that evaluates. -/
def takes (s : State) (op : Nat) : Bool :=
  inService s && (mbxAt s 0).owner && (mbxAt s 0).cmd.isNone && decide ((mbxAt s 0).opcode.toNat = op) && !(mustWait s 0 || hostWaits s) &&
    match rowOf op with
    | none => false
    | some r => decide ((mbxAt s 0).lenIn.toNat = r.lenIn) && !(decide (r.scope % 2 = 1) && (mbxAt s 0).part && !s.split) &&
      r.rsvd.all fun z => decide (inp (mbxAt s 0) z.1 z.2 = 0)

theorem taken_of {s : State} {op : Nat} (h : takes s op = true) : Taken s 0 op := by
  unfold takes at h
  split at h
  · simp at h
  · rename_i r hr
    simp only [Bool.and_eq_true, Bool.not_eq_true', Bool.or_eq_false_iff, decide_eq_true_eq, Option.isNone_iff_eq_none, List.all_eq_true] at h
    obtain ⟨⟨⟨⟨⟨h1, h2⟩, h3⟩, h4⟩, h5⟩, ⟨h6, h7⟩, h8⟩ := h
    refine ⟨⟨h1, h2, h3, h4⟩, r, hr, h6, ?_, h5⟩
    rintro (⟨a, b, c⟩ | ⟨z, hz, hne⟩)
    · simp [a, b, c] at h7
    · exact hne (h8 z hz)

/-- O50: each owner of a mailbox, before and in READY; the edges of its fields; an ended command, KILL in IDLE, an opcode
that no row lists; a wrong length, a wrong byte, a wrong partition, a command that waits. -/
theorem witness_MailboxHandshake : let s := boxed 0x30 12 [] {}
    Shape s ∧ inService s = true ∧ barReach s = true ∧ barReach { s with host := { s.host with d3hot := true } } = false ∧ hostWaits s = false ∧ (mbxAt s 0).owner = true ∧ (mbxAt s 1).owner = false ∧ 0x1FC % 4 = 0 ∧ 0x1FC < 0x200 ∧
      inService { s with start := { phase := .starting } } = false ∧ (0x80000000#32).getLsbD 31 = true ∧ (0x7FFFFFFF#32).getLsbD 31 = false ∧
      ({ ended := true, out := [1] } : Cmd).ended = true ∧ (jobOf s (partNamed (mbxAt s 0))).state = .idle ∧
      (rowOf 0x03).isNone = true ∧ boxCmd (.fwStage 0 []) = some (0, 0x30, 0) ∧ Handed s 0 0x30 ∧ selects (.fwStage 0 []) (mbxAt s 0) = true ∧
      (mbxAt (boxed 0x30 13 [] {}) 0).lenIn.toNat ≠ 12 ∧ BadFields (boxed 0x39 32 [(7, 1)] {}) 0 ⟨0x39, 32, [(1, 7)], 0⟩ ∧
      ¬ BadFields (boxed 0x39 32 [(8, 4)] {}) 0 ⟨0x39, 32, [(1, 7)], 0⟩ ∧
      mustWait { s with host := { mbx := { owner := true, opcode := 0x30, lenIn := 12, order := 1 } :: { owner := true, opcode := 0x10 } :: List.replicate 6 {} } } 0 = true := by
  refine ⟨boxed_shape _ _ _ _, ?_, ?_, ?_, ?_, ?_, ?_, ?_, ?_, ?_, ?_, ?_, ?_, ?_, ?_, ?_, ⟨?_, ?_, ?_, ?_⟩, ?_, ?_, ?_, ?_, ?_⟩ <;>
    first | decide | (unfold BadFields; decide)

/-- O51: each command taken; ATTEST at an address of its partition, at one that is not aligned, and past the memory. -/
theorem witness_QueryCommandsAnswer : let s op len pl := boxed op len pl {}
    Shape (s 0x01 0 []) ∧ Taken (s 0x01 0 []) 0 0x01 ∧ Taken (s 0x02 0 []) 0 0x02 ∧ Taken (s 0x14 0 []) 0 0x14 ∧ Taken (s 0x15 0 []) 0 0x15 ∧
      Taken (s 0x20 4 []) 0 0x20 ∧ Taken (s 0x22 2 [(0, 255)]) 0 0x22 ∧ inp (mbxAt (s 0x22 2 [(0, 255)]) 0) 0 2 ≤ 255 ∧
      Taken (s 0x22 2 [(1, 1)]) 0 0x22 ∧ 255 < inp (mbxAt (s 0x22 2 [(1, 1)]) 0) 0 2 ∧ Taken (s 0x21 56 []) 0 0x21 ∧
      (s 0x21 56 []).sec.lifecycle ≠ 2 ∧ inp (mbxAt (s 0x21 56 []) 0) 48 8 % 64 = 0 ∧ inp (mbxAt (s 0x21 56 []) 0) 48 8 + 512 ≤ memTop ∧
      inp (mbxAt (s 0x21 56 []) 0) 48 8 + 512 ≤ memSize (s 0x21 56 []) ∧ inp (mbxAt (s 0x21 56 [(48, 32)]) 0) 48 8 % 64 ≠ 0 ∧
      memTop < inp (mbxAt (s 0x21 56 [(55, 1)]) 0) 48 8 + 512 := by
  refine ⟨boxed_shape _ _ _ _, ?_, ?_, ?_, ?_, ?_, ?_, ?_, ?_, ?_, ?_, ?_, ?_, ?_, ?_, ?_, ?_⟩ <;>
    first | exact taken_of (by decide +kernel) | decide +kernel

theorem boxed_mem (op : BitVec 8) (len : BitVec 9) (pl : Mem) (j : Job) : MemOk (boxed op len pl j) := by
  refine ⟨rfl, fun d => ?_, rfl, by simp [boxed, base, State.reset], rfl⟩
  rcases d with _ | _ | d <;> rfl

/-- A LOAD_PLAN of 64 bytes at 0 with tenant 9. -/
def loadBox (j : Job) : State := boxed 0x10 104 [(8, 64), (28, 9)] j

theorem magic_rejects (s : State) (g : Image) (h : (checkMagic g).isSome = true) : (checkImage s g).isSome = true := by
  obtain ⟨r, hr⟩ := Option.isSome_iff_exists.mp h
  simp [checkImage, hr]

theorem magic_rejects_plan (c : Plan) (h : (checkMagic c.img).isSome = true) : (checkPlan c).isSome = true := by
  obtain ⟨r, hr⟩ := Option.isSome_iff_exists.mp h
  simp [checkPlan, checkImage, hr]

theorem balEvent_stands (s : State) (k : Nat) : (balEvent s k).mem = s.mem ∧ (balEvent s k).start = s.start := by
  unfold balEvent
  dsimp only
  split <;> exact ⟨rfl, rfl⟩

theorem measureMargin_stands (s : State) (d pc n : Nat) : (measureMargin s d pc n).mem = s.mem ∧ (measureMargin s d pc n).start = s.start := by
  unfold measureMargin
  dsimp only
  have bm : ∀ s k, (balEvent s k).mem = s.mem := fun s k => (balEvent_stands s k).1
  have bs : ∀ s k, (balEvent s k).start = s.start := fun s k => (balEvent_stands s k).2
  have rm : ∀ s d, (refreshRails s d).mem = s.mem := fun _ _ => rfl
  have rs : ∀ s d, (refreshRails s d).start = s.start := fun _ _ => rfl
  have dm : ∀ s d f, (modDie s d f).mem = s.mem := fun _ _ _ => rfl
  have ds : ∀ s d f, (modDie s d f).start = s.start := fun _ _ _ => rfl
  split <;> split <;> simp only [bm, bs, rm, rs, dm, ds, and_self]

theorem measureLoad_stands (s : State) (p pc : Nat) : (measureLoad s p pc).mem = s.mem ∧ (measureLoad s p pc).start = s.start := by
  unfold measureLoad
  exact foldl_ind (P := fun u : State => u.mem = s.mem ∧ u.start = s.start) _ _ _ ⟨rfl, rfl⟩ fun u d h =>
    ⟨(measureMargin_stands u d _ _).1.trans h.1, (measureMargin_stands u d _ _).2.trans h.2⟩

/-- O52, LOAD_PLAN: fields that stand and fields that do not, a range in the partition and one outside, an image that the
checker rejects. An image that it admits holds a TILE segment for each of 256 tiles and is not written out. -/
theorem witness_LoadPlan : let s := loadBox {}
    let m := mbxAt s 0
    let w := loadView { s with now := 5 } 0 0 []
    let g : Image := { mem := w.mem, base := 0, size := 64 }
    Shape s ∧ MemOk s ∧ TilesApart s ∧ Taken s 0 0x10 ∧ (jobOf s 0).state = .idle ∧ (jobOf (loadBox { state := .running }) 0).state ≠ .idle ∧
      s.sec.lifecycle ≠ 2 ∧ inp m 28 8 ≠ 0 ∧ inp m 36 1 ≤ 8 ∧ inp m 0 8 % 64 = 0 ∧ inp m 8 8 = 64 ∧ 0 + 64 ≤ memTop ∧ memBase s 0 ≤ 0 ∧ 0 + 64 ≤ memBase s 0 + memSize s ∧
      inp (mbxAt (boxed 0x10 104 [(7, 1), (8, 64), (28, 9)] {}) 0) 0 8 + 64 > memTop ∧ inp (mbxAt (boxed 0x10 104 [(8, 64)] {}) 0) 28 8 = 0 ∧
      inp m 24 2 ≤ g.num 72 2 ∧ (∀ r ∈ namedRanges w 0 g, awaitingRuns w r.1 r.2 = []) ∧ beyondOf w 0 = none ∧ (checkPlan (loadedPlan w 0 0)).isSome = true ∧
      rangeRetrains s 0 64 = false ∧ rangeDead s 0 64 = false ∧ byteState s 0 = .free ∧ chanOf s 0 = some 0 ∧
      ((chanAt s 0).bad.filter fun y => decide (y = (slotOf s 0).2)).length < 2 ∧
      rangeRetrains { s with chans := resetChannels.set 0 { slot := 0, retraining := true } } 0 64 = true := by
  have hw : (loadView { loadBox {} with now := 5 } 0 0 []).mem = [] := (measureLoad_stands _ 0 _).1.trans (by decide +kernel)
  have hs : (loadView { loadBox {} with now := 5 } 0 0 []).start = {} := (measureLoad_stands _ 0 _).2.trans (by decide +kernel)
  refine ⟨boxed_shape _ _ _ _, boxed_mem _ _ _ _, boxed_apart _ _ _ _, taken_of (by decide +kernel), ?_, ?_, ?_, ?_, ?_, ?_, ?_, ?_, ?_, ?_, ?_, ?_, ?_, ?_, by rw [beyondOf, hs]; rfl, ?_, ?_, ?_, ?_, ?_, ?_, ?_⟩
  case refine_14 =>
    rw [hw]
    intro r hr
    rw [namedRanges, if_pos (magic_rejects _ _ (by decide +kernel))] at hr
    exact absurd hr (List.not_mem_nil)
  case refine_15 => exact magic_rejects_plan _ (by show (checkMagic { mem := (loadView { loadBox {} with now := 5 } 0 0 []).mem, base := _, size := _ }).isSome = true; rw [hw]; decide +kernel)
  all_goals decide +kernel

/-- O52, ARM and START: a good table of one member and a bad one; each state and time that START asks about. -/
theorem witness_ArmStart : let a (x : Mem) : State := { boxed 0x11 20 [(8, 192)] { state := .loaded } with mem := x }
    let t (pl : Mem) (j : Job) : State := boxed 0x12 8 pl j
    let j : Job := { state := .armed, tick := { locked := true } }
    let s0 (s : State) : Nat := inp (mbxAt s 0) 0 8
    Taken (a []) 0 0x11 ∧ inp (mbxAt (a []) 0) 0 8 % 64 = 0 ∧ inp (mbxAt (a []) 0) 8 4 = 64 + 128 * 1 ∧ awaitingRuns (a []) 0 192 = [] ∧
      tableBad (a []) 0 (mread (a []).mem 0 192) = true ∧ tableBad (a [(6, 1)]) 0 (mread (a [(6, 1)]).mem 0 192) = false ∧
      contacts (jobOf (a []) 0) = [] ∧ contacts { gsize := 2 } ≠ [] ∧
      Taken (t [(0, 0x40), (1, 0x42), (2, 0x0F)] j) 0 0x12 ∧ s0 (t [(0, 0x40), (1, 0x42), (2, 0x0F)] j) = 0 + 1000000 ∧
      s0 (t [(0, 0x3F), (1, 0x42), (2, 0x0F)] j) < 0 + 1000000 ∧ 0 + 60000000000 < s0 (t [(7, 1)] j) ∧
      overCap (t [] j) 0 600000 = false ∧ overCap (t [] j) 0 600001 = true := by
  refine ⟨?_, ?_, ?_, ?_, ?_, ?_, ?_, ?_, ?_, ?_, ?_, ?_, ?_, ?_⟩ <;> first | exact taken_of (by decide +kernel) | decide +kernel

/-- O52, KILL, RETAIN and RELEASE_RETAINED: jobs that end and that do not; a handle held; pages named and not named. -/
theorem witness_KillRetainRelease : let r (h : Byte) : State :=
      { boxed 0x19 16 [(0, 7), (8, h)] {} with tiles := [(495, { pages := [(0, { tenant := 7, handle := some 5 }), (1, { tenant := 7, handle := some 0 })] })] }
    let named (h : Byte) (g : Page) : Prop := g.tenant = inp (mbxAt (r h) 0) 0 8 ∧ g.handle = some (inp (mbxAt (r h) 0) 8 8)
    Taken (boxed 0x13 0 [] { state := .running }) 0 0x13 ∧ faultable .running = true ∧ Taken (boxed 0x18 0 [] { state := .loaded }) 0 0x18 ∧
      faultable .scrubbing = false ∧ Taken (r 5) 0 0x19 ∧ Taken (r 6) 0 0x19 ∧ (jobOf (r 5) 0).state = .idle ∧
      (∃ t ∈ tilesOf (r 5) 0, ∃ e ∈ (tileOf (r 5) t).pages, named 5 e.2) ∧ (∃ t ∈ tilesOf (r 0) 0, ∃ e ∈ (tileOf (r 0) t).pages, named 0 e.2) ∧ ∀ t ∈ tilesOf (r 6) 0, ∀ e ∈ (tileOf (r 6) t).pages, ¬ named 6 e.2 := by
  refine ⟨?_, ?_, ?_, ?_, ?_, ?_, ?_, ?_, ?_, ?_⟩ <;> first | exact taken_of (by decide +kernel) | decide +kernel

/-- O53, OWNER_KEY: slots 3 and 4; an EMPTY slot in a virgin device with authorisation 0xFF; a slot to revoke with and without
another; enforcement clear and set; a key that is the base point of the curve. A valid signature covers the serial number, a
fused value without a body. -/
theorem witness_OwnerKey : let s (pl : Mem) (x : Security) : State := { boxed 0x23 201 pl {} with sec := x }
    let two : Security := { slots := [{ state := 1 }, { state := 1 }, {}, {}], enforce := true }
    let key : List Byte := 4 :: (beBytes 48 curveG.1 ++ beBytes 48 curveG.2)
    let e := s (mwrite [(1, 3), (200, 0xFF)] 4 key) {}
    validPoint (inpB (mbxAt e 0) 4 97) = true ∧ Shape e ∧ TilesApart e ∧ Taken e 0 0x23 ∧ inp (mbxAt e 0) 0 1 = 0 ∧ inp (mbxAt e 0) 1 1 = 3 ∧ allIdle e = true ∧ inp (mbxAt e 0) 200 1 = 0xFF ∧
      (e.sec.slots.all fun q => decide (q.state = 0)) = true ∧ (nth {} e.sec.slots 3).state = 0 ∧ 3 < inp (mbxAt (s [(1, 4)] {}) 0) 1 1 ∧
      Taken (s [(0, 1)] two) 0 0x23 ∧ inp (mbxAt (s [(0, 1)] two) 0) 0 1 = 1 ∧ (nth {} two.slots 0).state = 1 ∧
      (∃ q, q < 4 ∧ q ≠ 0 ∧ (nth {} two.slots q).state = 1) ∧ (nth {} two.slots 2).state ≠ 1 ∧ Taken (s [(0, 2)] {}) 0 0x23 ∧
      ({} : Security).enforce = false ∧ two.enforce = true := by
  refine ⟨?_, by unfold Shape; decide +kernel, base_apart {} {}, ?_, ?_, ?_, ?_, ?_, ?_, ?_, ?_, ?_, ?_, ?_, ?_, ?_, ?_, ?_, ?_⟩ <;>
    first | exact taken_of (by decide +kernel) | exact ⟨1, by decide⟩ | decide +kernel

/-- O53: the other commands of the device, each taken, at the edges of its fields. -/
theorem witness_DeviceCommands : let f (pl : Mem) : State := boxed 0x30 12 pl {}
    let p (b : Byte) : State := boxed 0x32 1 [(0, b)] {}
    let m (pl : Mem) : State := boxed 0x38 8 pl {}
    Taken (f [(8, 1)]) 0 0x30 ∧ (f []).side.fd = .idle ∧ inp (mbxAt (f [(8, 1)]) 0) 8 4 = 1 ∧ inp (mbxAt (f [(11, 1)]) 0) 8 4 ≤ 2 ^ 24 ∧
      2 ^ 24 < inp (mbxAt (f [(8, 1), (11, 1)]) 0) 8 4 ∧ memTop < inp (mbxAt (f [(7, 1), (8, 1)]) 0) 0 8 + 1 ∧ awaitingRuns (f []) 0 (2 ^ 24) = [] ∧
      352 ≤ 2 ^ 24 ∧ Taken (boxed 0x31 0 [] {}) 0 0x31 ∧
      (let s : State := { base {} {} with start := { phase := .activating }, sec := { staged := some {} } }
       s.start.phase = .activating ∧ s.sec.staged = some {}) ∧
      Taken (p 1) 0 0x32 ∧ inp (mbxAt (p 1) 0) 0 1 = 1 ∧ 1 < inp (mbxAt (p 2) 0) 0 1 ∧ allIdle (p 1) = true ∧
      (∀ n, n < 52 → (chanAt (p 1) n).state ≤ 1) ∧ Taken (m []) 0 0x38 ∧ inp (mbxAt (m []) 0) 0 8 % bar2Size (m []) = 0 ∧
      inp (mbxAt (m [(0, 1)]) 0) 0 8 % bar2Size (m []) ≠ 0 ∧ memTop ≤ inp (mbxAt (m [(7, 1)]) 0) 0 8 ∧ inp (mbxAt (m [(7, 1)]) 0) 0 8 % bar2Size (m []) = 0 := by
  refine ⟨?_, ?_, ?_, ?_, ?_, ?_, ?_, ?_, ?_, ⟨rfl, rfl⟩, ?_, ?_, ?_, ?_, ?_, ?_, ?_, ?_, ?_, ?_⟩ <;>
    first | exact taken_of (by decide +kernel) | decide +kernel

/-- O54: accesses that end at the window's end and pass it; HOST_DMA in each direction, at the ends of its length; one that is
under way and one that has ended. -/
theorem witness_HostReachesMemory : let s (pl : Mem) : State := boxed 0x39 32 pl {}
    let len (s : State) : Nat := inp (mbxAt s 0) 24 8
    Shape (s []) ∧ MemOk (s []) ∧ (s []).host.linkUp = true ∧ inService (s []) = true ∧ (2 ^ 36 - 1) + 1 ≤ bar2Size (s []) ∧
      (s []).host.bar2Base + (2 ^ 36 - 1) + 1 ≤ memTop ∧ ¬ (2 ^ 36 - 1) + 2 ≤ bar2Size (s []) ∧ awaitingRuns (s []) 0 64 = [] ∧
      Taken (s [(24, 32)]) 0 0x39 ∧ len (s [(24, 32)]) = 32 ∧ Taken (s [(28, 1)]) 0 0x39 ∧ len (s [(28, 1)]) = 2 ^ 32 ∧
      2 ^ 32 < len (s [(24, 32), (28, 1)]) ∧ len (s []) < 32 ∧ Taken (s [(0, 1), (24, 32)]) 0 0x39 ∧ inp (mbxAt (s [(0, 1), (24, 32)]) 0) 0 1 = 1 ∧
      memTop < inp (mbxAt (s [(23, 1), (24, 32)]) 0) 16 8 + 32 ∧ ({ moved := 31 } : Cmd).ended = false ∧ 32 ≤ 31 + [(1 : Byte)].length := by
  refine ⟨boxed_shape _ _ _ _, boxed_mem _ _ _ _, ?_, ?_, ?_, ?_, ?_, ?_, ?_, ?_, ?_, ?_, ?_, ?_, ?_, ?_, ?_, ?_, ?_⟩ <;>
    first | exact taken_of (by decide +kernel) | decide +kernel

/-- O54: device memory serves the host, or not; nothing waits but a fill; a channel that retrains alone. -/
theorem witness_HostServed : let s := boxed 0x39 32 [] {}
    s.host.d3hot = false ∧ memServes s = true ∧ memServes { s with start := { phase := .starting } } = false ∧ s.host.waits = [] ∧ s.waits = [] ∧
      (∀ p, p < 2 → (jobOf s p).rxHeld = []) ∧ (chanAt (retrains s) 0).retraining = true ∧ (chanAt (retrains s) 0).waiting = [] ∧
      (∀ i, i < 52 → i ≠ 0 → (chanAt (retrains s) i).retraining = false) ∧ rangeRetrains (retrains s) 0 64 = true ∧ rangeDead (deadens s) 0 64 = true ∧
      (∀ v ∈ [HostWait.fill 0 [] .clean], ∃ i bs e, v = HostWait.fill i bs e) := by
  refine ⟨rfl, ?_, ?_, rfl, rfl, ?_, rfl, rfl, ?_, ?_, ?_, ?_⟩ <;> first | decide +kernel | simp

/-! ## Registers, the link, the sideband, Balance, power and reset (O55 to O60) -/

/-- O55: pairs of each block, at the first and the last of their registers; offsets beside those that take a write. -/
theorem witness_RegisterAccess : let s := State.reset
    s.host.linkUp = true ∧ inService s = true ∧ (∀ off ∈ [0x200010, 0x200410, 0x300010, 0x301FF0, 0x500010], (rsPair s off).isSome = true ∧ off % 4 = 0) ∧
      (∀ off ∈ [0x10FC, 0x1104, 0xFFFC, 0x11000, 0x1FFFC, 0x20008, 0x2FFFC, 0x30400, 2 ^ 25 - 4], off % 4 = 0 ∧ off < 2 ^ 25 ∧
        ∀ k, off ≤ k → k < off + 4 → k / 4 * 4 ≠ 0x1100 ∧ ¬ (0x10000 ≤ k ∧ k < 0x11000) ∧ ¬ (0x20000 ≤ k ∧ k < 0x20008) ∧
          ¬ (0x30000 ≤ k ∧ k < 0x30400)) := by
  refine ⟨rfl, rfl, by decide +kernel, ?_⟩
  intro off h
  simp only [List.mem_cons, List.not_mem_nil, or_false] at h
  rcases h with rfl | rfl | rfl | rfl | rfl | rfl | rfl | rfl | rfl <;> refine ⟨by decide, by decide, fun k h1 h2 => ?_⟩ <;> omega

/-- O56: a cause that is owed and pends, masked and not; the key of DEV_RESET and another; offsets that answer and do not; a link
that is down; a width and a speed that come up. -/
theorem witness_HostRegistersAndLink : let s : State := { base {} { state := .running } with host := { owed := 0x400, irqStatus := 0x400, pba := 2 ^ 63, linkUp := true, msix := [(255, 1)] } }
    Shape s ∧ inService s = true ∧ s.host.owed.getLsbD 10 = true ∧ s.host.irqStatus.getLsbD 10 = true ∧ vectorMasked s 10 = true ∧ vectorMasked s 63 = false ∧
      s.host.pba.getLsbD 63 = true ∧ (0xFFFFFFA5#32).extractLsb' 0 8 = 0xA5 ∧ (0xA4#32).extractLsb' 0 8 ≠ 0xA5 ∧ rsPair s 0x20000 = none ∧
      (2 ^ 25 - 4) % 4 = 0 ∧ 0x10000 + 0x200 * (7 : Fin 8).val + 0x1FC < 2 ^ 25 ∧ ({ linkUp := false } : HostLink).linkUp = false ∧
      (mbxAt (boxed 0x01 0 [] {}) 0).owner = true ∧ 0 ∈ partitions s ∧ faultable (jobOf s 0).state = true ∧
      s.start.phase ≠ .unpowered ∧ s.start.phase ≠ .inReset := by
  refine ⟨by unfold Shape; decide, rfl, ?_, ?_, ?_, ?_, ?_, ?_, ?_, ?_, ?_, ?_, ?_, ?_, ?_, ?_, ?_, ?_⟩ <;> decide +kernel

/-- O57: in service and not; a FW_STAGE under way; each state of the update; a whole image and one that is short; pairs of the BAL_ space. -/
theorem witness_SidebandRows : let s (f : FdState) : State := { base {} {} with side := { fd := f, fdImage := [1, 2], fdSize := 2 } }
    Shape (s .idle) ∧ inService (s .idle) = true ∧ inService { s .idle with start := { phase := .down } } = false ∧
      (∃ m ∈ [({ owner := true, opcode := 0x30, cmd := some {} } : Mailbox)], m.owner = true ∧ m.opcode = 0x30 ∧ m.cmd.isSome = true) ∧ (∀ f ∈ [FdState.learn, .ready, .download, .verify, .apply, .activate], (s f).side.fd ≠ .idle) ∧
      (s .download).side.fdImage.length = (s .download).side.fdSize ∧ ({ asked := [(2, 3)] } : Sideband).asked.getLast? = some (2, 3) ∧ (s .idle).sec.staged = none ∧ ({ staged := some {} } : Security).staged ≠ none ∧
      (∀ off ∈ [0x018, 0x050, 0x058, 0x070, 0x078], (balPair (s .idle).bal off).isSome = true) ∧ ∀ p ∈ partitions (s .idle), (jobOf (s .idle) p).state = .idle := by
  refine ⟨by unfold Shape; decide, rfl, rfl, ⟨_, List.mem_cons_self .., rfl, rfl, rfl⟩, ?_, ?_, ?_, ?_, ?_, ?_, ?_⟩ <;> decide +kernel

/-- O58: the bounds of a cap request, of the temperatures, of a measurement and of the timers; needs that fit and that do not, with a
half to fall back to; rails near their goals and far from them; a droop that lasts; guards that stand and one that is spent. -/
theorem witness_BalanceRows : let s := base {} { state := .running, part := .work }
    let x : Die := { guards := [{ phase := 1, mv := 5, entered := some 5 }, { phase := 2, mv := 30 }], tripped := [31] }
    Shape s ∧ max 300 (min 600 299) = 300 ∧ max 300 (min 600 601) = 600 ∧ (max ((840 : Int)) 0 ≥ 840) ∧ ({ thermal := 14 } : Die).thermal < 15 ∧
      ({ thermalAt := 5 } : Die).thermalAt + 1000000 ≤ 1000005 ∧ (816 : Int) ≤ 816 ∧ 0 < ({ thermal := 1 } : Die).thermal ∧
      x.tripped ≠ [] ∧ (dieAt s 0).tripped = [] ∧ (nth 0 [(-321 : Int)] 0 < -320) ∧ (1200 < nth 0 [(1201 : Int)] 0) ∧
      5 * (100 - 79) > 100 ∧ ¬ 100 < 5 * (100 - 80) ∧ 100 ≤ 99 + 1 ∧ (dieJob s 1).state = .running ∧ (dieJob s 1).part = .work ∧
      (∃ g ∈ x.guards, ∃ e, g.entered = some e ∧ e + 20000 ≤ 20005) ∧ (∀ g ∈ x.guards, ∀ e, g.entered = some e → ¬ e + 20000 ≤ 20004) ∧
      (x.vlogic ≤ x.vnow + 10 ∧ x.vnow ≤ x.vlogic + 10) ∧ ¬ (11 ≤ x.vnow + 10) ∧ s.bal.duty = 15 ∧ ({ duty := 8 } : Balance).duty > 7 ∧
      (List.replicate 48 (250 : Int)).length = 48 ∧ ([250] : List Int).length ≠ 48 := by
  refine ⟨base_shape _ _, ?_, ?_, ?_, ?_, ?_, ?_, ?_, ?_, rfl, ?_, ?_, ?_, ?_, ?_, rfl, rfl, ⟨_, List.mem_cons_self .., 5, rfl, ?_⟩, ?_, ?_, ?_, rfl, ?_, ?_, ?_⟩ <;> decide

/-- O59: each phase that a command asks about; all of start-up ended and one step missing; a slot that verifies and one that does
not; the life cycle's steps; what the debug instructions ask; a fuse write in
progress. A slot that verifies carries the key whose digest is fused, a value without a body. -/
theorem witness_PowerAndStart : let st (x : Startup) : State := { base {} {} with start := x }
    let done : Startup := { phase := .starting }
    Shape (st done) ∧ (st done).start.phase = .starting ∧ done.arraysCleared = true ∧ done.verified = true ∧ done.d2dTrained.length = 12 ∧
      done.lpddrTrained.length = 52 ∧ done.cwyTrained.length = 5 ∧ ({ cwyTrained := [0, 1, 2, 3] } : Startup).cwyTrained.length ≠ 5 ∧
      (done.trstN = false ∧ ({ trstN := true } : Startup).trstN = true) ∧ ({ fuseAt := some (0, [1]) } : Security).fuseAt ≠ none ∧ (base {} {}).host.linkUp = true ∧ ({ pg := false } : Startup).pg = false ∧
      ({ internalReset := true } : Startup).internalReset = true ∧ (base {} {}).start.phase = .ready ∧ (base {} {}).start.pwrEn = true ∧
      ({ lifecycle := 1 } : Security).lifecycle + 1 ≤ 2 ∧ ({ lifecycle := 0, debugDis := false } : Security).debugDis = false ∧
      (portAt (base {} {}) 4).state = 2 ∧ (chanAt (base {} {}) 51).state ≠ 2 ∧ (chanAt (base {} {}) 51).state ≠ 3 ∧ (base {} {}).split = false := by
  refine ⟨by unfold Shape; decide, ?_, ?_, ?_, ?_, ?_, ?_, ?_, ?_, ?_, ?_, ?_, ?_, ?_, ?_, ?_, ?_, ?_, ?_⟩ <;> decide +kernel

/-- O60 has no hypothesis; its offsets are registers. -/
theorem witness_ResetState : regWord State.reset 0x1220 = 0xFFFFFFFF ∧ regWord State.reset 0x20004 = 0x7FF ∧
    balReg State.reset.bal 0x010 = 0x3FF ∧ (balPair State.reset.bal 0x018).isSome = true := by
  refine ⟨?_, ?_, ?_, ?_⟩ <;> decide +kernel

end Sys2Proof.Tests
end

section
/-!
The RS pairs and the read-only registers of BAR0 (R13, R14, R546). What `rsPair` can answer is said once, in
`rsPair_serves`: every pair lies on 8 bytes within BAR0, its latch is 0 where the counters are at their reset values,
and the read of its low word keeps its words, loads its latch and touches nothing that decides whether the host's
reads are served.
-/
namespace Sys2Proof.Machine

/-! ## Reading back what a list holds, in range or not -/

/-- A write of a list lands, or it lies past the end: there the default is read before and after. -/
theorem nth_setAt_or_default (d : α) (l : List α) (i : Nat) (v : α) :
    nth d (setAt l i v) i = v ∨ nth d l i = d ∧ nth d (setAt l i v) i = d := by
  by_cases h : i < l.length
  · exact .inl (nth_setAt d l i v h)
  · exact .inr (by simp [nth, setAt, List.getD, h])

theorem nth_replicate_default (d : α) (n i : Nat) : nth d (List.replicate n d) i = d := by
  simp only [nth, List.getD_eq_getElem?_getD, List.getElem?_replicate]
  split <;> rfl

/-! ## Counters at reset -/

@[simp] theorem readLow_default : ({} : Stat).readLow = {} := rfl

theorem nth_setAt_readLow (l : List Stat) (k : Nat) :
    nth {} (setAt l k (nth {} l k).readLow) k = (nth {} l k).readLow := by
  rcases nth_setAt_or_default {} l k (nth {} l k).readLow with h | ⟨hl, h⟩
  · exact h
  · rw [h, hl, readLow_default]

/-- The counters and numbers of the RS pairs are at their reset values. -/
structure PairsAtReset (s : State) : Prop where
  jobs : ∀ p, jobOf s p = {}
  memParts : ∀ p, nth {} s.memParts p = {}
  ports : ∀ n, (portAt s n).txf = {} ∧ (portAt s n).rxf = {} ∧ (portAt s n).fecc = {} ∧ (portAt s n).pause = {}
  windows : ∀ w, windowAt s w = {}
  fens : ∀ d, fenOf s d = {}
  tiles : ∀ pt, (tileAt s pt).stat = {}

theorem pairsAtReset_reset : PairsAtReset State.reset where
  jobs := nth_replicate_default _ 2
  memParts := nth_replicate_default _ 2
  ports n := by
    match n with
    | 0 | 1 | 2 | 3 | 4 | _ + 5 => exact ⟨rfl, rfl, rfl, rfl⟩
  windows _ := rfl
  fens := nth_replicate_default _ 2
  tiles _ := rfl

theorem Resets.pairsAtReset {s u : State} (h : Resets s u) : PairsAtReset u := by
  obtain ⟨hjobs, hfens, hwindows, -, -, -, hparts, -, hports, -, -, -, -, htiles, -⟩ := h
  exact
    { jobs := fun p => by rw [jobOf, hjobs]; exact nth_replicate_default _ 2 p
      memParts := fun p => by rw [hparts]; exact nth_replicate_default _ 2 p
      ports := fun n => by rw [hports]; exact ⟨rfl, rfl, rfl, rfl⟩
      windows := fun w => by rw [windowAt, hwindows]; rfl
      fens := fun d => by rw [fenOf, hfens]; exact nth_replicate_default _ 2 d
      tiles := fun pt => by rw [htiles] }

/-! ## Places that hold the pairs -/

/-- A place of the state that `put` writes and `get` reads back, or that is not there and reads as `d`; a write of it
touches neither the host link, nor start-up, nor the setting. -/
structure Holder (s : State) (d : β) (get : State → β) (put : State → β → State) : Prop where
  readBack : ∀ v cpl bs, get (answer (put s v) cpl bs) = v ∨ get s = d ∧ get (answer (put s v) cpl bs) = d
  host : ∀ v, (put s v).host = s.host
  start : ∀ v, (put s v).start = s.start
  split : ∀ v, (put s v).split = s.split

variable (s : State)

theorem Holder.job (p : Nat) : Holder s {} (jobOf · p) (setJob · p) where
  readBack v _ _ := nth_setAt_or_default _ s.jobs p v
  host _ := rfl
  start _ := rfl
  split _ := rfl

theorem Holder.memPart (p : Nat) :
    Holder s {} (fun s => nth {} s.memParts p) (fun s m => { s with memParts := setAt s.memParts p m }) where
  readBack v _ _ := nth_setAt_or_default _ s.memParts p v
  host _ := rfl
  start _ := rfl
  split _ := rfl

theorem Holder.port (n : Nat) : Holder s {} (portAt · n) (fun s c => modPort s n fun _ => c) where
  readBack v _ _ := nth_setAt_or_default _ s.ports n v
  host _ := rfl
  start _ := rfl
  split _ := rfl

theorem Holder.fen (d : Nat) : Holder s {} (fenOf · d) (setFen · d) where
  readBack v _ _ := nth_setAt_or_default _ s.fens d v
  host _ := rfl
  start _ := rfl
  split _ := rfl

theorem Holder.window (w : Nat) : Holder s {} (windowAt · w) (setWindow · w) where
  readBack v _ _ := .inl (tget_tset _ s.windows w v)
  host _ := rfl
  start _ := rfl
  split _ := rfl

/-- The statistics of the physical tile that serves a logical tile. -/
theorem Holder.tileStat (t : Nat) : Holder s {} (fun s => (tileAt s (physTile s t)).stat)
    (fun s c => modTile s (physTile s t) fun y => { y with stat := c }) where
  readBack v _ _ := .inl (congrArg Tile.stat (tileAt_modTile s (physTile s t) fun y => { y with stat := v }))
  host _ := rfl
  start _ := rfl
  split _ := rfl

/-! ## What a pair's register serves -/

/-- What holds of a pair that `f` answers: `A` of its offset, a latch of 0 at reset, and, once the low word is read, a
state in which the pair stands with its latch loaded, and in which the host's reads are served as before. -/
structure Served (f : State → Option Pair) (s : State) (A : Prop) (q : Pair) : Prop where
  offset : A
  latchAtReset : PairsAtReset s → q.latch = 0
  host : q.after.host = s.host
  start : q.after.start = s.start
  split : q.after.split = s.split
  loads : ∀ cpl bs, ∃ q', f (answer q.after cpl bs) = some q' ∧ q'.low = q.low ∧ q'.high = q.high ∧ q'.latch = q.high

/-- Every pair that `f` answers in a state is served. -/
def Serves (f : State → Option Pair) (s : State) (A : Prop) : Prop := ∀ q, f s = some q → Served f s A q

variable {s} {f g : State → Option Pair} {A B : Prop}

theorem Serves.none : Serves (fun _ => .none) s A := by
  intro q hq
  cases hq

theorem Serves.imp (h : Serves f s A) (hAB : A → B) : Serves f s B := fun q hq =>
  { h q hq with offset := hAB (h q hq).offset }

theorem Serves.ite {c : Prop} [Decidable c] (hf : c → Serves f s A) (hg : ¬ c → Serves g s A) :
    Serves (fun s => if c then f s else g s) s A := by
  by_cases hc : c
  · simpa only [hc, if_true] using hf hc
  · simpa only [hc, if_false] using hg hc

/-- A condition that only the setting decides guards a pair. -/
theorem Serves.guard {c : State → Bool} (hc : ∀ u : State, u.split = s.split → c u = c s)
    (hf : c s = true → Serves f s A) : Serves (fun s => if c s then f s else .none) s A := by
  intro q hq
  obtain ⟨hcs, hq⟩ := Option.ite_none_right_eq_some.mp hq
  have h := hf hcs q hq
  have hafter (cpl : Nat) (bs : List Byte) : c (answer q.after cpl bs) = true :=
    (hc (answer q.after cpl bs) h.split).trans hcs
  exact { h with loads := by simpa only [hafter, if_true] using h.loads }

theorem setExists_of_split {s u : State} (p : Nat) (h : u.split = s.split) : setExists u p = setExists s p := by
  rw [setExists, setExists, h]

/-- A counter within a place is a pair that serves. -/
theorem Holder.serves_statPair {d : β} {get : State → β} {put : State → β → State} (h : Holder s d get put)
    (c : β → Stat) (w : β → Stat → β) (offset : A) (reset : PairsAtReset s → c (get s) = {})
    (hw : ∀ b, c (w b (c b).readLow) = (c b).readLow := by intros; rfl) (hd : c d = {} := by rfl) :
    Serves (fun s => some (statPair (c (get s)) fun v => put s (w (get s) v))) s A := by
  rintro _ ⟨⟩
  refine ⟨offset, fun hr => ?_, h.host _, h.start _, h.split _, fun cpl bs => ⟨_, rfl, ?_⟩⟩
  · simp only [statPair, reset hr]
  · have hread : c (get (answer (put s (w (get s) (c (get s)).readLow)) cpl bs)) = (c (get s)).readLow := by
      rcases h.readBack (w (get s) (c (get s)).readLow) cpl bs with hv | ⟨hs, hv⟩
      · rw [hv, hw]
      · rw [hv, hs, hd, readLow_default]
    simp only [statPair, hread]
    exact ⟨rfl, rfl, rfl⟩

/-- A number with a latch of its own within a place is a pair that serves. -/
theorem Holder.serves_wordPair {d : β} {get : State → β} {put : State → β → State} (h : Holder s d get put)
    (c : β → BitVec 48) (l : β → BitVec 32) (w : β → BitVec 32 → β) (offset : A) (reset : PairsAtReset s → l (get s) = 0)
    (hc : ∀ b x, c (w b x) = c b := by intros; rfl) (hl : ∀ b x, l (w b x) = x := by intros; rfl)
    (hd : c d = 0 ∧ l d = 0 := by exact ⟨rfl, rfl⟩) :
    Serves (fun s => some (wordPair (c (get s)) (l (get s)) fun x => put s (w (get s) x))) s A := by
  rintro _ ⟨⟩
  refine ⟨offset, reset, h.host _, h.start _, h.split _, fun cpl bs => ⟨_, rfl, ?_⟩⟩
  simp only [wordPair]
  rcases h.readBack (w (get s) (BitVec.ofNat 32 ((c (get s)).toNat / 2 ^ 32))) cpl bs with hv | ⟨hs, hv⟩
  · rw [hv, hc, hl]
    exact ⟨rfl, rfl, rfl⟩
  · rw [hv, hs, hd.1, hd.2]
    exact ⟨rfl, rfl, rfl⟩

/-- The next read reaches the device as the first did. -/
theorem Served.barReach {q : Pair} (h : Served f s A q) (cpl : Nat) (bs : List Byte) :
    barReach (answer q.after cpl bs) = barReach s := by
  simp only [Machine.barReach, answer, h.host]

theorem Served.inService {q : Pair} (h : Served f s A q) (cpl : Nat) (bs : List Byte) :
    inService (answer q.after cpl bs) = inService s := by
  simp only [Machine.inService, answer, h.start]

/-! ## The blocks of BAR0 that hold pairs -/

theorem devPair_serves (p x : Nat) : Serves (devPair · p x) s (x % 8 = 0) :=
  .ite (fun hx => (Holder.job s p).serves_wordPair Job.beat Job.beatLatch (fun j l => { j with beatLatch := l })
      (by omega) fun h => by rw [h.jobs]) fun _ =>
  .ite (fun hx => (Holder.job s p).serves_statPair Job.early (fun j c => { j with early := c })
      (by omega) fun h => by rw [h.jobs]) fun _ => .none

theorem memPair_serves (p x : Nat) : Serves (memPair · p x) s (x % 8 = 0) :=
  .ite (fun hx => (Holder.memPart s p).serves_statPair MemPart.forced (fun m c => { m with forced := c })
      (by omega) fun h => by rw [h.memParts]) fun _ =>
  .ite (fun hx => (Holder.memPart s p).serves_statPair (fun m => nth {} m.units ((x - 0x10) / 8))
      (fun m c => { m with units := setAt m.units ((x - 0x10) / 8) c }) (by omega)
      (fun h => by rw [h.memParts]; exact nth_replicate_default _ 4 _) (fun m => nth_setAt_readLow m.units _)
      (nth_replicate_default _ 4 _)) fun _ => .none

theorem portPair_serves (n x : Nat) : Serves (portPair · n x) s (x % 8 = 0) :=
  .ite (fun hx => (Holder.port s n).serves_statPair Port.txf (fun y c => { y with txf := c })
      (by omega) fun h => (h.ports n).1) fun _ =>
  .ite (fun hx => (Holder.port s n).serves_statPair Port.rxf (fun y c => { y with rxf := c })
      (by omega) fun h => (h.ports n).2.1) fun _ =>
  .ite (fun hx => (Holder.port s n).serves_statPair Port.fecc (fun y c => { y with fecc := c })
      (by omega) fun h => (h.ports n).2.2.1) fun _ =>
  .ite (fun hx => (Holder.port s n).serves_statPair Port.pause (fun y c => { y with pause := c })
      (by omega) fun h => (h.ports n).2.2.2) fun _ => .none

theorem cwyPair_serves (p x : Nat) : Serves (cwyPair · p x) s (x % 8 = 0) :=
  .ite (fun hx => (Holder.job s p).serves_statPair Job.retx (fun j c => { j with retx := c })
      (by omega) fun h => by rw [h.jobs]) fun _ =>
  .ite (fun hx => (Holder.job s p).serves_statPair Job.ece (fun j c => { j with ece := c })
      (by omega) fun h => by rw [h.jobs]) fun _ => .none

theorem fenPair_serves (d x : Nat) : Serves (fenPair · d x) s (x % 8 = 0) :=
  .ite (fun hx => (Holder.fen s d).serves_statPair Fen.confMem (fun f c => { f with confMem := c })
      (by omega) fun h => by rw [h.fens]) fun _ =>
  .ite (fun hx => (Holder.fen s d).serves_statPair Fen.confD2d (fun f c => { f with confD2d := c })
      (by omega) fun h => by rw [h.fens]) fun _ =>
  .ite (fun hx => (Holder.fen s d).serves_statPair Fen.confMesh (fun f c => { f with confMesh := c })
      (by omega) fun h => by rw [h.fens]) fun _ =>
  .ite (fun hx => (Holder.fen s d).serves_statPair Fen.hit (fun f c => { f with hit := c })
      (by omega) fun h => by rw [h.fens]) fun _ =>
  .ite (fun hx => (Holder.fen s d).serves_statPair Fen.miss (fun f c => { f with miss := c })
      (by omega) fun h => by rw [h.fens]) fun _ => .none

theorem tilePair_serves (t x : Nat) : Serves (tilePair · t x) s (x % 8 = 0) :=
  .ite (fun hx => (Holder.tileStat s t).serves_statPair TileStat.updXch (fun y c => { y with updXch := c })
      (by omega) fun h => by rw [h.tiles]) fun _ =>
  .ite (fun hx => (Holder.tileStat s t).serves_statPair TileStat.saSave (fun y c => { y with saSave := c })
      (by omega) fun h => by rw [h.tiles]) fun _ =>
  .ite (fun hx => (Holder.tileStat s t).serves_statPair TileStat.saStall (fun y c => { y with saStall := c })
      (by omega) fun h => by rw [h.tiles]) fun _ =>
  .ite (fun hx => (Holder.tileStat s t).serves_statPair (fun y => nth {} y.tspc ((x - 0x380) / 8))
      (fun y c => { y with tspc := setAt y.tspc ((x - 0x380) / 8) c }) (by omega)
      (fun h => by rw [h.tiles]; exact nth_replicate_default _ 6 _) (fun y => nth_setAt_readLow y.tspc _)
      (nth_replicate_default _ 6 _)) fun _ =>
  .ite (fun hx => (Holder.tileStat s t).serves_statPair TileStat.issued (fun y c => { y with issued := c })
      (by omega) fun h => by rw [h.tiles]) fun _ =>
  .ite (fun hx => (Holder.tileStat s t).serves_statPair TileStat.flagged (fun y c => { y with flagged := c })
      (by omega) fun h => by rw [h.tiles]) fun _ => .none

/-- What `rsPair` can answer, along the blocks of BAR0. -/
theorem rsPair_serves (off : Nat) : Serves (rsPair · off) s (off % 8 = 0 ∧ off < 2 ^ 25) :=
  have hset (p : Nat) : ∀ u : State, u.split = s.split → setExists u p = setExists s p := fun _ => setExists_of_split p
  .ite (fun ho => .guard (hset _) fun _ => (devPair_serves _ _).imp (by omega)) fun _ =>
  .ite (fun ho => .guard (hset _) fun _ => (memPair_serves _ _).imp (by omega)) fun _ =>
  .ite (fun ho => (portPair_serves _ _).imp (by omega)) fun _ =>
  .ite (fun ho => .guard (hset _) fun _ => (cwyPair_serves _ _).imp (by omega)) fun _ =>
  .ite (fun ho => .ite (fun hx => (Holder.window s _).serves_statPair Window.appl (fun y c => { y with appl := c })
      (by omega) fun h => by rw [h.windows]) fun _ => .none) fun _ =>
  .ite (fun ho => (fenPair_serves _ _).imp (by omega)) fun _ =>
  .ite (fun ho => .guard (c := fun s => setExists s ((off - 0x500000) / 0x100) && decide (off % 0x100 = 0x10))
      (fun u hu => by rw [hset _ u hu]) fun hx => (Holder.job s _).serves_wordPair (fun j => j.ring.head)
        (fun j => j.ring.latch) (fun j l => { j with ring := { j.ring with latch := l } })
        (by simp only [Bool.and_eq_true, decide_eq_true_eq] at hx; omega) fun h => by rw [h.jobs]) fun _ =>
  .ite (fun ho => (tilePair_serves _ _).imp (by omega)) fun _ => .none

theorem rsPair_offset {off : Nat} {q : Pair} (h : rsPair s off = some q) : off % 8 = 0 ∧ off < 2 ^ 25 :=
  (rsPair_serves off q h).offset

/-- No pair begins at another's high word. -/
theorem rsPair_high {off : Nat} {q : Pair} (h : rsPair s off = some q) : rsPair s (off + 4) = none := by
  have hoff := (rsPair_offset h).1
  refine Option.eq_none_iff_forall_ne_some.mpr fun q' h' => ?_
  have hoff' := (rsPair_offset h').1
  omega

/-- The high word of a pair reads as its latch. -/
theorem regWord_high {off : Nat} {q : Pair} (h : rsPair s off = some q) : regWord s (off + 4) = q.latch := by
  simp only [regWord, rsPair_high h, Nat.le_add_left, if_true, Nat.add_sub_cancel, h]

/-! ## Reads of BAR0 -/

/-- An access of 4 or 8 aligned bytes of BAR0 that reaches the device is no Unsupported Request (R447). -/
theorem access_accepted {off size : Nat} (hreach : barReach s = true) (hsize : size = 4 ∨ size = 8)
    (halign : off % size = 0) (hoff : off < 2 ^ 25) : s.host.linkUp = true ∧
      ¬ (s.host.d3hot = true ∨ (size ≠ 4 ∧ size ≠ 8) ∨ off % size ≠ 0 ∨ 2 ^ 25 < off + size) := by
  obtain ⟨hlink, hd3⟩ : s.host.linkUp = true ∧ s.host.d3hot = false := by simpa [barReach] using hreach
  simp only [hlink, hd3, Bool.false_eq_true, false_or, true_and]
  rcases hsize with rfl | rfl <;> omega

/-- A read that reaches the device, aligned and within BAR0, is answered by `bar0Read`. -/
theorem exec_rsLowRead {off size : Nat} (hreach : barReach s = true) (hsize : size = 4 ∨ size = 8)
    (halign : off % size = 0) (hoff : off < 2 ^ 25) :
    exec (.rsLowRead off size) s = .next (answer (bar0Read s off (decide (size = 8))).1 0
      ((bar0Read s off (decide (size = 8))).2.flatMap fun w => leBytes 4 w.toNat)) := by
  obtain ⟨hlink, hok⟩ := access_accepted hreach hsize halign hoff
  change execRsLowRead off size s = _
  simp only [execRsLowRead, hlink, Bool.not_true, Bool.false_eq_true, if_false, hok]

/-- The low word, or both words at once, with the latch loaded. -/
theorem bar0Read_low {off : Nat} {q : Pair} (wide : Bool) (hserv : inService s = true) (h : rsPair s off = some q) :
    bar0Read s off wide = (q.after, if wide then [q.low, q.high] else [q.low]) := by
  simp [bar0Read, hserv, h]

theorem exec_read_low {off : Nat} {q : Pair} (hreach : barReach s = true) (hserv : inService s = true)
    (h : rsPair s off = some q) :
    exec (.rsLowRead off 4) s = .next (answer q.after 0 (leBytes 4 q.low.toNat)) := by
  have hoff := rsPair_offset h
  rw [exec_rsLowRead hreach (.inl rfl) (by omega) (by omega), bar0Read_low _ hserv h]
  simp

theorem exec_read_pair {off : Nat} {q : Pair} (hreach : barReach s = true) (hserv : inService s = true)
    (h : rsPair s off = some q) :
    exec (.rsLowRead off 8) s = .next (answer q.after 0 (leBytes 4 q.low.toNat ++ leBytes 4 q.high.toNat)) := by
  have hoff := rsPair_offset h
  rw [exec_rsLowRead hreach (.inr rfl) hoff.1 (by omega), bar0Read_low _ hserv h]
  simp

/-- The high word alone gives the latch as it stands and moves nothing. -/
theorem exec_read_high {off : Nat} {q : Pair} (hreach : barReach s = true) (hserv : inService s = true)
    (h : rsPair s off = some q) :
    exec (.rsLowRead (off + 4) 4) s = .next (answer s 0 (leBytes 4 q.latch.toNat)) := by
  have hoff := rsPair_offset h
  rw [exec_rsLowRead hreach (.inl rfl) (by omega) (by omega)]
  simp [bar0Read, hserv, rsPair_high h, regWord_high h]

/-! ## Writes of BAR0 (R14) -/

/-- An offset of BAR0 that a host write changes: DEV_RESET, the mailboxes, IRQ_STATUS and IRQ_MASK, the MSI-X table. -/
def Writable (off : Nat) : Prop :=
  off = 0x1100 ∨ (0x10000 ≤ off ∧ off < 0x11000) ∨ (0x20000 ≤ off ∧ off < 0x20008) ∨ (0x30000 ≤ off ∧ off < 0x30400)

theorem bar0Write_readOnly (s : State) {off : Nat} (v : BitVec 32) (h : ¬ Writable off) : bar0Write s off v = s := by
  simp only [Writable, not_or] at h
  obtain ⟨hreset, hmbx, hirq, hmsix⟩ := h
  have hstatus : off ≠ 0x20000 := by omega
  have hmask : off ≠ 0x20004 := by omega
  simp only [bar0Write, hreset, hmbx, hstatus, hmask, hmsix, if_false, ite_self]

theorem exec_registerWrite_readOnly {off size : Nat} (v : BitVec 64) (hreach : barReach s = true)
    (hsize : size = 4 ∨ size = 8) (halign : off % size = 0) (hoff : off < 2 ^ 25) (hlow : ¬ Writable off)
    (hhigh : size = 8 → ¬ Writable (off + 4)) : exec (.registerWrite off size v) s = .next s := by
  obtain ⟨hlink, hok⟩ := access_accepted hreach hsize halign hoff
  change execRegisterWrite off size v s = _
  simp only [execRegisterWrite, hlink, Bool.not_true, Bool.false_eq_true, if_false, hok]
  split
  · rename_i h8
    rw [bar0Write_readOnly s _ (hhigh h8), bar0Write_readOnly s _ hlow]
  · rw [bar0Write_readOnly s _ hlow]

/-! ## The obligation -/

/-- Settles O55: the reads from what a pair serves (`rsPair_serves`), the writes from the offsets that BAR0 writes reach. -/
theorem registerAccess : Obligations.RegisterAccess := by
  refine ⟨fun s off q hreach hserv _ hq => ?_, fun off q hq => ?_, fun s u hu off q hq => ?_,
    fun s off size v hreach hsize halign hoff hro => ?_⟩
  · have hs := rsPair_serves off q hq
    obtain ⟨q', hq', hlow, hhigh, hlatch⟩ := hs.loads 0 (leBytes 4 q.low.toNat)
    refine ⟨exec_read_high hreach hserv hq, _, exec_read_low hreach hserv hq, rfl, rfl,
      ⟨q', hq', hlow, hhigh, hlatch⟩, ?_, fun _ => exec_read_pair hreach hserv hq⟩
    rw [← hlatch]
    exact exec_read_high ((hs.barReach _ _).trans hreach) ((hs.inService _ _).trans hserv) hq'
  · exact (rsPair_serves off q hq).latchAtReset pairsAtReset_reset
  · exact (rsPair_serves off q hq).latchAtReset hu.pairsAtReset
  · have hlow := hro off le_rfl (by omega)
    refine exec_registerWrite_readOnly v hreach hsize halign hoff ?_ fun h8 => ?_
    · unfold Writable; omega
    · have hhigh := hro (off + 4) (by omega) (by omega)
      unfold Writable; omega

end Sys2Proof.Machine
end

section
/-!
The results of a pass (R80, R84). A page's stored sums are those of its codes, so the zero-point term that a pass takes
from them, −z·Σw, turns Σq·w into Σ(q − z)·w exactly; each of its factors is bounded, and so is the sum.
-/
namespace Sys2Proof.Machine

/-! ## Sums of an integer function -/

theorem sumToI_eq_sum (n : Nat) (f : Nat → Int) : sumToI n f = ∑ i ∈ Finset.range n, f i := by
  induction n with
  | zero => rfl
  | succ n ih =>
    rw [Finset.sum_range_succ, ← ih]
    simp [sumToI, List.range_succ]

theorem natAbs_sumToI_le {n b : Nat} {f : Nat → Int} (h : ∀ i, i < n → (f i).natAbs ≤ b) :
    (sumToI n f).natAbs ≤ n * b := by
  rw [sumToI_eq_sum]
  calc (∑ i ∈ Finset.range n, f i).natAbs
      ≤ ∑ i ∈ Finset.range n, (f i).natAbs := Int.natAbs_sum_le _ _
    _ ≤ (Finset.range n).card • b := Finset.sum_le_card_nsmul _ _ _ fun i hi => h i (Finset.mem_range.mp hi)
    _ = n * b := by simp

/-- A constant subtracted from each factor leaves the sum as that constant times the sum of the weights. -/
theorem neg_mul_sumToI_add (n : Nat) (z : Int) (q w : Nat → Int) :
    -z * sumToI n w + sumToI n (fun i => q i * w i) = sumToI n fun i => (q i - z) * w i := by
  simp only [sumToI_eq_sum, Finset.mul_sum, ← Finset.sum_add_distrib]
  exact Finset.sum_congr rfl fun i _ => by ring

/-! ## Reading a list and the table of a list -/

theorem nth_map_range (d : α) (f : Nat → α) {n i : Nat} (h : i < n) : nth d ((List.range n).map f) i = f i := by
  simp [nth, h]

theorem tblOf_append_singleton [DecidableEq α] (d : α) (l : List α) (v : α) :
    tblOf d (l ++ [v]) = tblOf d l ++ if v = d then [] else [(l.length, v)] := by
  have hzip : (List.range (l ++ [v]).length).zip (l ++ [v]) = (List.range l.length).zip l ++ [(l.length, v)] := by
    rw [List.length_append, List.length_singleton, List.range_succ, List.zip_append (by simp)]
    rfl
  rw [tblOf, hzip, List.filter_append]
  by_cases hv : v = d <;> simp [tblOf, hv]

theorem key_lt_of_mem_tblOf [DecidableEq α] {d : α} {l : List α} {e : Nat × α} (h : e ∈ tblOf d l) : e.1 < l.length := by
  obtain ⟨hzip, -⟩ := List.mem_filter.mp h
  exact List.mem_range.mp (List.of_mem_zip hzip).1

theorem tget_tblOf [DecidableEq α] (d : α) (l : List α) (k : Nat) : tget d (tblOf d l) k = nth d l k := by
  induction l using List.reverseRecOn with
  | nil => rfl
  | append_singleton l v ih =>
    rw [tblOf_append_singleton]
    by_cases hk : k = l.length
    · have habsent : ∀ e ∈ tblOf d l, e.1 ≠ k := fun e he => by have := key_lt_of_mem_tblOf he; omega
      rw [tget_append _ _ _ _ habsent, hk]
      by_cases hv : v = d <;> simp [hv, tget, nth]
    · have hother : ∀ e ∈ if v = d then [] else [(l.length, v)], e.1 ≠ k := by
        intro e he
        split at he
        · simp at he
        · obtain rfl := List.mem_singleton.mp he
          exact Ne.symm hk
      rw [tget_append_left _ _ _ _ hother, ih]
      simp only [nth, List.getD_eq_getElem?_getD, List.getElem?_append, List.getElem?_singleton]
      split
      · rfl
      · rw [if_neg (by omega), List.getElem?_eq_none (by omega)]

/-! ## The stored sums of a page (R72) -/

@[simp] theorem Page.resum_ncols (p : Page) : p.resum.ncols = p.ncols := rfl

@[simp] theorem Page.resum_wt (p : Page) : p.resum.wt = p.wt := rfl

theorem Page.resum_rows (p : Page) {r : Nat} (h : r < 32) : tget 0 p.resum.rows r = p.rowSum r :=
  (tget_tblOf _ _ _).trans (nth_map_range 0 p.rowSum h)

theorem Page.resum_cols (p : Page) {c : Nat} (h : c < p.ncols) : tget 0 p.resum.cols c = p.colSum c :=
  (tget_tblOf _ _ _).trans (nth_map_range 0 p.colSum h)

/-! ## The results of a pass -/

/-- The sum Σ(q − z)·w of a pass's first `n` codes over the weights that they meet. -/
def PassJob.exactSum (j : PassJob) (n : Nat) (w : Nat → Int) : Int := sumToI n fun i => (j.code i - (j.z : Int)) * w i

/-- A CPASS result sums over the 32 rows (R80). -/
theorem nth_passResults_cpass (p : Page) {j : PassJob} (hj : j.transposed = false) {c : Nat} (hc : c < p.ncols) :
    nth 0 (passResults p.resum j).1 c = j.exactSum 32 fun r => p.wt r c := by
  simp only [passResults, hj, Bool.false_eq_true, if_false, Page.resum_ncols, Page.resum_wt]
  rw [nth_map_range 0 _ hc, p.resum_cols hc]
  exact neg_mul_sumToI_add _ _ _ _

/-- A TPASS result sums over the page's columns (R84). -/
theorem nth_passResults_tpass (p : Page) {j : PassJob} (hj : j.transposed = true) {r : Nat} (hr : r < 32) :
    nth 0 (passResults p.resum j).1 r = j.exactSum p.ncols fun c => p.wt r c := by
  simp only [passResults, hj, if_true, Page.resum_ncols, Page.resum_wt]
  rw [nth_map_range 0 _ hr, p.resum_rows hr]
  exact neg_mul_sumToI_add _ _ _ _

/-- Codes and zero point are bytes, so each difference is at most 255 in magnitude. -/
theorem PassJob.natAbs_exactSum_le {j : PassJob} (hq : ∀ i, nth 0 j.codes i < 256) (hz : j.z < 256) {n b : Nat}
    {w : Nat → Int} (hw : ∀ i, i < n → (w i).natAbs ≤ b) : (j.exactSum n w).natAbs ≤ n * (255 * b) := by
  refine natAbs_sumToI_le fun i hi => ?_
  have hdiff : (j.code i - (j.z : Int)).natAbs ≤ 255 := by
    have := hq i
    simp only [PassJob.code, Int.ofNat_eq_natCast]
    omega
  rw [Int.natAbs_mul]
  exact Nat.mul_le_mul hdiff (hw i hi)

theorem fits24_of_natAbs_le {x : Int} (h : x.natAbs ≤ 1036320) : -2 ^ 23 ≤ x ∧ x < 2 ^ 23 := by
  omega

/-- Settles O29: a result is the exact sum of the pass over a column or a row, which its factors bound. -/
theorem passResultsExact : Obligations.PassResultsExact := by
  intro p j hq hz hw
  refine ⟨fun hj c hc => ?_, fun hj r hr => ?_⟩
  · have hsum := nth_passResults_cpass p hj hc
    have hbound := PassJob.natAbs_exactSum_le hq hz fun r hr => hw r c hr hc
    rw [← hsum] at hbound
    have hmax : (nth 0 (passResults p.resum j).1 c).natAbs ≤ if p.w4 then 57120 else 1036320 := by
      split_ifs at hbound ⊢ <;> exact hbound
    exact ⟨hsum, hmax, fits24_of_natAbs_le (hmax.trans (by split_ifs <;> decide))⟩
  · have hsum := nth_passResults_tpass p hj hr
    have hbound := PassJob.natAbs_exactSum_le hq hz fun c hc => hw r c hr hc
    rw [← hsum, Page.ncols] at hbound
    have hmax : (nth 0 (passResults p.resum j).1 r).natAbs ≤ if p.w4 then 114240 else 1036320 := by
      split_ifs at hbound ⊢ <;> exact hbound
    exact ⟨hsum, hmax, fits24_of_natAbs_le (hmax.trans (by split_ifs <;> decide))⟩

end Sys2Proof.Machine
end
